-- ==== Sys2Proof/Word.lean ====
section
/-! DEFINITION. The word types of the FD632: bytes of the link and management lines, 16-bit words, 12-bit sequence numbers. -/

namespace Sys2Proof

/-- A byte of an input link or of the management line (11 R187). -/
abbrev Byte := BitVec 8

/-- A 16-bit word: a sample word, a counter, a generation, a playout word (11 R187, R198). -/
abbrev Word := BitVec 16

/-- A sequence number, 0..4095; sums and differences are modulo 4096 (00, Conventions). -/
abbrev Seq := BitVec 12

end Sys2Proof
end

