-- ==== Sys2Proof/Syntax.lean ====
section
/-! DEFINITION. The configuration records of the FD632 (01 R2, 08 R143) and its commands: one constructor of Instr per row of spec/opcode_table.json. -/

namespace Sys2Proof

/-- A path is the frames of one stream arriving on one link: path A on Link A, path B on Link B (00). -/
inductive Path where
  | a
  | b
  deriving DecidableEq, Repr

/-- A stream's index, 0..31. -/
abbrev StreamIdx := Fin 32

/-- How a stream stops when ENABLE goes from 1 to 0 (01 R2, field 1). -/
inductive StopMode where
  | drain
  | cut
  deriving DecidableEq, Repr

/-- Which links may carry the stream (01 R2, field 8). -/
inductive Paths where
  | merge
  | aOnly
  | bOnly
  deriving DecidableEq, Repr

/-- Payload of substitute records (01 R2, field 13). -/
inductive Subst where
  | zero
  | repeatLast
  | mark
  deriving DecidableEq, Repr

/-- The members of a stream's NOTICE_MASK (01 R5). -/
structure StreamMask where
  streamState : Bool
  pathState   : Bool
  resync      : Bool
  saturated   : Bool
  deriving DecidableEq, Repr

/-- A stream record: the fields of 01 R2 in field-number order. -/
structure StreamRecord where
  enable      : Bool
  stopMode    : StopMode
  tag         : Byte
  words       : Nat
  window      : Nat
  trim        : Nat
  hold        : Nat
  divisor     : Nat
  paths       : Paths
  gapWait2    : Nat
  gapWait1    : Nat
  pathSilence : Nat
  stallLimit  : Nat
  subst       : Subst
  noticeMask  : StreamMask
  deriving DecidableEq, Repr

/-- Source of cadence ticks (08 R143, field 0). -/
inductive CadenceSource where
  | internal
  | external
  deriving DecidableEq, Repr

/-- The members of DEVICE_NOTICE_MASK (08 R143, field 3). -/
structure DeviceMask where
  linkState   : Bool
  cadence     : Bool
  committed   : Bool
  editExpired : Bool
  deriving DecidableEq, Repr

/-- The device record: the fields of 08 R143 in field-number order. NOMINAL_INTERVAL is in µs, EDIT_WINDOW in ms. -/
structure DeviceRecord where
  cadenceSource   : CadenceSource
  nominalInterval : Nat
  editWindow      : Nat
  noticeMask      : DeviceMask
  deriving DecidableEq, Repr

/-- The blocks that create notices and offer them to the Notice Unit (10 R176): a Link Receiver, a Stream Context,
the Cadence Controller, the Configuration Controller (which also offers all the notices of a commit, 08 R148), and the Playout
Port (which offers the notices of the PORT_DROP counts of its rounds, 06 R120). -/
inductive Block where
  | link (x : Path)
  | stream (i : StreamIdx)
  | cadence
  | config
  | port
  deriving DecidableEq, Repr

/-- The commands: one constructor per row of spec/opcode_table.json, in the table's order. The table gives no operands;
these are the model's, from each row's rule. -/
inductive Instr where
  /-- POWER_ON (01 R23): supplies rise; the strap levels of RATE1 and RATE0 are sampled (09 R158). -/
  | powerOn (rate1 rate0 : Bool)
  /-- HARD_RESET (00 R1): RESET_N is held low and released; the straps are sampled at the release (09 R158). -/
  | hardReset (rate1 rate0 : Bool)
  /-- LINK_BYTE (07 R123): Link Receiver `x` takes one received byte. -/
  | linkByte (x : Path) (byte : Byte)
  /-- LINK_SILENCE (07 R131): the silence timer of link `x` reaches 1 ms. -/
  | linkSilence (x : Path)
  /-- LINK_DEPARTURE_REPORT (04 R77): stream context `i` takes link `x`'s leaving-UP report. -/
  | linkDepartureReport (x : Path) (i : StreamIdx)
  /-- ARRIVAL (03 R33): stream context `i` takes the oldest frame that link `x` delivered to it. -/
  | arrival (x : Path) (i : StreamIdx)
  /-- CADENCE_EDGE (06 R102): a rising CADENCE edge, `us` µs on the reference clock after the part's last event (log 7). -/
  | cadenceEdge (us : Nat)
  /-- CADENCE_LOSS (06 R102): the loss timer reaches 2I in EXT_OK. -/
  | cadenceLoss
  /-- GENERATOR_TICK (06 R101): the internal generator produces a tick, or a fill tick in EXT_LOST. -/
  | generatorTick
  /-- STREAM_TICK (04 R63): stream context `i` takes its next cadence tick. -/
  | streamTick (i : StreamIdx)
  /-- PATH_ABSENT (04 R75): the silence count of path `x` of stream `i` reaches P. -/
  | pathAbsent (i : StreamIdx) (x : Path)
  /-- GAP_TIMER_EXPIRY (04 R64): the gap timer of stream `i` reaches 0. -/
  | gapTimerExpiry (i : StreamIdx)
  /-- PLAYOUT_EVENT (06 R109): the playout phase of stream `i` wraps to 0. -/
  | playoutEvent (i : StreamIdx)
  /-- STALL (06 R114): the underrun run of stream `i` reaches S. -/
  | stall (i : StreamIdx)
  /-- GUARD_EXPIRY (05 R89): the straggler guard of stream `i` reaches 0 at a playout event. -/
  | guardExpiry (i : StreamIdx)
  /-- PLAYOUT_ROUND (06 R120): the Playout Port places the oldest tick's offered records. -/
  | playoutRound
  /-- WORD_TRANSFER (06 R121): the consumer takes the presented word. -/
  | wordTransfer
  /-- MGMT_BYTE (09 R159): a character arrives on the management line; `stop` says whether its stop bit was found (09 R158). -/
  | mgmtByte (byte : Byte) (stop : Bool)
  /-- BYTE_GAP_EXPIRY (09 R160): the byte-gap timer passes 5 ms within a frame. -/
  | byteGapExpiry
  /-- GOOD_FRAME_REPORT (10 R184): the Notice Unit takes the report of a good management frame. -/
  | goodFrameReport
  /-- IDENTIFY (09 R166): the Request Controller takes an IDENTIFY request at the head of its buffer. -/
  | identify
  /-- READ_STREAM (09 R167). -/
  | readStream
  /-- READ_COUNTERS (01 R22). -/
  | readCounters
  /-- READ_LINK (07 R136). -/
  | readLink
  /-- READ_DEVICE (09 R168). -/
  | readDevice
  /-- READ_MGMT (09 R169). -/
  | readMgmt
  /-- OPEN_EDIT (08 R141). -/
  | openEdit
  /-- STAGE_STREAM (08 R142). -/
  | stageStream
  /-- STAGE_DEVICE (08 R143). -/
  | stageDevice
  /-- COMMIT_EDIT (08 R146). -/
  | commitEdit
  /-- DISCARD_EDIT (08 R144). -/
  | discardEdit
  /-- EDIT_EXPIRY (08 R145): the edit timer reaches 0. -/
  | editExpiry
  /-- FORCE_RESYNC (05 R92). -/
  | forceResync
  /-- ACK_NOTICE (10 R181). -/
  | ackNotice
  /-- RESTART (09 R170). -/
  | restart
  /-- UNKNOWN_KIND (09 R163): the Request Controller takes a request whose KIND is no request kind. -/
  | unknownKind
  /-- TRANSMISSION_COMPLETE (09 R165): the Transmitter completes its frame and chooses the next. -/
  | transmissionComplete
  /-- RETRY_EXPIRY (10 R183): the retry timer reaches 0. -/
  | retryExpiry
  /-- NOTICE_OFFER (10 R178): the Notice Unit takes the oldest notice that `block` created and offered. -/
  | noticeOffer (block : Block)
  deriving DecidableEq, Repr

end Sys2Proof
end

