-- ==== Sys2Proof/Decode.lean ====
section
/-! DEFINITION. The host's reading of a table word. No row of spec/opcode_table.json gives bits (every row's fields are empty), so no word spells a command. -/

namespace Sys2Proof

/-- The command that a word spells by the table's bits: none, since no row of the table gives any. -/
def decodeTableWord (_nbits _w : Nat) : Option Instr := none

end Sys2Proof
end

