-- ==== Sys2Proof/Config.lean ====
section
/-! DEFINITION. What the FD632 fixes: its sizes, its times on the reference clock and its codes. The spec leaves no result value open, so no free value stands here. -/

namespace Sys2Proof.Config

/-- The Sample Store holds 512 slots (02 R24). -/
def slots : Nat := 512
/-- The port FIFO holds at most 16 records (06 R119). -/
def fifoDepth : Nat := 16
/-- The request buffer holds at most 4 good request frames (09 R161). -/
def requestDepth : Nat := 4
/-- The reply queue holds at most 4 replies (09 R162). -/
def replyDepth : Nat := 4
/-- The notice queue holds at most 32 entries (10 R175). -/
def noticeDepth : Nat := 32
/-- At most 4 notices are in flight (10 R175, R179). -/
def inFlightLimit : Nat := 4
/-- The release history covers the 64 positions below E (01 R10). -/
def historyDepth : Nat := 64
/-- A straggler guard is created with remaining count 64 (05 R84, R87). -/
def guardLife : Nat := 64
/-- The least distance of the behind class (03 R42). -/
def behindFrom : Nat := 4032

/-- The link silence timer's limit: 1 ms, in µs (07 R131). -/
def silenceLimit : Nat := 1000
/-- The byte-gap timer's limit: 5 ms, in µs (09 R160). -/
def byteGapLimit : Nat := 5000
/-- The retry timer's start value: 250 ms, in µs (10 R180). -/
def retryStart : Nat := 250000
/-- The greatest age kept of the previous CADENCE edge, in µs: one past twice the greatest NOMINAL_INTERVAL, so past every 2I (06 R103; log 7, DESIGN CHOICE). -/
def edgeAgeCap : Nat := 20001

/-- The part code of the FD632 (11 R195). -/
def partCode : Word := 0x0632
/-- The revision of the part (11 R195). -/
def revision : Byte := 0x01

end Sys2Proof.Config
end

