-- ==== Sys2Proof/Machine/State.lean ====
section
/-! DEFINITION. The state of the FD632: every piece of state the spec gives its blocks, the hand-offs between blocks that are under way, and the queue of commands; and the state right after power-on. -/

namespace Sys2Proof.Machine

/-! ## Counters -/

/-- A 16-bit counter and its saturated mark (00, Counters). -/
structure Counter where
  value : Word
  mark  : Bool
  deriving DecidableEq, Repr

/-- A counter after a clear: 0 with its mark cleared (00, Counters). -/
def Counter.zero : Counter := ⟨0, false⟩

/-! ## Stream contexts -/

/-- The six stream states (01 R6). -/
inductive StreamState where
  | off
  | acquire
  | priming
  | running
  | stalled
  | draining
  deriving DecidableEq, Repr

/-- The causes of a STREAM_STATE notice (01 R7). -/
inductive Cause where
  | enabled
  | reconfigured
  | disabled
  | locked
  | primed
  | stall
  | resumed
  | reacquire
  | forced
  | drained
  deriving DecidableEq, Repr

/-- What happened to a position as E passed it (01 R10). -/
inductive Passed where
  | real
  | substituted
  | none
  deriving DecidableEq, Repr

/-- An entry of the reorder window: sequence number, Q, and the words of its Sample Store slot (01 R9; log 9). -/
structure WindowEntry where
  seq   : Seq
  q     : Bool
  words : List Word
  deriving DecidableEq, Repr

/-- The acquisition candidate: sequence number, Q and one slot (01 R11). -/
structure AcqCandidate where
  seq   : Seq
  q     : Bool
  words : List Word
  deriving DecidableEq, Repr

/-- The jump candidate: sequence number, path, Q and one slot (01 R12). -/
structure JumpCandidate where
  seq   : Seq
  path  : Path
  q     : Bool
  words : List Word
  deriving DecidableEq, Repr

/-- The straggler guard: prior base and remaining count 1..64 (01 R13). -/
structure Guard where
  prior     : Seq
  remaining : Nat
  deriving DecidableEq, Repr

/-- Path presence (01 R16). A PRESENT path carries its silence count; an ABSENT path's count is the P in force (04 R75). -/
inductive Presence where
  | unused
  | absent
  | present (silence : Nat)
  deriving DecidableEq, Repr

/-- An entry of the playout queue (01 R17): REAL with its slot, or SUBST. -/
inductive QueueEntry where
  | real (seq : Seq) (q : Bool) (words : List Word)
  | subst (seq : Seq)
  deriving DecidableEq, Repr

/-- One stream context: its state, drain record, runtime parts (01 R8 to R18) and 24 counters (01 R21).
The window is kept in ascending distance from E (log 27); `history` lists E-1 first. -/
structure Stream where
  state    : StreamState
  drain    : Option StreamRecord
  base     : Option Seq
  window   : List WindowEntry
  history  : List Passed
  acq      : Option AcqCandidate
  jump     : Option JumpCandidate
  guard    : Option Guard
  timer    : Option Nat
  pathA    : Presence
  pathB    : Presence
  queue    : List QueueEntry
  run      : Nat
  last     : Option (List Word)
  phase    : Option Nat
  counters : Vector Counter 24
  deriving DecidableEq, Repr

/-- A history of all NONE (01 R10). -/
def historyNone : List Passed := List.replicate Config.historyDepth Passed.none

/-- An OFF context, with its counters 0 (01 R19, R23). -/
def Stream.reset : Stream :=
  { state := .off, drain := none, base := none, window := [], history := historyNone, acq := none, jump := none,
    guard := none, timer := none, pathA := .unused, pathB := .unused, queue := [], run := 0, last := none,
    phase := none, counters := Vector.replicate 24 Counter.zero }

/-! ## Frames, ticks and the playout port -/

/-- The items a good link frame yields (07 R127) less its tag: what an arrival carries (03 R33). -/
structure Frame where
  seq     : Seq
  q       : Bool
  restart : Bool
  words   : List Word
  deriving DecidableEq, Repr

/-- A frame handed to a stream context and not yet taken there (07 R132). -/
structure Delivery where
  path   : Path
  stream : StreamIdx
  frame  : Frame
  deriving DecidableEq, Repr

/-- A playout record (06 R119). -/
inductive PlayRecord where
  | real (i : StreamIdx) (seq : Seq) (q : Bool) (words : List Word)
  | subst (i : StreamIdx) (seq : Seq) (words : List Word)
  | idle (i : StreamIdx)
  | ended (i : StreamIdx)
  deriving DecidableEq, Repr

/-- A cadence tick under way: the contexts that have still to take it, and the records its playout events have offered,
in ascending stream index (06 R107, R120). -/
structure Tick where
  waiting : List StreamIdx
  offered : List PlayRecord
  deriving DecidableEq, Repr

/-- The Playout Port: its FIFO, head first, and the word position reached within the head record (06 R119). -/
structure Port where
  fifo : List PlayRecord
  pos  : Nat
  deriving DecidableEq, Repr

/-! ## The Cadence Controller -/

/-- The cadence states (06 R100). -/
inductive CadenceState where
  | internal
  | extOk
  | extLost
  deriving DecidableEq, Repr

/-- The Cadence Controller (06 R100). Times are in µs: `generator` is the time to the next tick while it runs, `loss` the
time elapsed while the loss timer runs, `edgeAge` the age of the previous edge. -/
structure Cadence where
  state     : CadenceState
  interval  : Nat
  generator : Option Nat
  loss      : Option Nat
  edgeAge   : Option Nat
  restore   : Nat
  deriving DecidableEq, Repr

/-! ## Link Receivers -/

/-- The link states (07 R123). -/
inductive LinkState where
  | down
  | hunt
  | up
  deriving DecidableEq, Repr

/-- A Link Receiver's framing position (07 R123, R124): SEEKING, with whether the byte just taken while SEEKING was B4h,
or within a frame with the bytes received since its sync. -/
inductive LinkPos where
  | seeking (b4 : Bool)
  | inFrame (got : List Byte)
  deriving DecidableEq, Repr

/-- A Link Receiver (07 R123). `silence` is the µs elapsed while the silence timer runs. -/
structure LinkRx where
  state    : LinkState
  silence  : Option Nat
  pos      : LinkPos
  goodRun  : Nat
  badRun   : Nat
  counters : Vector Counter 6
  deriving DecidableEq, Repr

/-- A Link Receiver after power-on (07 R137). -/
def LinkRx.reset : LinkRx :=
  { state := .down, silence := none, pos := .seeking false, goodRun := 0, badRun := 0,
    counters := Vector.replicate 6 Counter.zero }

/-! ## Notices -/

/-- The kinds of reset (00, Resets). -/
inductive ResetCause where
  | powerOn
  | hard
  | restart
  deriving DecidableEq, Repr

/-- The causes of a resynchronisation (10 R176). -/
inductive ResyncCause where
  | jump
  | restartFlag
  deriving DecidableEq, Repr

/-- What a CADENCE notice carries (10 R176). -/
inductive CadenceEvent where
  | lost
  | restored
  deriving DecidableEq, Repr

/-- The source of a COUNTER_SATURATED notice (10 R176). -/
inductive CounterSource where
  | stream (i : StreamIdx)
  | link (x : Path)
  deriving DecidableEq, Repr

/-- A notice's kind and body (10 R176). -/
inductive Notice where
  | started (cause : ResetCause)
  | linkState (x : Path) (st : LinkState)
  | pathState (i : StreamIdx) (x : Path) (present : Bool)
  | streamState (i : StreamIdx) (st : StreamState) (cause : Cause)
  | resync (i : StreamIdx) (old new : Seq) (cause : ResyncCause)
  | cadence (e : CadenceEvent)
  | committed (generation : Word)
  | editExpired
  | counterSaturated (src : CounterSource) (counter : Nat)
  | noticesLost (count : Word)
  deriving DecidableEq, Repr

/-- A notice created and offered by a block, not yet taken by the Notice Unit (10 R177). `report` is the link whose leaving-UP
report made it, for a PATH_STATE notice made so (04 R77). -/
structure Offer where
  block  : Block
  notice : Notice
  report : Option Path
  deriving DecidableEq, Repr

/-- A notice offered by a block, made by no leaving-UP report. -/
def Offer.own (b : Block) (n : Notice) : Offer := ⟨b, n, none⟩

/-- An entry of the notice queue: its number, kind and body (10 R175). -/
structure NoticeEntry where
  number : Byte
  notice : Notice
  deriving DecidableEq, Repr

/-- The Notice Unit (10 R175). The in-flight entries are the first `inFlight` of the queue; `pointer` is the place in the
queue of the entry at the send pointer; `retryTimer` is the µs remaining while the retry timer runs. -/
structure NoticeUnit where
  queue      : List NoticeEntry
  nextNumber : Byte
  inFlight   : Nat
  pointer    : Option Nat
  retryTimer : Option Nat
  retryCount : Nat
  quiet      : Bool
  lost       : Word
  deriving DecidableEq, Repr

/-- The Notice Unit after a reset: STARTED queued with number 0 (10 R186). -/
def NoticeUnit.reset (cause : ResetCause) : NoticeUnit :=
  { queue := [⟨0, .started cause⟩], nextNumber := 1, inFlight := 0, pointer := some 0, retryTimer := none,
    retryCount := 0, quiet := false, lost := 0 }

/-! ## The management side -/

/-- The line rates of 09 R158. -/
inductive LineRate where
  | baud115200
  | baud460800
  | baud921600
  deriving DecidableEq, Repr

/-- A good management frame: KIND, REQID and body (09, 9.2). -/
structure MgmtFrame where
  kind  : Byte
  reqid : Byte
  body  : List Byte
  deriving DecidableEq, Repr

/-- The reasons of BAD_CONFIG (08 R147). -/
inductive ConfigReason where
  | tagDuplicate
  | tagBusy
  | budget
  deriving DecidableEq, Repr

/-- A reply's status with its detail (09 R164). -/
inductive Status where
  | ok
  | unknownKind
  | badLength (required : Nat)
  | badIndex
  | badValue (number : Nat)
  | noSession
  | sessionBusy
  | badToken
  | badConfig (reason : ConfigReason) (i : StreamIdx)
  | wrongState (found : StreamState)
  | notInFlight
  deriving DecidableEq, Repr

/-- A reply (09 R163): its KIND, the request's REQID, its status with detail, its result, and whether it is the reply
that authorises a RESTART (09 R170). -/
structure Reply where
  kind    : Byte
  reqid   : Byte
  status  : Status
  result  : List Byte
  restart : Bool
  deriving DecidableEq, Repr

/-- The frame in transmission (09 R165): a reply, or a notice with whether this is its first transmission (10 R182). -/
inductive TxFrame where
  | reply (r : Reply)
  | notice (e : NoticeEntry) (first : Bool)
  deriving DecidableEq, Repr

/-- The management side (09 R174). `rx` is the bytes received after SYNC while within a frame, none while HUNTING;
`byteGap` the µs elapsed while the byte-gap timer runs; `counters` the six of 09 R169. -/
structure Mgmt where
  rate           : LineRate
  rx             : Option (List Byte)
  byteGap        : Option Nat
  requests       : List MgmtFrame
  inProgress     : Option MgmtFrame
  replies        : List Reply
  tx             : Option TxFrame
  restartPending : Bool
  resetCause     : ResetCause
  counters       : Vector Counter 6
  deriving DecidableEq, Repr

/-- The management side after power-on or a hard reset (09 R174). -/
def Mgmt.reset (rate : LineRate) (cause : ResetCause) : Mgmt :=
  { rate := rate, rx := none, byteGap := none, requests := [], inProgress := none, replies := [], tx := none,
    restartPending := false, resetCause := cause, counters := Vector.replicate 6 Counter.zero }

/-! ## The Configuration Controller -/

/-- A whole configuration: 32 stream records and the device record (08 R138). -/
structure ConfigSet where
  streams : Vector StreamRecord 32
  device  : DeviceRecord
  deriving DecidableEq, Repr

/-- An OPEN session: its staged set and its edit timer, in µs remaining (08 R138; log 8). Both exist exactly while the
session is OPEN. -/
structure Session where
  staged : ConfigSet
  timer  : Nat
  deriving DecidableEq, Repr

/-- The default stream record of stream i (01 R2). -/
def StreamRecord.default (i : StreamIdx) : StreamRecord :=
  { enable := false, stopMode := .drain, tag := BitVec.ofNat 8 i.val, words := 1, window := 8, trim := 8, hold := 4,
    divisor := 1, paths := .merge, gapWait2 := 4, gapWait1 := 1, pathSilence := 64, stallLimit := 8,
    subst := .repeatLast, noticeMask := ⟨true, true, true, true⟩ }

/-- The default device record (08 R143). -/
def DeviceRecord.default : DeviceRecord :=
  { cadenceSource := .internal, nominalInterval := 250, editWindow := 10000, noticeMask := ⟨true, true, true, true⟩ }

/-- The active set after power-on and hard reset (01 R2, 08 R157). -/
def ConfigSet.default : ConfigSet :=
  { streams := Vector.ofFn StreamRecord.default, device := DeviceRecord.default }

/-! ## The whole state -/

/-- The state of the FD632. `pending` is the queue of commands, front first; `deliveries`, `reports`, `ticks`, `offers`
and `goodReports` are what one block has handed to another and the other has not yet taken (log 1, 10, 11, 12). -/
structure State where
  pending     : List Instr
  streams     : Vector Stream 32
  active      : ConfigSet
  generation  : Word
  key         : Byte
  session     : Option Session
  tagMap      : List (Byte × StreamIdx)
  free        : Nat
  cadence     : Cadence
  port        : Port
  linkA       : LinkRx
  linkB       : LinkRx
  mgmt        : Mgmt
  notices     : NoticeUnit
  deliveries  : List Delivery
  reports     : List (Path × StreamIdx)
  ticks       : List Tick
  offers      : List Offer
  goodReports : Nat
  deriving DecidableEq, Repr

/-- The state after power-on (`cause` POWER_ON) or a hard reset (`cause` HARD) with the rate sampled from the straps, no
command waiting: 01 R23, 02 R32, 06 R106 and R122, 07 R137, 08 R157, 09 R174, 10 R186. -/
def State.fresh (cause : ResetCause) (rate : LineRate) : State :=
  { pending := []
    streams := Vector.replicate 32 Stream.reset
    active := ConfigSet.default
    generation := 0
    key := 0
    session := none
    tagMap := []
    free := Config.slots
    cadence := { state := .internal, interval := 250, generator := some 250, loss := none, edgeAge := none, restore := 0 }
    port := ⟨[], 0⟩
    linkA := LinkRx.reset
    linkB := LinkRx.reset
    mgmt := Mgmt.reset rate cause
    notices := NoticeUnit.reset cause
    deliveries := []
    reports := []
    ticks := []
    offers := []
    goodReports := 0 }

/-- The machine right after reset: power-on with both straps low (log 18, DESIGN CHOICE: a strap level is an input). -/
def State.reset : State := State.fresh .powerOn .baud115200

/-- The faults of a step. The spec gives the FD632 no condition that stops it, so there is none (log 22, safe). -/
inductive Fault : Type
  deriving DecidableEq, Repr

/-- The refusals of a step. -/
inductive Refusal where
  /-- Raised by exec's arm of a command that has no meaning yet. Safe: the model stops where the hardware goes on. -/
  | notModelled (mnemonic : String)
  deriving DecidableEq, Repr

end Sys2Proof.Machine
end

