-- ==== Sys2Proof/Machine/Flags.lean ====
section
/-! DEFINITION. Counters and their saturated marks, the counter numbers, and the notice masks (00 Counters, 01 R5, R21, R22, 07 R135, 08 R143, 09 R169). -/

namespace Sys2Proof.Machine

/-- One advance of a counter: it saturates at 65535, and the increment that brings it there sets its mark (00, 01 R22). -/
def Counter.bump (c : Counter) : Counter :=
  if c.value = 0xFFFF then c else ⟨c.value + 1, c.mark || decide (c.value + 1 = 0xFFFF)⟩

/-- Whether the next advance is the increment that brings the counter to 65535 (01 R22). -/
def Counter.atBrink (c : Counter) : Bool := decide (c.value = 0xFFFE)

/-! ## Stream counter numbers (01 R21) -/

/-- The number of a per-path counter: its path A number, or the next for path B. -/
def ctrOnPath (base : Fin 24) (x : Path) : Fin 24 :=
  match x with
  | .a => base
  | .b => base + 1

/-- ACCEPTED_X. -/
def ctrAccepted (x : Path) : Fin 24 := ctrOnPath 0 x
/-- TRAILING_X. -/
def ctrTrailing (x : Path) : Fin 24 := ctrOnPath 2 x
/-- DUPLICATE_X. -/
def ctrDuplicate (x : Path) : Fin 24 := ctrOnPath 4 x
/-- LATE_X. -/
def ctrLate (x : Path) : Fin 24 := ctrOnPath 6 x
/-- REFUSED_X. -/
def ctrRefused (x : Path) : Fin 24 := ctrOnPath 8 x
/-- RELEASED. -/
def ctrReleased : Fin 24 := 10
/-- SUBST_TIMER. -/
def ctrSubstTimer : Fin 24 := 11
/-- SUBST_PUSH. -/
def ctrSubstPush : Fin 24 := 12
/-- SUBST_DEMAND. -/
def ctrSubstDemand : Fin 24 := 13
/-- UNDERRUN. -/
def ctrUnderrun : Fin 24 := 14
/-- TRIMMED. -/
def ctrTrimmed : Fin 24 := 15
/-- FLUSHED. -/
def ctrFlushed : Fin 24 := 16
/-- RESYNC_JUMP. -/
def ctrResyncJump : Fin 24 := 17
/-- RESYNC_FLAG. -/
def ctrResyncFlag : Fin 24 := 18
/-- STRAY_SEQ. -/
def ctrStraySeq : Fin 24 := 19
/-- STRAGGLER. -/
def ctrStraggler : Fin 24 := 20
/-- ACQ_DISCARD. -/
def ctrAcqDiscard : Fin 24 := 21
/-- MALFORMED. -/
def ctrMalformed : Fin 24 := 22
/-- PORT_DROP. -/
def ctrPortDrop : Fin 24 := 23

/-! ## Link counter numbers (07 R135) -/

/-- GOOD. -/
def lctrGood : Fin 6 := 0
/-- CRC_ERR. -/
def lctrCrcErr : Fin 6 := 1
/-- FORMAT_ERR. -/
def lctrFormatErr : Fin 6 := 2
/-- STRAY_TAG. -/
def lctrStrayTag : Fin 6 := 3
/-- DOWN_ENTRIES. -/
def lctrDownEntries : Fin 6 := 4
/-- HUNT_ENTRIES. -/
def lctrHuntEntries : Fin 6 := 5

/-! ## Management counter numbers (09 R169) -/

/-- BAD_FRAME. -/
def mctrBadFrame : Fin 6 := 0
/-- ABANDONED. -/
def mctrAbandoned : Fin 6 := 1
/-- OVERRUN. -/
def mctrOverrun : Fin 6 := 2
/-- TOKEN_FAIL. -/
def mctrTokenFail : Fin 6 := 3
/-- NOTICE_RETRIES. -/
def mctrNoticeRetries : Fin 6 := 4
/-- NOTICES_LOST_TOTAL. -/
def mctrNoticesLost : Fin 6 := 5

/-- A management counter advances; its saturation creates no notice (09 R169). -/
def Mgmt.count (m : Mgmt) (k : Fin 6) : Mgmt :=
  { m with counters := m.counters.set k m.counters[k].bump }

/-- The lost count of the Notice Unit rises by one, stopping at 65535 (10 R178). -/
def lostBump (w : Word) : Word := if w = 0xFFFF then w else w + 1

/-- The generation after a successful commit: from 65535 it goes to 1, not to 0 (08 R139). -/
def nextGeneration (g : Word) : Word := if g = 0xFFFF then 1 else g + 1

end Sys2Proof.Machine
end

