-- ==== Sys2Proof/WellFormed.lean ====
section
/-! DEFINITION. The checks the spec makes of a configuration record: the ranges of 01 R2 and 08 R143. A command's operands are well formed by their types (stream indices are below 32, bytes are 8 bits). -/

namespace Sys2Proof

/-- The range of each numbered field of a stream record, and H < T under field 5 (01 R2). Fields whose type holds only
legal values (ENABLE, STOP_MODE, TAG, PATHS, SUBST, NOTICE_MASK) need no check. -/
def StreamRecord.wf (r : StreamRecord) : Bool :=
  decide (1 ≤ r.words ∧ r.words ≤ 16) &&
  decide (2 ≤ r.window ∧ r.window ≤ 64) &&
  decide (2 ≤ r.trim ∧ r.trim ≤ 64) &&
  decide (1 ≤ r.hold ∧ r.hold ≤ 63) &&
  decide (r.hold < r.trim) &&
  decide (1 ≤ r.divisor ∧ r.divisor ≤ 64) &&
  decide (r.gapWait2 ≤ 255) &&
  decide (r.gapWait1 ≤ 255) &&
  decide (1 ≤ r.pathSilence ∧ r.pathSilence ≤ 4095) &&
  decide (1 ≤ r.stallLimit ∧ r.stallLimit ≤ 255)

/-- The ranges of the device record (08 R143). -/
def DeviceRecord.wf (d : DeviceRecord) : Bool :=
  decide (50 ≤ d.nominalInterval ∧ d.nominalInterval ≤ 10000) &&
  decide (100 ≤ d.editWindow ∧ d.editWindow ≤ 60000)

end Sys2Proof
end

