-- ==== Sys2Proof/Machine/Operands.lean ====
section
/-! DEFINITION. The layouts that carry operands in: the CRC, the fields of a link frame, the parameters of a request body and the record bodies, with their checks (11 R187 to R194). -/

namespace Sys2Proof.Machine

/-! ## Byte order and check sequence (11 R187) -/

/-- A 16-bit field from its two bytes, the more significant first. -/
def word16 (hi lo : Byte) : Word := hi ++ lo

/-- The more significant byte of a 16-bit field. -/
def hiByte (w : Word) : Byte := w.extractLsb' 8 8

/-- The less significant byte of a 16-bit field. -/
def loByte (w : Word) : Byte := w.extractLsb' 0 8

/-- A 16-bit field as its two bytes, the more significant first. -/
def bytes16 (w : Word) : List Byte := [hiByte w, loByte w]

/-- A number below 65536 as a 16-bit field. -/
def nat16 (n : Nat) : List Byte := bytes16 (BitVec.ofNat 16 n)

/-- A number below 256 as a byte. -/
def nat8 (n : Nat) : Byte := BitVec.ofNat 8 n

/-- `n` shifts of the CRC register, each with the polynomial 1021h when a 1 leaves at the top. -/
def crcShift : Nat → Word → Word
  | 0, r => r
  | n + 1, r => crcShift n (if r.getLsbD 15 then (r <<< 1) ^^^ 0x1021 else r <<< 1)

/-- One byte into the CRC, most significant bit first. -/
def crcByte (r : Word) (b : Byte) : Word := crcShift 8 (r ^^^ (b.setWidth 16 <<< 8))

/-- The CRC-16 over bytes: initial value FFFFh, no final inversion. -/
def crc16 (bs : List Byte) : Word := bs.foldl crcByte 0xFFFF

/-- The byte of a body at an offset (00h past its end; a body's length is checked before it is read, 09 R163). -/
def byteAt (body : List Byte) (n : Nat) : Byte := body.getD n 0

/-- The 16-bit field of a body at an offset. -/
def wordAt (body : List Byte) (n : Nat) : Word := word16 (byteAt body n) (byteAt body (n + 1))

/-! ## The link frame (11 R188, R189) -/

/-- The sample words from their bytes, in line order. -/
def wordsOfBytes : List Byte → List Word
  | hi :: lo :: rest => word16 hi lo :: wordsOfBytes rest
  | _ => []

/-- The tag of a link frame, from the bytes after its sync. -/
def frameTag (got : List Byte) : Byte := byteAt got 0

/-- The word count of a link frame, from the bytes after its sync. -/
def frameCount (got : List Byte) : Nat := (byteAt got 3).toNat

/-- The bytes that a link frame of this word count has after its sync: 4 + 2 × count + 2 (07 R125). -/
def frameLength (count : Nat) : Nat := 4 + 2 * count + 2

/-- Whether a link frame's CRC matches: over the tag, the sequence word, the word count and the sample words (07 R126). -/
def frameCrcGood (got : List Byte) : Bool :=
  let n := 4 + 2 * frameCount got
  decide (crc16 (got.take n) = wordAt got n)

/-- The items a good frame yields (07 R127): sequence number from bits 11..0, Q from bit 12 and RESTART from bit 13 of the
sequence word; bits 14 and 15 are ignored (11 R189). -/
def frameItems (got : List Byte) : Frame :=
  let sw := wordAt got 1
  { seq := sw.extractLsb' 0 12
    q := sw.getLsbD 12
    restart := sw.getLsbD 13
    words := wordsOfBytes ((got.drop 4).take (2 * frameCount got)) }

/-! ## Codes of record fields (11 R193) -/

/-- STOP_MODE from its code. -/
def stopModeOf (b : Byte) : StopMode := if b = 0 then .drain else .cut
/-- PATHS from its code. -/
def pathsOf (b : Byte) : Paths := if b = 0 then .merge else if b = 1 then .aOnly else .bOnly
/-- SUBST from its code. -/
def substOf (b : Byte) : Subst := if b = 0 then .zero else if b = 1 then .repeatLast else .mark
/-- NOTICE_MASK from its byte. -/
def streamMaskOf (b : Byte) : StreamMask := ⟨b.getLsbD 0, b.getLsbD 1, b.getLsbD 2, b.getLsbD 3⟩
/-- CADENCE_SOURCE from its code. -/
def cadenceSourceOf (b : Byte) : CadenceSource := if b = 0 then .internal else .external
/-- DEVICE_NOTICE_MASK from its byte. -/
def deviceMaskOf (b : Byte) : DeviceMask := ⟨b.getLsbD 0, b.getLsbD 1, b.getLsbD 2, b.getLsbD 3⟩

/-- Whether a mask byte names only members of its list: bits 7..4 clear (11 R194). -/
def maskByteOk (b : Byte) : Bool := decide (b.toNat < 16)

/-- Whether a number lies in a range. -/
def inRange (lo hi n : Nat) : Bool := decide (lo ≤ n ∧ n ≤ hi)

/-- The checks of a stream record body in field-number order: the field's number and whether it passes (01 R2, 11 R194).
The check of HOLD against TRIM stands under field 5. -/
def streamRecordChecks (b : List Byte) : List (Nat × Bool) :=
  let at' := fun n => (byteAt b n).toNat
  [ (0, inRange 0 1 (at' 0)), (1, inRange 0 1 (at' 1)), (2, true), (3, inRange 1 16 (at' 3)),
    (4, inRange 2 64 (at' 4)), (5, inRange 2 64 (at' 5) && decide (at' 6 < at' 5)), (6, inRange 1 63 (at' 6)),
    (7, inRange 1 64 (at' 7)), (8, inRange 0 2 (at' 8)), (9, true), (10, true),
    (11, inRange 1 4095 (wordAt b 11).toNat), (12, inRange 1 255 (at' 13)), (13, inRange 0 2 (at' 14)),
    (14, maskByteOk (byteAt b 15)) ]

/-- The checks of a device record body in field-number order (08 R143, 11 R194). -/
def deviceRecordChecks (b : List Byte) : List (Nat × Bool) :=
  [ (0, inRange 0 1 (byteAt b 0).toNat), (1, inRange 50 10000 (wordAt b 1).toNat),
    (2, inRange 100 60000 (wordAt b 3).toNat), (3, maskByteOk (byteAt b 5)) ]

/-- The number of the first check that fails, if one does. -/
def firstFailing (checks : List (Nat × Bool)) : Option Nat := (checks.find? fun p => !p.2).map Prod.fst

/-- The stream record of a 16-byte body (11 R193). -/
def streamRecordOf (b : List Byte) : StreamRecord :=
  let at' := fun n => (byteAt b n).toNat
  { enable := decide (byteAt b 0 = 1), stopMode := stopModeOf (byteAt b 1), tag := byteAt b 2, words := at' 3,
    window := at' 4, trim := at' 5, hold := at' 6, divisor := at' 7, paths := pathsOf (byteAt b 8),
    gapWait2 := at' 9, gapWait1 := at' 10, pathSilence := (wordAt b 11).toNat, stallLimit := at' 13,
    subst := substOf (byteAt b 14), noticeMask := streamMaskOf (byteAt b 15) }

/-- The device record of a 6-byte body (11 R193). -/
def deviceRecordOf (b : List Byte) : DeviceRecord :=
  { cadenceSource := cadenceSourceOf (byteAt b 0), nominalInterval := (wordAt b 1).toNat,
    editWindow := (wordAt b 3).toNat, noticeMask := deviceMaskOf (byteAt b 5) }

/-! ## Request parameters (11 R192) -/

/-- A stream index parameter: BAD_INDEX outside 0..31. -/
def streamIdxOf (b : Byte) : Option StreamIdx :=
  if h : b.toNat < 32 then some ⟨b.toNat, h⟩ else none

/-- A link parameter: 00h A, 01h B; BAD_INDEX otherwise. -/
def linkOf (b : Byte) : Option Path := if b = 0 then some .a else if b = 1 then some .b else none

/-- A selector or clear flag: 00h or 01h (ACTIVE or STAGED, not clear or clear); BAD_VALUE otherwise. -/
def flagOf (b : Byte) : Option Bool := if b = 0 then some false else if b = 1 then some true else none

end Sys2Proof.Machine
end

