-- ==== Sys2Proof/Machine/Formats.lean ====
section
/-! DEFINITION. The layouts that leave the part: record bodies, status bodies, counter blocks, replies, notices, management frames and playout words (11 R190 to R199). -/

namespace Sys2Proof.Machine

/-! ## Codes (11 R193, R195 to R197) -/

/-- A two-valued code: 00h or 01h. -/
def boolCode (b : Bool) : Byte := if b then 1 else 0

/-- STOP_MODE's code. -/
def stopModeCode : StopMode → Byte
  | .drain => 0
  | .cut => 1

/-- PATHS's code. -/
def pathsCode : Paths → Byte
  | .merge => 0
  | .aOnly => 1
  | .bOnly => 2

/-- SUBST's code. -/
def substCode : Subst → Byte
  | .zero => 0
  | .repeatLast => 1
  | .mark => 2

/-- Four mask bits, bit 0 first, as a byte. -/
def maskCode (b0 b1 b2 b3 : Bool) : Byte := 0#4 ++ (BitVec.ofBool b3 ++ (BitVec.ofBool b2 ++ (BitVec.ofBool b1 ++ BitVec.ofBool b0)))

/-- NOTICE_MASK's byte. -/
def streamMaskCode (m : StreamMask) : Byte := maskCode m.streamState m.pathState m.resync m.saturated

/-- DEVICE_NOTICE_MASK's byte. -/
def deviceMaskCode (m : DeviceMask) : Byte := maskCode m.linkState m.cadence m.committed m.editExpired

/-- CADENCE_SOURCE's code. -/
def cadenceSourceCode : CadenceSource → Byte
  | .internal => 0
  | .external => 1

/-- A stream state's code (11 R197). -/
def streamStateCode : StreamState → Byte
  | .off => 0
  | .acquire => 1
  | .priming => 2
  | .running => 3
  | .stalled => 4
  | .draining => 5

/-- A reset cause's code (11 R197). -/
def resetCauseCode : ResetCause → Byte
  | .powerOn => 0
  | .hard => 1
  | .restart => 2

/-- A cadence state's code (11 R197). -/
def cadenceStateCode : CadenceState → Byte
  | .internal => 0
  | .extOk => 1
  | .extLost => 2

/-- A STREAM_STATE cause's code (11 R197). -/
def causeCode : Cause → Byte
  | .enabled => 1
  | .reconfigured => 2
  | .disabled => 3
  | .locked => 4
  | .primed => 5
  | .stall => 6
  | .resumed => 7
  | .reacquire => 8
  | .forced => 9
  | .drained => 10

/-- A link's or path's code: 00h A, 01h B (11 R196). -/
def pathCode : Path → Byte
  | .a => 0
  | .b => 1

/-- A link state's code (11 R196). -/
def linkStateCode : LinkState → Byte
  | .down => 0
  | .hunt => 1
  | .up => 2

/-- The code of a path's presence in the runtime status body (11 R195). -/
def presenceCode : Presence → Byte
  | .unused => 0
  | .absent => 1
  | .present _ => 2

/-- A resynchronisation cause's code (11 R196). -/
def resyncCauseCode : ResyncCause → Byte
  | .jump => 1
  | .restartFlag => 2

/-- A sequence number as a 16-bit field. -/
def seqBytes (s : Seq) : List Byte := bytes16 (s.setWidth 16)

/-! ## Record bodies (11 R193) -/

/-- The 16-byte stream record body. -/
def streamRecordBody (r : StreamRecord) : List Byte :=
  [boolCode r.enable, stopModeCode r.stopMode, r.tag, nat8 r.words, nat8 r.window, nat8 r.trim, nat8 r.hold,
   nat8 r.divisor, pathsCode r.paths, nat8 r.gapWait2, nat8 r.gapWait1] ++ nat16 r.pathSilence ++
  [nat8 r.stallLimit, substCode r.subst, streamMaskCode r.noticeMask]

/-- The 6-byte device record body. -/
def deviceRecordBody (d : DeviceRecord) : List Byte :=
  [cadenceSourceCode d.cadenceSource] ++ nat16 d.nominalInterval ++ nat16 d.editWindow ++ [deviceMaskCode d.noticeMask]

/-! ## Counter blocks (11 R195) -/

/-- One mark byte: bit j is the j-th of up to eight marks. -/
def markByte : List Bool → Byte
  | [] => 0
  | m :: ms => (markByte ms <<< 1) ||| boolCode m

/-- The values of counters, 2 bytes each, in counter-number order. -/
def counterValues (cs : List Counter) : List Byte := cs.flatMap fun c => bytes16 c.value

/-- The stream counter block: 24 values and 3 mark bytes. -/
def streamCounterBlock (cs : Vector Counter 24) : List Byte :=
  let ms := cs.toList.map Counter.mark
  counterValues cs.toList ++ [markByte (ms.take 8), markByte ((ms.drop 8).take 8), markByte (ms.drop 16)]

/-- The link or management counter block: 6 values and 1 mark byte. -/
def sixCounterBlock (cs : Vector Counter 6) : List Byte :=
  counterValues cs.toList ++ [markByte (cs.toList.map Counter.mark)]

/-! ## The runtime status body (11 R195) -/

/-- An optional sequence number as 2 bytes, 00h when absent. -/
def optSeqBytes (s : Option Seq) : List Byte := (s.map seqBytes).getD [0, 0]

/-- An optional count as a byte, 00h when absent. -/
def optByte (n : Option Nat) : Byte := (n.map nat8).getD 0

/-- A path's silence count: that of a PRESENT path, the P in force for an ABSENT one (04 R75), 0 when UNUSED. -/
def silenceOf (p : Nat) : Presence → Nat
  | .unused => 0
  | .absent => p
  | .present n => n

/-- The presence byte: one bit per optional part; bit 7 is 0. -/
def presenceByte (s : Stream) : Byte :=
  markByte [s.base.isSome, s.acq.isSome, s.jump.isSome, s.guard.isSome, s.timer.isSome, s.last.isSome, s.phase.isSome, false]

/-- The 22-byte runtime status body of a context under the PATH_SILENCE in force. -/
def statusBody (p : Nat) (s : Stream) : List Byte :=
  [streamStateCode s.state, presenceByte s] ++ optSeqBytes s.base ++ [nat8 s.window.length, nat8 s.queue.length] ++
  optSeqBytes (s.acq.map AcqCandidate.seq) ++ optSeqBytes (s.jump.map JumpCandidate.seq) ++
  optSeqBytes (s.guard.map Guard.prior) ++ [optByte (s.guard.map Guard.remaining), optByte s.timer] ++
  [presenceCode s.pathA] ++ nat16 (silenceOf p s.pathA) ++ [presenceCode s.pathB] ++ nat16 (silenceOf p s.pathB) ++
  [nat8 s.run, optByte s.phase]

/-! ## Replies and notices (11 R190, R191, R196) -/

/-- A BAD_CONFIG reason's code. -/
def reasonCode : ConfigReason → Byte
  | .tagDuplicate => 1
  | .tagBusy => 2
  | .budget => 3

/-- The status byte and its detail. -/
def statusBytes : Status → List Byte
  | .ok => [0]
  | .unknownKind => [1]
  | .badLength n => [2, nat8 n]
  | .badIndex => [3]
  | .badValue n => [4, nat8 n]
  | .noSession => [5]
  | .sessionBusy => [6]
  | .badToken => [7]
  | .badConfig r i => [8, reasonCode r, nat8 i.val]
  | .wrongState st => [9, streamStateCode st]
  | .notInFlight => [10]

/-- A reply's body: the status, its detail, then the result. -/
def replyBody (r : Reply) : List Byte := statusBytes r.status ++ r.result

/-- A notice's KIND. -/
def noticeKind : Notice → Byte
  | .started _ => 0x40
  | .linkState _ _ => 0x41
  | .pathState _ _ _ => 0x42
  | .streamState _ _ _ => 0x43
  | .resync _ _ _ _ => 0x44
  | .cadence _ => 0x45
  | .committed _ => 0x46
  | .editExpired => 0x47
  | .counterSaturated _ _ => 0x48
  | .noticesLost _ => 0x49

/-- A notice's body. -/
def noticeBody : Notice → List Byte
  | .started c => [resetCauseCode c]
  | .linkState x st => [pathCode x, linkStateCode st]
  | .pathState i x present => [nat8 i.val, pathCode x, if present then 2 else 1]
  | .streamState i st cause => [nat8 i.val, streamStateCode st, causeCode cause]
  | .resync i old new cause => nat8 i.val :: (seqBytes old ++ seqBytes new ++ [resyncCauseCode cause])
  | .cadence .lost => [1]
  | .cadence .restored => [2]
  | .committed g => bytes16 g
  | .editExpired => [0]
  | .counterSaturated (.stream i) n => [0, nat8 i.val, nat8 n]
  | .counterSaturated (.link x) n => [1, pathCode x, nat8 n]
  | .noticesLost n => bytes16 n

/-- A management frame: SYNC, LEN, KIND, REQID, body, and the CRC over LEN to the body's end (11 R190). -/
def mgmtFrameBytes (kind reqid : Byte) (body : List Byte) : List Byte :=
  let covered := nat8 (body.length + 2) :: kind :: reqid :: body
  0xA7 :: (covered ++ bytes16 (crc16 covered))

/-- The bytes the Transmitter sends for its frame. The REQID of a notice is its number (11 R196). -/
def TxFrame.bytes : TxFrame → List Byte
  | .reply r => mgmtFrameBytes r.kind r.reqid (replyBody r)
  | .notice e _ => mgmtFrameBytes (noticeKind e.notice) e.number (noticeBody e.notice)

/-! ## Playout words (11 R198, R199) -/

/-- A header word: kind, Q, stream index, three 0 bits, word count. -/
def headerWord (kind : BitVec 2) (q : Bool) (i : StreamIdx) (count : Nat) : Word :=
  kind ++ (BitVec.ofBool q ++ (BitVec.ofNat 5 i.val ++ (0#3 ++ BitVec.ofNat 5 count)))

/-- The words of a playout record, in the order presented. -/
def PlayRecord.words : PlayRecord → List Word
  | .real i s q ws => headerWord 0 q i ws.length :: s.setWidth 16 :: ws
  | .subst i s ws => headerWord 1 false i ws.length :: s.setWidth 16 :: ws
  | .idle i => [headerWord 2 false i 0]
  | .ended i => [headerWord 3 false i 0]

/-- The stream index of a playout record. -/
def PlayRecord.idx : PlayRecord → StreamIdx
  | .real i _ _ _ => i
  | .subst i _ _ => i
  | .idle i => i
  | .ended i => i

/-- PO_VALID: a playout word is presented (06 R121). -/
def Port.valid (p : Port) : Bool := !p.fifo.isEmpty

/-- PO_START: the word presented is a header word (06 R121). -/
def Port.start (p : Port) : Bool := p.valid && decide (p.pos = 0)

/-- PO_D15..PO_D0: the word presented, if one is (06 R121). -/
def Port.word (p : Port) : Option Word := p.fifo.head?.bind fun r => r.words[p.pos]?

end Sys2Proof.Machine
end

