-- ==== Sys2Proof/Machine/Ops.lean ====
section
/-! DEFINITION. The operations every event at a stream context is made of: slots, counters, notices, release, substitution, the release chain, the gap timer, flushes and the rebuilding of a context; and how such an event is taken from State and put back. -/

namespace Sys2Proof.Machine

/-- A stream context at work within one event: its index, the record in force (01 R3), its parts, the Sample Store's free
count, the notices the event has created so far and the record it offers to the Playout Port, if any. -/
structure Ctx where
  idx    : StreamIdx
  cfg    : StreamRecord
  s      : Stream
  free   : Nat
  notes  : List Notice
  record : Option PlayRecord
  deriving DecidableEq, Repr

/-! ## Distances and classes -/

/-- The distance of a sequence number from a base: (s - E) mod 4096 (00, Conventions). -/
def dist (s e : Seq) : Nat := (s - e).toNat

/-- Whether PATHS admits a path (00, Terms: admitted path). -/
def admits (p : Paths) (x : Path) : Bool :=
  match p, x with
  | .merge, _ => true
  | .aOnly, .a => true
  | .aOnly, .b => false
  | .bOnly, .a => false
  | .bOnly, .b => true

/-! ## Small pieces -/

/-- A notice is created, if the mask that governs it allows (01 R5). -/
def Ctx.note (c : Ctx) (allowed : Bool) (n : Notice) : Ctx :=
  if allowed then { c with notes := c.notes ++ [n] } else c

/-- A stream counter advances; the increment to 65535 creates a COUNTER_SATURATED notice if SATURATED is in the mask (01 R22). -/
def Ctx.count (c : Ctx) (k : Fin 24) : Ctx :=
  let ctr := c.s.counters[k]
  { c with s := { c.s with counters := c.s.counters.set k ctr.bump } }.note
    (c.cfg.noticeMask.saturated && ctr.atBrink) (.counterSaturated (.stream c.idx) k.val)

/-- A stream counter advances `n` times. -/
def Ctx.countN (c : Ctx) (k : Fin 24) : Nat → Ctx
  | 0 => c
  | n + 1 => Ctx.countN (c.count k) k n

/-- One slot is taken from the Sample Store (02 R25). -/
def Ctx.takeSlot (c : Ctx) : Ctx := { c with free := c.free - 1 }

/-- `n` slots go back to the Sample Store (02 R27). -/
def Ctx.giveSlots (c : Ctx) (n : Nat) : Ctx := { c with free := c.free + n }

/-- The slots a queue entry holds: one if REAL, none if SUBST (01 R17, 02 R26). -/
def QueueEntry.slots : QueueEntry → Nat
  | .real _ _ _ => 1
  | .subst _ => 0

/-- The slots the entries of a queue hold. -/
def queueSlots (q : List QueueEntry) : Nat := (q.map QueueEntry.slots).sum

/-- The presence of a path. -/
def Stream.presence (s : Stream) (x : Path) : Presence :=
  match x with
  | .a => s.pathA
  | .b => s.pathB

/-- Setting the presence of a path. -/
def Stream.setPresence (s : Stream) (x : Path) (p : Presence) : Stream :=
  match x with
  | .a => { s with pathA := p }
  | .b => { s with pathB := p }

/-- Whether a path is PRESENT. -/
def Presence.isPresent : Presence → Bool
  | .present _ => true
  | .absent => false
  | .unused => false

/-- The presence a path takes at a renewal: ABSENT if admitted, UNUSED otherwise (01 R16). -/
def freshPresence (p : Paths) (x : Path) : Presence := if admits p x then .absent else .unused

/-- A STREAM_STATE notice for the state the context has now (01 R7). -/
def Ctx.noteState (c : Ctx) (cause : Cause) : Ctx :=
  c.note c.cfg.noticeMask.streamState (.streamState c.idx c.s.state cause)

/-- A path changes presence, with a PATH_STATE notice (04 R79). -/
def Ctx.notePath (c : Ctx) (x : Path) (present : Bool) : Ctx :=
  c.note c.cfg.noticeMask.pathState (.pathState c.idx x present)

/-! ## The playout queue and the base -/

/-- The queue's head is dropped by trim: a REAL head returns its slot, and TRIMMED is counted (03 R52). -/
def Ctx.dropHead (c : Ctx) : Ctx :=
  match c.s.queue with
  | [] => c
  | e :: rest => ({ c with s := { c.s with queue := rest } }.giveSlots e.slots).count ctrTrimmed

/-- Heads dropped by trim, `n` of them, oldest first (08 R153). -/
def Ctx.dropHeads (c : Ctx) : Nat → Ctx
  | 0 => c
  | n + 1 => Ctx.dropHeads c.dropHead n

/-- The trim at queue insertion: a queue that already holds T entries drops its head (03 R52). -/
def Ctx.trimForInsert (c : Ctx) : Ctx := if c.cfg.trim ≤ c.s.queue.length then c.dropHead else c

/-- An entry joins the queue's tail. -/
def Ctx.append (c : Ctx) (e : QueueEntry) : Ctx := { c with s := { c.s with queue := c.s.queue ++ [e] } }

/-- E passes a position: its history entry is made, the one for E-64 is dropped, and E advances by one (01 R10). -/
def Ctx.advance (c : Ctx) (p : Passed) : Ctx :=
  { c with s := { c.s with history := (p :: c.s.history).take Config.historyDepth, base := c.s.base.map (· + 1) } }

/-- To release the position e with a frame whose slot is already held: a window entry or a candidate (03 R49). -/
def Ctx.releaseHeld (c : Ctx) (e : Seq) (q : Bool) (words : List Word) : Ctx :=
  (((c.trimForInsert.append (.real e q words)).advance .real)).count ctrReleased

/-- To release the position e with an arriving frame: the trim comes first, then the slot is taken (03 R49, 02 R28). -/
def Ctx.releaseNew (c : Ctx) (e : Seq) (q : Bool) (words : List Word) : Ctx :=
  (((c.trimForInsert.takeSlot.append (.real e q words)).advance .real)).count ctrReleased

/-- To substitute the position E (03 R53); the rule that causes it names the counter. -/
def Ctx.substitute (c : Ctx) : Ctx :=
  match c.s.base with
  | none => c
  | some e => (c.trimForInsert.append (.subst e)).advance .substituted

/-! ## The gap timer -/

/-- The wait value chosen at a timer's start (04 R62). -/
def Ctx.waitValue (c : Ctx) : Nat :=
  if c.cfg.paths = .merge ∧ c.s.pathA.isPresent ∧ c.s.pathB.isPresent then c.cfg.gapWait2 else c.cfg.gapWait1

/-- A gap timer starts if the window is non-empty and no timer runs; a wait value of 0 starts none (04 R62). -/
def Ctx.startTimer (c : Ctx) : Ctx :=
  if c.s.window = [] then c
  else
    match c.s.timer with
    | some _ => c
    | none => if c.waitValue = 0 then c else { c with s := { c.s with timer := some c.waitValue } }

/-- The timer step that ends every release chain (03 R51). -/
def Ctx.settleTimer (c : Ctx) : Ctx :=
  if c.s.window = [] then { c with s := { c.s with timer := none } } else c.startTimer

/-! ## The release chain -/

/-- The frame held in the window for a position. -/
def Stream.heldAt (s : Stream) (e : Seq) : Option WindowEntry := s.window.find? fun w => decide (w.seq = e)

/-- A position's frame leaves the window. -/
def Ctx.removeHeld (c : Ctx) (e : Seq) : Ctx :=
  { c with s := { c.s with window := c.s.window.filter fun w => !decide (w.seq = e) } }

/-- The releases of a chain: while the window holds the frame for E it is released; at most `n` of them (03 R50). -/
def Ctx.chainReleases : Nat → Ctx → Ctx
  | 0, c => c
  | n + 1, c =>
    match c.s.base with
    | none => c
    | some e =>
      match c.s.heldAt e with
      | none => c
      | some w => Ctx.chainReleases n ((c.removeHeld e).releaseHeld e w.q w.words)

/-- The release chain with the timer step that ends it (03 R50, R51). The window's length bounds its releases. -/
def Ctx.chain (c : Ctx) : Ctx := (Ctx.chainReleases c.s.window.length c).settleTimer

/-! ## Flushes and candidates -/

/-- Every window entry is flushed: slots returned, FLUSHED counted for each (05 R84). -/
def Ctx.flushWindow (c : Ctx) : Ctx :=
  ({ c with s := { c.s with window := [] } }.giveSlots c.s.window.length).countN ctrFlushed c.s.window.length

/-- Every queue entry is flushed: slots of REAL entries returned, FLUSHED counted for each entry (05 R93). -/
def Ctx.flushQueue (c : Ctx) : Ctx :=
  ({ c with s := { c.s with queue := [] } }.giveSlots (queueSlots c.s.queue)).countN ctrFlushed c.s.queue.length

/-- The acquisition candidate, if held, is freed with its slot; no counter (01 R14). -/
def Ctx.freeAcq (c : Ctx) : Ctx :=
  match c.s.acq with
  | none => c
  | some _ => { c with s := { c.s with acq := none } }.giveSlots 1

/-- The jump candidate, if held, is freed with its slot; no counter (01 R14). -/
def Ctx.freeJump (c : Ctx) : Ctx :=
  match c.s.jump with
  | none => c
  | some _ => { c with s := { c.s with jump := none } }.giveSlots 1

/-- The jump candidate, if held, is freed with its slot, and STRAY_SEQ is counted (05 R87, step 2). -/
def Ctx.strayJump (c : Ctx) : Ctx :=
  match c.s.jump with
  | none => c
  | some _ => ({ c with s := { c.s with jump := none } }.giveSlots 1).count ctrStraySeq

/-- An accepted arrival on the jump candidate's own path discards the candidate (05 R82). -/
def Ctx.discardJumpOn (c : Ctx) (x : Path) : Ctx :=
  match c.s.jump with
  | none => c
  | some j => if j.path = x then c.strayJump else c

/-! ## Rebuilding and ending a context -/

/-- The parts of a renewed context (01 R19), over one that holds no slot. The counters are unchanged. -/
def Stream.renewed (s : Stream) (p : Paths) : Stream :=
  { s with state := .acquire, drain := none, base := none, window := [], history := historyNone, acq := none,
           jump := none, guard := none, timer := none, pathA := freshPresence p .a, pathB := freshPresence p .b,
           queue := [], run := 0, last := none, phase := some 0 }

/-- The parts of an OFF context (01 R19). The counters are unchanged. -/
def Stream.toOff (s : Stream) : Stream :=
  { Stream.reset with counters := s.counters }

/-- Every slot the context holds: window, queue and candidates. -/
def Stream.held (s : Stream) : Nat :=
  s.window.length + queueSlots s.queue + (if s.acq.isSome then 1 else 0) + (if s.jump.isSome then 1 else 0)

/-- A renewal by a commit: every slot returned, each window and queue entry counts FLUSHED (01 R19, 08 R150). -/
def Ctx.renew (c : Ctx) : Ctx :=
  let c1 := c.flushWindow.flushQueue.freeAcq.freeJump
  { c1 with s := c1.s.renewed c1.cfg.paths }

/-! ## Taking an event from State and putting it back -/

/-- Stream i's context. -/
def State.stream (s : State) (i : StreamIdx) : Stream := s.streams[i]

/-- Setting stream i's context. -/
def State.setStream (s : State) (i : StreamIdx) (st : Stream) : State := { s with streams := s.streams.set i st }

/-- Stream i's record of a set. -/
def ConfigSet.record (c : ConfigSet) (i : StreamIdx) : StreamRecord := c.streams[i]

/-- Setting stream i's record of a set. -/
def ConfigSet.setRecord (c : ConfigSet) (i : StreamIdx) (r : StreamRecord) : ConfigSet := { c with streams := c.streams.set i r }

/-- The record in force for a stream: its drain record in DRAINING, its active record otherwise (01 R3). -/
def State.inForce (s : State) (i : StreamIdx) : StreamRecord :=
  if (s.stream i).state = .draining then (s.stream i).drain.getD (s.active.record i) else s.active.record i

/-- The context of stream i at the start of an event. -/
def State.ctx (s : State) (i : StreamIdx) : Ctx :=
  { idx := i, cfg := s.inForce i, s := s.stream i, free := s.free, notes := [], record := none }

/-- The context after its event: its parts, the free count, and its notices offered to the Notice Unit by `b` (10 R177). -/
def State.put (s : State) (c : Ctx) (b : Block) : State :=
  { s.setStream c.idx c.s with free := c.free, offers := s.offers ++ c.notes.map (Offer.own b) }

/-- One event at stream context i. -/
def State.onStream (s : State) (i : StreamIdx) (f : Ctx → Ctx) : State := s.put (f (s.ctx i)) (.stream i)

/-- Link Receiver x. -/
def State.link (s : State) (x : Path) : LinkRx :=
  match x with
  | .a => s.linkA
  | .b => s.linkB

/-- Setting Link Receiver x. -/
def State.setLink (s : State) (x : Path) (l : LinkRx) : State :=
  match x with
  | .a => { s with linkA := l }
  | .b => { s with linkB := l }

/-- A device notice is created, if the mask that governs it allows, and offered by `b` (10 R177). -/
def State.offer (s : State) (b : Block) (allowed : Bool) (n : Notice) : State :=
  if allowed then { s with offers := s.offers ++ [.own b n] } else s

/-- The device mask in force (08 R143). -/
def State.deviceMask (s : State) : DeviceMask := s.active.device.noticeMask

/-- A management counter advances (09 R169). -/
def State.countMgmt (s : State) (k : Fin 6) : State := { s with mgmt := s.mgmt.count k }

end Sys2Proof.Machine
end

