-- ==== Sys2Proof/Machine/NoticeUnit.lean ====
section
/-! DEFINITION. The Notice Unit and the Transmitter's choice: joining, losing, sending, completing, acknowledging and resending notices (10 R175 to R185, 09 R165), and the commands NOTICE_OFFER and GOOD_FRAME_REPORT. -/

namespace Sys2Proof.Machine

/-! ## The queue and the send pointer -/

/-- A notice joins the queue's tail with the next notice number; if the send pointer is none it moves to it (10 R175, R179). -/
def NoticeUnit.join (u : NoticeUnit) (n : Notice) : NoticeUnit :=
  { u with queue := u.queue ++ [⟨u.nextNumber, n⟩], nextNumber := u.nextNumber + 1,
           pointer := match u.pointer with | none => some u.queue.length | some p => some p }

/-- The entry eligible for sending, and whether its sending is its first transmission (10 R179). -/
def NoticeUnit.eligible (u : NoticeUnit) : Option (NoticeEntry × Bool) :=
  if u.quiet then none
  else
    match u.pointer with
    | none => none
    | some p =>
      match u.queue[p]? with
      | none => none
      | some e =>
        if p < u.inFlight then some (e, false)
        else if u.inFlight < Config.inFlightLimit then some (e, true)
        else none

/-- The send pointer moves to the entry after it, or to none if it was the tail (10 R179). -/
def NoticeUnit.pointerAfter (u : NoticeUnit) : Option Nat :=
  u.pointer.bind fun p => if p + 1 < u.queue.length then some (p + 1) else none

/-- The transmission of the eligible entry begins: an unsent entry becomes in flight, and the pointer moves on (10 R179). -/
def NoticeUnit.begin (u : NoticeUnit) (first : Bool) : NoticeUnit :=
  { u with inFlight := if first then u.inFlight + 1 else u.inFlight, pointer := u.pointerAfter }

/-- A resend round begins: the send pointer moves to the oldest in-flight entry (10 R183). -/
def NoticeUnit.goBack (u : NoticeUnit) : NoticeUnit :=
  { u with pointer := if u.queue = [] then none else some 0 }

/-- The Transmitter, when idle, chooses what to send: a reply first, else the eligible notice, else nothing (09 R165). -/
def State.choose (s : State) : State :=
  match s.mgmt.tx with
  | some _ => s
  | none =>
    match s.mgmt.replies with
    | r :: rest => { s with mgmt := { s.mgmt with replies := rest, tx := some (.reply r) } }
    | [] =>
      match s.notices.eligible with
      | none => s
      | some (e, first) =>
        { s with mgmt := { s.mgmt with tx := some (.notice e first) }, notices := s.notices.begin first }

/-! ## Taking created notices -/

/-- The Notice Unit takes a created notice: it joins if the queue holds fewer than 32 entries, and is lost and counted
otherwise (10 R178). After a joining an idle Transmitter chooses (09 R165). -/
def State.takeNotice (s : State) (n : Notice) : State :=
  if s.notices.queue.length < Config.noticeDepth then { s with notices := s.notices.join n }.choose
  else { s with notices := { s.notices with lost := lostBump s.notices.lost } }.countMgmt mctrNoticesLost

/-- The stream a notice is about, if it is about one (10 R176). -/
def Notice.about : Notice → Option StreamIdx
  | .pathState i _ _ => some i
  | .streamState i _ _ => some i
  | .resync i _ _ _ => some i
  | .counterSaturated (.stream i) _ => some i
  | .counterSaturated (.link _) _ => none
  | .started _ => none
  | .linkState _ _ => none
  | .cadence _ => none
  | .committed _ => none
  | .editExpired => none
  | .noticesLost _ => none

/-- Whether an offer must be taken before a later one: both come from one block, or both are about one stream, whose context a
commit and a round of the port change too (10 R177, 08 R148, 06 R120), or both come from contexts taking the reports of one link
(04 R77). Offers that differ in all three may be taken in either order. -/
def Offer.before (e l : Offer) : Bool :=
  decide (e.block = l.block) || (e.notice.about.isSome && decide (e.notice.about = l.notice.about)) ||
    (e.report.isSome && decide (e.report = l.report))

/-- The offers of the blocks that `p` picks with those that must be taken before one of them, and the offers left; both in the
order created. -/
def splitOffers (p : Block → Bool) : List Offer → List Offer × List Offer
  | [] => ([], [])
  | o :: rest =>
    if p o.block || (splitOffers p rest).1.any o.before then (o :: (splitOffers p rest).1, (splitOffers p rest).2)
    else ((splitOffers p rest).1, o :: (splitOffers p rest).2)

/-- The Notice Unit takes, in the order created, every waiting offer of the blocks that `p` picks, and what must be taken before
one of them (10 R177; log 11). -/
def State.takeOffers (s : State) (p : Block → Bool) : State :=
  (splitOffers p s.offers).1.foldl (fun t o => t.takeNotice o.notice) { s with offers := (splitOffers p s.offers).2 }

/-- The offers with the oldest one of a block taken out, and that one. -/
def takeFirstOffer (b : Block) : List Offer → Option (Offer × List Offer)
  | [] => none
  | o :: rest => if o.block = b then some (o, rest) else (takeFirstOffer b rest).map fun p => (p.1, o :: p.2)

/-- Whether no offer older than block b's oldest, `o`, must be taken before it. -/
def mayJoin (b : Block) (o : Offer) (offers : List Offer) : Bool :=
  (offers.takeWhile fun e => !decide (e.block = b)).all fun e => !e.before o

/-- NOTICE_OFFER (10 R177, R178): the Notice Unit takes the oldest notice that block `b` created. With none waiting, or with
one waiting that must join before it, there is no such event and nothing changes (log 2). -/
def noticeOffer (b : Block) (s : State) : State :=
  match takeFirstOffer b s.offers with
  | none => s
  | some (o, rest) => if mayJoin b o s.offers then { s with offers := rest }.takeNotice o.notice else s

/-! ## Completion, acknowledgement and retry -/

/-- The Transmitter reports the completion of a notice frame: the retry timer starts if the entry is still queued and is
the oldest in flight (10 R180). It does not run while QUIET is set (10 R183; log 13). -/
def NoticeUnit.completed (u : NoticeUnit) (e : NoticeEntry) : NoticeUnit :=
  match u.queue with
  | [] => u
  | head :: _ =>
    if head.number = e.number ∧ 0 < u.inFlight ∧ u.quiet = false then { u with retryTimer := some Config.retryStart } else u

/-- Whether the frame in transmission is the first transmission of the entry with this number (10 R182). -/
def inFirstTransmission (tx : Option TxFrame) (number : Byte) : Bool :=
  match tx with
  | some (.notice e first) => first && decide (e.number = number)
  | some (.reply _) => false
  | none => false

/-- The retry timer after a retirement (10 R182): stopped when no entry remains in flight or the oldest is still in its
first transmission, started otherwise; it does not run while QUIET is set (10 R183; log 13). -/
def retryAfterRetire (u : NoticeUnit) (tx : Option TxFrame) : Option Nat :=
  if u.inFlight = 0 ∨ u.quiet then none
  else
    match u.queue with
    | [] => none
    | head :: _ => if inFirstTransmission tx head.number then none else some Config.retryStart

/-- The send pointer after `k` entries have left at the head (10 R182). -/
def pointerAfterRetire (pointer : Option Nat) (k : Nat) (left : List NoticeEntry) : Option Nat :=
  match pointer with
  | none => none
  | some p => if p < k then (if left = [] then none else some 0) else some (p - k)

/-- The oldest `k` in-flight entries are retired (10 R181, R182); then a lost count above 0 queues a NOTICES_LOST (10 R178). -/
def NoticeUnit.retire (u : NoticeUnit) (k : Nat) (tx : Option TxFrame) : NoticeUnit :=
  let left := u.queue.drop k
  let u1 := { u with queue := left, inFlight := u.inFlight - k, retryCount := 0, pointer := pointerAfterRetire u.pointer k left }
  let u2 := { u1 with retryTimer := retryAfterRetire u1 tx }
  if u2.lost = 0 then u2 else { u2.join (.noticesLost u2.lost) with lost := 0 }

/-- How many entries an acknowledgement of number n retires: the in-flight entry with that number and every older one;
none if no in-flight entry carries it (10 R181). -/
def NoticeUnit.acked (u : NoticeUnit) (n : Byte) : Option Nat :=
  ((u.queue.take u.inFlight).findIdx? fun e => decide (e.number = n)).map (· + 1)

/-- A good-frame report at the Notice Unit: it ends QUIET if set (10 R184). -/
def State.goodFrame (s : State) : State :=
  if s.notices.quiet then
    ({ s with notices := { s.notices with quiet := false, retryCount := 0 }.goBack }.countMgmt mctrNoticeRetries).choose
  else s

/-- Every good-frame report still waiting is taken. Only the first can find QUIET set (10 R184; log 12). -/
def State.settleReports (s : State) : State :=
  if s.goodReports = 0 then s else { s with goodReports := 0 }.goodFrame

/-- GOOD_FRAME_REPORT (10 R184): the Notice Unit takes one waiting report. -/
def goodFrameReport (s : State) : State :=
  if s.goodReports = 0 then s else { s with goodReports := s.goodReports - 1 }.goodFrame

/-- The retry timer's expiry (10 R183): a resend round begins, or QUIET is set at count 3. -/
def State.retryExpired (s : State) : State :=
  if s.notices.retryCount < 3 then
    ({ s with notices := { s.notices with retryTimer := none, retryCount := s.notices.retryCount + 1 }.goBack }.countMgmt
      mctrNoticeRetries).choose
  else { s with notices := { s.notices with retryTimer := none, quiet := true } }

/-- The meaning of GOOD_FRAME_REPORT. -/
def execGoodFrameReport (s : State) : Host.Outcome State Fault Refusal := .next (goodFrameReport s)

/-- The meaning of NOTICE_OFFER. -/
def execNoticeOffer (b : Block) (s : State) : Host.Outcome State Fault Refusal := .next (noticeOffer b s)

end Sys2Proof.Machine
end

