-- ==== Sys2Proof/Machine/Reconcile.lean ====
section
/-! DEFINITION. What a stream context does with an arrival: admission, presence, the word count check and the handling of its state (03 R33 to R56), with the jump handling and the resynchronisations (05 R81 to R88); and the commands ARRIVAL, LINK_DEPARTURE_REPORT and the request FORCE_RESYNC's effect (05 R93, R94). -/

namespace Sys2Proof.Machine

/-! ## Arrivals near the base -/

/-- A base arrival is released at once and the release chain runs (03 R43). -/
def Ctx.baseArrival (c : Ctx) (x : Path) (f : Frame) : Ctx :=
  (((c.discardJumpOn x).releaseNew f.seq f.q f.words).count (ctrAccepted x)).chain

/-- A frame joins the window, kept in ascending distance from E (01 R9; log 27). -/
def insertHeld (e : Seq) (w : WindowEntry) : List WindowEntry → List WindowEntry
  | [] => [w]
  | v :: vs => if dist w.seq e < dist v.seq e then w :: v :: vs else v :: insertHeld e w vs

/-- An in-window arrival whose position is not held is stored; a store into an empty window starts the gap timer (03 R44). -/
def Ctx.storeHeld (c : Ctx) (x : Path) (e : Seq) (f : Frame) : Ctx :=
  let c1 := (c.discardJumpOn x).takeSlot
  let c2 := { c1 with s := { c1.s with window := insertHeld e ⟨f.seq, f.q, f.words⟩ c1.s.window } }.count (ctrAccepted x)
  if c.s.window = [] then c2.startTimer else c2

/-- An in-window arrival: a duplicate if its position is held (03 R45), stored otherwise (03 R44). -/
def Ctx.windowArrival (c : Ctx) (x : Path) (e : Seq) (f : Frame) : Ctx :=
  match c.s.heldAt f.seq with
  | some _ => c.count (ctrDuplicate x)
  | none => c.storeHeld x e f

/-- An arrival at distance 0..W-1 of the base as it stands: released or stored. -/
def Ctx.nearArrival (c : Ctx) (x : Path) (f : Frame) : Ctx :=
  match c.s.base with
  | none => c
  | some e => if f.seq = e then c.baseArrival x f else c.windowArrival x e f

/-- The steps of a push: while the distance is at least W, E is substituted and the chain runs; at most `n` steps (03 R46). -/
def Ctx.pushSteps : Nat → Seq → Ctx → Ctx
  | 0, _, c => c
  | n + 1, seq, c =>
    match c.s.base with
    | none => c
    | some e =>
      if c.cfg.window ≤ dist seq e then Ctx.pushSteps n seq ((c.substitute.count ctrSubstPush).chain) else c

/-- A push arrival at distance d (03 R46). An accepted arrival on the jump candidate's path discards it first (05 R82). -/
def Ctx.pushArrival (c : Ctx) (x : Path) (d : Nat) (f : Frame) : Ctx :=
  (Ctx.pushSteps d f.seq (c.discardJumpOn x)).nearArrival x f

/-! ## Far and behind arrivals -/

/-- The history entry for a position at distance d in 4032..4095 (01 R10). -/
def Stream.passedAt (s : Stream) (d : Nat) : Passed := s.history.getD (4096 - d - 1) .none

/-- A behind arrival is judged by the release history and dropped (03 R48). -/
def Ctx.behindArrival (c : Ctx) (x : Path) (d : Nat) : Ctx :=
  match c.s.passedAt d with
  | .real => c.count (ctrTrailing x)
  | .substituted => c.count (ctrLate x)
  | .none => c.count ctrStraySeq

/-- A frame becomes the jump candidate with a newly taken slot (05 R81). -/
def Ctx.setJump (c : Ctx) (x : Path) (f : Frame) : Ctx :=
  let c1 := c.takeSlot
  { c1 with s := { c1.s with jump := some ⟨f.seq, x, f.q, f.words⟩ } }.count (ctrAccepted x)

/-- What a resynchronisation does before it sets the base: the timer removed, the history cleared, a guard created with
the prior base e and remaining count 64, and E set to `new` (05 R84 steps 2 to 5, R87 steps 3 to 6). -/
def Ctx.rebase (c : Ctx) (e new : Seq) : Ctx :=
  { c with s := { c.s with timer := none, history := historyNone, guard := some ⟨e, Config.guardLife⟩, base := some new } }

/-- A RESYNC notice (05 R91). -/
def Ctx.noteResync (c : Ctx) (old new : Seq) (cause : ResyncCause) : Ctx :=
  c.note c.cfg.noticeMask.resync (.resync c.idx old new cause)

/-- Confirmation of the jump candidate j by its successor f (05 R84). -/
def Ctx.confirmJump (c : Ctx) (x : Path) (e : Seq) (j : JumpCandidate) (f : Frame) : Ctx :=
  let c1 := (c.flushWindow).rebase e j.seq
  let c2 := { c1 with s := { c1.s with jump := none } }.releaseHeld j.seq j.q j.words
  let c3 := ((c2.releaseNew f.seq f.q f.words).count (ctrAccepted x)).chain
  (c3.count ctrResyncJump).noteResync e j.seq .jump

/-- The jump handling of a far frame (05 R81). -/
def Ctx.farArrival (c : Ctx) (x : Path) (e : Seq) (f : Frame) : Ctx :=
  match c.s.jump with
  | none => c.setJump x f
  | some j =>
    if f.seq = j.seq + 1 then c.confirmJump x e j f
    else if f.seq = j.seq then c.count (ctrDuplicate x)
    else (c.strayJump).setJump x f

/-- The restart resynchronisation (05 R87). -/
def Ctx.restartResync (c : Ctx) (x : Path) (e : Seq) (f : Frame) : Ctx :=
  let c1 := ((c.flushWindow).strayJump).rebase e f.seq
  let c2 := (c1.releaseNew f.seq f.q f.words).count (ctrAccepted x)
  (c2.count ctrResyncFlag).noteResync e f.seq .restartFlag

/-- Whether the straggler guard, if held, drops a far or behind frame (05 R88). -/
def Ctx.guardDrops (c : Ctx) (seq : Seq) : Bool :=
  match c.s.guard with
  | none => false
  | some g => decide (Config.behindFrom ≤ dist seq g.prior ∨ dist seq g.prior < 2 * c.cfg.window)

/-- A far or behind arrival at distance d from E: the guard check, then the restart test, then the handling of its class
(03 R42, 05 R86). -/
def Ctx.outerArrival (c : Ctx) (x : Path) (e : Seq) (d : Nat) (f : Frame) : Ctx :=
  if c.guardDrops f.seq then c.count ctrStraggler
  else if d < Config.behindFrom then (if f.restart then c.restartResync x e f else c.farArrival x e f)
  else if f.restart ∧ c.s.passedAt d = .none then c.restartResync x e f
  else c.behindArrival x d

/-! ## Handling by state -/

/-- An arrival in PRIMING or RUNNING, by its distance from E (03 R42). -/
def Ctx.runArrival (c : Ctx) (x : Path) (f : Frame) : Ctx :=
  match c.s.base with
  | none => c
  | some e =>
    if dist f.seq e < c.cfg.window then c.nearArrival x f
    else if dist f.seq e < 2 * c.cfg.window then c.pushArrival x (dist f.seq e) f
    else c.outerArrival x e (dist f.seq e) f

/-- A frame becomes the acquisition candidate with a newly taken slot (03 R38). -/
def Ctx.setAcq (c : Ctx) (x : Path) (f : Frame) : Ctx :=
  let c1 := c.takeSlot
  { c1 with s := { c1.s with acq := some ⟨f.seq, f.q, f.words⟩ } }.count (ctrAccepted x)

/-- The lock on candidate a by the arriving frame (03 R40). -/
def Ctx.lock (c : Ctx) (x : Path) (a : AcqCandidate) (f : Frame) : Ctx :=
  let c1 := { c with s := { c.s with history := historyNone, base := some a.seq, acq := none } }.releaseHeld a.seq a.q a.words
  let c2 := { c1 with s := { c1.s with state := .priming, run := 0 } }
  (c2.nearArrival x f).noteState .locked

/-- An arrival in ACQUIRE, by its distance from the acquisition candidate (03 R38, R39). -/
def Ctx.acquireArrival (c : Ctx) (x : Path) (f : Frame) : Ctx :=
  match c.s.acq with
  | none => c.setAcq x f
  | some a =>
    if f.seq = a.seq then c.count (ctrDuplicate x)
    else if dist f.seq a.seq < c.cfg.window then c.lock x a f
    else ((c.freeAcq).count ctrAcqDiscard).setAcq x f

/-- An arrival in STALLED, by its distance from the frozen base (03 R54, R55, R56). -/
def Ctx.stalledArrival (c : Ctx) (x : Path) (f : Frame) : Ctx :=
  match c.s.base with
  | none => c
  | some e =>
    if dist f.seq e < c.cfg.window then
      ({ c with s := { c.s with state := .priming, run := 0 } }.nearArrival x f).noteState .resumed
    else if dist f.seq e < Config.behindFrom then
      ({ c with s := { c.s with history := historyNone, base := none, run := 0, state := .acquire } }.setAcq x f).noteState .reacquire
    else c.behindArrival x (dist f.seq e)

/-- The path presence refresh of an admitted arrival (03 R35). -/
def Ctx.refresh (c : Ctx) (x : Path) : Ctx :=
  match c.s.presence x with
  | .unused => c
  | .present _ => { c with s := c.s.setPresence x (.present 0) }
  | .absent => { c with s := c.s.setPresence x (.present 0) }.notePath x true

/-- The handling that belongs to the stream's state (03 R37). DRAINING was refused before; an OFF stream has no Tag Map
entry and gets no arrival (03 R33; log 23). -/
def Ctx.handle (c : Ctx) (x : Path) (f : Frame) : Ctx :=
  match c.s.state with
  | .off => c
  | .acquire => c.acquireArrival x f
  | .priming => c.runArrival x f
  | .running => c.runArrival x f
  | .stalled => c.stalledArrival x f
  | .draining => c

/-- An arrival's four stages: admission, presence refresh, word count check, handling by state (03 R33 to R37). -/
def Ctx.arrive (c : Ctx) (x : Path) (f : Frame) : Ctx :=
  match c.s.state with
  | .off => c
  | .draining => c.count (ctrRefused x)
  | .acquire | .priming | .running | .stalled =>
    if admits c.cfg.paths x = false then c.count (ctrRefused x)
    else if f.words.length = c.cfg.words then (c.refresh x).handle x f
    else (c.refresh x).count ctrMalformed

/-! ## Taking an arrival and a departure report -/

/-- Whether a block is Link Receiver x. -/
def isLink (x : Path) (b : Block) : Bool := decide (b = .link x)

/-- Stream context `d.stream` takes a delivery. The link's notices offered before are taken first (10 R177; log 11). -/
def State.takeDelivery (s : State) (d : Delivery) : State :=
  (s.takeOffers (isLink d.path)).onStream d.stream fun c => c.arrive d.path d.frame

/-- The deliveries with the oldest one of link x to stream i taken out, and that one. -/
def takeFirstDelivery (x : Path) (i : StreamIdx) : List Delivery → Option (Delivery × List Delivery)
  | [] => none
  | d :: rest =>
    if d.path = x ∧ d.stream = i then some (d, rest) else (takeFirstDelivery x i rest).map fun p => (p.1, d :: p.2)

/-- Every waiting delivery that `p` picks is taken at its context, in the order delivered: a delivery taken before a commit,
the END of a drain or a RESTART is handled on the state before it (01 R20, 07 R137; log 10). -/
def State.settleDeliveries (s : State) (p : Delivery → Bool) : State :=
  (s.deliveries.filter p).foldl State.takeDelivery { s with deliveries := s.deliveries.filter fun d => !p d }

/-- ARRIVAL (03 R33): context i takes the oldest frame delivered to it by link x; with none waiting nothing changes (log 2). -/
def arrival (x : Path) (i : StreamIdx) (s : State) : State :=
  match takeFirstDelivery x i s.deliveries with
  | none => s
  | some (d, rest) => { s with deliveries := rest }.takeDelivery d

/-- A path goes ABSENT at once if PRESENT, with its PATH_STATE notice (04 R77). -/
def Ctx.departed (c : Ctx) (x : Path) : Ctx :=
  match c.s.presence x with
  | .unused => c
  | .absent => c
  | .present _ => { c with s := c.s.setPresence x .absent }.notePath x false

/-- Context i takes link x's report; its notice is offered as one of that report, so that the notices of different streams
join in the order their contexts took it (04 R77). -/
def State.takeReport (s : State) (x : Path) (i : StreamIdx) : State :=
  let c := (s.ctx i).departed x
  { s.put c (.stream i) with offers := s.offers ++ c.notes.map fun n => ⟨.stream i, n, some x⟩ }

/-- LINK_DEPARTURE_REPORT (04 R77): context i takes link x's report, after the notice the link created in leaving UP (10 R177);
with none waiting for it nothing changes (log 2). -/
def linkDepartureReport (x : Path) (i : StreamIdx) (s : State) : State :=
  if (x, i) ∈ s.reports then ({ s with reports := s.reports.erase (x, i) }.takeOffers (isLink x)).takeReport x i else s

/-! ## FORCE_RESYNC at the context -/

/-- FORCE_RESYNC in PRIMING, RUNNING or STALLED (05 R93). -/
def Ctx.forceAcquire (c : Ctx) : Ctx :=
  let c1 := c.flushWindow.flushQueue.freeJump
  { c1 with s := { c1.s with guard := none, timer := none, history := historyNone, last := none, base := none, run := 0,
                             state := .acquire } }.noteState .forced

/-- FORCE_RESYNC in ACQUIRE (05 R94). -/
def Ctx.forceInAcquire (c : Ctx) : Ctx :=
  let c1 := c.freeAcq
  { c1 with s := { c1.s with last := none } }

/-- FORCE_RESYNC at a context, by the state it finds (05 R92). -/
def Ctx.force (c : Ctx) : Ctx :=
  match c.s.state with
  | .off => c
  | .draining => c
  | .acquire => c.forceInAcquire
  | .priming => c.forceAcquire
  | .running => c.forceAcquire
  | .stalled => c.forceAcquire

/-- The meaning of ARRIVAL. -/
def execArrival (x : Path) (i : StreamIdx) (s : State) : Host.Outcome State Fault Refusal := .next (arrival x i s)

/-- The meaning of LINK_DEPARTURE_REPORT. -/
def execLinkDepartureReport (x : Path) (i : StreamIdx) (s : State) : Host.Outcome State Fault Refusal :=
  .next (linkDepartureReport x i s)

end Sys2Proof.Machine
end

