-- ==== Sys2Proof/Machine/Playout.lean ====
section
/-! DEFINITION. Ticks and playout events at a stream context (04 R63, R64, R74, 06 R108 to R117) and the Playout Port (06 R119 to R121); the commands STREAM_TICK, PATH_ABSENT, GAP_TIMER_EXPIRY, PLAYOUT_EVENT, STALL, GUARD_EXPIRY, PLAYOUT_ROUND and WORD_TRANSFER. -/

namespace Sys2Proof.Machine

/-! ## The silence step and the timer step -/

/-- The silence step of one path: a PRESENT path's count rises by one, and reaching P sets the path ABSENT (04 R74). -/
def Ctx.silencePath (c : Ctx) (x : Path) : Ctx :=
  match c.s.presence x with
  | .unused => c
  | .absent => c
  | .present n =>
    if c.cfg.pathSilence ≤ n + 1 then { c with s := c.s.setPresence x .absent }.notePath x false
    else { c with s := c.s.setPresence x (.present (n + 1)) }

/-- The silence step: path A, then path B (04 R74; log 15). -/
def Ctx.silenceStep (c : Ctx) : Ctx := (c.silencePath .a).silencePath .b

/-- The gap timer expires: it is removed, E is substituted with SUBST_TIMER, and the chain runs (04 R64). -/
def Ctx.expireTimer (c : Ctx) : Ctx :=
  (({ c with s := { c.s with timer := none } }.substitute).count ctrSubstTimer).chain

/-- The timer step: a running gap timer counts down and may expire (04 R64). -/
def Ctx.timerStep (c : Ctx) : Ctx :=
  match c.s.timer with
  | none => c
  | some n => if n ≤ 1 then c.expireTimer else { c with s := { c.s with timer := some (n - 1) } }

/-! ## The playout event -/

/-- The record the event offers to the Playout Port (06 R108). -/
def Ctx.offerRecord (c : Ctx) (r : PlayRecord) : Ctx := { c with record := some r }

/-- `n` sample words, each 0. -/
def zeroWords (n : Nat) : List Word := List.replicate n 0

/-- The payload of a substitute record, chosen at its emission (04 R72). -/
def Ctx.substPayload (c : Ctx) : List Word :=
  match c.cfg.subst with
  | .zero => zeroWords c.cfg.words
  | .repeatLast => c.s.last.getD (zeroWords c.cfg.words)
  | .mark => []

/-- The queue's head is removed and emitted: a REAL head sets the last payload and returns its slot (06 R111, R116). -/
def Ctx.emitHead (c : Ctx) : Ctx :=
  match c.s.queue with
  | [] => c
  | .real seq q ws :: rest =>
    ({ c with s := { c.s with queue := rest, last := some ws } }.giveSlots 1).offerRecord (.real c.idx seq q ws)
  | .subst seq :: rest =>
    { c with s := { c.s with queue := rest } }.offerRecord (.subst c.idx seq c.substPayload)

/-- The underrun run is set to 0. -/
def Ctx.clearRun (c : Ctx) : Ctx := { c with s := { c.s with run := 0 } }

/-- The stall: state STALLED, the jump candidate and the guard removed, the notice (06 R114). -/
def Ctx.stallNow (c : Ctx) : Ctx :=
  let c1 := { c with s := { c.s with state := .stalled } }.freeJump
  { c1 with s := { c1.s with guard := none } }.noteState .stall

/-- The underrun's own effects (06 R113). -/
def Ctx.passUnderrun (c : Ctx) : Ctx :=
  match c.s.base with
  | none => c
  | some e =>
    let c1 := ((c.offerRecord (.subst c.idx e c.substPayload)).advance .substituted).count ctrUnderrun
    { c1 with s := { c1.s with run := c1.s.run + 1 } }

/-- An underrun, with the stall if the run is now at or above S (06 R113, R114). -/
def Ctx.underrun (c : Ctx) : Ctx :=
  let c1 := c.passUnderrun
  if c1.cfg.stallLimit ≤ c1.s.run then c1.stallNow else c1

/-- The demand substitution of E with the chain that follows (04 R68). -/
def Ctx.demand (c : Ctx) : Ctx := ((c.substitute).count ctrSubstDemand).chain

/-- A playout event in RUNNING (06 R111, R112, R113). -/
def Ctx.playRunning (c : Ctx) : Ctx :=
  if c.s.queue ≠ [] then c.emitHead.clearRun
  else if c.s.window ≠ [] then c.demand.emitHead.clearRun
  else c.underrun

/-- A playout event in PRIMING: IDLE below H; at least H, the stream goes to RUNNING and plays (06 R110). -/
def Ctx.playPriming (c : Ctx) : Ctx :=
  if c.s.queue.length < c.cfg.hold then c.offerRecord (.idle c.idx)
  else ({ c with s := { c.s with state := .running } }.noteState .primed).playRunning

/-- The END of a drain at the context (06 R117); its Tag Map entry is removed with it (`State.endDrain`). -/
def Ctx.endDrain (c : Ctx) : Ctx :=
  { c.offerRecord (.ended c.idx) with
    s := { c.s with state := .off, base := none, history := historyNone, last := none, pathA := .unused, pathB := .unused,
                    run := 0, phase := none, drain := none } }.noteState .drained

/-- A playout event in DRAINING (06 R116, R117). -/
def Ctx.playDraining (c : Ctx) : Ctx := if c.s.queue ≠ [] then c.emitHead else c.endDrain

/-- The guard's countdown: the count falls by one, and the guard is removed when it reaches 0 (05 R89). -/
def Ctx.guardCountdown (c : Ctx) : Ctx :=
  match c.s.guard with
  | none => c
  | some g =>
    { c with s := { c.s with guard := if g.remaining ≤ 1 then none else some { g with remaining := g.remaining - 1 } } }

/-- A playout event, by the state it finds (06 R109 to R117). -/
def Ctx.playout (c : Ctx) : Ctx :=
  match c.s.state with
  | .off => c
  | .acquire => c
  | .priming => c.guardCountdown.playPriming
  | .running => c.guardCountdown.playRunning
  | .stalled => c.offerRecord (.idle c.idx)
  | .draining => c.playDraining

/-- Whether the next tick of the phase is a playout event (06 R108). -/
def Ctx.phaseWraps (c : Ctx) : Bool :=
  match c.s.phase with
  | none => false
  | some p => decide (c.cfg.divisor ≤ p + 1)

/-- The phase step: the phase rises by one; where the raise would reach k it becomes 0 and the playout event is made
(01 R18, 06 R108). -/
def Ctx.phaseStep (c : Ctx) : Ctx :=
  match c.s.phase with
  | none => c
  | some p =>
    if c.cfg.divisor ≤ p + 1 then { c with s := { c.s with phase := some 0 } }.playout
    else { c with s := { c.s with phase := some (p + 1) } }

/-- A cadence tick at a context: silence step, timer step, phase step, each on what the step before left (04 R63). -/
def Ctx.tick (c : Ctx) : Ctx := c.silenceStep.timerStep.phaseStep

/-! ## Ticks under way -/

/-- A record joins a round, in ascending stream index (06 R120). -/
def insertRecord (r : PlayRecord) : List PlayRecord → List PlayRecord
  | [] => [r]
  | v :: vs => if r.idx < v.idx then r :: v :: vs else v :: insertRecord r vs

/-- Context i has taken the oldest tick that waits for it, and its record, if any, joins that tick's round (06 R107, R120). -/
def takeTick (i : StreamIdx) (r : Option PlayRecord) : List Tick → List Tick
  | [] => []
  | t :: ts =>
    if i ∈ t.waiting then
      ⟨t.waiting.filter fun j => !decide (j = i), match r with | none => t.offered | some p => insertRecord p t.offered⟩ :: ts
    else t :: takeTick i r ts

/-- Whether a tick waits for context i. -/
def tickWaits (i : StreamIdx) (ts : List Tick) : Bool := ts.any fun t => decide (i ∈ t.waiting)

/-- The ticks without the contexts that `p` picks: an OFF stream takes no ticks (06 R107). -/
def dropWaiting (p : StreamIdx → Bool) (ts : List Tick) : List Tick :=
  ts.map fun t => { t with waiting := t.waiting.filter fun i => !p i }

/-- The Cadence Controller produces a tick: it is to reach every context that is not OFF (06 R107). -/
def State.produceTick (s : State) : State :=
  { s with ticks := s.ticks ++
      [⟨(List.finRange 32).filter fun i => !decide ((s.stream i).state = .off), []⟩] }

/-- A stream whose event ended its drain loses its Tag Map entry and is out of reach of the ticks under way (06 R117, R107). -/
def State.endDrain (s : State) (i : StreamIdx) : State :=
  if (s.stream i).state = .off then
    { s with tagMap := s.tagMap.filter fun p => !decide (p.2 = i), ticks := dropWaiting (fun j => decide (j = i)) s.ticks }
  else s

/-- Before an event that may end a drain, the frames delivered to the draining stream are taken and refused (01 R20; log 10). -/
def State.beforePlayout (s : State) (i : StreamIdx) : State :=
  if (s.stream i).state = .draining then s.settleDeliveries fun d => decide (d.stream = i) else s

/-- An event at context i that may offer a record: `f` is the event, `g` says how the record joins the ticks. -/
def State.playStream (s : State) (i : StreamIdx) (f : Ctx → Ctx) (g : Option PlayRecord → List Tick → List Tick) : State :=
  let s1 := s.beforePlayout i
  let c := f (s1.ctx i)
  { s1.put c (.stream i) with ticks := g c.record s1.ticks }.endDrain i

/-- Whether a block is the Cadence Controller. -/
def isCadence (b : Block) : Bool := decide (b = .cadence)

/-- STREAM_TICK (04 R63, 06 R107): a context that is not OFF takes the oldest tick that waits for it. With none waiting
nothing changes (log 2). The controller's notices offered before are taken first (10 R177; log 11). -/
def streamTick (i : StreamIdx) (s : State) : State :=
  if tickWaits i s.ticks ∧ (s.stream i).state ≠ .off then
    (s.takeOffers isCadence).playStream i Ctx.tick (takeTick i)
  else s

/-! ## Parts of a tick commanded alone (log 3) -/

/-- PATH_ABSENT (04 R74, R75): the silence step of one path, where it brings the count to P. -/
def pathAbsent (i : StreamIdx) (x : Path) (s : State) : State :=
  match (s.stream i).presence x with
  | .unused => s
  | .absent => s
  | .present n => if (s.inForce i).pathSilence ≤ n + 1 then s.onStream i fun c => c.silencePath x else s

/-- GAP_TIMER_EXPIRY (04 R64): the timer step, where it brings the remaining count to 0. -/
def gapTimerExpiry (i : StreamIdx) (s : State) : State :=
  match (s.stream i).timer with
  | none => s
  | some n => if n ≤ 1 then s.onStream i Ctx.expireTimer else s

/-- A record offered outside any tick under way opens a round of its own (log 4). -/
def ownRound (r : Option PlayRecord) (ts : List Tick) : List Tick :=
  match r with
  | none => ts
  | some p => ts ++ [⟨[], [p]⟩]

/-- PLAYOUT_EVENT (06 R109): the phase step, where the phase wraps to 0. -/
def playoutEvent (i : StreamIdx) (s : State) : State :=
  if (s.ctx i).phaseWraps then s.playStream i Ctx.phaseStep ownRound else s

/-- Whether the next playout event of a context is an underrun that stalls it (06 R113). -/
def Ctx.wouldStall (c : Ctx) : Bool :=
  decide (c.s.state = .running ∧ c.s.queue = [] ∧ c.s.window = [] ∧ c.s.base ≠ none ∧ c.cfg.stallLimit ≤ c.s.run + 1)

/-- STALL (06 R114): the playout event whose underrun brings the run to S. -/
def stall (i : StreamIdx) (s : State) : State :=
  if (s.ctx i).phaseWraps ∧ (s.ctx i).wouldStall then s.playStream i Ctx.phaseStep ownRound else s

/-- Whether the guard's next countdown removes it (05 R89). -/
def Ctx.guardEnds (c : Ctx) : Bool :=
  match c.s.state, c.s.guard with
  | .priming, some g => decide (g.remaining ≤ 1)
  | .running, some g => decide (g.remaining ≤ 1)
  | _, _ => false

/-- GUARD_EXPIRY (05 R89): the playout event whose countdown brings the guard's remaining count to 0. -/
def guardExpiry (i : StreamIdx) (s : State) : State :=
  if (s.ctx i).phaseWraps ∧ (s.ctx i).guardEnds then s.playStream i Ctx.phaseStep ownRound else s

/-! ## The Playout Port -/

/-- One offered record: it joins the FIFO's tail if fewer than 16 are held; else it is discarded and PORT_DROP is counted
at its stream (06 R120). The round is one event of the port, so the port offers what the counts create: such notices join in
ascending stream index (10 R177; log 11). -/
def State.placeRecord (s : State) (r : PlayRecord) : State :=
  if s.port.fifo.length < Config.fifoDepth then { s with port := { s.port with fifo := s.port.fifo ++ [r] } }
  else s.put ((s.ctx r.idx).count ctrPortDrop) .port

/-- Whether a block is the context of a stream that offered one of these records. -/
def offeredBy (rs : List PlayRecord) (b : Block) : Bool := rs.any fun r => decide (b = .stream r.idx)

/-- PLAYOUT_ROUND (06 R120): the round of the oldest tick under way, taken once every context that takes the tick has taken
it. Before that, and with no tick under way, there is no such event and nothing changes (log 2). -/
def playoutRound (s : State) : State :=
  match s.ticks with
  | [] => s
  | t :: ts =>
    if t.waiting = [] then
      t.offered.foldl State.placeRecord ({ s with ticks := ts }.takeOffers (offeredBy t.offered))
    else s

/-- A word transfer at the port: the next word, or the next record after the head's last word (06 R121). -/
def Port.transfer (p : Port) : Port :=
  match p.fifo with
  | [] => p
  | r :: rest => if p.pos + 1 < r.words.length then { p with pos := p.pos + 1 } else ⟨rest, 0⟩

/-- WORD_TRANSFER (06 R121): PO_READY while PO_VALID is asserted. While the FIFO is empty no transfer takes place. -/
def wordTransfer (s : State) : State := { s with port := s.port.transfer }

/-- The meaning of STREAM_TICK. -/
def execStreamTick (i : StreamIdx) (s : State) : Host.Outcome State Fault Refusal := .next (streamTick i s)

/-- The meaning of PATH_ABSENT. -/
def execPathAbsent (i : StreamIdx) (x : Path) (s : State) : Host.Outcome State Fault Refusal := .next (pathAbsent i x s)

/-- The meaning of GAP_TIMER_EXPIRY. -/
def execGapTimerExpiry (i : StreamIdx) (s : State) : Host.Outcome State Fault Refusal := .next (gapTimerExpiry i s)

/-- The meaning of PLAYOUT_EVENT. -/
def execPlayoutEvent (i : StreamIdx) (s : State) : Host.Outcome State Fault Refusal := .next (playoutEvent i s)

/-- The meaning of STALL. -/
def execStall (i : StreamIdx) (s : State) : Host.Outcome State Fault Refusal := .next (stall i s)

/-- The meaning of GUARD_EXPIRY. -/
def execGuardExpiry (i : StreamIdx) (s : State) : Host.Outcome State Fault Refusal := .next (guardExpiry i s)

/-- The meaning of PLAYOUT_ROUND. -/
def execPlayoutRound (s : State) : Host.Outcome State Fault Refusal := .next (playoutRound s)

/-- The meaning of WORD_TRANSFER. -/
def execWordTransfer (s : State) : Host.Outcome State Fault Refusal := .next (wordTransfer s)

end Sys2Proof.Machine
end

