-- ==== Sys2Proof/Machine/Cadence.lean ====
section
/-! DEFINITION. How a timer moves with the reference clock, and the Cadence Controller (06 R100 to R105): its start, an edge, the loss of cadence and the generator's tick. -/

namespace Sys2Proof.Machine

/-! ## Timers on the reference clock (log 8) -/

/-- A running timer that counts up to a limit, after `us` µs. -/
def countUp (limit us : Nat) (t : Option Nat) : Option Nat := t.map fun n => min limit (n + us)

/-- A running timer that counts down to 0, after `us` µs. -/
def countDown (us : Nat) (t : Option Nat) : Option Nat := t.map fun n => n - us

/-- A Link Receiver's silence timer after `us` µs (07 R123). -/
def LinkRx.elapse (us : Nat) (l : LinkRx) : LinkRx := { l with silence := countUp Config.silenceLimit us l.silence }

/-- The Cadence Controller's times after `us` µs (06 R100). -/
def Cadence.elapse (us : Nat) (c : Cadence) : Cadence :=
  { c with generator := countDown us c.generator, loss := countUp (2 * c.interval) us c.loss,
           edgeAge := countUp Config.edgeAgeCap us c.edgeAge }

/-- The µs a timer that counts up to a limit has left, if it runs. -/
def leftTo (limit : Nat) (t : Option Nat) : Option Nat := t.map fun n => limit - n

/-! ## The Cadence Controller -/

/-- The start of the Cadence Controller under a device record (06 R100). -/
def Cadence.start (d : DeviceRecord) : Cadence :=
  match d.cadenceSource with
  | .internal =>
    { state := .internal, interval := d.nominalInterval, generator := some d.nominalInterval, loss := none, edgeAge := none,
      restore := 0 }
  | .external =>
    { state := .extOk, interval := d.nominalInterval, generator := none, loss := some 0, edgeAge := none, restore := 0 }

/-- An edge taken as a tick in EXT_OK: it becomes the previous edge and the loss timer restarts from it (06 R102, R103). -/
def Cadence.edgeOk (c : Cadence) : Cadence :=
  { c with state := .extOk, generator := none, loss := some 0, edgeAge := some 0, restore := 0 }

/-- The restore count that an edge in EXT_LOST would give (06 R103). -/
def Cadence.countEdge (c : Cadence) : Nat :=
  match c.edgeAge with
  | none => 1
  | some age => if 2 * c.interval < age then 1 else c.restore + 1

/-- A rising CADENCE edge (06 R101, R102, R103). -/
def State.edge (s : State) : State :=
  match s.cadence.state with
  | .internal => s
  | .extOk => { s with cadence := s.cadence.edgeOk }.produceTick
  | .extLost =>
    if 4 ≤ s.cadence.countEdge then
      ({ s with cadence := s.cadence.edgeOk }.produceTick).offer .cadence s.deviceMask.cadence (.cadence .restored)
    else { s with cadence := { s.cadence with edgeAge := some 0, restore := s.cadence.countEdge } }

/-- The loss of cadence in EXT_OK: EXT_LOST with a fill tick at once, and the generator at I (06 R102). -/
def State.loseCadence (s : State) : State :=
  match s.cadence.state with
  | .internal => s
  | .extLost => s
  | .extOk =>
    ({ s with cadence := { s.cadence with state := .extLost, restore := 0, loss := none,
                                          generator := some s.cadence.interval } }.produceTick).offer
      .cadence s.deviceMask.cadence (.cadence .lost)

/-- The generator produces a tick, and its next falls I µs later (06 R101, R102). -/
def State.generate (s : State) : State :=
  { s with cadence := { s.cadence with generator := some s.cadence.interval } }.produceTick

end Sys2Proof.Machine
end

