-- ==== Sys2Proof/Machine/Links.lean ====
section
/-! DEFINITION. The Link Receivers (07 R123 to R136): framing, the link states, delivery, silence and the leaving-UP report; the command LINK_BYTE. -/

namespace Sys2Proof.Machine

/-- A Link Receiver at work within one event: its path, whether LINK_STATE is in the device mask, the receiver, the notices
created so far, the tag and items of the frame to deliver, if any, and whether the link has left UP. -/
structure LinkCtx where
  path    : Path
  mask    : Bool
  l       : LinkRx
  notes   : List Notice
  deliver : Option (Byte × Frame)
  leftUp  : Bool
  deriving DecidableEq, Repr

/-- A device notice of the link is created, if LINK_STATE is in the mask (07 R134, R135). -/
def LinkCtx.note (c : LinkCtx) (allowed : Bool) (n : Notice) : LinkCtx :=
  if allowed then { c with notes := c.notes ++ [n] } else c

/-- A link counter advances; the increment to 65535 creates a COUNTER_SATURATED notice subject to the mask (07 R135). -/
def LinkCtx.count (c : LinkCtx) (k : Fin 6) : LinkCtx :=
  { c with l := { c.l with counters := c.l.counters.set k c.l.counters[k].bump } }.note
    (c.mask && c.l.counters[k].atBrink) (.counterSaturated (.link c.path) k.val)

/-- A LINK_STATE notice for the state the link has now (07 R134). -/
def LinkCtx.noteState (c : LinkCtx) : LinkCtx := c.note c.mask (.linkState c.path c.l.state)

/-- A byte examined while SEEKING (07 R124). -/
def seekByte (b4 : Bool) (b : Byte) : LinkPos :=
  if b4 ∧ b = 0x6E then .inFrame [] else .seeking (decide (b = 0xB4))

/-- A byte at a framing position when no frame can end with it: the re-examination of a rejected frame's first bytes. -/
def reseek (p : LinkPos) (b : Byte) : LinkPos :=
  match p with
  | .seeking b4 => seekByte b4 b
  | .inFrame got => .inFrame (got ++ [b])

/-- A good frame's effect by the link state (07 R129, R130). -/
def LinkCtx.good (c : LinkCtx) (got : List Byte) : LinkCtx :=
  match c.l.state with
  | .down => c
  | .up => { c with l := { c.l with badRun := 0 }, deliver := some (frameTag got, frameItems got) }
  | .hunt =>
    if 2 ≤ c.l.goodRun + 1 then
      { { c with l := { c.l with state := .up, goodRun := c.l.goodRun + 1, badRun := 0 } }.noteState with
        deliver := some (frameTag got, frameItems got) }
    else { c with l := { c.l with goodRun := c.l.goodRun + 1 } }

/-- The entry to HUNT: the good run is 0 and HUNT_ENTRIES is counted, then the notice (07 R128, R130). -/
def LinkCtx.enterHunt (c : LinkCtx) : LinkCtx :=
  ({ c with l := { c.l with state := .hunt, goodRun := 0 } }.count lctrHuntEntries).noteState

/-- A bad frame's effect by the link state (07 R129, R130). -/
def LinkCtx.bad (c : LinkCtx) : LinkCtx :=
  match c.l.state with
  | .down => c
  | .hunt => { c with l := { c.l with goodRun := 0 } }
  | .up =>
    let c1 := { c with l := { c.l with badRun := c.l.badRun + 1 } }
    if 4 ≤ c.l.badRun + 1 then { c1.enterHunt with leftUp := true } else c1

/-- The framing position is set. -/
def LinkCtx.setPos (c : LinkCtx) (p : LinkPos) : LinkCtx := { c with l := { c.l with pos := p } }

/-- A format error: counted, the frame is bad, and its four bytes are examined again for a sync pattern (07 R125). -/
def LinkCtx.formatError (c : LinkCtx) (got : List Byte) : LinkCtx :=
  ((c.count lctrFormatErr).bad).setPos (got.foldl reseek (.seeking false))

/-- The check of a frame of valid length at its last CRC byte (07 R126). -/
def LinkCtx.checkFrame (c : LinkCtx) (got : List Byte) : LinkCtx :=
  let c1 := c.setPos (.seeking false)
  if frameCrcGood got then (c1.count lctrGood).good got else (c1.count lctrCrcErr).bad

/-- A byte taken within a frame; `got` is the frame's bytes with it (07 R125). -/
def LinkCtx.frameByte (c : LinkCtx) (got : List Byte) : LinkCtx :=
  if got.length < 4 then c.setPos (.inFrame got)
  else if frameCount got = 0 ∨ 16 < frameCount got then c.formatError got
  else if got.length < frameLength (frameCount got) then c.setPos (.inFrame got)
  else c.checkFrame got

/-- A byte judged by the framing position (07 R124, R125). -/
def LinkCtx.judge (c : LinkCtx) (b : Byte) : LinkCtx :=
  match c.l.pos with
  | .seeking b4 => c.setPos (seekByte b4 b)
  | .inFrame got => c.frameByte (got ++ [b])

/-- A received byte: in HUNT and UP it restarts the silence timer (07 R123); in DOWN it first moves the link to HUNT, the
timer starting at 0 (07 R128). Then the byte is judged. -/
def LinkCtx.byte (c : LinkCtx) (b : Byte) : LinkCtx :=
  let c1 := { c with l := { c.l with silence := some 0 } }
  match c.l.state with
  | .down => (c1.setPos (.seeking false)).enterHunt.judge b
  | .hunt => c1.judge b
  | .up => c1.judge b

/-- The silence timer reaches 1 ms in HUNT or UP (07 R131). -/
def LinkCtx.silent (c : LinkCtx) : LinkCtx :=
  match c.l.state with
  | .down => c
  | .hunt | .up =>
    let c1 := { c with l := { c.l with pos := .seeking false, goodRun := 0, badRun := 0, silence := none, state := .down } }
    { (c1.count lctrDownEntries).noteState with leftUp := decide (c.l.state = .up) }

/-! ## The event at the whole part -/

/-- Link Receiver x at the start of an event. -/
def State.linkCtx (s : State) (x : Path) : LinkCtx :=
  { path := x, mask := s.deviceMask.linkState, l := s.link x, notes := [], deliver := none, leftUp := false }

/-- The stream a tag names in the Tag Map (01 R20). -/
def State.lookup (s : State) (tag : Byte) : Option StreamIdx :=
  (s.tagMap.find? fun p => decide (p.1 = tag)).map Prod.snd

/-- The delivery of a frame at a link: a mapped tag hands the frame to its stream; an unmapped one counts STRAY_TAG (07 R132). -/
def LinkCtx.strayTag (c : LinkCtx) (s : State) : LinkCtx :=
  match c.deliver with
  | none => c
  | some (tag, _) => if s.lookup tag = none then c.count lctrStrayTag else c

/-- The delivery that a frame at a link gives (07 R132). -/
def LinkCtx.delivered (c : LinkCtx) (s : State) : List Delivery :=
  match c.deliver with
  | none => []
  | some (tag, f) =>
    match s.lookup tag with
    | none => []
    | some i => [⟨c.path, i, f⟩]

/-- A link's event put back: the receiver, its notices offered, its delivery and its report to all 32 contexts (07 R133). -/
def State.putLink (s : State) (c0 : LinkCtx) : State :=
  let c := c0.strayTag s
  let s1 := s.setLink c.path c.l
  { s1 with
    offers := s.offers ++ c.notes.map (Offer.own (.link c.path))
    deliveries := s.deliveries ++ c.delivered s
    reports := s.reports ++ (if c.leftUp then (List.finRange 32).map fun i => (c.path, i) else []) }

/-- LINK_BYTE (07 R123). -/
def linkByte (x : Path) (b : Byte) (s : State) : State := s.putLink ((s.linkCtx x).byte b)

/-- The silence timer of link x, which runs in HUNT and UP, reaches 1 ms (07 R131). -/
def State.linkSilent (s : State) (x : Path) : State := s.putLink (s.linkCtx x).silent

/-- Link Receiver x's counters and marks cleared (07 R136). -/
def LinkRx.clearCounters (l : LinkRx) : LinkRx := { l with counters := Vector.replicate 6 Counter.zero }

/-- The result of READ_LINK: the runs read as 0 in the states that do not use them (07 R136, 11 R195). DESIGN CHOICE (log 28):
R195 gives the link state byte no code; it takes those of the LINK_STATE notice (11 R196). -/
def linkResult (l : LinkRx) : List Byte :=
  [linkStateCode l.state, if l.state = .hunt then nat8 l.goodRun else 0, if l.state = .up then nat8 l.badRun else 0] ++
  sixCounterBlock l.counters

/-- The meaning of LINK_BYTE. -/
def execLinkByte (x : Path) (b : Byte) (s : State) : Host.Outcome State Fault Refusal := .next (linkByte x b s)

end Sys2Proof.Machine
end

