-- ==== Sys2Proof/Machine/Session.lean ====
section
/-! DEFINITION. The Configuration Controller: the token, the edit session, its expiry, the cross-record checks and the apply step of a commit (08 R138 to R155). -/

namespace Sys2Proof.Machine

/-- What a request is answered with: a status, a result, and whether the reply authorises a RESTART (09 R163, R170). -/
structure Answer where
  status  : Status
  result  : List Byte
  restart : Bool
  deriving DecidableEq, Repr

/-- An answer with a status and no result. -/
def Answer.only (st : Status) : Answer := ⟨st, [], false⟩

/-- OK with a result. -/
def Answer.okWith (result : List Byte) : Answer := ⟨.ok, result, false⟩

/-! ## The token -/

/-- Whether a token matches: both halves are compared (08 R140). -/
def State.tokenMatches (s : State) (generation : Word) (key : Byte) : Bool :=
  decide (generation = s.generation) && decide (key = s.key)

/-- A session ends without a notice: staged set and timer cease to exist (08 R144, R146). -/
def State.closeSession (s : State) : State := { s with session := none }

/-! ## Sessions and staging -/

/-- OPEN_EDIT (08 R141): a session open, then the token. -/
def openEdit (body : List Byte) (s : State) : State × Answer :=
  match s.session with
  | some _ => (s, .only .sessionBusy)
  | none =>
    if s.tokenMatches (wordAt body 0) (byteAt body 2) then
      ({ s with session := some ⟨s.active, s.active.device.editWindow * 1000⟩ },
       .okWith (nat16 s.active.device.editWindow))
    else (s.countMgmt mctrTokenFail, .only .badToken)

/-- STAGE_STREAM (08 R142). -/
def stageStream (body : List Byte) (s : State) : State × Answer :=
  match s.session with
  | none => (s, .only .noSession)
  | some e =>
    match streamIdxOf (byteAt body 0) with
    | none => (s, .only .badIndex)
    | some i =>
      match firstFailing (streamRecordChecks (body.drop 1)) with
      | some n => (s, .only (.badValue n))
      | none =>
        ({ s with session := some { e with
             staged := e.staged.setRecord i (streamRecordOf (body.drop 1)) } }, .okWith [])

/-- STAGE_DEVICE (08 R143). -/
def stageDevice (body : List Byte) (s : State) : State × Answer :=
  match s.session with
  | none => (s, .only .noSession)
  | some e =>
    match firstFailing (deviceRecordChecks body) with
    | some n => (s, .only (.badValue n))
    | none => ({ s with session := some { e with staged := { e.staged with device := deviceRecordOf body } } }, .okWith [])

/-- DISCARD_EDIT (08 R144). -/
def discardEdit (_body : List Byte) (s : State) : State × Answer :=
  match s.session with
  | none => (s, .only .noSession)
  | some _ => (s.closeSession, .okWith [])

/-- The edit timer's expiry: the session closes, with its EDIT_EXPIRED notice (08 R145). -/
def State.editExpired (s : State) : State := s.closeSession.offer .config s.deviceMask.editExpired .editExpired

/-! ## Each stream's change at a commit (08 R149) -/

/-- The changes of 08 R149. -/
inductive Change where
  | keep
  | store
  | renew (cause : Cause)
  | inPlace
  | drainEntry
  | cut
  deriving DecidableEq, Repr

/-- Whether a restart-class field differs: TAG, WORDS, WINDOW, DIVISOR or PATHS (01 R4). -/
def restartClassDiffers (a b : StreamRecord) : Bool :=
  decide (a.tag ≠ b.tag ∨ a.words ≠ b.words ∨ a.window ≠ b.window ∨ a.divisor ≠ b.divisor ∨ a.paths ≠ b.paths)

/-- The change of a live stream (ACQUIRE, PRIMING, RUNNING or STALLED). -/
def liveChange (old new : StreamRecord) : Change :=
  if new.enable then
    if restartClassDiffers old new then .renew .reconfigured else if new = old then .keep else .inPlace
  else
    match new.stopMode with
    | .drain => .drainEntry
    | .cut => .cut

/-- A stream's change, from its state, its active record and its staged record (08 R149). -/
def changeOf (st : StreamState) (old new : StreamRecord) : Change :=
  match st with
  | .off => if new.enable then .renew .enabled else .store
  | .draining =>
    if new.enable then .renew .enabled
    else
      match new.stopMode with
      | .drain => .store
      | .cut => .cut
  | .acquire => liveChange old new
  | .priming => liveChange old new
  | .running => liveChange old new
  | .stalled => liveChange old new

/-- Stream i's change under a staged set. -/
def State.change (s : State) (new : ConfigSet) (i : StreamIdx) : Change :=
  changeOf (s.stream i).state (s.active.record i) (new.record i)

/-- The record in force for stream i after the commit (01 R3, R5): the old active record for a stream entering DRAINING, the
drain record for one staying DRAINING, the staged record otherwise. -/
def State.recordAfter (s : State) (new : ConfigSet) (i : StreamIdx) : StreamRecord :=
  match s.change new i with
  | .drainEntry => s.active.record i
  | .store => if (s.stream i).state = .draining then s.inForce i else new.record i
  | .keep => new.record i
  | .renew _ => new.record i
  | .inPlace => new.record i
  | .cut => new.record i

/-- Whether stream i would be OFF after the commit. -/
def State.offAfter (s : State) (new : ConfigSet) (i : StreamIdx) : Bool :=
  match s.change new i with
  | .store => decide ((s.stream i).state ≠ .draining)
  | .cut => true
  | .keep => false
  | .renew _ => false
  | .inPlace => false
  | .drainEntry => false

/-- Whether stream i would stay DRAINING. -/
def State.staysDraining (s : State) (new : ConfigSet) (i : StreamIdx) : Bool :=
  decide (s.change new i = .store ∧ (s.stream i).state = .draining)

/-! ## The cross-record checks (08 R147, 02 R30) -/

/-- The first stream of a list whose tag an earlier one has. -/
def firstDuplicate : List (StreamIdx × Byte) → List Byte → Option StreamIdx
  | [], _ => none
  | (i, t) :: rest, seen => if t ∈ seen then some i else firstDuplicate rest (t :: seen)

/-- TAG_DUPLICATE: over the streams with staged ENABLE 1 or entering DRAINING, in ascending index. -/
def State.tagDuplicate (s : State) (new : ConfigSet) : Option StreamIdx :=
  firstDuplicate (((List.finRange 32).filter fun i => !s.offAfter new i && !s.staysDraining new i).map
    fun i => (i, (s.recordAfter new i).tag)) []

/-- TAG_BUSY: the lowest stream with staged ENABLE 1 that has the tag of a stream that stays DRAINING. -/
def State.tagBusy (s : State) (new : ConfigSet) : Option StreamIdx :=
  let busy := ((List.finRange 32).filter fun j => s.staysDraining new j).map fun j => (s.recordAfter new j).tag
  (List.finRange 32).find? fun i => (new.record i).enable && decide ((new.record i).tag ∈ busy)

/-- The first stream of a list at which the running total exceeds 512. -/
def firstOver : List (StreamIdx × Nat) → Nat → Option StreamIdx
  | [], _ => none
  | (i, n) :: rest, total => if Config.slots < total + n then some i else firstOver rest (total + n)

/-- BUDGET: WINDOW plus TRIM over the streams that would not be OFF, in ascending index (02 R30). -/
def State.overBudget (s : State) (new : ConfigSet) : Option StreamIdx :=
  firstOver (((List.finRange 32).filter fun i => !s.offAfter new i).map
    fun i => (i, (s.recordAfter new i).window + (s.recordAfter new i).trim)) 0

/-- The first cross-record check that fails, with its stream (08 R147). -/
def State.crossCheck (s : State) (new : ConfigSet) : Option (ConfigReason × StreamIdx) :=
  match s.tagDuplicate new with
  | some i => some (.tagDuplicate, i)
  | none =>
    match s.tagBusy new with
    | some i => some (.tagBusy, i)
    | none => (s.overBudget new).map fun i => (.budget, i)

/-! ## The apply step at a context (08 R150 to R153) -/

/-- One position of drain forwarding: a held position is released, a missing one substituted with SUBST_PUSH; neither is
trimmed at its insertion (08 R151). -/
def Ctx.forwardOne (c : Ctx) : Ctx :=
  match c.s.base with
  | none => c
  | some e =>
    match c.s.heldAt e with
    | some w => (((c.removeHeld e).append (.real e w.q w.words)).advance .real).count ctrReleased
    | none => ((c.append (.subst e)).advance .substituted).count ctrSubstPush

/-- `n` positions of drain forwarding. -/
def Ctx.forward : Nat → Ctx → Ctx
  | 0, c => c
  | n + 1, c => Ctx.forward n c.forwardOne

/-- The positions that drain forwarding covers: from E to the held entry at the greatest distance (08 R151). -/
def Stream.forwardSpan (s : Stream) : Nat :=
  match s.base with
  | none => 0
  | some e => s.window.foldl (fun n w => max n (dist w.seq e + 1)) 0

/-- The base a stream takes on leaving ACQUIRE for DRAINING: its candidate's sequence number, or 0 (08 R151). -/
def Ctx.drainBase (c : Ctx) : Ctx :=
  if c.s.state = .acquire then
    { c with s := { c.s with base := some ((c.s.acq.map AcqCandidate.seq).getD 0) } }
  else c

/-- The entry to DRAINING; the record in force becomes the drain record (08 R151). -/
def Ctx.enterDrain (c : Ctx) : Ctx :=
  let c1 := c.drainBase.freeAcq.freeJump
  let c2 := { c1 with s := { c1.s with drain := some c1.cfg, guard := none, timer := none } }
  let n := c2.s.forwardSpan
  let c3 := if c2.cfg.trim + c2.cfg.window - 1 < c2.s.queue.length + n then c2.dropHead else c2
  let c4 := Ctx.forward n c3
  { c4 with s := { c4.s with state := .draining } }.noteState .disabled

/-- The cut to OFF (08 R152). -/
def Ctx.cutOff (c : Ctx) : Ctx :=
  let c1 := c.flushWindow.flushQueue.freeAcq.freeJump
  { c1 with s := c1.s.toOff }.noteState .disabled

/-- An in-place change trims the queue at once to a lowered TRIM (08 R153). -/
def Ctx.trimToTrim (c : Ctx) : Ctx := c.dropHeads (c.s.queue.length - c.cfg.trim)

/-- A change at a context, under the record in force after the commit (08 R149). -/
def Change.apply (ch : Change) (c : Ctx) : Ctx :=
  match ch with
  | .keep => c
  | .store => c
  | .renew cause => c.renew.noteState cause
  | .inPlace => c.trimToTrim
  | .drainEntry => c.enterDrain
  | .cut => c.cutOff

/-- Stream i's change is applied; its notices are offered with the commit's (08 R148). -/
def State.applyStream (new : ConfigSet) (s : State) (i : StreamIdx) : State :=
  s.put ((s.change new i).apply { s.ctx i with cfg := s.recordAfter new i }) .config

/-! ## The commit (08 R146, R148) -/

/-- The Tag Map rebuilt from the streams that are not OFF (08 R154). -/
def State.rebuildTagMap (s : State) : State :=
  { s with tagMap := (List.finRange 32).filterMap fun i =>
      if (s.stream i).state = .off then none else some ((s.inForce i).tag, i) }

/-- The device record committed takes effect on the Cadence Controller (08 R155, 06 R105). -/
def cadenceAfter (c : Cadence) (old new : DeviceRecord) : Cadence :=
  if old.cadenceSource ≠ new.cadenceSource ∨ old.nominalInterval ≠ new.nominalInterval then Cadence.start new else c

/-- The streams that are OFF are out of reach of the ticks under way (06 R107). -/
def State.dropOffWaiting (s : State) : State :=
  { s with ticks := dropWaiting (fun i => decide ((s.stream i).state = .off)) s.ticks }

/-- Whether a block is a stream context or the Configuration Controller: the blocks whose notices a commit creates. -/
def isStreamOrConfig (b : Block) : Bool :=
  match b with
  | .stream _ => true
  | .config => true
  | .link _ => false
  | .cadence => false
  | .port => false

/-- What precedes a commit's event: the deliveries taken before it (01 R20; log 10), and the notices its blocks offered
before it (10 R177; log 11). -/
def State.beforeCommit (s : State) : State := (s.settleDeliveries fun _ => true).takeOffers isStreamOrConfig

/-- The apply step (08 R148): the contexts in ascending index, the active set, the Tag Map, the device record, the
generation and the key, the session. -/
def State.applyCommit (s : State) (new : ConfigSet) (key : Byte) : State :=
  let s1 := (List.finRange 32).foldl (State.applyStream new) s
  let s2 := ({ s1 with active := new }.rebuildTagMap).dropOffWaiting
  { s2 with
    cadence := cadenceAfter s.cadence s.active.device new.device
    generation := nextGeneration s.generation
    key := key
    session := none }.offer .config new.device.noticeMask.committed (.committed (nextGeneration s.generation))

/-- COMMIT_EDIT (08 R146). -/
def commitEdit (body : List Byte) (s : State) : State × Answer :=
  match s.session with
  | none => (s, .only .noSession)
  | some e =>
    if s.tokenMatches (wordAt body 0) (byteAt body 2) then
      match s.crossCheck e.staged with
      | some (reason, i) => (s, .only (.badConfig reason i))
      | none =>
        (s.beforeCommit.applyCommit e.staged (byteAt body 3), .okWith (bytes16 (nextGeneration s.generation)))
    else (s.closeSession.countMgmt mctrTokenFail, .only .badToken)

/-- RESTART at the Configuration Controller (08 R156, 09 R170): a matching token makes the RESTART pending; another is
answered BAD_TOKEN and closes an open session. -/
def restartRequest (body : List Byte) (s : State) : State × Answer :=
  if s.tokenMatches (wordAt body 0) (byteAt body 2) then
    ({ s with mgmt := { s.mgmt with restartPending := true } }, ⟨.ok, [], true⟩)
  else (s.closeSession.countMgmt mctrTokenFail, .only .badToken)
end Sys2Proof.Machine
end

