-- ==== Sys2Proof/Machine/Resets.lean ====
section
/-! DEFINITION. The three kinds of reset (01 R23, 02 R32, 06 R106 and R122, 07 R137, 08 R157, 09 R171, R172, R174, 10 R186); the commands POWER_ON and HARD_RESET. -/

namespace Sys2Proof.Machine

/-- The rate that the sampled straps give (09 R158). -/
def rateOfStraps (rate1 rate0 : Bool) : LineRate :=
  match rate1, rate0 with
  | false, false => .baud115200
  | false, true => .baud460800
  | true, false => .baud921600
  | true, true => .baud115200

/-- POWER_ON (01 R23): every block takes its power-on values; the commands still waiting stay. -/
def powerOn (rate1 rate0 : Bool) (s : State) : State :=
  { State.fresh .powerOn (rateOfStraps rate1 rate0) with pending := s.pending }

/-- HARD_RESET (00 R1): RESET_N low and released as one event (log 18). -/
def hardReset (rate1 rate0 : Bool) (s : State) : State :=
  { State.fresh .hard (rateOfStraps rate1 rate0) with pending := s.pending }

/-- A context when a RESTART takes effect, under the record in force: renewed, or OFF if it was DRAINING; its counters kept
(01 R23). -/
def Stream.restarted (s : Stream) (cfg : StreamRecord) : Stream :=
  match s.state with
  | .off => s
  | .draining => s.toOff
  | .acquire => s.renewed cfg.paths
  | .priming => s.renewed cfg.paths
  | .running => s.renewed cfg.paths
  | .stalled => s.renewed cfg.paths

/-- A Link Receiver when a RESTART takes effect: HUNT with the timer at 0, its counters kept (07 R137). -/
def LinkRx.restarted (l : LinkRx) : LinkRx := { LinkRx.reset with state := .hunt, silence := some 0, counters := l.counters }

/-- The management side when a RESTART takes effect (09 R171, R174): rate and counters kept. -/
def Mgmt.restarted (m : Mgmt) : Mgmt := { Mgmt.reset m.rate .restart with counters := m.counters }

/-- The ticks under way when a RESTART takes effect: contexts that are not OFF then still take them, on the reset state; the
records offered in them are gone (06 R122; log 19). -/
def ticksRestarted (off : StreamIdx → Bool) (ts : List Tick) : List Tick :=
  (dropWaiting off ts).map fun t => { t with offered := [] }

/-- What precedes the RESTART's event: the frames delivered before it are handled on the state before it (07 R137), and the
notices created before it join the queue or are lost and counted (09 R173). -/
def State.beforeRestart (s : State) : State := (s.settleDeliveries fun _ => true).takeOffers fun _ => true

/-- A RESTART takes effect: every block in one event (09 R171, R172). -/
def State.restartNow (s : State) : State :=
  { s with
    streams := Vector.ofFn fun i => (s.stream i).restarted (s.inForce i)
    session := none
    tagMap := s.tagMap.filter fun p => !decide ((s.stream p.2).state = .draining)
    free := Config.slots
    cadence := Cadence.start s.active.device
    port := ⟨[], 0⟩
    linkA := s.linkA.restarted
    linkB := s.linkB.restarted
    mgmt := s.mgmt.restarted
    notices := NoticeUnit.reset .restart
    deliveries := []
    reports := []
    ticks := ticksRestarted (fun i => decide ((s.stream i).state = .off ∨ (s.stream i).state = .draining)) s.ticks
    offers := []
    goodReports := 0 }

/-- The meaning of POWER_ON. -/
def execPowerOn (rate1 rate0 : Bool) (s : State) : Host.Outcome State Fault Refusal := .next (powerOn rate1 rate0 s)

/-- The meaning of HARD_RESET. -/
def execHardReset (rate1 rate0 : Bool) (s : State) : Host.Outcome State Fault Refusal := .next (hardReset rate1 rate0 s)

end Sys2Proof.Machine
end

