-- ==== Sys2Proof/Machine/Management.lean ====
section
/-! DEFINITION. The management link (09): the Management Receiver, the Request Controller with the fourteen requests and UNKNOWN_KIND, and the Transmitter's completion; the commands MGMT_BYTE, the requests and TRANSMISSION_COMPLETE. -/

namespace Sys2Proof.Machine

/-! ## The Management Receiver (09 R159 to R161) -/

/-- A good frame: reported to the Notice Unit, then offered to the request buffer, which drops it as overrun when full (09 R161). -/
def State.goodRequest (s : State) (f : MgmtFrame) : State :=
  let s1 := { s with goodReports := s.goodReports + 1 }
  if s.mgmt.requests.length < Config.requestDepth then { s1 with mgmt := { s1.mgmt with requests := s1.mgmt.requests ++ [f] } }
  else s1.countMgmt mctrOverrun

/-- Whether a LEN byte is valid: 3..250 (09 R159). DESIGN CHOICE (log 29): R159 also says that a LEN byte of A7h begins a new
frame; A7h is 167, within 3..250, and fixes the length of the frame it stands in. -/
def lenOk (len : Byte) : Bool := inRange 3 250 len.toNat

/-- Whether a complete frame's CRC matches; `rest` begins with its LEN byte (09 R161). -/
def mgmtCrcGood (rest : List Byte) : Bool :=
  let n := (byteAt rest 0).toNat + 1
  decide (crc16 (rest.take n) = wordAt rest n)

/-- A complete frame's KIND, REQID and body; `rest` begins with its LEN byte. -/
def mgmtItems (rest : List Byte) : MgmtFrame :=
  { kind := byteAt rest 1, reqid := byteAt rest 2, body := (rest.drop 3).take ((byteAt rest 0).toNat - 2) }

/-- The bytes taken since HUNTING, examined in order as HUNTING bytes (09 R159, R161). An A7h begins a frame; an invalid LEN
byte is itself examined as a HUNTING byte; an incomplete frame stays within the receiver; the bytes after the A7h of a frame
that fails its check are examined again. DESIGN CHOICE (log 30): after a good frame found among bytes under re-examination, the
bytes left of them are examined before the next byte from the line. Each call drops at least one byte, so the length bounds
their number. -/
def State.examine : Nat → List Byte → State → State
  | 0, _, s => s
  | _ + 1, [], s => s
  | n + 1, b :: rest, s =>
    if b = 0xA7 then
      match rest with
      | [] => { s with mgmt := { s.mgmt with rx := some [] } }
      | len :: _ =>
        if lenOk len = false then State.examine n rest s
        else if rest.length < len.toNat + 3 then { s with mgmt := { s.mgmt with rx := some rest } }
        else if mgmtCrcGood rest then State.examine n (rest.drop (len.toNat + 3)) (s.goodRequest (mgmtItems rest))
        else State.examine n rest (s.countMgmt mctrBadFrame)
    else State.examine n rest s

/-- The bytes an examination takes: the byte alone while HUNTING; after the SYNC and the bytes so far within a frame. -/
def rxBytes (rx : Option (List Byte)) (b : Byte) : List Byte :=
  match rx with
  | none => [b]
  | some got => 0xA7 :: (got ++ [b])

/-- The byte-gap timer runs, at 0, exactly within a frame (09 R159). -/
def Mgmt.restartGap (m : Mgmt) : Mgmt := { m with byteGap := if m.rx.isSome then some 0 else none }

/-- A byte at the Management Receiver (09 R159). -/
def State.takeMgmtByte (s : State) (b : Byte) : State :=
  let bytes := rxBytes s.mgmt.rx b
  let s1 := State.examine bytes.length bytes { s with mgmt := { s.mgmt with rx := none } }
  { s1 with mgmt := s1.mgmt.restartGap }

/-- MGMT_BYTE (09 R159); a character whose stop bit is not found is not taken as a byte (09 R158). -/
def mgmtByte (b : Byte) (stop : Bool) (s : State) : State := if stop then s.takeMgmtByte b else s

/-- The byte-gap timer of a frame being received passes 5 ms: the frame is abandoned (09 R160). -/
def State.abandonFrame (s : State) : State :=
  { s with mgmt := { s.mgmt with rx := none, byteGap := none } }.countMgmt mctrAbandoned

/-! ## The Request Controller (09 R162, R163) -/

/-- Whether the controller may take a request: none in progress, room in the reply queue, no RESTART pending (09 R162). -/
def Mgmt.mayTake (m : Mgmt) : Bool :=
  m.inProgress.isNone && decide (m.replies.length < Config.replyDepth) && !m.restartPending

/-- The request at the head of the buffer, if the controller may take it and its KIND is one that `p` picks. -/
def State.nextRequest (s : State) (p : Byte → Bool) : Option MgmtFrame :=
  if s.mgmt.mayTake then s.mgmt.requests.head?.filter fun f => p f.kind else none

/-- The request is taken: it leaves the buffer and is in progress. Its frame's good-frame report precedes it (10 R182; log 12). -/
def State.beginRequest (s : State) (f : MgmtFrame) : State :=
  { s with mgmt := { s.mgmt with requests := s.mgmt.requests.tail, inProgress := some f } }.settleReports

/-- The reply's KIND: the request's with bit 7 set (09 R163). -/
def replyKind (kind : Byte) : Byte := kind ||| 0x80

/-- The reply joins the reply queue, the request in progress ends, and an idle Transmitter chooses (09 R162, R165). -/
def State.endRequest (s : State) (f : MgmtFrame) (a : Answer) : State :=
  { s with mgmt := { s.mgmt with
      inProgress := none
      replies := s.mgmt.replies ++ [Reply.mk (replyKind f.kind) f.reqid a.status a.result a.restart] } }.choose

/-- A request of a kind with a fixed body length is taken, judged and answered (09 R163). With no such request to take there is
no such event and nothing changes (log 2). -/
def State.serve (s : State) (kind : Byte) (len : Nat) (h : List Byte → State → State × Answer) : State :=
  match s.nextRequest fun k => decide (k = kind) with
  | none => s
  | some f =>
    let s1 := s.beginRequest f
    if f.body.length = len then (h f.body s1).1.endRequest f (h f.body s1).2
    else s1.endRequest f (.only (.badLength len))

/-! ## The requests at the blocks they address -/

/-- IDENTIFY (09 R166, 11 R195). -/
def identify (_body : List Byte) (s : State) : State × Answer :=
  (s, .okWith (bytes16 Config.partCode ++ [Config.revision] ++ bytes16 s.generation ++
    [resetCauseCode s.mgmt.resetCause, boolCode s.session.isSome] ++ nat16 s.free ++ [cadenceStateCode s.cadence.state]))

/-- The drain part of a READ_STREAM result: the flag and the record, or 17 bytes of 00h (11 R195). -/
def drainPart (r : Option StreamRecord) : List Byte :=
  match r with
  | none => List.replicate 17 0
  | some d => 1 :: streamRecordBody d

/-- The drain record that READ_STREAM carries with selector ACTIVE: that of a DRAINING stream (09 R167). -/
def State.drainRead (s : State) (i : StreamIdx) : Option StreamRecord :=
  if (s.stream i).state = .draining then (s.stream i).drain else none

/-- READ_STREAM (09 R167). -/
def readStream (body : List Byte) (s : State) : State × Answer :=
  match streamIdxOf (byteAt body 0) with
  | none => (s, .only .badIndex)
  | some i =>
    let status := statusBody (s.inForce i).pathSilence (s.stream i)
    match flagOf (byteAt body 1) with
    | none => (s, .only (.badValue 1))
    | some false => (s, .okWith (streamRecordBody (s.active.record i) ++ drainPart (s.drainRead i) ++ status))
    | some true =>
      match s.session with
      | none => (s, .only .noSession)
      | some e => (s, .okWith (streamRecordBody (e.staged.record i) ++ drainPart none ++ status))

/-- A stream's counters and marks cleared (01 R22). -/
def State.clearStreamCounters (s : State) (i : StreamIdx) : State :=
  s.setStream i { s.stream i with counters := Vector.replicate 24 Counter.zero }

/-- READ_COUNTERS (01 R22). -/
def readCounters (body : List Byte) (s : State) : State × Answer :=
  match streamIdxOf (byteAt body 0) with
  | none => (s, .only .badIndex)
  | some i =>
    match flagOf (byteAt body 1) with
    | none => (s, .only (.badValue 1))
    | some clear => (if clear then s.clearStreamCounters i else s, .okWith (streamCounterBlock (s.stream i).counters))

/-- READ_LINK (07 R136). -/
def readLink (body : List Byte) (s : State) : State × Answer :=
  match linkOf (byteAt body 0) with
  | none => (s, .only .badIndex)
  | some x =>
    match flagOf (byteAt body 1) with
    | none => (s, .only (.badValue 1))
    | some clear => (if clear then s.setLink x (s.link x).clearCounters else s, .okWith (linkResult (s.link x)))

/-- READ_DEVICE (09 R168). -/
def readDevice (body : List Byte) (s : State) : State × Answer :=
  match flagOf (byteAt body 0) with
  | none => (s, .only (.badValue 0))
  | some false => (s, .okWith (deviceRecordBody s.active.device))
  | some true =>
    match s.session with
    | none => (s, .only .noSession)
    | some e => (s, .okWith (deviceRecordBody e.staged.device))

/-- READ_MGMT (09 R169). -/
def readMgmt (body : List Byte) (s : State) : State × Answer :=
  match flagOf (byteAt body 0) with
  | none => (s, .only (.badValue 0))
  | some clear =>
    (if clear then { s with mgmt := { s.mgmt with counters := Vector.replicate 6 Counter.zero } } else s,
     .okWith (sixCounterBlock s.mgmt.counters))

/-- FORCE_RESYNC (05 R92): the reply carries the state found. -/
def forceResync (body : List Byte) (s : State) : State × Answer :=
  match streamIdxOf (byteAt body 0) with
  | none => (s, .only .badIndex)
  | some i =>
    match (s.stream i).state with
    | .off => (s, .only (.wrongState .off))
    | .draining => (s, .only (.wrongState .draining))
    | .acquire => (s.onStream i Ctx.force, .okWith [streamStateCode .acquire])
    | .priming => (s.onStream i Ctx.force, .okWith [streamStateCode .priming])
    | .running => (s.onStream i Ctx.force, .okWith [streamStateCode .running])
    | .stalled => (s.onStream i Ctx.force, .okWith [streamStateCode .stalled])

/-- ACK_NOTICE (10 R181). DESIGN CHOICE (log 31): taken with QUIET set, which R182 says cannot be and which the orders of R185
reach, it retires as ever and leaves QUIET set. -/
def ackNotice (body : List Byte) (s : State) : State × Answer :=
  match s.notices.acked (byteAt body 0) with
  | none => (s, .only .notInFlight)
  | some k => ({ s with notices := s.notices.retire k s.mgmt.tx }, .okWith [])

/-- Whether a KIND is one of the fourteen request kinds, 01h..0Eh (11 R191). -/
def isRequestKind (k : Byte) : Bool := inRange 1 14 k.toNat

/-- UNKNOWN_KIND (09 R163): a request taken whose KIND is no request kind. -/
def unknownKind (s : State) : State :=
  match s.nextRequest fun k => !isRequestKind k with
  | none => s
  | some f => (s.beginRequest f).endRequest f (.only .unknownKind)

/-! ## The Transmitter (09 R165) -/

/-- The Transmitter is idle. -/
def State.idleTx (s : State) : State := { s with mgmt := { s.mgmt with tx := none } }

/-- TRANSMISSION_COMPLETE (09 R165): the frame in transmission is complete; a notice's completion goes to the Notice Unit
(10 R180), that of a RESTART's reply makes the RESTART take effect (09 R170); then the Transmitter chooses again. With nothing
in transmission it only chooses (log 2). -/
def transmissionComplete (s : State) : State :=
  match s.mgmt.tx with
  | none => s.choose
  | some (.reply r) => if r.restart then s.beforeRestart.restartNow.choose else s.idleTx.choose
  | some (.notice e _) => { s with notices := s.notices.completed e }.idleTx.choose

/-! ## The meanings -/

/-- The meaning of MGMT_BYTE. -/
def execMgmtByte (b : Byte) (stop : Bool) (s : State) : Host.Outcome State Fault Refusal := .next (mgmtByte b stop s)

/-- The meaning of IDENTIFY. -/
def execIdentify (s : State) : Host.Outcome State Fault Refusal := .next (s.serve 0x01 1 identify)

/-- The meaning of READ_STREAM. -/
def execReadStream (s : State) : Host.Outcome State Fault Refusal := .next (s.serve 0x02 2 readStream)

/-- The meaning of READ_COUNTERS. -/
def execReadCounters (s : State) : Host.Outcome State Fault Refusal := .next (s.serve 0x03 2 readCounters)

/-- The meaning of READ_LINK. -/
def execReadLink (s : State) : Host.Outcome State Fault Refusal := .next (s.serve 0x04 2 readLink)

/-- The meaning of READ_DEVICE. -/
def execReadDevice (s : State) : Host.Outcome State Fault Refusal := .next (s.serve 0x05 1 readDevice)

/-- The meaning of READ_MGMT. -/
def execReadMgmt (s : State) : Host.Outcome State Fault Refusal := .next (s.serve 0x06 1 readMgmt)

/-- The meaning of OPEN_EDIT. -/
def execOpenEdit (s : State) : Host.Outcome State Fault Refusal := .next (s.serve 0x07 3 openEdit)

/-- The meaning of STAGE_STREAM. -/
def execStageStream (s : State) : Host.Outcome State Fault Refusal := .next (s.serve 0x08 17 stageStream)

/-- The meaning of STAGE_DEVICE. -/
def execStageDevice (s : State) : Host.Outcome State Fault Refusal := .next (s.serve 0x09 6 stageDevice)

/-- The meaning of COMMIT_EDIT. -/
def execCommitEdit (s : State) : Host.Outcome State Fault Refusal := .next (s.serve 0x0A 4 commitEdit)

/-- The meaning of DISCARD_EDIT. -/
def execDiscardEdit (s : State) : Host.Outcome State Fault Refusal := .next (s.serve 0x0B 1 discardEdit)

/-- The meaning of FORCE_RESYNC. -/
def execForceResync (s : State) : Host.Outcome State Fault Refusal := .next (s.serve 0x0C 1 forceResync)

/-- The meaning of ACK_NOTICE. -/
def execAckNotice (s : State) : Host.Outcome State Fault Refusal := .next (s.serve 0x0D 1 ackNotice)

/-- The meaning of RESTART. -/
def execRestart (s : State) : Host.Outcome State Fault Refusal := .next (s.serve 0x0E 3 restartRequest)

/-- The meaning of UNKNOWN_KIND. -/
def execUnknownKind (s : State) : Host.Outcome State Fault Refusal := .next (unknownKind s)

/-- The meaning of TRANSMISSION_COMPLETE. -/
def execTransmissionComplete (s : State) : Host.Outcome State Fault Refusal := .next (transmissionComplete s)

end Sys2Proof.Machine
end

