-- ==== Sys2Proof/Machine/Clock.lean ====
section
/-! DEFINITION. The reference clock: how its time passes, and the commands that a time on it brings: CADENCE_EDGE, LINK_SILENCE, CADENCE_LOSS, GENERATOR_TICK, BYTE_GAP_EXPIRY, EDIT_EXPIRY and RETRY_EXPIRY; and the idle step. -/

namespace Sys2Proof.Machine

/-! ## The timers' ends -/

/-- Whether a timer that counts up has reached its limit. -/
def reached (limit : Nat) (t : Option Nat) : Bool := t.any fun n => decide (limit ≤ n)

/-- Whether a timer that counts down has reached 0. -/
def ended (t : Option Nat) : Bool := t.any fun n => decide (n = 0)

/-- The silence timer of link x, if it has reached 1 ms, expires (07 R131). -/
def State.silenceDue (s : State) (x : Path) : State :=
  if reached Config.silenceLimit (s.link x).silence then s.linkSilent x else s

/-- The loss timer, if it has reached 2I, expires (06 R102). -/
def State.lossDue (s : State) : State := if reached (2 * s.cadence.interval) s.cadence.loss then s.loseCadence else s

/-- The generator, if its next tick falls now, produces it (06 R101). -/
def State.generatorDue (s : State) : State := if ended s.cadence.generator then s.generate else s

/-- The byte-gap timer, if it has reached 5 ms, expires (09 R160). -/
def State.gapDue (s : State) : State := if reached Config.byteGapLimit s.mgmt.byteGap then s.abandonFrame else s

/-- The edit timer, if it has reached 0, expires (08 R145). -/
def State.editDue (s : State) : State := if ended (s.session.map Session.timer) then s.editExpired else s

/-- The retry timer, if it has reached 0, expires (10 R183). -/
def State.retryDue (s : State) : State := if ended s.notices.retryTimer then s.retryExpired else s

/-- Every timer that has reached its end expires, in this order (log 6). -/
def State.settleDue (s : State) : State :=
  ((s.silenceDue .a).silenceDue .b).lossDue.generatorDue.gapDue.editDue.retryDue

/-! ## The passing of time (log 5, 6) -/

/-- `us` µs pass on the reference clock: every running timer moves, none past its end. -/
def State.elapse (s : State) (us : Nat) : State :=
  { s with
    linkA := s.linkA.elapse us
    linkB := s.linkB.elapse us
    cadence := s.cadence.elapse us
    mgmt := { s.mgmt with byteGap := countUp Config.byteGapLimit us s.mgmt.byteGap }
    notices := { s.notices with retryTimer := countDown us s.notices.retryTimer }
    session := s.session.map fun e => { e with timer := e.timer - us } }

/-- The µs each running timer has left. -/
def State.timersLeft (s : State) : List (Option Nat) :=
  [leftTo Config.silenceLimit s.linkA.silence, leftTo Config.silenceLimit s.linkB.silence,
   leftTo (2 * s.cadence.interval) s.cadence.loss, s.cadence.generator, leftTo Config.byteGapLimit s.mgmt.byteGap,
   s.session.map Session.timer, s.notices.retryTimer]

/-- The µs until the first running timer reaches its end, at most `us`. -/
def State.untilDue (s : State) (us : Nat) : Nat := s.timersLeft.foldl (fun m t => min m (t.getD us)) us

/-- `us` µs pass. No time passes over a timer that has reached its end: it expires first, so that an expiry falls neither early
nor late, and its effects count from its own time. A timer that reaches its end at the last of these µs has not expired yet:
it and another event of that time may be taken in either order. Each round passes at least 1 µs, so `us` bounds their number. -/
def State.passRounds : Nat → Nat → State → State
  | 0, _, s => s
  | n + 1, us, s =>
    if us = 0 then s
    else
      let s1 := s.settleDue
      let d := max 1 (s1.untilDue us)
      State.passRounds n (us - d) (s1.elapse d)

/-- `us` µs pass on the reference clock, with the expiries that fall before their end. -/
def State.pass (s : State) (us : Nat) : State := State.passRounds us us s

/-- The step on an empty queue: an idle Transmitter chooses (09 R165), and 1 µs passes (log 5). -/
def idle (s : State) : State := s.choose.pass 1

/-! ## The commands that a time brings -/

/-- The time of a running timer's end comes, and it expires; a timer that does not run brings nothing (log 2, log 6). -/
def State.atEnd (s : State) (left : Option Nat) (expire : State → State) : State :=
  match left with
  | none => s
  | some us => expire (s.pass us)

/-- CADENCE_EDGE (06 R102): `us` µs pass since the part's last event, then the edge is taken (log 7). -/
def cadenceEdge (us : Nat) (s : State) : State := (s.pass us).edge

/-- LINK_SILENCE (07 R131): the silence timer of link x comes to 1 ms. -/
def linkSilence (x : Path) (s : State) : State :=
  s.atEnd (leftTo Config.silenceLimit (s.link x).silence) fun t => t.silenceDue x

/-- CADENCE_LOSS (06 R102): the loss timer comes to 2I. -/
def cadenceLoss (s : State) : State := s.atEnd (leftTo (2 * s.cadence.interval) s.cadence.loss) State.lossDue

/-- GENERATOR_TICK (06 R101, R102): the time of the generator's next tick comes. -/
def generatorTick (s : State) : State := s.atEnd s.cadence.generator State.generatorDue

/-- BYTE_GAP_EXPIRY (09 R160): the byte-gap timer comes to 5 ms. -/
def byteGapExpiry (s : State) : State := s.atEnd (leftTo Config.byteGapLimit s.mgmt.byteGap) State.gapDue

/-- EDIT_EXPIRY (08 R145): the edit timer of an open session comes to 0. -/
def editExpiry (s : State) : State := s.atEnd (s.session.map Session.timer) State.editDue

/-- RETRY_EXPIRY (10 R183): the running retry timer comes to 0. -/
def retryExpiry (s : State) : State := s.atEnd s.notices.retryTimer State.retryDue

/-- The meaning of CADENCE_EDGE. -/
def execCadenceEdge (us : Nat) (s : State) : Host.Outcome State Fault Refusal := .next (cadenceEdge us s)

/-- The meaning of LINK_SILENCE. -/
def execLinkSilence (x : Path) (s : State) : Host.Outcome State Fault Refusal := .next (linkSilence x s)

/-- The meaning of CADENCE_LOSS. -/
def execCadenceLoss (s : State) : Host.Outcome State Fault Refusal := .next (cadenceLoss s)

/-- The meaning of GENERATOR_TICK. -/
def execGeneratorTick (s : State) : Host.Outcome State Fault Refusal := .next (generatorTick s)

/-- The meaning of BYTE_GAP_EXPIRY. -/
def execByteGapExpiry (s : State) : Host.Outcome State Fault Refusal := .next (byteGapExpiry s)

/-- The meaning of EDIT_EXPIRY. -/
def execEditExpiry (s : State) : Host.Outcome State Fault Refusal := .next (editExpiry s)

/-- The meaning of RETRY_EXPIRY. -/
def execRetryExpiry (s : State) : Host.Outcome State Fault Refusal := .next (retryExpiry s)

end Sys2Proof.Machine
end

