-- ==== Sys2Proof/Machine/Dispatch.lean ====
section
/-! DEFINITION. One arm per command, each a direct call of its meaning. -/

namespace Sys2Proof.Machine

/-- The effect of a command on everything but the queue. -/
def exec (i : Instr) (s : State) : Host.Outcome State Fault Refusal :=
  match i with
  | .powerOn r1 r0 => Sys2Proof.Machine.execPowerOn r1 r0 s
  | .hardReset r1 r0 => Sys2Proof.Machine.execHardReset r1 r0 s
  | .linkByte x b => Sys2Proof.Machine.execLinkByte x b s
  | .linkSilence x => Sys2Proof.Machine.execLinkSilence x s
  | .linkDepartureReport x k => Sys2Proof.Machine.execLinkDepartureReport x k s
  | .arrival x k => Sys2Proof.Machine.execArrival x k s
  | .cadenceEdge us => Sys2Proof.Machine.execCadenceEdge us s
  | .cadenceLoss => Sys2Proof.Machine.execCadenceLoss s
  | .generatorTick => Sys2Proof.Machine.execGeneratorTick s
  | .streamTick k => Sys2Proof.Machine.execStreamTick k s
  | .pathAbsent k x => Sys2Proof.Machine.execPathAbsent k x s
  | .gapTimerExpiry k => Sys2Proof.Machine.execGapTimerExpiry k s
  | .playoutEvent k => Sys2Proof.Machine.execPlayoutEvent k s
  | .stall k => Sys2Proof.Machine.execStall k s
  | .guardExpiry k => Sys2Proof.Machine.execGuardExpiry k s
  | .playoutRound => Sys2Proof.Machine.execPlayoutRound s
  | .wordTransfer => Sys2Proof.Machine.execWordTransfer s
  | .mgmtByte b stop => Sys2Proof.Machine.execMgmtByte b stop s
  | .byteGapExpiry => Sys2Proof.Machine.execByteGapExpiry s
  | .goodFrameReport => Sys2Proof.Machine.execGoodFrameReport s
  | .identify => Sys2Proof.Machine.execIdentify s
  | .readStream => Sys2Proof.Machine.execReadStream s
  | .readCounters => Sys2Proof.Machine.execReadCounters s
  | .readLink => Sys2Proof.Machine.execReadLink s
  | .readDevice => Sys2Proof.Machine.execReadDevice s
  | .readMgmt => Sys2Proof.Machine.execReadMgmt s
  | .openEdit => Sys2Proof.Machine.execOpenEdit s
  | .stageStream => Sys2Proof.Machine.execStageStream s
  | .stageDevice => Sys2Proof.Machine.execStageDevice s
  | .commitEdit => Sys2Proof.Machine.execCommitEdit s
  | .discardEdit => Sys2Proof.Machine.execDiscardEdit s
  | .editExpiry => Sys2Proof.Machine.execEditExpiry s
  | .forceResync => Sys2Proof.Machine.execForceResync s
  | .ackNotice => Sys2Proof.Machine.execAckNotice s
  | .restart => Sys2Proof.Machine.execRestart s
  | .unknownKind => Sys2Proof.Machine.execUnknownKind s
  | .transmissionComplete => Sys2Proof.Machine.execTransmissionComplete s
  | .retryExpiry => Sys2Proof.Machine.execRetryExpiry s
  | .noticeOffer block => Sys2Proof.Machine.execNoticeOffer block s

end Sys2Proof.Machine
end

