-- ==== Sys2Proof/Safety.lean ====
section
/-! DEFINITION. What every state the FD632 reaches satisfies: the shape of a stream context by its state, the Sample Store's balance and budget, the Tag Map's agreement with the streams, the bounds of the queues, the order of the rounds under way, and the counters' marks. All are decidable. -/

namespace Sys2Proof.Machine

/-! ## Stream contexts -/

/-- The states whose stream has its active ENABLE at 1 (08 R149). -/
def StreamState.live : StreamState → Bool
  | .off => false
  | .acquire => true
  | .priming => true
  | .running => true
  | .stalled => true
  | .draining => false

/-- The states whose stream uses its reorder window (01 R6). -/
def StreamState.playing : StreamState → Bool
  | .off => false
  | .acquire => false
  | .priming => true
  | .running => true
  | .stalled => false
  | .draining => false

/-- The states whose stream has a base (01 R8). -/
def StreamState.based : StreamState → Bool
  | .off => false
  | .acquire => false
  | .priming => true
  | .running => true
  | .stalled => true
  | .draining => true

/-- The greatest queue depth of a state (01 R17). -/
def StreamState.depth (cfg : StreamRecord) : StreamState → Nat
  | .off => 0
  | .acquire => 0
  | .priming => cfg.trim
  | .running => cfg.trim
  | .stalled => 0
  | .draining => cfg.trim + cfg.window - 1

/-- Every held frame lies at distance 1..W-1 from E, with at most one frame per sequence number (01 R9). -/
abbrev WindowOk (w : Nat) (e : Seq) (held : List WindowEntry) : Prop :=
  (∀ v ∈ held, 1 ≤ dist v.seq e ∧ dist v.seq e < w) ∧ (held.map WindowEntry.seq).Nodup

/-- The parts a stream context has in its state, under the record in force (01 R6 to R19). -/
abbrev Stream.ShapeOk (cfg : StreamRecord) (s : Stream) : Prop :=
  (s.state = .off → s = s.toOff) ∧
  (s.drain.isSome = true ↔ s.state = .draining) ∧
  s.base.isSome = s.state.based ∧
  (∀ e ∈ s.base, WindowOk cfg.window e s.window) ∧
  (s.window ≠ [] → s.state.playing = true) ∧
  s.queue.length ≤ s.state.depth cfg ∧
  (s.acq.isSome = true → s.state = .acquire) ∧
  (s.jump.isSome = true → s.state.playing = true) ∧
  (s.guard.isSome = true → s.state.playing = true) ∧
  (∀ g ∈ s.guard, 1 ≤ g.remaining ∧ g.remaining ≤ Config.guardLife) ∧
  (∀ n ∈ s.timer, 1 ≤ n ∧ n ≤ 255 ∧ s.window ≠ []) ∧
  s.history.length = Config.historyDepth ∧
  (s.state.based = false → s.history = historyNone) ∧
  (s.state ≠ .off → s.phase.isSome = true) ∧
  (∀ p ∈ s.phase, p < cfg.divisor)

/-- Every stream context has the parts of its state, and its active ENABLE agrees with its state (08 R149). -/
abbrev State.StreamsOk (s : State) : Prop :=
  ∀ i : StreamIdx, (s.stream i).ShapeOk (s.inForce i) ∧ (s.active.record i).enable = (s.stream i).state.live

/-- Every record that can come into force satisfies the ranges of 01 R2 and 08 R143: active, drain and staged. -/
abbrev State.RecordsOk (s : State) : Prop :=
  (∀ i : StreamIdx, (s.active.record i).wf = true) ∧ s.active.device.wf = true ∧
  (∀ i : StreamIdx, ∀ r ∈ (s.stream i).drain, r.wf = true) ∧
  (∀ e ∈ s.session, (∀ i : StreamIdx, (e.staged.record i).wf = true) ∧ e.staged.device.wf = true)

/-! ## The Sample Store -/

/-- The slots held by all streams. -/
def State.heldSlots (s : State) : Nat := ((List.finRange 32).map fun i => (s.stream i).held).sum

/-- The slots a stream may hold: W + T of its record in force, none when OFF (02 R29). -/
def State.slotBound (s : State) (i : StreamIdx) : Nat :=
  if (s.stream i).state = .off then 0 else (s.inForce i).window + (s.inForce i).trim

/-- The free slots and the held slots are 512 together (02 R24), and the bounds of all streams fit in the store (02 R31). -/
abbrev State.SlotsOk (s : State) : Prop :=
  s.free + s.heldSlots = Config.slots ∧ ((List.finRange 32).map s.slotBound).sum ≤ Config.slots

/-- The invariant of the merging machinery. -/
abbrev State.MergeOk (s : State) : Prop := s.StreamsOk ∧ s.RecordsOk ∧ s.SlotsOk

/-! ## The Tag Map (01 R20) -/

/-- No two entries have one tag; each entry pairs a stream that is not OFF with the TAG of its record in force; each such
stream has exactly one entry. -/
abbrev State.TagMapOk (s : State) : Prop :=
  (s.tagMap.map Prod.fst).Nodup ∧ (s.tagMap.map Prod.snd).Nodup ∧
  (∀ p ∈ s.tagMap, (s.stream p.2).state ≠ .off ∧ p.1 = (s.inForce p.2).tag) ∧
  (∀ i : StreamIdx, (s.stream i).state ≠ .off → i ∈ s.tagMap.map Prod.snd)

/-! ## Queues and counters -/

/-- The Notice Unit: at most 32 entries, at most 4 in flight, the in-flight entries the oldest, consecutive numbers, and a
send pointer on an in-flight entry or the oldest unsent one, or none when nothing is unsent (10 R175, R179). -/
abbrev NoticeUnit.Ok (u : NoticeUnit) : Prop :=
  u.queue.length ≤ Config.noticeDepth ∧ u.inFlight ≤ Config.inFlightLimit ∧ u.inFlight ≤ u.queue.length ∧
  u.queue.map NoticeEntry.number =
    (List.range u.queue.length).map (fun j => u.nextNumber - BitVec.ofNat 8 (u.queue.length - j)) ∧
  (∀ p ∈ u.pointer, p < u.queue.length ∧ p ≤ u.inFlight) ∧
  (u.pointer = none → u.inFlight = u.queue.length)

/-- The bounds of the port FIFO (06 R119), the request buffer (09 R161), the reply queue (09 R162) and the Notice Unit. -/
abbrev State.QueuesOk (s : State) : Prop :=
  s.port.fifo.length ≤ Config.fifoDepth ∧ s.mgmt.requests.length ≤ Config.requestDepth ∧
  s.mgmt.replies.length ≤ Config.replyDepth ∧ s.notices.Ok

/-- The records offered in a round stand in strictly ascending stream index (06 R120), and none is of a context that has still
to take the round's tick (06 R107). -/
abbrev Tick.Ok (t : Tick) : Prop :=
  t.offered.Pairwise (fun a b => a.idx < b.idx) ∧ ∀ r ∈ t.offered, r.idx ∉ t.waiting

/-- Every tick under way has its round in order. -/
abbrev State.RoundsOk (s : State) : Prop := ∀ t ∈ s.ticks, t.Ok

/-- A counter's mark is set at 65535 exactly (00 Counters, 01 R22). -/
abbrev Counter.Ok (c : Counter) : Prop := c.mark = true ↔ c.value = 0xFFFF

/-- Every counter's mark agrees with its value. -/
abbrev State.CountersOk (s : State) : Prop :=
  (∀ i : StreamIdx, ∀ k : Fin 24, ((s.stream i).counters[k]).Ok) ∧
  (∀ k : Fin 6, (s.linkA.counters[k]).Ok ∧ (s.linkB.counters[k]).Ok ∧ (s.mgmt.counters[k]).Ok)

end Sys2Proof.Machine
end

