-- ==== Sys2Proof/Certificates/Slice0/Obligations.lean ====
section
/-! DEFINITION. The statements for the provers, each an `Obligations.<Name> : Prop`, and the few words they are said in. -/

open Sys2Proof Sys2Proof.Machine

/-! ## The words of the statements -/

namespace Sys2Proof.Machine

/-- The state an arrival from link x is taken on: its delivery taken out, the link's notices taken first (10 R177). -/
def State.atArrival (s : State) (x : Sys2Proof.Path) (rest : List Delivery) : State :=
  { s with deliveries := rest }.takeOffers (isLink x)

/-- Frame f, delivered by link x, is the oldest waiting for context i; `rest` is what waits besides it. -/
abbrev State.Waits (s : State) (x : Sys2Proof.Path) (i : StreamIdx) (f : Frame) (rest : List Delivery) : Prop :=
  takeFirstDelivery x i s.deliveries = some (⟨x, i, f⟩, rest)

/-- The arrival passes the first three stages of 03 R33: its path is admitted and its word count is N. -/
abbrev State.Passes (s : State) (x : Sys2Proof.Path) (i : StreamIdx) (f : Frame) : Prop :=
  admits (s.inForce i).paths x = true ∧ f.words.length = (s.inForce i).words

/-- Context i after the presence refresh of its admitted arrival (03 R35). -/
def State.refreshed (s : State) (x : Sys2Proof.Path) (i : StreamIdx) (rest : List Delivery) : Ctx :=
  ((s.atArrival x rest).ctx i).refresh x

/-- The arrival answers a next state in which context i has become `c`, and nothing outside the context, the free count and
the notices it offers has changed. -/
def State.ArrivalGives (s : State) (x : Sys2Proof.Path) (i : StreamIdx) (rest : List Delivery) (c : Ctx) : Prop :=
  exec (.arrival x i) s = .next ((s.atArrival x rest).put c (.stream i))

/-- Context c is c0 but for the parts the statement names and the counters `ks`: index, record in force, presence, last
payload, phase and drain record are kept, no record is offered, and every other counter stands. -/
abbrev Ctx.Keeps (c0 c : Ctx) (ks : List (Fin 24)) : Prop :=
  c.idx = c0.idx ∧ c.cfg = c0.cfg ∧ c.s.pathA = c0.s.pathA ∧ c.s.pathB = c0.s.pathB ∧ c.s.last = c0.s.last ∧
  c.s.phase = c0.s.phase ∧ c.s.drain = c0.s.drain ∧ c.record = none ∧ ∀ k, k ∉ ks → c.s.counters[k] = c0.s.counters[k]

/-- The playout event commanded at context i answers a next state in which the context has become `c` and the record it
offers, if any, opens a round of its own (log 4). A draining context takes the frames delivered to it first (log 10). -/
def State.PlayoutGives (s : State) (i : StreamIdx) (c : Ctx) : Prop :=
  exec (.playoutEvent i) s =
    .next { (s.beforePlayout i).put c (.stream i) with ticks := ownRound c.record (s.beforePlayout i).ticks }

/-- Context i at its playout event: the phase is 0 (06 R108). -/
def State.atPlayout (s : State) (i : StreamIdx) : Ctx :=
  { (s.beforePlayout i).ctx i with s := { (s.beforePlayout i).stream i with phase := some 0 } }

/-- The head h of a queue h :: t is removed and emitted: a REAL head becomes the last payload and returns its slot; a SUBST
head leaves the last payload (06 R111). -/
def Ctx.emitted (c : Ctx) (h : QueueEntry) (t : List QueueEntry) : Ctx :=
  match h with
  | .real seq q ws =>
    { c with s := { c.s with queue := t, last := some ws }, free := c.free + 1, record := some (.real c.idx seq q ws) }
  | .subst seq => { c with s := { c.s with queue := t }, record := some (.subst c.idx seq c.substPayload) }

/-- The underrun's own effects on a context with base e (06 R113). -/
def Ctx.underrunAt (c : Ctx) (e : Seq) : Ctx :=
  { c with
    s := { c.s with history := (Passed.substituted :: c.s.history).take 64, base := some (e + 1), run := c.s.run + 1 }
    record := some (.subst c.idx e c.substPayload) }.count ctrUnderrun

/-- Everything outside Link Receiver x and what it hands over is as before. -/
abbrev State.LinkOnly (x : Sys2Proof.Path) (s t : State) : Prop :=
  (∀ y, y ≠ x → t.link y = s.link y) ∧ t.pending = s.pending ∧ t.streams = s.streams ∧ t.active = s.active ∧
  t.generation = s.generation ∧ t.key = s.key ∧ t.session = s.session ∧ t.tagMap = s.tagMap ∧ t.free = s.free ∧
  t.cadence = s.cadence ∧ t.port = s.port ∧ t.mgmt = s.mgmt ∧ t.notices = s.notices ∧ t.ticks = s.ticks ∧
  t.goodReports = s.goodReports

/-- The frame of which `got` are the bytes after its sync is complete, with a valid word count (07 R125). -/
abbrev FrameComplete (got : List Byte) : Prop :=
  1 ≤ frameCount got ∧ frameCount got ≤ 16 ∧ got.length = frameLength (frameCount got)

/-- The bytes taken after SYNC are those of a frame still incomplete: the LEN byte is valid and not all that it announces
has come (09 R159, 11 R190). -/
abbrev RxIncomplete (got : List Byte) : Prop :=
  match got with
  | [] => True
  | len :: rest => 3 ≤ len.toNat ∧ len.toNat ≤ 250 ∧ rest.length < len.toNat + 2

/-- The Request Controller may take the request f, of this kind and of the length the kind requires (09 R162, R163). -/
abbrev State.Takes (s : State) (f : MgmtFrame) (kind : Byte) (len : Nat) : Prop :=
  s.mgmt.mayTake = true ∧ s.mgmt.requests.head? = some f ∧ f.kind = kind ∧ f.body.length = len

/-- The answer to a request of `f`'s kind: its block's effect leaves `t`, and the reply carries `a` (09 R162). -/
def State.Answers (s : State) (cmd : Instr) (f : MgmtFrame) (t : State) (a : Answer) : Prop :=
  exec cmd s = .next (t.endRequest f a)

/-- The bytes of a link frame (11 R188): sync, tag, sequence word with its two ignored bits `hi`, count, words, CRC. -/
def linkFrameBytes (tag : Byte) (hi : BitVec 2) (f : Frame) : List Byte :=
  let sw : Word := hi ++ (BitVec.ofBool f.restart ++ (BitVec.ofBool f.q ++ f.seq))
  let covered := tag :: (bytes16 sw ++ nat8 f.words.length :: f.words.flatMap bytes16)
  0xB4 :: 0x6E :: (covered ++ bytes16 (crc16 covered))

/-- The entry with which position p joins a queue where it is passed: with the arriving frame if p is its position, with the
frame held for it, or as a substitute (03 R49, R53). -/
def Stream.entryAt (a : Stream) (f : Option Frame) (p : Seq) : QueueEntry :=
  match f.filter fun g => decide (g.seq = p) with
  | some g => .real p g.q g.words
  | none =>
    match a.heldAt p with
    | some w => .real p w.q w.words
    | none => .subst p

/-- The entries of the n positions from e upward. -/
def Stream.entriesFrom (a : Stream) (f : Option Frame) (e : Seq) (n : Nat) : List QueueEntry :=
  (List.range n).map fun m => a.entryAt f (e + BitVec.ofNat 12 m)

/-- What the release history reads for a position that joined the queue with this entry (01 R10). -/
def QueueEntry.passed : QueueEntry → Passed
  | .real _ _ _ => .real
  | .subst _ => .substituted

/-- The counters named in `ks` have advanced by the numbers beside them, and every other stands. -/
abbrev CountsBy (a b : Vector Counter 24) (ks : List (Fin 24 × Nat)) : Prop :=
  (∀ p ∈ ks, b[p.1] = (Nat.iterate Counter.bump p.2) a[p.1]) ∧ ∀ k : Fin 24, k ∉ ks.map Prod.fst → b[k] = a[k]

/-- The STREAM_STATE notices about stream i among those that lead from s to t. -/
def State.stateNotices (s t : State) (i : StreamIdx) : List Offer :=
  (t.offers.drop s.offers.length).filter fun o =>
    match o.notice with
    | .streamState j _ _ => decide (j = i)
    | _ => false

/-- The COUNTER_SATURATED notice that the next advance of counter k of link x creates, if it creates one (07 R135). -/
def State.linkSaturation (s : State) (x : Sys2Proof.Path) (k : Fin 6) : List Offer :=
  if s.active.device.noticeMask.linkState = true ∧ (s.link x).counters[k].value = 0xFFFE
  then [⟨.link x, .counterSaturated (.link x) k.val, none⟩] else []

/-- The LINK_STATE notice of link x, under the device mask (07 R134). -/
def State.linkStateNotice (s : State) (x : Sys2Proof.Path) (st : LinkState) : List Offer :=
  if s.active.device.noticeMask.linkState = true then [⟨.link x, .linkState x st, none⟩] else []

/-- A 16-bit field of a layout: the more significant byte first (11 R187). -/
def twoBytes (n : Nat) : List Byte := [BitVec.ofNat 8 (n / 256), BitVec.ofNat 8 n]

/-- Whether field n of a stream record body is in its range, the fields numbered and placed as 01 R2 and 11 R193 give them. -/
def streamFieldOk (b : List Byte) (n : Nat) : Prop :=
  let v := fun k => (b.getD k 0).toNat
  match n with
  | 0 => v 0 ≤ 1
  | 1 => v 1 ≤ 1
  | 2 => True
  | 3 => 1 ≤ v 3 ∧ v 3 ≤ 16
  | 4 => 2 ≤ v 4 ∧ v 4 ≤ 64
  | 5 => 2 ≤ v 5 ∧ v 5 ≤ 64 ∧ v 6 < v 5
  | 6 => 1 ≤ v 6 ∧ v 6 ≤ 63
  | 7 => 1 ≤ v 7 ∧ v 7 ≤ 64
  | 8 => v 8 ≤ 2
  | 9 => True
  | 10 => True
  | 11 => 1 ≤ v 11 * 256 + v 12 ∧ v 11 * 256 + v 12 ≤ 4095
  | 12 => 1 ≤ v 13 ∧ v 13 ≤ 255
  | 13 => v 14 ≤ 2
  | _ => v 15 < 16

/-- Whether field n of a device record body is in its range (08 R143, 11 R193). -/
def deviceFieldOk (b : List Byte) (n : Nat) : Prop :=
  let v := fun k => (b.getD k 0).toNat
  match n with
  | 0 => v 0 ≤ 1
  | 1 => 50 ≤ v 1 * 256 + v 2 ∧ v 1 * 256 + v 2 ≤ 10000
  | 2 => 100 ≤ v 3 * 256 + v 4 ∧ v 3 * 256 + v 4 ≤ 60000
  | _ => v 5 < 16

/-- Stream i would enter DRAINING by a commit of `new` (08 R149). -/
abbrev State.entersDrain (s : State) (new : ConfigSet) (i : StreamIdx) : Prop :=
  (s.stream i).state.live = true ∧ (new.record i).enable = false ∧ (new.record i).stopMode = .drain

/-- Stream i would stay DRAINING. -/
abbrev State.staysInDrain (s : State) (new : ConfigSet) (i : StreamIdx) : Prop :=
  (s.stream i).state = .draining ∧ (new.record i).enable = false ∧ (new.record i).stopMode = .drain

/-- The record that gives stream i its tag and its budget in the cross-record checks (08 R147). -/
def State.judgedRecord (s : State) (new : ConfigSet) (i : StreamIdx) : StreamRecord :=
  if (new.record i).enable = true then new.record i
  else if (s.stream i).state = .draining then (s.stream i).drain.getD (s.active.record i) else s.active.record i

/-- Stream i fails TAG_DUPLICATE: a lower-indexed stream judged with it has its tag (08 R147). -/
def State.duplicates (s : State) (new : ConfigSet) (i : StreamIdx) : Prop :=
  ((new.record i).enable = true ∨ s.entersDrain new i) ∧ ∃ j, j < i ∧ ((new.record j).enable = true ∨ s.entersDrain new j) ∧
    (s.judgedRecord new j).tag = (s.judgedRecord new i).tag

/-- Stream i fails TAG_BUSY: a stream that stays DRAINING has its tag (08 R147). -/
def State.findsBusy (s : State) (new : ConfigSet) (i : StreamIdx) : Prop :=
  (new.record i).enable = true ∧ ∃ j, s.staysInDrain new j ∧ (s.judgedRecord new j).tag = (new.record i).tag

/-- The states after bytes of link x, one LINK_BYTE each. -/
def takeLinkBytes (x : Sys2Proof.Path) (bs : List Byte) (s : State) : State := bs.foldl (fun t b => linkByte x b t) s

/-- The states after bytes of the management line, one MGMT_BYTE each. -/
def takeMgmtBytes (bs : List Byte) (s : State) : State := bs.foldl (fun t b => mgmtByte b true t) s

end Sys2Proof.Machine

/-! ## Steps and resets -/

/-- A step takes the command at the front of the queue and answers what exec answers on the state with the queue's rest. The
model's choice (log 5): on an empty queue an idle Transmitter chooses and 1 µs of the reference clock passes. -/
def Obligations.StepRunsTheFrontCommand : Prop :=
  (∀ (s : State) (c : Instr) (rest : List Instr), s.pending = c :: rest → step s = exec c { s with pending := rest }) ∧
  (∀ s : State, s.pending = [] → ∃ t, step s = .next t ∧ t = s.choose.pass 1 ∧ t.pending = [] ∧ t.streams = s.streams ∧
    t.free = s.free ∧ t.active = s.active ∧ t.tagMap = s.tagMap ∧ t.port = s.port)

/-- Every command answers a next state in every state, and leaves the queue of commands as it is. That no rule stops the part is
read from all the rules (log 22, DEDUCED); that a command whose trigger does not stand answers a next state too is the model's
choice (log 2). -/
def Obligations.EveryCommandAnswersNext : Prop :=
  ∀ (c : Instr) (s : State), ∃ t, exec c s = .next t ∧ t.pending = s.pending

/-- Power-on and hard reset: the state of every block (the tables of R23, R32, R106, R122, R137, R157, R174, R186), the rate of the
sampled straps (R158), and the default records of 01 R2 and 08 R143 that the active set then holds. The model's choices: the
queue of commands is kept and the hand-offs under way are empty (log 1), and a hard reset is one command with the strap levels
as its operands (log 18). -/
def Obligations.ResetsGiveTheTables : Prop :=
  (∀ (r1 r0 : Bool) (s : State) (c : Instr) (cause : ResetCause),
     (c = .powerOn r1 r0 ∧ cause = .powerOn ∨ c = .hardReset r1 r0 ∧ cause = .hard) →
     ∃ t, exec c s = .next t ∧ t.pending = s.pending ∧
       (∀ i, (t.stream i).state = .off ∧ t.stream i = (t.stream i).toOff ∧ (t.stream i).held = 0 ∧
         (t.stream i).counters = Vector.replicate 24 ⟨0, false⟩) ∧
       (∀ i, t.active.record i = StreamRecord.default i) ∧ t.active.device = DeviceRecord.default ∧
       t.generation = 0 ∧ t.key = 0 ∧ t.session = none ∧ t.tagMap = [] ∧ t.free = 512 ∧
       t.cadence = { state := .internal, interval := 250, generator := some 250, loss := none, edgeAge := none, restore := 0 } ∧
       t.port.fifo = [] ∧ t.port.valid = false ∧
       (∀ x, (t.link x).state = .down ∧ (t.link x).silence = none ∧ (t.link x).pos = .seeking false ∧ (t.link x).goodRun = 0 ∧
         (t.link x).badRun = 0 ∧ (t.link x).counters = Vector.replicate 6 ⟨0, false⟩) ∧
       t.mgmt.rate = (if r1 = false ∧ r0 = true then .baud460800 else if r1 = true ∧ r0 = false then .baud921600 else .baud115200) ∧
       t.mgmt.rx = none ∧ t.mgmt.byteGap = none ∧ t.mgmt.requests = [] ∧ t.mgmt.inProgress = none ∧ t.mgmt.replies = [] ∧
       t.mgmt.tx = none ∧ t.mgmt.restartPending = false ∧ t.mgmt.resetCause = cause ∧
       t.mgmt.counters = Vector.replicate 6 ⟨0, false⟩ ∧
       t.notices.queue = [⟨0, .started cause⟩] ∧ t.notices.nextNumber = 1 ∧ t.notices.inFlight = 0 ∧
       t.notices.pointer = some 0 ∧ t.notices.retryTimer = none ∧ t.notices.retryCount = 0 ∧ t.notices.quiet = false ∧
       t.notices.lost = 0 ∧
       t.deliveries = [] ∧ t.reports = [] ∧ t.ticks = [] ∧ t.offers = [] ∧ t.goodReports = 0) ∧
  ((∀ i : StreamIdx, StreamRecord.default i =
     { enable := false, stopMode := .drain, tag := BitVec.ofNat 8 i.val, words := 1, window := 8, trim := 8, hold := 4,
       divisor := 1, paths := .merge, gapWait2 := 4, gapWait1 := 1, pathSilence := 64, stallLimit := 8,
       subst := .repeatLast, noticeMask := ⟨true, true, true, true⟩ } ∧ (StreamRecord.default i).wf = true) ∧
   DeviceRecord.default =
     { cadenceSource := .internal, nominalInterval := 250, editWindow := 10000, noticeMask := ⟨true, true, true, true⟩ } ∧
   DeviceRecord.default.wf = true)

/-! ## Invariants -/

/-- The merging machinery: every context has the shape of its state, every record is within its ranges, the free slots and
the held slots are 512 together and the bounds of all streams fit in the store. Kept by every step. -/
def Obligations.MergeInvariantKept : Prop :=
  ∀ s t : State, s.MergeOk → step s = .next t → t.MergeOk

/-- The Tag Map names every stream that is not OFF, once, by the TAG of its record in force, and no tag twice. -/
def Obligations.TagMapInvariantKept : Prop :=
  ∀ s t : State, s.MergeOk → s.TagMapOk → step s = .next t → t.TagMapOk

/-- The bounds of the port FIFO, the request buffer, the reply queue and the Notice Unit's queue, with its numbers in order
and its send pointer on an in-flight or the oldest unsent entry. -/
def Obligations.QueueBoundsKept : Prop :=
  ∀ s t : State, s.QueuesOk → step s = .next t → t.QueuesOk

/-- The five invariants hold right after reset. -/
def Obligations.InvariantsAtReset : Prop :=
  State.reset.MergeOk ∧ State.reset.TagMapOk ∧ State.reset.QueuesOk ∧ State.reset.RoundsOk ∧ State.reset.CountersOk

/-- The records offered in the round of each tick under way stand in strictly ascending stream index, so at most one of each
stream, and none is of a context that has still to take the tick (R107, R120). Kept by every step. -/
def Obligations.RoundsInOrderKept : Prop :=
  ∀ s t : State, s.RoundsOk → step s = .next t → t.RoundsOk

/-- Every counter's saturated mark is set at 65535 exactly, in the stream contexts, the Link Receivers and the management side.
Kept by every step. -/
def Obligations.CounterMarksKept : Prop :=
  ∀ s t : State, s.CountersOk → step s = .next t → t.CountersOk

/-! ## Counters -/

/-- A counter saturates at 65535 and the increment that brings it there sets its mark; a stream counter's advance changes
that counter alone, and creates the COUNTER_SATURATED notice on that increment alone (00 Counters, 01 R22). -/
def Obligations.CounterAdvance : Prop :=
  (∀ c : Counter, (c.value = 0xFFFF → c.bump = c) ∧
    (c.value = 0xFFFE → c.bump = ⟨0xFFFF, true⟩) ∧
    (c.value ≠ 0xFFFF → c.value ≠ 0xFFFE → c.bump = ⟨c.value + 1, c.mark⟩)) ∧
  (∀ (c : Ctx) (k : Fin 24), c.count k = { c with
      s := { c.s with counters := c.s.counters.set k c.s.counters[k].bump }
      notes := if c.s.counters[k].value = 0xFFFE ∧ c.cfg.noticeMask.saturated = true
        then c.notes ++ [.counterSaturated (.stream c.idx) k.val] else c.notes })

/-! ## Arrivals -/

/-- R34. An arrival that the stream does not take is counted REFUSED_X and nothing else happens: presence is not refreshed. -/
def Obligations.ArrivalRefused : Prop :=
  ∀ (s : State) (x : Sys2Proof.Path) (i : StreamIdx) (f : Frame) (rest : List Delivery), s.Waits x i f rest →
    (s.stream i).state ≠ .off → ((s.stream i).state = .draining ∨ admits (s.inForce i).paths x = false) →
    s.ArrivalGives x i rest (((s.atArrival x rest).ctx i).count (ctrRefused x)) ∧
    ((((s.atArrival x rest).ctx i).count (ctrRefused x)).s =
      { s.stream i with counters := (s.stream i).counters.set (ctrRefused x) (s.stream i).counters[ctrRefused x].bump })

/-- R36. An admitted arrival whose word count is not N: presence refreshed, MALFORMED counted, nothing else. -/
def Obligations.ArrivalMalformed : Prop :=
  ∀ (s : State) (x : Sys2Proof.Path) (i : StreamIdx) (f : Frame) (rest : List Delivery), s.Waits x i f rest →
    (s.stream i).state ≠ .off → (s.stream i).state ≠ .draining → admits (s.inForce i).paths x = true →
    f.words.length ≠ (s.inForce i).words →
    s.ArrivalGives x i rest ((s.refreshed x i rest).count ctrMalformed)

/-- R38, R39. An arrival in ACQUIRE: the first becomes the candidate; a copy of the candidate is a duplicate; a frame at
distance W or more from it replaces it, its slot returned first. -/
def Obligations.AcquireCandidate : Prop :=
  ∀ (s : State) (x : Sys2Proof.Path) (i : StreamIdx) (f : Frame) (rest : List Delivery) (c0 : Ctx), s.Waits x i f rest →
    s.Passes x i f → (s.stream i).state = .acquire → c0 = s.refreshed x i rest →
    ((s.stream i).acq = none →
      s.ArrivalGives x i rest ({ c0 with
        s := { c0.s with acq := some ⟨f.seq, f.q, f.words⟩ }
        free := s.free - 1 }.count (ctrAccepted x))) ∧
    (∀ a, (s.stream i).acq = some a →
      (f.seq = a.seq → s.ArrivalGives x i rest (c0.count (ctrDuplicate x))) ∧
      ((s.inForce i).window ≤ dist f.seq a.seq → f.seq ≠ a.seq →
        s.ArrivalGives x i rest (({ c0.count ctrAcqDiscard with
          s := { (c0.count ctrAcqDiscard).s with acq := some ⟨f.seq, f.q, f.words⟩ }
          free := s.free + 1 - 1 }).count (ctrAccepted x))))

/-- R40, R41. The lock. By the frame that follows the candidate directly: both are released in order, the stream is PRIMING at
base c + 2 with two REAL entries and an empty window, and the LOCKED notice is created. By a frame at distance 2..W-1: the
candidate is released, the frame is held in the window, and the gap timer starts with the wait value of 04 R62 unless it is 0. -/
def Obligations.LockByASecondFrame : Prop :=
  (∀ (s : State) (x : Sys2Proof.Path) (i : StreamIdx) (f : Frame) (rest : List Delivery) (a : AcqCandidate), s.MergeOk →
     s.Waits x i f rest → s.Passes x i f → (s.stream i).state = .acquire → (s.stream i).acq = some a → f.seq = a.seq + 1 →
     ∃ c, s.ArrivalGives x i rest c ∧ c.s.state = .priming ∧ c.s.base = some (a.seq + 2) ∧
       c.s.queue = [.real a.seq a.q a.words, .real f.seq f.q f.words] ∧ c.s.window = [] ∧ c.s.timer = none ∧
       c.s.history = (.real :: .real :: historyNone).take 64 ∧ c.s.acq = none ∧ c.s.jump = none ∧ c.s.guard = none ∧
       c.s.run = 0 ∧ c.free = s.free - 1 ∧ (s.refreshed x i rest).Keeps c [ctrAccepted x, ctrReleased] ∧
       c.s.counters[ctrAccepted x] = (s.stream i).counters[ctrAccepted x].bump ∧
       c.s.counters[ctrReleased] = (s.stream i).counters[ctrReleased].bump.bump ∧
       ((s.inForce i).noticeMask.streamState = true → c.notes.getLast? = some (.streamState i .priming .locked))) ∧
  (∀ (s : State) (x : Sys2Proof.Path) (i : StreamIdx) (f : Frame) (rest : List Delivery) (a : AcqCandidate), s.MergeOk →
     s.Waits x i f rest → s.Passes x i f → (s.stream i).state = .acquire → (s.stream i).acq = some a →
     2 ≤ dist f.seq a.seq → dist f.seq a.seq < (s.inForce i).window →
     ∃ c, s.ArrivalGives x i rest c ∧ c.s.state = .priming ∧ c.s.base = some (a.seq + 1) ∧
       c.s.queue = [.real a.seq a.q a.words] ∧ c.s.window = [⟨f.seq, f.q, f.words⟩] ∧
       c.s.timer = (if (s.refreshed x i rest).waitValue = 0 then none else some (s.refreshed x i rest).waitValue) ∧
       c.s.history = (.real :: historyNone).take 64 ∧ c.s.acq = none ∧ c.s.run = 0 ∧ c.s.jump = none ∧
       c.s.guard = none ∧ c.free = s.free - 1 ∧ (s.refreshed x i rest).Keeps c [ctrAccepted x, ctrReleased] ∧
       c.s.counters[ctrAccepted x] = (s.stream i).counters[ctrAccepted x].bump ∧
       c.s.counters[ctrReleased] = (s.stream i).counters[ctrReleased].bump ∧
       ((s.inForce i).noticeMask.streamState = true → c.notes.getLast? = some (.streamState i .priming .locked)))

/-- R43, R49, R52. A base arrival in PRIMING or RUNNING: a jump candidate of its path is discarded, the frame is released with
the trim at queue insertion, and the chain runs. With an empty window: E moves on by one, RELEASED and ACCEPTED_X are counted,
a trimmed head counts TRIMMED, a discarded candidate STRAY_SEQ with its slot returned (R82), and no timer is left. -/
def Obligations.BaseArrivalReleased : Prop :=
  (∀ (s : State) (x : Sys2Proof.Path) (i : StreamIdx) (f : Frame) (rest : List Delivery), s.MergeOk → s.Waits x i f rest →
     s.Passes x i f → (s.stream i).state.playing = true → (s.stream i).base = some f.seq →
     s.ArrivalGives x i rest
       ((((s.refreshed x i rest).discardJumpOn x).releaseNew f.seq f.q f.words).count (ctrAccepted x)).chain) ∧
  (∀ (s : State) (x : Sys2Proof.Path) (i : StreamIdx) (f : Frame) (rest : List Delivery), s.MergeOk → s.Waits x i f rest →
     s.Passes x i f → (s.stream i).state.playing = true → (s.stream i).base = some f.seq → (s.stream i).window = [] →
     ∃ c, s.ArrivalGives x i rest c ∧ c.s.base = some (f.seq + 1) ∧ c.s.window = [] ∧ c.s.timer = none ∧
       c.s.queue = (if (s.inForce i).trim ≤ (s.stream i).queue.length then (s.stream i).queue.tail else (s.stream i).queue) ++
         [.real f.seq f.q f.words] ∧
       c.s.history = (.real :: (s.stream i).history).take 64 ∧ c.s.state = (s.stream i).state ∧
       c.s.run = (s.stream i).run ∧ c.s.guard = (s.stream i).guard ∧ c.s.acq = (s.stream i).acq ∧
       (s.refreshed x i rest).Keeps c [ctrAccepted x, ctrReleased, ctrTrimmed, ctrStraySeq] ∧
       c.s.jump = (s.stream i).jump.filter (fun j => !decide (j.path = x)) ∧
       c.free + c.s.held = s.free + (s.stream i).held ∧
       c.s.counters[ctrTrimmed] = (if (s.inForce i).trim ≤ (s.stream i).queue.length
         then (s.stream i).counters[ctrTrimmed].bump else (s.stream i).counters[ctrTrimmed]) ∧
       ((∀ j ∈ (s.stream i).jump, j.path ≠ x) → c.s.counters[ctrStraySeq] = (s.stream i).counters[ctrStraySeq]) ∧
       (∀ j ∈ (s.stream i).jump, j.path = x → c.s.counters[ctrStraySeq] = (s.stream i).counters[ctrStraySeq].bump) ∧
       c.s.counters[ctrAccepted x] = (s.stream i).counters[ctrAccepted x].bump ∧
       c.s.counters[ctrReleased] = (s.stream i).counters[ctrReleased].bump)

/-- R44. An in-window arrival at a position that is not held is stored; the gap timer starts only if the window was empty,
with the wait value of 04 R62 unless it is 0. R82: a jump candidate of its path is discarded: STRAY_SEQ is counted and its slot
returned. R45. An in-window arrival at a position already held counts DUPLICATE_X and is dropped. -/
def Obligations.WindowArrivals : Prop :=
  (∀ (s : State) (x : Sys2Proof.Path) (i : StreamIdx) (f : Frame) (rest : List Delivery) (e : Seq), s.Waits x i f rest →
     s.Passes x i f → (s.stream i).state.playing = true → (s.stream i).base = some e → f.seq ≠ e →
     dist f.seq e < (s.inForce i).window → (∀ v ∈ (s.stream i).window, v.seq ≠ f.seq) →
     ∃ c, s.ArrivalGives x i rest c ∧ c.s.base = some e ∧
       c.s.window.Perm (⟨f.seq, f.q, f.words⟩ :: (s.stream i).window) ∧ c.s.queue = (s.stream i).queue ∧
       c.s.history = (s.stream i).history ∧ c.s.state = (s.stream i).state ∧ c.s.guard = (s.stream i).guard ∧
       c.s.run = (s.stream i).run ∧ c.s.acq = (s.stream i).acq ∧
       (s.refreshed x i rest).Keeps c [ctrAccepted x, ctrStraySeq] ∧
       c.s.jump = (s.stream i).jump.filter (fun j => !decide (j.path = x)) ∧
       ((∀ j ∈ (s.stream i).jump, j.path ≠ x) →
         c.free = s.free - 1 ∧ c.s.counters[ctrStraySeq] = (s.stream i).counters[ctrStraySeq]) ∧
       (∀ j ∈ (s.stream i).jump, j.path = x →
         c.free = s.free + 1 - 1 ∧ c.s.counters[ctrStraySeq] = (s.stream i).counters[ctrStraySeq].bump) ∧
       c.s.timer = (if (s.stream i).window = [] ∧ (s.stream i).timer = none ∧ (s.refreshed x i rest).waitValue ≠ 0
         then some (s.refreshed x i rest).waitValue else (s.stream i).timer) ∧
       c.s.counters[ctrAccepted x] = (s.stream i).counters[ctrAccepted x].bump) ∧
  (∀ (s : State) (x : Sys2Proof.Path) (i : StreamIdx) (f : Frame) (rest : List Delivery) (e : Seq), s.Waits x i f rest →
     s.Passes x i f → (s.stream i).state.playing = true → (s.stream i).base = some e → f.seq ≠ e →
     dist f.seq e < (s.inForce i).window → (∃ v ∈ (s.stream i).window, v.seq = f.seq) →
     s.ArrivalGives x i rest ((s.refreshed x i rest).count (ctrDuplicate x)) ∧
     ((s.refreshed x i rest).count (ctrDuplicate x)).s.window = (s.stream i).window ∧
     ((s.refreshed x i rest).count (ctrDuplicate x)).s.timer = (s.stream i).timer)

/-- R46, R53, R50. A push arrival at distance d: the n positions from E upward are passed, as many as bring the frame within the
window, and then those whose frames are held, or the frame's own. Each joins the queue in order, as SUBST with SUBST_PUSH
counted where no frame is held for it and as REAL with RELEASED counted otherwise, the heads beyond T trimmed; the history reads
so. The frame is released, or held. The gap timer over a window left non-empty: a running one keeps its count while held frames
remain, and a store into a window that the chain emptied, or where none runs, starts one with the wait value unless it is 0
(R51). R82: a jump candidate of its path is discarded with STRAY_SEQ and its slot returned. -/
def Obligations.PushBringsTheFrameIn : Prop :=
  ∀ (s : State) (x : Sys2Proof.Path) (i : StreamIdx) (f : Frame) (rest : List Delivery) (e : Seq) (d : Nat)
    (a : Sys2Proof.Machine.Stream), s.MergeOk → s.Waits x i f rest → s.Passes x i f → a = s.stream i →
    a.state.playing = true → a.base = some e → d = dist f.seq e → (s.inForce i).window ≤ d →
    d < 2 * (s.inForce i).window →
    ∃ (c : Ctx) (n : Nat) (new : List QueueEntry), s.ArrivalGives x i rest c ∧ new = a.entriesFrom (some f) e n ∧
      c.s.base = some (e + BitVec.ofNat 12 n) ∧ d + 1 ≤ n + (s.inForce i).window ∧ n ≤ d + 1 ∧
      (∀ m, d < m + (s.inForce i).window → m < n → m = d ∨ ∃ w ∈ a.window, w.seq = e + BitVec.ofNat 12 m) ∧
      (∀ w, w ∈ c.s.window ↔ (w ∈ a.window ∧ n < dist w.seq e) ∨ (n ≤ d ∧ w = ⟨f.seq, f.q, f.words⟩)) ∧
      c.s.heldAt (e + BitVec.ofNat 12 n) = none ∧ (c.s.window = [] → c.s.timer = none) ∧
      (n ≤ d → c.s.timer =
        (if (∃ w ∈ a.window, n < dist w.seq e) ∧ a.timer ≠ none then a.timer
         else if (s.refreshed x i rest).waitValue = 0 then none else some (s.refreshed x i rest).waitValue)) ∧
      c.s.queue = (a.queue ++ new).drop (a.queue.length + n - (s.inForce i).trim) ∧
      c.s.history = ((new.map QueueEntry.passed).reverse ++ a.history).take 64 ∧
      c.free + c.s.held = s.free + a.held ∧ c.s.state = a.state ∧ c.s.guard = a.guard ∧ c.s.run = a.run ∧
      c.s.acq = a.acq ∧ c.s.jump = a.jump.filter (fun j => !decide (j.path = x)) ∧
      (s.refreshed x i rest).Keeps c [ctrAccepted x, ctrReleased, ctrSubstPush, ctrTrimmed, ctrStraySeq] ∧
      CountsBy (s.refreshed x i rest).s.counters c.s.counters
        [(ctrAccepted x, 1), (ctrReleased, queueSlots new), (ctrSubstPush, n - queueSlots new),
         (ctrTrimmed, a.queue.length + n - (s.inForce i).trim),
         (ctrStraySeq, (a.jump.filter fun j => decide (j.path = x)).toList.length)]

/-- R48, R55, R86. A behind arrival that no guard drops and that carries no RESTART flag, or carries one where the history entry is
not NONE; and the same in STALLED whatever its flag: the release history judges it, one counter advances and nothing else.
R88. A far or behind arrival that the straggler guard drops counts STRAGGLER and nothing else, whatever its flag. -/
def Obligations.BehindArrivals : Prop :=
  (∀ (s : State) (x : Sys2Proof.Path) (i : StreamIdx) (f : Frame) (rest : List Delivery) (e : Seq) (c0 : Ctx),
     s.Waits x i f rest → s.Passes x i f → (s.stream i).base = some e → 4032 ≤ dist f.seq e →
     (s.inForce i).window ≤ 64 → c0 = s.refreshed x i rest →
     ((s.stream i).state.playing = true ∧ (f.restart = false ∨ (s.stream i).passedAt (dist f.seq e) ≠ .none) ∧
       c0.guardDrops f.seq = false ∨ (s.stream i).state = .stalled) →
     s.ArrivalGives x i rest (c0.count
       (match (s.stream i).history.getD (4096 - dist f.seq e - 1) .none with
        | .real => ctrTrailing x
        | .substituted => ctrLate x
        | .none => ctrStraySeq))) ∧
  (∀ (s : State) (x : Sys2Proof.Path) (i : StreamIdx) (f : Frame) (rest : List Delivery) (e : Seq) (g : Guard),
     s.Waits x i f rest → s.Passes x i f → (s.stream i).state.playing = true → (s.stream i).base = some e →
     2 * (s.inForce i).window ≤ dist f.seq e → (s.stream i).guard = some g →
     (4032 ≤ dist f.seq g.prior ∨ dist f.seq g.prior < 2 * (s.inForce i).window) →
     s.ArrivalGives x i rest ((s.refreshed x i rest).count ctrStraggler))

/-- R81, R82. A far arrival without the RESTART flag that no guard drops: it becomes the jump candidate, is a duplicate of it, or
replaces it with STRAY_SEQ counted. R84, R85: its successor confirms the candidate: the window is flushed, the base is the
candidate's number plus two, both frames end the queue, the guard screens the prior base, and the RESYNC notice is created. That
no notice of ACCEPTED_X's saturation follows the RESYNC notice is the model's choice (log 16). -/
def Obligations.JumpHandling : Prop :=
  (∀ (s : State) (x : Sys2Proof.Path) (i : StreamIdx) (f : Frame) (rest : List Delivery) (e : Seq) (c0 : Ctx),
     s.Waits x i f rest → s.Passes x i f → (s.stream i).state.playing = true → (s.stream i).base = some e →
     2 * (s.inForce i).window ≤ dist f.seq e → dist f.seq e < 4032 → f.restart = false → c0 = s.refreshed x i rest →
     c0.guardDrops f.seq = false →
     ((s.stream i).jump = none →
       s.ArrivalGives x i rest ({ c0 with
         s := { c0.s with jump := some ⟨f.seq, x, f.q, f.words⟩ }
         free := s.free - 1 }.count (ctrAccepted x))) ∧
     (∀ j, (s.stream i).jump = some j →
       (f.seq = j.seq → s.ArrivalGives x i rest (c0.count (ctrDuplicate x))) ∧
       (f.seq ≠ j.seq → f.seq ≠ j.seq + 1 →
         ∃ c, s.ArrivalGives x i rest c ∧ c.s.jump = some ⟨f.seq, x, f.q, f.words⟩ ∧ c.free = s.free + 1 - 1 ∧
           c.s.base = some e ∧ c.s.window = (s.stream i).window ∧ c.s.queue = (s.stream i).queue ∧
           c.s.history = (s.stream i).history ∧ c.s.timer = (s.stream i).timer ∧ c.s.state = (s.stream i).state ∧
           c.s.guard = (s.stream i).guard ∧ c.s.run = (s.stream i).run ∧ c.s.acq = (s.stream i).acq ∧
           c0.Keeps c [ctrAccepted x, ctrStraySeq] ∧
           c.s.counters[ctrStraySeq] = (s.stream i).counters[ctrStraySeq].bump ∧
           c.s.counters[ctrAccepted x] = (s.stream i).counters[ctrAccepted x].bump))) ∧
  (∀ (s : State) (x : Sys2Proof.Path) (i : StreamIdx) (f : Frame) (rest : List Delivery) (e : Seq) (j : JumpCandidate),
     s.MergeOk → s.Waits x i f rest → s.Passes x i f → (s.stream i).state.playing = true → (s.stream i).base = some e →
     2 * (s.inForce i).window ≤ dist f.seq e → dist f.seq e < 4032 → f.restart = false →
     (s.refreshed x i rest).guardDrops f.seq = false → (s.stream i).jump = some j → f.seq = j.seq + 1 →
     ∃ c, s.ArrivalGives x i rest c ∧ c.s.base = some (j.seq + 2) ∧ c.s.window = [] ∧ c.s.timer = none ∧ c.s.jump = none ∧
       c.s.guard = some ⟨e, 64⟩ ∧ c.s.history = (.real :: .real :: historyNone).take 64 ∧
       c.s.queue = (s.stream i).queue.drop ((s.stream i).queue.length - ((s.inForce i).trim - 2)) ++
         [.real j.seq j.q j.words, .real f.seq f.q f.words] ∧
       c.free + queueSlots c.s.queue = s.free + (s.stream i).window.length + 1 + queueSlots (s.stream i).queue ∧
       c.s.counters[ctrTrimmed] = (Nat.iterate Counter.bump ((s.stream i).queue.length - ((s.inForce i).trim - 2)))
         (s.stream i).counters[ctrTrimmed] ∧
       c.s.state = (s.stream i).state ∧ c.s.run = (s.stream i).run ∧ c.s.acq = (s.stream i).acq ∧
       (s.refreshed x i rest).Keeps c [ctrAccepted x, ctrReleased, ctrTrimmed, ctrFlushed, ctrResyncJump] ∧
       c.s.counters[ctrFlushed] = (Nat.iterate Counter.bump (s.stream i).window.length) (s.stream i).counters[ctrFlushed] ∧
       c.s.counters[ctrReleased] = (s.stream i).counters[ctrReleased].bump.bump ∧
       c.s.counters[ctrAccepted x] = (s.stream i).counters[ctrAccepted x].bump ∧
       c.s.counters[ctrResyncJump] = (s.stream i).counters[ctrResyncJump].bump ∧
       ((s.inForce i).noticeMask.resync = true → c.notes.getLast? = some (.resync i e j.seq .jump)))

/-- R86, R87. The restart resynchronisation by a flagged frame, far or behind with history NONE, that no guard drops. That no
notice of ACCEPTED_X's saturation follows the RESYNC notice is the model's choice (log 16). -/
def Obligations.RestartResynchronises : Prop :=
  ∀ (s : State) (x : Sys2Proof.Path) (i : StreamIdx) (f : Frame) (rest : List Delivery) (e : Seq),
    s.MergeOk → s.Waits x i f rest → s.Passes x i f → (s.stream i).state.playing = true → (s.stream i).base = some e →
    2 * (s.inForce i).window ≤ dist f.seq e → f.restart = true → (s.refreshed x i rest).guardDrops f.seq = false →
    (4032 ≤ dist f.seq e → (s.stream i).passedAt (dist f.seq e) = .none) →
    ∃ c, s.ArrivalGives x i rest c ∧ c.s.base = some (f.seq + 1) ∧ c.s.window = [] ∧ c.s.timer = none ∧ c.s.jump = none ∧
      c.s.guard = some ⟨e, 64⟩ ∧ c.s.history = (.real :: historyNone).take 64 ∧
      c.s.queue = (if (s.inForce i).trim ≤ (s.stream i).queue.length then (s.stream i).queue.tail else (s.stream i).queue) ++
        [.real f.seq f.q f.words] ∧
      c.s.state = (s.stream i).state ∧ c.s.run = (s.stream i).run ∧ c.s.acq = (s.stream i).acq ∧
      (s.refreshed x i rest).Keeps c
        [ctrAccepted x, ctrReleased, ctrTrimmed, ctrFlushed, ctrStraySeq, ctrResyncFlag] ∧
      c.s.counters[ctrFlushed] = (Nat.iterate Counter.bump (s.stream i).window.length) (s.stream i).counters[ctrFlushed] ∧
      c.s.counters[ctrReleased] = (s.stream i).counters[ctrReleased].bump ∧
      c.s.counters[ctrAccepted x] = (s.stream i).counters[ctrAccepted x].bump ∧
      c.s.counters[ctrResyncFlag] = (s.stream i).counters[ctrResyncFlag].bump ∧
      c.s.counters[ctrStraySeq] = (if (s.stream i).jump = none then (s.stream i).counters[ctrStraySeq]
        else (s.stream i).counters[ctrStraySeq].bump) ∧
      c.s.counters[ctrTrimmed] = (if (s.inForce i).trim ≤ (s.stream i).queue.length
        then (s.stream i).counters[ctrTrimmed].bump else (s.stream i).counters[ctrTrimmed]) ∧
      c.free + queueSlots c.s.queue = s.free + (s.stream i).window.length + (if (s.stream i).jump = none then 0 else 1) +
        queueSlots (s.stream i).queue ∧
      ((s.inForce i).noticeMask.resync = true → c.notes.getLast? = some (.resync i e f.seq .restartFlag))

/-- R54, R56. An arrival in STALLED within the window resumes the stream; one at distance W..4031 makes it acquire again,
as its candidate. ACCEPTED_X is counted, and RELEASED for a release. -/
def Obligations.StalledStreamReturns : Prop :=
  ∀ (s : State) (x : Sys2Proof.Path) (i : StreamIdx) (f : Frame) (rest : List Delivery) (e : Seq), s.MergeOk →
    s.Waits x i f rest → s.Passes x i f → (s.stream i).state = .stalled → (s.stream i).base = some e →
    (f.seq = e → ∃ c, s.ArrivalGives x i rest c ∧ c.s.state = .priming ∧ c.s.run = 0 ∧ c.s.base = some (e + 1) ∧
      c.s.queue = [.real f.seq f.q f.words] ∧ c.s.window = [] ∧ c.s.timer = none ∧ c.free = s.free - 1 ∧
      c.s.history = (.real :: (s.stream i).history).take 64 ∧ c.s.jump = none ∧ c.s.guard = none ∧ c.s.acq = none ∧
      (s.refreshed x i rest).Keeps c [ctrAccepted x, ctrReleased] ∧
      c.s.counters[ctrAccepted x] = (s.stream i).counters[ctrAccepted x].bump ∧
      c.s.counters[ctrReleased] = (s.stream i).counters[ctrReleased].bump ∧
      ((s.inForce i).noticeMask.streamState = true → c.notes.getLast? = some (.streamState i .priming .resumed))) ∧
    (f.seq ≠ e → dist f.seq e < (s.inForce i).window →
      ∃ c, s.ArrivalGives x i rest c ∧ c.s.state = .priming ∧ c.s.run = 0 ∧ c.s.base = some e ∧ c.s.queue = [] ∧
        c.s.window = [⟨f.seq, f.q, f.words⟩] ∧ c.free = s.free - 1 ∧ c.s.history = (s.stream i).history ∧
        c.s.timer = (if (s.refreshed x i rest).waitValue = 0 then none else some (s.refreshed x i rest).waitValue) ∧
        c.s.jump = none ∧ c.s.guard = none ∧ c.s.acq = none ∧
        (s.refreshed x i rest).Keeps c [ctrAccepted x] ∧
        c.s.counters[ctrAccepted x] = (s.stream i).counters[ctrAccepted x].bump ∧
        ((s.inForce i).noticeMask.streamState = true → c.notes.getLast? = some (.streamState i .priming .resumed))) ∧
    ((s.inForce i).window ≤ dist f.seq e → dist f.seq e < 4032 →
      ∃ c, s.ArrivalGives x i rest c ∧ c.s.state = .acquire ∧ c.s.run = 0 ∧ c.s.base = none ∧
        c.s.history = historyNone ∧ c.s.acq = some ⟨f.seq, f.q, f.words⟩ ∧ c.free = s.free - 1 ∧ c.s.queue = [] ∧
        c.s.window = [] ∧ c.s.timer = none ∧ c.s.jump = none ∧ c.s.guard = none ∧
        (s.refreshed x i rest).Keeps c [ctrAccepted x] ∧
        c.s.counters[ctrAccepted x] = (s.stream i).counters[ctrAccepted x].bump ∧
        ((s.inForce i).noticeMask.streamState = true → c.notes.getLast? = some (.streamState i .acquire .reacquire)))

/-! ## Release, substitution and the chain -/

/-- R49, R52, R53. To release a held frame and to substitute E: the entry joins the tail after the trim at queue insertion, the
history reads REAL or SUBSTITUTED, and E moves on by one. R50, R51: the release chain ends at the first position that is not
held, keeps every other held frame, and settles the gap timer: none over an empty window, a running one kept, else one started
with the wait value unless it is 0. -/
def Obligations.ReleaseSubstituteAndChain : Prop :=
  (∀ (c : Ctx) (e : Seq), c.s.base = some e → 1 ≤ c.cfg.trim → c.s.queue.length ≤ c.cfg.trim →
     ∃ c0 : Ctx, c0 = c.trimForInsert ∧ c0.s.queue = (if c.cfg.trim ≤ c.s.queue.length then c.s.queue.tail else c.s.queue) ∧
       (∀ h t, c.s.queue = h :: t → c.cfg.trim ≤ c.s.queue.length →
         c0.free = c.free + (match h with | .real _ _ _ => 1 | .subst _ => 0) ∧
         c0.s.counters[ctrTrimmed] = c.s.counters[ctrTrimmed].bump ∧ c0.s.history = c.s.history ∧ c0.s.last = c.s.last ∧
         c0.record = c.record) ∧
       (c.s.queue.length < c.cfg.trim → c0 = c) ∧
       (∀ q ws,
         c.releaseHeld e q ws = { c0 with
           s := { c0.s with
             queue := c0.s.queue ++ [QueueEntry.real e q ws], base := some (e + 1)
             history := (Passed.real :: c0.s.history).take 64 } }.count ctrReleased ∧
         c.releaseNew e q ws = { c0 with
           s := { c0.s with
             queue := c0.s.queue ++ [QueueEntry.real e q ws], base := some (e + 1)
             history := (Passed.real :: c0.s.history).take 64 }
           free := c0.free - 1 }.count ctrReleased) ∧
       c.substitute = { c0 with
         s := { c0.s with
           queue := c0.s.queue ++ [QueueEntry.subst e], base := some (e + 1)
           history := (Passed.substituted :: c0.s.history).take 64 } } ∧
       c.substitute.s.queue.length ≤ c.cfg.trim) ∧
  (∀ (c : Ctx) (e : Seq), c.s.base = some e → (c.s.window.map WindowEntry.seq).Nodup →
     ∃ n : Nat, ∃ e' : Seq, c.chain.s.base = some e' ∧ e' = e + BitVec.ofNat 12 n ∧ c.chain.s.heldAt e' = none ∧
       c.chain.s.window.length + n = c.s.window.length ∧ (∀ v ∈ c.chain.s.window, v ∈ c.s.window) ∧
       (∀ m < n, ∃ v ∈ c.s.window, v.seq = e + BitVec.ofNat 12 m) ∧
       c.chain.s.timer = (if c.chain.s.window = [] then none else if c.s.timer.isSome then c.s.timer
         else if c.waitValue = 0 then none else some c.waitValue))

/-! ## Ticks, gaps and path presence -/

/-- R63. A cadence tick at a context: the silence step, the timer step and the phase step, in this order, each on what the
step before left; its record joins the round of that tick. Between playout events, with no timer and no PRESENT path, the
tick raises the phase and changes nothing else. What is taken first is read from other rules: the Cadence Controller's notices
join before its tick is taken (R177; log 11, DEDUCED), and a DRAINING context takes the frames delivered to it (R20; log 10,
DEDUCED). -/
def Obligations.StreamTickSteps : Prop :=
  ∀ (s : State) (i : StreamIdx), tickWaits i s.ticks = true → (s.stream i).state ≠ .off →
    (∃ s1 c, s1 = (s.takeOffers isCadence).beforePlayout i ∧ c = (s1.ctx i).silenceStep.timerStep.phaseStep ∧
      exec (.streamTick i) s = .next ({ s1.put c (.stream i) with ticks := takeTick i c.record s1.ticks }.endDrain i)) ∧
    (∀ p, (s.stream i).state ≠ .draining → (s.stream i).phase = some p → p + 1 < (s.inForce i).divisor →
      (s.stream i).timer = none → (s.stream i).pathA.isPresent = false → (s.stream i).pathB.isPresent = false →
      s.offers.filter (fun o => isCadence o.block) = [] →
      exec (.streamTick i) s =
        .next { s.setStream i { s.stream i with phase := some (p + 1) } with ticks := takeTick i none s.ticks })

/-- Path presence. R35: the refresh of an admitted path makes it PRESENT with count 0, with a PATH_STATE notice exactly if it
was ABSENT and PATH_STATE is in the mask (a path that reads UNUSED is not admitted; the operation leaves it). R74: the silence
step raises a PRESENT path's count, and the rise that brings it to P makes the path ABSENT with its notice; that PATH_ABSENT
commanded alone is that step of one path is the model's choice (log 3). R77: a link's report, taken after the notice the link
created in leaving UP (R177), makes a PRESENT path ABSENT at once with its notice. -/
def Obligations.PathPresence : Prop :=
  (∀ (c : Ctx) (x : Sys2Proof.Path), (c.s.presence x = .unused → c.refresh x = c) ∧
     (c.s.presence x ≠ .unused → c.refresh x = { c with
       s := c.s.setPresence x (.present 0)
       notes := if c.s.presence x = .absent ∧ c.cfg.noticeMask.pathState = true
         then c.notes ++ [.pathState c.idx x true] else c.notes })) ∧
  ((∀ (c : Ctx) (x : Sys2Proof.Path) (n : Nat), c.s.presence x = .present n → n + 1 < c.cfg.pathSilence →
     c.silencePath x = { c with s := c.s.setPresence x (.present (n + 1)) }) ∧
   (∀ (c : Ctx) (x : Sys2Proof.Path) (n : Nat), c.s.presence x = .present n → c.cfg.pathSilence ≤ n + 1 →
     c.silencePath x = { c with
       s := c.s.setPresence x .absent
       notes := if c.cfg.noticeMask.pathState = true then c.notes ++ [.pathState c.idx x false] else c.notes }) ∧
   (∀ (c : Ctx) (x : Sys2Proof.Path), c.s.presence x = .unused ∨ c.s.presence x = .absent → c.silencePath x = c) ∧
   (∀ (s : State) (i : StreamIdx) (x : Sys2Proof.Path) (n : Nat), (s.stream i).presence x = .present n →
     (s.inForce i).pathSilence ≤ n + 1 →
     exec (.pathAbsent i x) s = .next { s.setStream i ((s.stream i).setPresence x .absent) with
       offers := if (s.inForce i).noticeMask.pathState = true then s.offers ++ [⟨.stream i, .pathState i x false, none⟩] else s.offers })) ∧
  (∀ (s : State) (x : Sys2Proof.Path) (i : StreamIdx) (s1 : State), (x, i) ∈ s.reports →
     s1 = { s with reports := s.reports.erase (x, i) }.takeOffers (isLink x) →
     ((s.stream i).presence x = .unused ∨ (s.stream i).presence x = .absent → exec (.linkDepartureReport x i) s = .next s1) ∧
     (∀ n, (s.stream i).presence x = .present n →
       exec (.linkDepartureReport x i) s = .next { s1.setStream i ((s.stream i).setPresence x .absent) with
         offers := if (s.inForce i).noticeMask.pathState = true then s1.offers ++ [⟨.stream i, .pathState i x false, some x⟩]
           else s1.offers }))

/-- R62. A gap timer starts only over a non-empty window with no timer running, with G2 for a MERGE stream with both paths PRESENT
and G1 otherwise; 0 starts none. R64: a count above 1 falls by one and nothing else happens; the expiry removes the timer,
substitutes E with SUBST_TIMER counted, and runs the chain. That GAP_TIMER_EXPIRY commanded alone is that expiry is the model's
choice (log 3). -/
def Obligations.GapTimer : Prop :=
  (∀ c : Ctx,
     c.waitValue = (if c.cfg.paths = .merge ∧ c.s.pathA.isPresent = true ∧ c.s.pathB.isPresent = true then c.cfg.gapWait2
       else c.cfg.gapWait1) ∧
     (c.s.window = [] ∨ c.s.timer ≠ none ∨ c.waitValue = 0 → c.startTimer = c) ∧
     (c.s.window ≠ [] → c.s.timer = none → c.waitValue ≠ 0 →
       c.startTimer = { c with s := { c.s with timer := some c.waitValue } })) ∧
  ((∀ (c : Ctx) (n : Nat), c.s.timer = some n → 2 ≤ n → c.timerStep = { c with s := { c.s with timer := some (n - 1) } }) ∧
   (∀ c : Ctx, c.s.timer = none → c.timerStep = c) ∧
   (∀ (s : State) (i : StreamIdx), (s.stream i).timer = some 1 →
     (s.ctx i).timerStep =
       (({ s.ctx i with s := { s.stream i with timer := none } }.substitute).count ctrSubstTimer).chain ∧
     exec (.gapTimerExpiry i) s = .next (s.put
       (({ s.ctx i with s := { s.stream i with timer := none } }.substitute).count ctrSubstTimer).chain (.stream i))))

/-! ## Playout events -/

/-- R109, R110, R115. A playout event in ACQUIRE offers nothing; one in STALLED offers an IDLE record; one in PRIMING offers an
IDLE record below H, and at H or more takes the stream to RUNNING with its PRIMED notice and emits the head of its queue. That
PLAYOUT_EVENT commanded alone is the phase step, its record in a round of its own, is the model's choice (logs 3, 4). -/
def Obligations.PlayoutWithoutPlaying : Prop :=
  (∀ (s : State) (i : StreamIdx), (s.ctx i).phaseWraps = true →
     ((s.stream i).state = .acquire → s.PlayoutGives i (s.atPlayout i)) ∧
     ((s.stream i).state = .stalled → s.PlayoutGives i { s.atPlayout i with record := some (.idle i) })) ∧
  (∀ (s : State) (i : StreamIdx) (c0 : Ctx), (s.ctx i).phaseWraps = true → (s.stream i).state = .priming →
     c0 = (s.atPlayout i).guardCountdown →
     ((s.stream i).queue.length < (s.inForce i).hold → s.PlayoutGives i { c0 with record := some (.idle i) }) ∧
     (∀ h t, (s.inForce i).hold ≤ (s.stream i).queue.length → (s.stream i).queue = h :: t →
       s.PlayoutGives i (({ c0 with s := { c0.s with state := .running, run := 0 } }.noteState .primed).emitted h t)))

/-- R111. A playout event in RUNNING with a non-empty queue removes the head entry and emits it; the underrun run becomes 0,
and the base, the window, the history and the gap timer are unchanged. That
PLAYOUT_EVENT commanded alone is the phase step, its record in a round of its own, is the model's choice (logs 3, 4). -/
def Obligations.PlayoutRunning : Prop :=
  ∀ (s : State) (i : StreamIdx) (c0 : Ctx) (h : QueueEntry) (t : List QueueEntry), (s.ctx i).phaseWraps = true →
    (s.stream i).state = .running → c0 = (s.atPlayout i).guardCountdown → (s.stream i).queue = h :: t →
    ∃ c, s.PlayoutGives i c ∧ c = { c0 with s := { c0.s with run := 0 } }.emitted h t ∧
      c.s.base = (s.stream i).base ∧ c.s.window = (s.stream i).window ∧ c.s.history = (s.stream i).history ∧
      c.s.timer = (s.stream i).timer ∧ c.s.state = .running ∧ c.s.queue = t ∧ c.s.run = 0 ∧ c.s.counters = (s.stream i).counters

/-- R72: the payload of a substitute record. R112, R68: a playout event in RUNNING with an empty queue over a gap substitutes E
with SUBST_DEMAND counted, runs the chain and emits the head; UNDERRUN does not advance. R113, R114: with queue and window
empty it is an underrun; below S the stream stays in RUNNING, at S or above it stalls within the same event, and STALL is
that event. That PLAYOUT_EVENT and STALL commanded alone are the phase step, its record in a round of its
own, is the model's choice (logs 3, 4). -/
def Obligations.PlayoutRunningEmpty : Prop :=
  (∀ c : Ctx, (c.cfg.subst = .zero → c.substPayload = List.replicate c.cfg.words 0) ∧
     (c.cfg.subst = .repeatLast → ∀ ws, c.s.last = some ws → c.substPayload = ws) ∧
     (c.cfg.subst = .repeatLast → c.s.last = none → c.substPayload = List.replicate c.cfg.words 0) ∧
     (c.cfg.subst = .mark → c.substPayload = [])) ∧
  (∀ (s : State) (i : StreamIdx) (c0 c1 : Ctx) (e : Seq), (s.ctx i).phaseWraps = true → (s.stream i).state = .running →
     (s.stream i).queue = [] → (s.stream i).window ≠ [] → (s.stream i).base = some e →
     c0 = (s.atPlayout i).guardCountdown → c1 = ((c0.substitute).count ctrSubstDemand).chain →
     ∃ h t c, c1.s.queue = h :: t ∧ s.PlayoutGives i c ∧ c = { c1 with s := { c1.s with run := 0 } }.emitted h t ∧
       c.s.counters[ctrUnderrun] = (s.stream i).counters[ctrUnderrun]) ∧
  (∀ (s : State) (i : StreamIdx) (c0 c1 : Ctx) (e : Seq), (s.ctx i).phaseWraps = true → (s.stream i).state = .running →
     (s.stream i).queue = [] → (s.stream i).window = [] → (s.stream i).base = some e →
     c0 = (s.atPlayout i).guardCountdown → c1 = c0.underrunAt e →
     ((s.stream i).run + 1 < (s.inForce i).stallLimit → s.PlayoutGives i c1) ∧
     ((s.inForce i).stallLimit ≤ (s.stream i).run + 1 →
       ∃ c, s.PlayoutGives i c ∧ exec (.stall i) s = exec (.playoutEvent i) s ∧
         c = { c1 with
           s := { c1.s with state := .stalled, jump := none, guard := none }
           free := s.free + (if (s.stream i).jump.isSome = true then 1 else 0) }.noteState .stall))

/-- R116. A playout event in DRAINING with a non-empty queue emits its head; the underrun run is not changed. R117: with an empty
queue it offers END and takes the stream to OFF: its context is that of an OFF stream, its counters are kept, its Tag Map
entry is gone and no tick under way reaches it. That PLAYOUT_EVENT commanded alone is the phase step, its record in a round
of its own, is the model's choice (logs 3, 4); that the frames delivered to the stream are taken first is read from R20 (log 10,
DEDUCED). -/
def Obligations.PlayoutDraining : Prop :=
  (∀ (s : State) (i : StreamIdx) (h : QueueEntry) (t : List QueueEntry), (s.ctx i).phaseWraps = true →
     (s.stream i).state = .draining → ((s.beforePlayout i).stream i).queue = h :: t →
     s.PlayoutGives i ((s.atPlayout i).emitted h t)) ∧
  (∀ (s : State) (i : StreamIdx) (s1 : State), s.MergeOk → (s.ctx i).phaseWraps = true → (s.stream i).state = .draining →
     s1 = s.beforePlayout i → (s1.stream i).queue = [] →
     exec (.playoutEvent i) s = .next { s1.setStream i (s1.stream i).toOff with
       ticks := dropWaiting (fun j => decide (j = i)) (s1.ticks ++ [⟨[], [.ended i]⟩])
       tagMap := s1.tagMap.filter fun p => !decide (p.2 = i)
       offers := if (s.inForce i).noticeMask.streamState = true then s1.offers ++ [⟨.stream i, .streamState i .off .drained, none⟩]
         else s1.offers })

/-- R89. The guard's countdown at a playout event in PRIMING or RUNNING: the count falls by one, and the guard is removed when
it reaches 0. That GUARD_EXPIRY commanded alone is the playout event that removes the guard is the model's choice (log 3);
before that event it changes nothing. -/
def Obligations.GuardCountsDown : Prop :=
  (∀ (c : Ctx) (g : Guard), c.s.guard = some g →
    (2 ≤ g.remaining → c.guardCountdown = { c with s := { c.s with guard := some ⟨g.prior, g.remaining - 1⟩ } }) ∧
    (g.remaining ≤ 1 → c.guardCountdown = { c with s := { c.s with guard := none } })) ∧
  (∀ (s : State) (i : StreamIdx) (g : Guard), (s.stream i).state.playing = true → (s.stream i).guard = some g →
    ((s.ctx i).phaseWraps = true → g.remaining ≤ 1 →
      exec (.guardExpiry i) s = exec (.playoutEvent i) s ∧
      ∃ t, exec (.guardExpiry i) s = .next t ∧ (t.stream i).guard = none ∧ (t.stream i).phase = some 0) ∧
    ((s.ctx i).phaseWraps = false ∨ 2 ≤ g.remaining → exec (.guardExpiry i) s = .next s))

/-! ## The Playout Port -/

/-- R120. The round of the oldest tick, once every context has taken the tick: the first records find the free places of the FIFO,
each later one is discarded and counts PORT_DROP at its stream, the COUNTER_SATURATED notices of these counts in the order of
the records (R177; that the port offers them, and that the notices of the contexts that offered the records join first, is log 11,
DEDUCED); that PLAYOUT_ROUND changes nothing before that is the model's
choice (log 2). A record joins the round of the oldest tick that waits for its stream, in ascending stream index. R121: a word
transfer presents the next word of the head record, or the first word of the next record after the head's last word; nothing
while the FIFO is empty. The port presents the word at its position, and PO_START marks header words. -/
def Obligations.PortRoundAndTransfer : Prop :=
  (∀ (s : State) (t : Tick) (ts : List Tick), s.ticks = t :: ts → (t.offered.map PlayRecord.idx).Nodup →
     (t.waiting ≠ [] → exec .playoutRound s = .next s) ∧
     (t.waiting = [] → ∃ u, exec .playoutRound s = .next u ∧
       u.port = ⟨s.port.fifo ++ t.offered.take (16 - s.port.fifo.length), s.port.pos⟩ ∧ u.ticks = ts ∧ u.free = s.free ∧
       u.active = s.active ∧ u.tagMap = s.tagMap ∧
       (∀ i, i ∈ (t.offered.drop (16 - s.port.fifo.length)).map PlayRecord.idx →
         u.stream i = { s.stream i with
           counters := (s.stream i).counters.set ctrPortDrop (s.stream i).counters[ctrPortDrop].bump }) ∧
       (∀ i, i ∉ (t.offered.drop (16 - s.port.fifo.length)).map PlayRecord.idx → u.stream i = s.stream i) ∧
       u.offers = ({ s with ticks := ts }.takeOffers (offeredBy t.offered)).offers ++
         ((t.offered.drop (16 - s.port.fifo.length)).filter fun r =>
           (s.inForce r.idx).noticeMask.saturated && decide ((s.stream r.idx).counters[ctrPortDrop].value = 0xFFFE)).map
           fun r => ⟨.port, .counterSaturated (.stream r.idx) 23, none⟩)) ∧
  (∀ (i : StreamIdx) (r : PlayRecord) (t : Tick) (ts : List Tick),
     (i ∉ t.waiting → takeTick i (some r) (t :: ts) = t :: takeTick i (some r) ts) ∧
     (i ∈ t.waiting → (∀ p ∈ t.offered, p.idx ≠ r.idx) → t.offered.Pairwise (fun a b => a.idx < b.idx) →
       ∃ u, takeTick i (some r) (t :: ts) = u :: ts ∧ u.waiting = t.waiting.filter (fun j => !decide (j = i)) ∧
         u.offered.Perm (r :: t.offered) ∧ u.offered.Pairwise (fun a b => a.idx < b.idx))) ∧
  (∀ s : State,
     (s.port.fifo = [] → exec .wordTransfer s = .next s ∧ s.port.valid = false ∧ s.port.word = none) ∧
     (∀ r rest, s.port.fifo = r :: rest →
       s.port.valid = true ∧ s.port.word = r.words[s.port.pos]? ∧ (s.port.start = true ↔ s.port.pos = 0) ∧
       (s.port.pos + 1 < r.words.length → exec .wordTransfer s = .next { s with port := ⟨s.port.fifo, s.port.pos + 1⟩ }) ∧
       (r.words.length ≤ s.port.pos + 1 → exec .wordTransfer s = .next { s with port := ⟨rest, 0⟩ })))

/-- R198, R199. Every record begins with its header word: kind in bits 15..14, Q in bit 13, stream index in bits 12..8, zeros
in bits 7..5, word count in bits 4..0; REAL and SUBST records follow with the sequence number and their sample words. -/
def Obligations.RecordWordLayout : Prop :=
  ∀ (i : StreamIdx) (seq : Seq) (q : Bool) (ws : List Word), ws.length ≤ 16 →
    let header := fun (kind : Nat) (q : Bool) (n : Nat) =>
      BitVec.ofNat 16 (kind * 16384 + (if q = true then 8192 else 0) + i.val * 256 + n)
    (PlayRecord.real i seq q ws).words = header 0 q ws.length :: BitVec.ofNat 16 seq.toNat :: ws ∧
    (PlayRecord.subst i seq ws).words = header 1 false ws.length :: BitVec.ofNat 16 seq.toNat :: ws ∧
    (PlayRecord.idle i).words = [header 2 false 0] ∧ (PlayRecord.ended i).words = [header 3 false 0]

/-! ## The Cadence Controller -/

/-- R107. A tick produced is to reach every context that is not OFF, and no other. R101, R102, R103. A CADENCE edge: ignored in
INTERNAL; a tick in EXT_OK; in EXT_LOST it counts toward the restore, and the edge that would bring the count to 4 restores the
source and is a tick. That CADENCE_EDGE first lets its µs pass is the model's choice (log 7), and so is that CADENCE_LOSS and
GENERATOR_TICK change nothing where their timer does not run (log 2). The loss, when the loss timer
stands at 2I in EXT_OK: EXT_LOST, a fill tick at once, the generator at I, the LOST notice. The generator's tick, when its time
is there, with the next I µs later; that the command first lets pass exactly the time the generator had left, where no other timer ends
before, is the model's choice (log 6). -/
def Obligations.CadenceController : Prop :=
  (∀ s : State, ∃ t, s.produceTick = { s with ticks := s.ticks ++ [t] } ∧ t.offered = [] ∧
    ∀ i, i ∈ t.waiting ↔ (s.stream i).state ≠ .off) ∧
  (∀ (s s1 : State) (us n : Nat), s1 = s.pass us →
     n = (match s1.cadence.edgeAge with
       | none => 1
       | some age => if 2 * s1.cadence.interval < age then 1 else s1.cadence.restore + 1) →
     let ok : Cadence := { state := .extOk, interval := s1.cadence.interval, generator := none, loss := some 0,
                           edgeAge := some 0, restore := 0 }
     (s1.cadence.state = .internal → exec (.cadenceEdge us) s = .next s1) ∧
     (s1.cadence.state = .extOk → exec (.cadenceEdge us) s = .next { s1 with cadence := ok }.produceTick) ∧
     (s1.cadence.state = .extLost → n < 4 →
       exec (.cadenceEdge us) s = .next { s1 with cadence := { s1.cadence with edgeAge := some 0, restore := n } }) ∧
     (s1.cadence.state = .extLost → 4 ≤ n →
       exec (.cadenceEdge us) s = .next ({ s1 with cadence := ok }.produceTick.offer .cadence
         s1.active.device.noticeMask.cadence (.cadence .restored)))) ∧
  (∀ s : State,
     (s.cadence.loss = none → exec .cadenceLoss s = .next s) ∧
     (s.cadence.state = .extOk → s.cadence.loss = some (2 * s.cadence.interval) → exec .cadenceLoss s = .next
       ({ s with cadence := { state := .extLost, interval := s.cadence.interval, generator := some s.cadence.interval,
                              loss := none, edgeAge := s.cadence.edgeAge, restore := 0 } }.produceTick.offer .cadence
         s.active.device.noticeMask.cadence (.cadence .lost))) ∧
     (s.cadence.generator = none → exec .generatorTick s = .next s) ∧
     (s.cadence.generator = some 0 → exec .generatorTick s = .next
       { s with cadence := { s.cadence with generator := some s.cadence.interval } }.produceTick) ∧
     (∀ n, s.cadence.generator = some n → 1 ≤ n → (∀ m, some m ∈ s.timersLeft → n ≤ m) →
       exec .generatorTick s = .next
         { s.elapse n with
           cadence := { (s.elapse n).cadence with generator := some s.cadence.interval } }.produceTick))

/-- The model's choice of how time passes (logs 5, 6): over µs at whose end no timer has passed its own end, every running timer
moves and nothing else changes; however the µs are cut, the same state follows, since a timer that has reached its end expires
before more time passes; and a command that a time brings lets the time its timer has left pass. -/
def Obligations.TimePasses : Prop :=
  (∀ (s : State) (us : Nat), 1 ≤ us → (∀ n, some n ∈ s.timersLeft → us ≤ n) → s.pass us = s.elapse us) ∧
  (∀ (s : State) (us : Nat), s.elapse us = { s with
     linkA := { s.linkA with silence := s.linkA.silence.map fun n => min 1000 (n + us) }
     linkB := { s.linkB with silence := s.linkB.silence.map fun n => min 1000 (n + us) }
     cadence := { s.cadence with
       generator := s.cadence.generator.map fun n => n - us
       loss := s.cadence.loss.map fun n => min (2 * s.cadence.interval) (n + us)
       edgeAge := s.cadence.edgeAge.map fun n => min 20001 (n + us) }
     mgmt := { s.mgmt with byteGap := s.mgmt.byteGap.map fun n => min 5000 (n + us) }
     notices := { s.notices with retryTimer := s.notices.retryTimer.map fun n => n - us }
     session := s.session.map fun e => ⟨e.staged, e.timer - us⟩ }) ∧
  (∀ (s : State) (m n : Nat), s.pass (m + n) = (s.pass m).pass n) ∧
  (∀ (s : State) (n : Nat),
     (∀ x, (s.link x).silence = some n → ((s.pass (1000 - n)).link x).silence = some 1000 →
       exec (.linkSilence x) s = exec (.linkSilence x) (s.pass (1000 - n))) ∧
     (s.cadence.loss = some n → (s.pass (2 * s.cadence.interval - n)).cadence.loss = some (2 * s.cadence.interval) →
       (s.pass (2 * s.cadence.interval - n)).cadence.interval = s.cadence.interval →
       exec .cadenceLoss s = exec .cadenceLoss (s.pass (2 * s.cadence.interval - n))) ∧
     (s.cadence.generator = some n → (s.pass n).cadence.generator = some 0 →
       exec .generatorTick s = exec .generatorTick (s.pass n)) ∧
     (s.mgmt.byteGap = some n → (s.pass (5000 - n)).mgmt.byteGap = some 5000 →
       exec .byteGapExpiry s = exec .byteGapExpiry (s.pass (5000 - n))) ∧
     (∀ e e', s.session = some e → (s.pass e.timer).session = some e' → e'.timer = 0 →
       exec .editExpiry s = exec .editExpiry (s.pass e.timer)) ∧
     (s.notices.retryTimer = some n → (s.pass n).notices.retryTimer = some 0 →
       exec .retryExpiry s = exec .retryExpiry (s.pass n)))

/-! ## The input links -/

/-- R123, R128. A byte taken in DOWN: the link goes to HUNT with the silence timer at 0 and the good run 0, HUNT_ENTRIES is counted,
the notices are created (R134, R135), and the byte is the first of the sync search. R124: a byte taken while SEEKING in HUNT or UP restarts
the silence timer and completes the sync pattern, or does not. R131, R133: the silence timer at 1 ms: DOWN, the frame being
assembled gone, the runs 0, DOWN_ENTRIES counted; a link that was UP reports to all 32 contexts. -/
def Obligations.LinkStatesAndSearch : Prop :=
  (∀ (s : State) (x : Sys2Proof.Path) (b : Byte), (s.link x).state = .down →
     ∃ t, exec (.linkByte x b) s = .next t ∧ s.LinkOnly x t ∧ t.deliveries = s.deliveries ∧ t.reports = s.reports ∧
       t.link x = { s.link x with
         state := .hunt, silence := some 0, pos := .seeking (decide (b = 0xB4)), goodRun := 0
         counters := (s.link x).counters.set lctrHuntEntries (s.link x).counters[lctrHuntEntries].bump } ∧
       t.offers = s.offers ++ s.linkSaturation x lctrHuntEntries ++ s.linkStateNotice x .hunt) ∧
  (∀ (s : State) (x : Sys2Proof.Path) (b : Byte) (b4 : Bool), (s.link x).state ≠ .down → (s.link x).pos = .seeking b4 →
     exec (.linkByte x b) s = .next (s.setLink x { s.link x with
       silence := some 0
       pos := if b4 = true ∧ b = 0x6E then .inFrame [] else .seeking (decide (b = 0xB4)) })) ∧
  (∀ (s : State) (x : Sys2Proof.Path), (s.link x).state ≠ .down → (s.link x).silence = some 1000 →
     ∃ t, exec (.linkSilence x) s = .next t ∧ s.LinkOnly x t ∧ t.deliveries = s.deliveries ∧
       t.link x = { s.link x with
         state := .down, silence := none, pos := .seeking false, goodRun := 0, badRun := 0
         counters := (s.link x).counters.set lctrDownEntries (s.link x).counters[lctrDownEntries].bump } ∧
       t.reports = s.reports ++ (if (s.link x).state = .up then (List.finRange 32).map fun i => (x, i) else []) ∧
       t.offers = s.offers ++ s.linkSaturation x lctrDownEntries ++ s.linkStateNotice x .down)

/-- R126, R129, R132. The last byte of a frame whose CRC matches, in UP, or in HUNT as the second in a row: GOOD is counted
and the frame is delivered to the stream its tag names, or counts STRAY_TAG; in HUNT the link enters UP. The first in HUNT is
not delivered. R134, R135: the notices the byte creates, in the order of its changes. -/
def Obligations.GoodFrameTaken : Prop :=
  ∀ (s : State) (x : Sys2Proof.Path) (b : Byte) (got all : List Byte), (s.link x).state ≠ .down →
    (s.link x).pos = .inFrame got → all = got ++ [b] → 4 ≤ all.length → FrameComplete all → frameCrcGood all = true →
    ∃ t, exec (.linkByte x b) s = .next t ∧ s.LinkOnly x t ∧ t.reports = s.reports ∧ (t.link x).silence = some 0 ∧
      (t.link x).pos = .seeking false ∧ (t.link x).counters[lctrGood] = (s.link x).counters[lctrGood].bump ∧
      t.offers = s.offers ++ s.linkSaturation x lctrGood ++
        (if (s.link x).state = .hunt ∧ 1 ≤ (s.link x).goodRun then s.linkStateNotice x .up else []) ++
        (if ((s.link x).state = .up ∨ 1 ≤ (s.link x).goodRun) ∧ s.lookup (frameTag all) = none
          then s.linkSaturation x lctrStrayTag else []) ∧
      ((s.link x).state = .hunt → (s.link x).goodRun = 0 →
        (t.link x).state = .hunt ∧ (t.link x).goodRun = 1 ∧ t.deliveries = s.deliveries) ∧
      ((s.link x).state = .up ∨ 1 ≤ (s.link x).goodRun →
        (t.link x).state = .up ∧ (t.link x).badRun = 0 ∧
        (∀ i, s.lookup (frameTag all) = some i → t.deliveries = s.deliveries ++ [⟨x, i, frameItems all⟩] ∧
          (t.link x).counters[lctrStrayTag] = (s.link x).counters[lctrStrayTag]) ∧
        (s.lookup (frameTag all) = none → t.deliveries = s.deliveries ∧
          (t.link x).counters[lctrStrayTag] = (s.link x).counters[lctrStrayTag].bump))

/-- R126, R129, R130, R133. The last byte of a frame whose CRC does not match: CRC_ERR is counted and nothing is delivered; in HUNT
the good run is 0; in UP the bad run rises, and the fourth in a row takes the link to HUNT, with a report to all 32 contexts.
R125: a word count of 0 or above 16 as the fourth byte: FORMAT_ERR is counted, the frame is bad, and its four bytes are taken
again as SEEKING bytes. R134, R135: the notices the byte creates, in the order of its changes. -/
def Obligations.BadFrameTaken : Prop :=
  (∀ (s : State) (x : Sys2Proof.Path) (b : Byte) (got all : List Byte), (s.link x).pos = .inFrame got → all = got ++ [b] →
     4 ≤ all.length → FrameComplete all → frameCrcGood all = false → (s.link x).state ≠ .down →
     ∃ t, exec (.linkByte x b) s = .next t ∧ s.LinkOnly x t ∧ t.deliveries = s.deliveries ∧ (t.link x).silence = some 0 ∧
       (t.link x).pos = .seeking false ∧ (t.link x).counters[lctrCrcErr] = (s.link x).counters[lctrCrcErr].bump ∧
       t.offers = s.offers ++ s.linkSaturation x lctrCrcErr ++
         (if (s.link x).state = .up ∧ 3 ≤ (s.link x).badRun
           then s.linkSaturation x lctrHuntEntries ++ s.linkStateNotice x .hunt else []) ∧
       ((s.link x).state = .hunt → (t.link x).state = .hunt ∧ (t.link x).goodRun = 0 ∧ t.reports = s.reports) ∧
       ((s.link x).state = .up → (s.link x).badRun < 3 →
         (t.link x).state = .up ∧ (t.link x).badRun = (s.link x).badRun + 1 ∧ t.reports = s.reports) ∧
       ((s.link x).state = .up → 3 ≤ (s.link x).badRun →
         (t.link x).state = .hunt ∧ (t.link x).goodRun = 0 ∧
         (t.link x).counters[lctrHuntEntries] = (s.link x).counters[lctrHuntEntries].bump ∧
         t.reports = s.reports ++ (List.finRange 32).map fun i => (x, i))) ∧
  (∀ (s : State) (x : Sys2Proof.Path) (b b0 b1 b2 : Byte), (s.link x).state ≠ .down →
     (s.link x).pos = .inFrame [b0, b1, b2] → (b.toNat = 0 ∨ 16 < b.toNat) →
     ∃ t, exec (.linkByte x b) s = .next t ∧ s.LinkOnly x t ∧ t.deliveries = s.deliveries ∧ (t.link x).silence = some 0 ∧
       (t.link x).counters[lctrFormatErr] = (s.link x).counters[lctrFormatErr].bump ∧
       t.offers = s.offers ++ s.linkSaturation x lctrFormatErr ++
         (if (s.link x).state = .up ∧ 3 ≤ (s.link x).badRun
           then s.linkSaturation x lctrHuntEntries ++ s.linkStateNotice x .hunt else []) ∧
       (t.link x).pos = [b0, b1, b2, b].foldl reseek (.seeking false) ∧
       ((s.link x).state = .hunt → (t.link x).state = .hunt ∧ (t.link x).goodRun = 0 ∧ t.reports = s.reports) ∧
       ((s.link x).state = .up → (s.link x).badRun < 3 →
         (t.link x).state = .up ∧ (t.link x).badRun = (s.link x).badRun + 1 ∧ t.reports = s.reports) ∧
       ((s.link x).state = .up → 3 ≤ (s.link x).badRun →
         (t.link x).state = .hunt ∧ (t.link x).goodRun = 0 ∧
         (t.link x).counters[lctrHuntEntries] = (s.link x).counters[lctrHuntEntries].bump ∧
         t.reports = s.reports ++ (List.finRange 32).map fun i => (x, i)))

/-- R188, R189, R187, R132. A link in UP that is SEEKING takes the bytes of a frame laid out as R188 says, with a mapped tag:
the frame is delivered with its items unchanged, whatever the two ignored bits are. -/
def Obligations.LinkFrameDelivered : Prop :=
  ∀ (s : State) (x : Sys2Proof.Path) (tag : Byte) (hi : BitVec 2) (f : Frame) (i : StreamIdx) (b4 : Bool),
    (s.link x).state = .up → (s.link x).pos = .seeking b4 → 1 ≤ f.words.length → f.words.length ≤ 16 →
    s.lookup tag = some i →
    (takeLinkBytes x (linkFrameBytes tag hi f) s).deliveries = s.deliveries ++ [⟨x, i, f⟩] ∧
    ((takeLinkBytes x (linkFrameBytes tag hi f) s).link x).pos = .seeking false ∧
    ((takeLinkBytes x (linkFrameBytes tag hi f) s).link x).state = .up ∧
    ((takeLinkBytes x (linkFrameBytes tag hi f) s).link x).counters[lctrGood] = (s.link x).counters[lctrGood].bump

/-! ## The management line -/

/-- R158, R159. A byte while HUNTING: A7h begins a frame with the byte-gap timer at 0, any other changes nothing; within a frame
that stays incomplete the byte is taken and the timer restarts; an invalid LEN ends the frame; a character without its stop
bit is no byte. R161: a complete frame whose CRC does not match counts BAD_FRAME, and the bytes that followed its A7h are examined
in order as HUNTING bytes, as if they came from the line one by one (that this goes on after a good frame among them is the
model's choice, log 30); with no A7h among them nothing more happens. That a LEN byte of A7h is a valid LEN, where R159 also
says that it begins a new frame, is the model's choice (log 29). -/
def Obligations.MgmtByteTaken : Prop :=
  (∀ (s : State) (b : Byte),
     exec (.mgmtByte b false) s = .next s ∧
     (s.mgmt.rx = none → b = 0xA7 →
       exec (.mgmtByte b true) s = .next { s with mgmt := { s.mgmt with rx := some [], byteGap := some 0 } }) ∧
     (s.mgmt.rx = none → b ≠ 0xA7 →
       exec (.mgmtByte b true) s = .next { s with mgmt := { s.mgmt with byteGap := none } }) ∧
     (∀ got, s.mgmt.rx = some got → RxIncomplete (got ++ [b]) →
       exec (.mgmtByte b true) s =
         .next { s with mgmt := { s.mgmt with rx := some (got ++ [b]), byteGap := some 0 } }) ∧
     (s.mgmt.rx = some [] → (b.toNat < 3 ∨ 250 < b.toNat) →
       exec (.mgmtByte b true) s = .next { s with mgmt := { s.mgmt with rx := none, byteGap := none } })) ∧
  (∀ (s : State) (b len : Byte) (got : List Byte), s.mgmt.rx = some (len :: got) → 3 ≤ len.toNat → len.toNat ≤ 250 →
     got.length + 1 = len.toNat + 2 → mgmtCrcGood (len :: (got ++ [b])) = false →
     (∀ c ∈ len :: (got ++ [b]), c ≠ 0xA7) →
     exec (.mgmtByte b true) s =
       .next ({ s with mgmt := { s.mgmt with rx := none, byteGap := none } }.countMgmt mctrBadFrame)) ∧
  (∀ (s : State) (b len : Byte) (got : List Byte), s.mgmt.rx = some (len :: got) → 3 ≤ len.toNat → len.toNat ≤ 250 →
     got.length + 1 = len.toNat + 2 → mgmtCrcGood (len :: (got ++ [b])) = false →
     exec (.mgmtByte b true) s =
       .next (takeMgmtBytes (len :: (got ++ [b]))
         ({ s with mgmt := { s.mgmt with rx := none, byteGap := none } }.countMgmt mctrBadFrame)))

/-- R190, R159, R161, R187. The bytes of a management frame laid out as R190 says, taken from HUNTING: the frame is good, is
reported to the Notice Unit, and joins the request buffer, or counts OVERRUN where the buffer holds 4. That this holds for a body
of 165 bytes too, whose LEN is A7h, is the model's choice (log 29). -/
def Obligations.MgmtFrameReceived : Prop :=
  ∀ (s : State) (f : MgmtFrame), s.mgmt.rx = none → 1 ≤ f.body.length → f.body.length ≤ 248 →
    let t := takeMgmtBytes (mgmtFrameBytes f.kind f.reqid f.body) s
    t.mgmt.rx = none ∧ t.mgmt.byteGap = none ∧ t.goodReports = s.goodReports + 1 ∧
    (s.mgmt.requests.length < 4 → t.mgmt.requests = s.mgmt.requests ++ [f] ∧ t.mgmt.counters = s.mgmt.counters) ∧
    (4 ≤ s.mgmt.requests.length → t.mgmt.requests = s.mgmt.requests ∧
      t.mgmt.counters = s.mgmt.counters.set mctrOverrun s.mgmt.counters[mctrOverrun].bump) ∧
    t.mgmt.replies = s.mgmt.replies ∧ t.notices = s.notices

/-- R160. The byte-gap timer at 5 ms within a frame: the frame is abandoned and ABANDONED is counted, with no reply and no
report; the next byte is examined as a HUNTING byte. A byte taken first restarts the timer instead; that A7h taken as the LEN byte does
so too is the model's choice (log 29). -/
def Obligations.ByteGapAbandons : Prop :=
  ∀ (s : State) (got : List Byte), s.mgmt.rx = some got → s.mgmt.byteGap = some 5000 →
    ∃ t, exec .byteGapExpiry s = .next t ∧
      t = { s with mgmt := { s.mgmt with rx := none, byteGap := none
                                         counters := s.mgmt.counters.set mctrAbandoned s.mgmt.counters[mctrAbandoned].bump } } ∧
      (∀ b, exec (.mgmtByte b true) t = .next { t with mgmt := { t.mgmt with
        rx := if b = 0xA7 then some [] else none, byteGap := if b = 0xA7 then some 0 else none } }) ∧
      (∀ b, RxIncomplete (got ++ [b]) → exec (.mgmtByte b true) s =
          .next { s with mgmt := { s.mgmt with rx := some (got ++ [b]), byteGap := some 0 } })

/-! ## Requests and replies -/

/-- R162, R163, R165. A request taken leaves the buffer and is in progress; its reply carries KIND with bit 7 set, the REQID, the
status and the result; it joins the reply queue, and an idle Transmitter begins the head of that queue. A KIND outside 01h..0Eh
is answered UNKNOWN_KIND; a body of another length than the kind's BAD_LENGTH with the required length; neither reaches a
block. -/
def Obligations.RequestsTaken : Prop :=
  (∀ (s : State) (f : MgmtFrame) (a : Answer), s.goodReports = 0 →
     s.beginRequest f = { s with mgmt := { s.mgmt with requests := s.mgmt.requests.tail, inProgress := some f } } ∧
     (s.mgmt.tx ≠ none → s.endRequest f a = { s with mgmt := { s.mgmt with
       inProgress := none
       replies := s.mgmt.replies ++ [⟨f.kind ||| 0x80, f.reqid, a.status, a.result, a.restart⟩] } }) ∧
     (s.mgmt.tx = none → s.mgmt.replies = [] → s.endRequest f a = { s with mgmt := { s.mgmt with
       inProgress := none, replies := []
       tx := some (.reply ⟨f.kind ||| 0x80, f.reqid, a.status, a.result, a.restart⟩) } })) ∧
  (∀ (s : State) (f : MgmtFrame), s.mgmt.mayTake = true → s.mgmt.requests.head? = some f →
     ((f.kind.toNat = 0 ∨ 14 < f.kind.toNat) →
       s.Answers .unknownKind f (s.beginRequest f) ⟨.unknownKind, [], false⟩) ∧
     (∀ p ∈ [(Instr.identify, 1, 1), (.readStream, 2, 2), (.readCounters, 3, 2), (.readLink, 4, 2), (.readDevice, 5, 1),
         (.readMgmt, 6, 1), (.openEdit, 7, 3), (.stageStream, 8, 17), (.stageDevice, 9, 6), (.commitEdit, 10, 4),
         (.discardEdit, 11, 1), (.forceResync, 12, 1), (.ackNotice, 13, 1), (.restart, 14, 3)],
       f.kind = BitVec.ofNat 8 p.2.1 → f.body.length ≠ p.2.2 →
       s.Answers p.1 f (s.beginRequest f) ⟨.badLength p.2.2, [], false⟩))

/-- R166, R195. IDENTIFY is answered OK with the part code, the revision, the generation, the reset cause, the session state, the
free slots and the cadence state. R168, R169: READ_DEVICE and READ_MGMT. -/
def Obligations.IdentifyAndDeviceRead : Prop :=
  (∀ (s : State) (f : MgmtFrame), s.Takes f 0x01 1 →
     s.Answers .identify f (s.beginRequest f) ⟨.ok,
       ([0x06, 0x32, 0x01] : List Byte) ++ bytes16 s.generation ++
       ([match s.mgmt.resetCause with | .powerOn => 0 | .hard => 1 | .restart => 2, if s.session = none then 0 else 1] :
         List Byte) ++ bytes16 (BitVec.ofNat 16 s.free) ++
       ([match s.cadence.state with | .internal => 0 | .extOk => 1 | .extLost => 2] : List Byte), false⟩) ∧
  (∀ (s : State) (f : MgmtFrame) (b0 : Byte),
     (s.Takes f 0x05 1 → f.body = [b0] →
       (1 < b0.toNat → s.Answers .readDevice f (s.beginRequest f) ⟨.badValue 0, [], false⟩) ∧
       (b0 = 0 → s.Answers .readDevice f (s.beginRequest f) ⟨.ok, deviceRecordBody s.active.device, false⟩) ∧
       (b0 = 1 → s.session = none → s.Answers .readDevice f (s.beginRequest f) ⟨.noSession, [], false⟩) ∧
       (∀ e, b0 = 1 → s.session = some e →
         s.Answers .readDevice f (s.beginRequest f) ⟨.ok, deviceRecordBody e.staged.device, false⟩)) ∧
     (s.Takes f 0x06 1 → f.body = [b0] → s.goodReports = 0 →
       (1 < b0.toNat → s.Answers .readMgmt f (s.beginRequest f) ⟨.badValue 0, [], false⟩) ∧
       (b0 = 0 → s.Answers .readMgmt f (s.beginRequest f) ⟨.ok, sixCounterBlock s.mgmt.counters, false⟩) ∧
       (b0 = 1 → s.Answers .readMgmt f
         { s.beginRequest f with mgmt := { (s.beginRequest f).mgmt with counters := Vector.replicate 6 ⟨0, false⟩ } }
         ⟨.ok, sixCounterBlock s.mgmt.counters, false⟩)))

/-- R167. READ_STREAM in its order of judgement: the index, the selector, the session for STAGED, then the record, the drain
record of a DRAINING stream under ACTIVE, and the runtime status. R195, R75: the 22 bytes of the runtime status: the state; one
presence bit for each optional part, an absent part reading 00h; the occupancy, the depth, the presence of the paths with their
silence counts (the P in force for an ABSENT path), and the underrun run. -/
def Obligations.ReadStreamAnswered : Prop :=
  (∀ (s : State) (f : MgmtFrame) (b0 b1 : Byte), s.Takes f 0x02 2 → f.body = [b0, b1] →
    (32 ≤ b0.toNat → s.Answers .readStream f (s.beginRequest f) ⟨.badIndex, [], false⟩) ∧
    (∀ i : StreamIdx, b0.toNat = i.val →
      (1 < b1.toNat → s.Answers .readStream f (s.beginRequest f) ⟨.badValue 1, [], false⟩) ∧
      (b1 = 0 → s.Answers .readStream f (s.beginRequest f) ⟨.ok, streamRecordBody (s.active.record i) ++
        (match (if (s.stream i).state = .draining then (s.stream i).drain else none) with
         | none => List.replicate 17 0
         | some d => 1 :: streamRecordBody d) ++ statusBody (s.inForce i).pathSilence (s.stream i), false⟩) ∧
      (b1 = 1 → s.session = none → s.Answers .readStream f (s.beginRequest f) ⟨.noSession, [], false⟩) ∧
      (∀ e, b1 = 1 → s.session = some e → s.Answers .readStream f (s.beginRequest f) ⟨.ok,
        streamRecordBody (e.staged.record i) ++ List.replicate 17 0 ++
        statusBody (s.inForce i).pathSilence (s.stream i), false⟩))) ∧
  (∀ (p : Nat) (a : Sys2Proof.Machine.Stream),
    let seqPart := fun (o : Option Seq) => (match o with | none => [0, 0] | some e => twoBytes e.toNat)
    let countPart := fun (o : Option Nat) => (match o with | none => [0] | some n => [BitVec.ofNat 8 n] : List Byte)
    let pathPart := fun (q : Presence) =>
      (match q with | .unused => 0 :: twoBytes 0 | .absent => 1 :: twoBytes p | .present n => 2 :: twoBytes n)
    ∃ m : Byte, statusBody p a = [streamStateCode a.state, m] ++ seqPart a.base ++
        [BitVec.ofNat 8 a.window.length, BitVec.ofNat 8 a.queue.length] ++ seqPart (a.acq.map AcqCandidate.seq) ++
        seqPart (a.jump.map JumpCandidate.seq) ++ seqPart (a.guard.map Guard.prior) ++ countPart (a.guard.map Guard.remaining) ++
        countPart a.timer ++ pathPart a.pathA ++ pathPart a.pathB ++ [BitVec.ofNat 8 a.run] ++ countPart a.phase ∧
      (List.range 8).map m.getLsbD = [a.base.isSome, a.acq.isSome, a.jump.isSome, a.guard.isSome, a.timer.isSome, a.last.isSome,
        a.phase.isSome, false])

/-- R22, R136. READ_COUNTERS and READ_LINK: a bad index, a bad clear flag, the values read, and with the flag set the counters
cleared with their marks in the same event. R195: a counter block gives each counter as 2 bytes, then its marks, bit j of mark
byte i that of counter 8i + j, the bits beyond the last counter 0; a READ_LINK result is the link state, the good run in HUNT,
the bad run in UP, and the block. The code of the link state in it is the model's choice (log 28). -/
def Obligations.CountersReadAndCleared : Prop :=
  (∀ (s : State) (f : MgmtFrame) (b0 b1 : Byte),
    (s.Takes f 0x03 2 → f.body = [b0, b1] →
      (32 ≤ b0.toNat → s.Answers .readCounters f (s.beginRequest f) ⟨.badIndex, [], false⟩) ∧
      (∀ i : StreamIdx, b0.toNat = i.val →
        (1 < b1.toNat → s.Answers .readCounters f (s.beginRequest f) ⟨.badValue 1, [], false⟩) ∧
        (b1 = 0 → s.Answers .readCounters f (s.beginRequest f) ⟨.ok, streamCounterBlock (s.stream i).counters, false⟩) ∧
        (b1 = 1 → s.Answers .readCounters f
          ((s.beginRequest f).setStream i { s.stream i with counters := Vector.replicate 24 ⟨0, false⟩ })
          ⟨.ok, streamCounterBlock (s.stream i).counters, false⟩))) ∧
    (s.Takes f 0x04 2 → f.body = [b0, b1] →
      (1 < b0.toNat → s.Answers .readLink f (s.beginRequest f) ⟨.badIndex, [], false⟩) ∧
      (∀ x : Sys2Proof.Path, b0 = (match x with | .a => 0 | .b => 1) →
        (1 < b1.toNat → s.Answers .readLink f (s.beginRequest f) ⟨.badValue 1, [], false⟩) ∧
        (b1 = 0 → s.Answers .readLink f (s.beginRequest f) ⟨.ok, linkResult (s.link x), false⟩) ∧
        (b1 = 1 → s.Answers .readLink f
          ((s.beginRequest f).setLink x { s.link x with counters := Vector.replicate 6 ⟨0, false⟩ })
          ⟨.ok, linkResult (s.link x), false⟩)))) ∧
  (∀ cs : Vector Counter 24, (streamCounterBlock cs).length = 51 ∧ ∀ k : Fin 24,
    ((streamCounterBlock cs).drop (2 * k.val)).take 2 = twoBytes cs[k].value.toNat ∧
    ∃ m, (streamCounterBlock cs)[48 + k.val / 8]? = some m ∧ m.getLsbD (k.val % 8) = cs[k].mark) ∧
  (∀ cs : Vector Counter 6,
    ∃ m, (sixCounterBlock cs)[12]? = some m ∧ m.getLsbD 6 = false ∧ m.getLsbD 7 = false ∧
      (sixCounterBlock cs).length = 13 ∧ ∀ k : Fin 6,
        ((sixCounterBlock cs).drop (2 * k.val)).take 2 = twoBytes cs[k].value.toNat ∧ m.getLsbD k.val = cs[k].mark) ∧
  (∀ l : LinkRx, linkResult l = [match l.state with | .down => 0 | .hunt => 1 | .up => 2,
    if l.state = .hunt then BitVec.ofNat 8 l.goodRun else 0, if l.state = .up then BitVec.ofNat 8 l.badRun else 0] ++
    sixCounterBlock l.counters)

/-! ## Edit sessions -/

/-- R141, R140. OPEN_EDIT: busy while a session is open, whatever the token; else a matching token opens one, its staged set a copy
of the active set and its timer at EDIT_WINDOW; another counts a token failure. R145: the edit timer at 0 closes the
session, with the EDIT_EXPIRED notice if its mask member is set. R144: DISCARD_EDIT closes an open session with OK, and is
answered NO_SESSION otherwise; nothing else changes. -/
def Obligations.SessionOpensAndEnds : Prop :=
  (∀ (s : State) (f : MgmtFrame) (g1 g0 k : Byte), s.Takes f 0x07 3 → f.body = [g1, g0, k] →
     (s.session ≠ none → s.Answers .openEdit f (s.beginRequest f) ⟨.sessionBusy, [], false⟩) ∧
     (s.session = none → g1 ++ g0 = s.generation → k = s.key →
       s.Answers .openEdit f { s.beginRequest f with session := some ⟨s.active, s.active.device.editWindow * 1000⟩ }
         ⟨.ok, bytes16 (BitVec.ofNat 16 s.active.device.editWindow), false⟩) ∧
     (s.session = none → (g1 ++ g0 ≠ s.generation ∨ k ≠ s.key) →
       s.Answers .openEdit f ((s.beginRequest f).countMgmt mctrTokenFail) ⟨.badToken, [], false⟩)) ∧
  (∀ (s : State) (e : Session), s.session = some e → e.timer = 0 →
     exec .editExpiry s = .next { s with
       session := none
       offers := if s.active.device.noticeMask.editExpired = true then s.offers ++ [⟨.config, .editExpired, none⟩] else s.offers }) ∧
  (∀ (s : State) (f : MgmtFrame), s.Takes f 0x0B 1 →
     (s.session ≠ none → s.Answers .discardEdit f { s.beginRequest f with session := none } ⟨.ok, [], false⟩) ∧
     (s.session = none → s.Answers .discardEdit f (s.beginRequest f) ⟨.noSession, [], false⟩))

/-- R142, R143, R194. STAGE_STREAM and STAGE_DEVICE in their orders of judgement; a record that passes is staged whole, and nothing
else changes: not the other staged records, not the timer, not the active set. R2, R193: the number answered is that of the
first field, in field-number order, outside its range; that a HOLD not below TRIM is a failure of field 5 is read from R2
(log 17, DEDUCED). -/
def Obligations.StagingAnswered : Prop :=
  (∀ (s : State) (f : MgmtFrame) (b0 : Byte) (body : List Byte), s.Takes f 0x08 17 → f.body = b0 :: body →
     (s.session = none → s.Answers .stageStream f (s.beginRequest f) ⟨.noSession, [], false⟩) ∧
     (∀ e, s.session = some e →
       (32 ≤ b0.toNat → s.Answers .stageStream f (s.beginRequest f) ⟨.badIndex, [], false⟩) ∧
       (∀ i : StreamIdx, b0.toNat = i.val →
         (∀ n, firstFailing (streamRecordChecks body) = some n →
           s.Answers .stageStream f (s.beginRequest f) ⟨.badValue n, [], false⟩) ∧
         (firstFailing (streamRecordChecks body) = none →
           (streamRecordOf body).wf = true ∧
           s.Answers .stageStream f
             { s.beginRequest f with session := some ⟨e.staged.setRecord i (streamRecordOf body), e.timer⟩ }
             ⟨.ok, [], false⟩)))) ∧
  (∀ (s : State) (f : MgmtFrame), s.Takes f 0x09 6 →
     (s.session = none → s.Answers .stageDevice f (s.beginRequest f) ⟨.noSession, [], false⟩) ∧
     (∀ e, s.session = some e →
       (∀ n, firstFailing (deviceRecordChecks f.body) = some n →
         s.Answers .stageDevice f (s.beginRequest f) ⟨.badValue n, [], false⟩) ∧
       (firstFailing (deviceRecordChecks f.body) = none →
         (deviceRecordOf f.body).wf = true ∧
         s.Answers .stageDevice f
           { s.beginRequest f with session := some ⟨⟨e.staged.streams, deviceRecordOf f.body⟩, e.timer⟩ } ⟨.ok, [], false⟩))) ∧
  (∀ (b : List Byte) (n : Nat),
     (firstFailing (streamRecordChecks b) = some n ↔ n < 15 ∧ ¬ streamFieldOk b n ∧ ∀ m, m < n → streamFieldOk b m) ∧
     (firstFailing (deviceRecordChecks b) = some n ↔ n < 4 ∧ ¬ deviceFieldOk b n ∧ ∀ m, m < n → deviceFieldOk b m)) ∧
  (∀ b : List Byte,
     (firstFailing (streamRecordChecks b) = none ↔ ∀ m, m < 15 → streamFieldOk b m) ∧
     (firstFailing (deviceRecordChecks b) = none ↔ ∀ m, m < 4 → deviceFieldOk b m))

/-- R146. COMMIT_EDIT in its order of judgement: no session; a token that does not match closes the session and counts; a
staged set that fails a cross-record check leaves all as it is; otherwise the commit, on the state that the frames already
delivered and the notices already created leave (logs 10, 11). -/
def Obligations.CommitEditAnswered : Prop :=
  ∀ (s : State) (f : MgmtFrame) (g1 g0 k newKey : Byte), s.Takes f 0x0A 4 → f.body = [g1, g0, k, newKey] →
    (s.session = none → s.Answers .commitEdit f (s.beginRequest f) ⟨.noSession, [], false⟩) ∧
    (∀ e, s.session = some e →
      (g1 ++ g0 ≠ s.generation ∨ k ≠ s.key →
        s.Answers .commitEdit f ({ s.beginRequest f with session := none }.countMgmt mctrTokenFail) ⟨.badToken, [], false⟩) ∧
      (g1 ++ g0 = s.generation → k = s.key →
        (∀ reason i, s.crossCheck e.staged = some (reason, i) →
          s.Answers .commitEdit f (s.beginRequest f) ⟨.badConfig reason i, [], false⟩) ∧
        (s.crossCheck e.staged = none →
          s.Answers .commitEdit f ((s.beginRequest f).beforeCommit.applyCommit e.staged newKey)
            ⟨.ok, bytes16 (nextGeneration s.generation), false⟩)))

/-- R139, R148, R155. What a commit sets outside the contexts: the active set, the generation (1 after 65535), the key, the
session, the Cadence Controller where its source or interval changed, and the COMMITTED notice at the end. -/
def Obligations.CommitSetsTheConfiguration : Prop :=
  ∀ (s : State) (new : ConfigSet) (key : Byte) (t : State), t = s.applyCommit new key →
    t.active = new ∧ t.key = key ∧ t.session = none ∧
    t.generation = (if s.generation = 65535 then 1 else s.generation + 1) ∧
    (new.device.cadenceSource = s.active.device.cadenceSource →
      new.device.nominalInterval = s.active.device.nominalInterval → t.cadence = s.cadence) ∧
    (new.device.cadenceSource ≠ s.active.device.cadenceSource ∨
        new.device.nominalInterval ≠ s.active.device.nominalInterval →
      t.cadence = { state := if new.device.cadenceSource = .internal then .internal else .extOk
                    interval := new.device.nominalInterval
                    generator := if new.device.cadenceSource = .internal then some new.device.nominalInterval else none
                    loss := if new.device.cadenceSource = .internal then none else some 0
                    edgeAge := none, restore := 0 }) ∧
    (new.device.noticeMask.committed = true → t.offers.getLast? = some ⟨.config, .committed t.generation, none⟩) ∧
    t.port = s.port ∧ t.linkA = s.linkA ∧ t.linkB = s.linkB ∧ t.mgmt = s.mgmt ∧ t.notices = s.notices ∧
    t.deliveries = s.deliveries ∧ t.reports = s.reports ∧ t.pending = s.pending ∧ t.goodReports = s.goodReports

/-- R149 to R153. What a commit does to each stream, by its state, its active record and its staged record: the whole context,
the counters that advance with their numbers, and its STREAM_STATE notice with its cause under the mask of R5. The drain entry:
the n positions from E to the farthest held entry join the queue in order, REAL where held and SUBST with SUBST_PUSH where not,
after one head is dropped if they would pass T + W - 1. The free and the held slots are 512 together after it. -/
def Obligations.CommitChangesEachStream : Prop :=
  ∀ (s t : State) (new : ConfigSet) (key : Byte) (i : StreamIdx) (a b : Sys2Proof.Machine.Stream) (old staged : StreamRecord),
    s.MergeOk → (∀ j, (new.record j).wf = true) → t = s.applyCommit new key → a = s.stream i →
    b = t.stream i → old = s.active.record i → staged = new.record i →
    (a.state = .off → staged.enable = false → b = a ∧ s.stateNotices t i = []) ∧
    (a.state = .draining → staged.enable = false → staged.stopMode = .drain → b = a ∧ s.stateNotices t i = []) ∧
    (a.state.live = true → staged = old → b = a ∧ s.stateNotices t i = []) ∧
    (a.state.live = true → staged.enable = true → restartClassDiffers old staged = false →
      b = { a with queue := a.queue.drop (a.queue.length - staged.trim), counters := b.counters } ∧
      CountsBy a.counters b.counters [(ctrTrimmed, a.queue.length - staged.trim)] ∧ s.stateNotices t i = []) ∧
    (staged.enable = true → (a.state = .off ∨ a.state = .draining ∨ restartClassDiffers old staged = true) →
      b = { state := .acquire, drain := none, base := none, window := [], history := historyNone, acq := none, jump := none,
            guard := none, timer := none, pathA := if admits staged.paths .a = true then .absent else .unused,
            pathB := if admits staged.paths .b = true then .absent else .unused, queue := [], run := 0, last := none,
            phase := some 0, counters := b.counters } ∧
      CountsBy a.counters b.counters [(ctrFlushed, a.window.length + a.queue.length)] ∧
      s.stateNotices t i = (if staged.noticeMask.streamState = true
        then [⟨.config, .streamState i .acquire (if a.state.live = true then .reconfigured else .enabled), none⟩] else [])) ∧
    (a.state.live = true → staged.enable = false → staged.stopMode = .drain →
      ∃ (e : Seq) (n : Nat) (fwd : List QueueEntry), fwd = a.entriesFrom none e n ∧
        e = (match a.base with | some e => e | none => (a.acq.map AcqCandidate.seq).getD 0) ∧
        (a.window = [] → n = 0) ∧ (a.window ≠ [] → ∃ v ∈ a.window, n = dist v.seq e + 1) ∧
        (∀ v ∈ a.window, dist v.seq e + 1 ≤ n) ∧
        b = { a with
          state := .draining, drain := some old, base := some (e + BitVec.ofNat 12 n), window := []
          history := ((fwd.map QueueEntry.passed).reverse ++ a.history).take 64
          acq := none, jump := none, guard := none, timer := none
          queue := (if old.trim + old.window - 1 < a.queue.length + n then a.queue.tail else a.queue) ++ fwd
          counters := b.counters } ∧
        b.queue.length ≤ old.trim + old.window - 1 ∧
        CountsBy a.counters b.counters
          [(ctrTrimmed, if old.trim + old.window - 1 < a.queue.length + n then 1 else 0), (ctrReleased, queueSlots fwd),
           (ctrSubstPush, n - queueSlots fwd)] ∧
        s.stateNotices t i = (if old.noticeMask.streamState = true
          then [⟨.config, .streamState i .draining .disabled, none⟩] else [])) ∧
    (a.state ≠ .off → staged.enable = false → staged.stopMode = .cut →
      b = { a.toOff with counters := b.counters } ∧
      CountsBy a.counters b.counters [(ctrFlushed, a.window.length + a.queue.length)] ∧
      s.stateNotices t i = (if staged.noticeMask.streamState = true
        then [⟨.config, .streamState i .off .disabled, none⟩] else [])) ∧
    t.free + t.heldSlots = 512

/-- R147. The three checks in their order: TAG_DUPLICATE names the lowest stream whose tag a lower-indexed one has, among those with
staged ENABLE 1 or entering DRAINING; TAG_BUSY the lowest stream with staged ENABLE 1 that has the tag of one that stays DRAINING;
then BUDGET. R30: the budget check: the reported stream is the one at which the running total, in ascending index, first exceeds 512;
none is reported exactly if the whole total is at most 512. R147, R20: a commit that passes its checks never gives two streams
that are not OFF one tag. -/
def Obligations.CrossChecks : Prop :=
  (∀ (s : State) (new : ConfigSet) (i : StreamIdx),
     (s.crossCheck new = some (.tagDuplicate, i) ↔ s.duplicates new i ∧ ∀ j, j < i → ¬ s.duplicates new j) ∧
     (s.crossCheck new = some (.tagBusy, i) ↔
       (∀ j, ¬ s.duplicates new j) ∧ s.findsBusy new i ∧ ∀ j, j < i → ¬ s.findsBusy new j) ∧
     (s.crossCheck new = some (.budget, i) ↔
       (∀ j, ¬ s.duplicates new j) ∧ (∀ j, ¬ s.findsBusy new j) ∧ s.overBudget new = some i) ∧
     (s.offAfter new i = true ↔ (new.record i).enable = false ∧ ¬ s.entersDrain new i ∧ ¬ s.staysInDrain new i) ∧
     (s.offAfter new i = false → s.recordAfter new i = s.judgedRecord new i)) ∧
  (∀ (s : State) (new : ConfigSet) (need : StreamIdx → Nat),
     (∀ j, need j = if s.offAfter new j = true then 0 else (s.recordAfter new j).window + (s.recordAfter new j).trim) →
     (s.overBudget new = none ↔ ((List.finRange 32).map need).sum ≤ 512) ∧
     (∀ i, s.overBudget new = some i →
       (((List.finRange 32).filter fun j => decide (j < i)).map need).sum ≤ 512 ∧
       512 < (((List.finRange 32).filter fun j => decide (j ≤ i)).map need).sum)) ∧
  (∀ (s : State) (new : ConfigSet) (i j : StreamIdx), s.MergeOk → s.TagMapOk → s.crossCheck new = none → i ≠ j →
     s.offAfter new i = false → s.offAfter new j = false → (s.recordAfter new i).tag ≠ (s.recordAfter new j).tag)

/-! ## FORCE_RESYNC -/

/-- R92, R93. FORCE_RESYNC in PRIMING, RUNNING or STALLED: every held frame is flushed with its slot returned, and the context
stands in ACQUIRE with presence, phase and the other counters kept. R94: in ACQUIRE it frees the candidate, if held, and makes
the last payload absent; in OFF and DRAINING it changes nothing and is answered WRONG_STATE; an index outside 0..31 is answered
BAD_INDEX and changes nothing. -/
def Obligations.ForceResyncAnswered : Prop :=
  (∀ (s : State) (f : MgmtFrame) (b0 : Byte) (i : StreamIdx) (a : Sys2Proof.Machine.Stream), s.Takes f 0x0C 1 →
     f.body = [b0] → b0.toNat = i.val → a = s.stream i →
     (a.state = .priming ∨ a.state = .running ∨ a.state = .stalled) →
     ∃ c : Ctx, s.Answers .forceResync f ((s.beginRequest f).put c (.stream i)) ⟨.ok, [streamStateCode a.state], false⟩ ∧
       c.idx = i ∧
       c.s = { a with state := .acquire, base := none, window := [], queue := [], jump := none, guard := none, timer := none,
                      history := historyNone, last := none, run := 0, counters := c.s.counters } ∧
       c.s.counters[ctrFlushed] = (Nat.iterate Counter.bump (a.window.length + a.queue.length)) a.counters[ctrFlushed] ∧
       (∀ k, k ≠ ctrFlushed → c.s.counters[k] = a.counters[k]) ∧
       c.free = s.free + a.window.length + queueSlots a.queue + (if a.jump.isSome = true then 1 else 0) ∧
       ((s.inForce i).noticeMask.streamState = true → c.notes.getLast? = some (.streamState i .acquire .forced))) ∧
  (∀ (s : State) (f : MgmtFrame) (b0 : Byte) (i : StreamIdx) (a : Sys2Proof.Machine.Stream), s.Takes f 0x0C 1 →
     f.body = [b0] → b0.toNat = i.val → a = s.stream i →
     (a.state = .acquire →
       s.Answers .forceResync f { (s.beginRequest f).setStream i { a with acq := none, last := none } with
         free := s.free + (if a.acq.isSome = true then 1 else 0) } ⟨.ok, [1], false⟩ ∧
       (s.MergeOk → a.history = historyNone)) ∧
     (a.state = .off ∨ a.state = .draining →
       s.Answers .forceResync f (s.beginRequest f) ⟨.wrongState a.state, [], false⟩)) ∧
  (∀ (s : State) (f : MgmtFrame) (b0 : Byte), s.Takes f 0x0C 1 → f.body = [b0] → 32 ≤ b0.toNat →
     s.Answers .forceResync f (s.beginRequest f) ⟨.badIndex, [], false⟩)

/-! ## Notices and the Transmitter -/

/-- R178, R175. The oldest notice a block created, taken by the Notice Unit: with fewer than 32 entries it joins with the next
number; with 32 it is lost and counted, and the numbers go on without a gap. R177, R148, R77: it is not taken while an older one
must join before it: one of the same block, one about the same stream (of its context or of a commit), or one that the report of
the same link made at another context; the model's choice (log 2): the command then changes nothing. -/
def Obligations.NoticeTaken : Prop :=
  ∀ (s : State) (b : Block) (o : Offer) (rest older : List Offer), takeFirstOffer b s.offers = some (o, rest) →
    older = s.offers.takeWhile (fun e => !decide (e.block = b)) →
    (∀ e : Offer, e.before o = true ↔
      e.block = o.block ∨ (∃ i, e.notice.about = some i ∧ o.notice.about = some i) ∨
      ∃ x, e.report = some x ∧ o.report = some x) ∧
    ((∃ e ∈ older, e.before o = true) → exec (.noticeOffer b) s = .next s) ∧
    ((∀ e ∈ older, e.before o = false) → s.notices.queue.length < 32 →
      exec (.noticeOffer b) s = .next { s with offers := rest, notices := s.notices.join o.notice }.choose ∧
      (s.notices.join o.notice).queue = s.notices.queue ++ [⟨s.notices.nextNumber, o.notice⟩] ∧
      (s.notices.join o.notice).nextNumber = s.notices.nextNumber + 1) ∧
    ((∀ e ∈ older, e.before o = false) → 32 ≤ s.notices.queue.length →
      exec (.noticeOffer b) s = .next { s with
        offers := rest
        notices := { s.notices with lost := if s.notices.lost = 65535 then 65535 else s.notices.lost + 1 }
        mgmt := { s.mgmt with
          counters := s.mgmt.counters.set mctrNoticesLost s.mgmt.counters[mctrNoticesLost].bump } })

/-- R165, R179. An idle Transmitter begins the head of the reply queue; with no reply it begins the entry at the send pointer, if
QUIET is clear and the entry is in flight or fewer than 4 are; else it stays idle. R165, R180: the completion of a reply that
authorises no RESTART frees the Transmitter, which chooses again; that of a notice that is the oldest in flight starts the
retry timer at 250 ms, any other leaves it. -/
def Obligations.TransmitterAtWork : Prop :=
  (∀ s : State,
     (s.mgmt.tx ≠ none → s.choose = s) ∧
     (∀ r rest, s.mgmt.tx = none → s.mgmt.replies = r :: rest →
       s.choose = { s with mgmt := { s.mgmt with replies := rest, tx := some (.reply r) } }) ∧
     (∀ p e, s.mgmt.tx = none → s.mgmt.replies = [] → s.notices.quiet = false → s.notices.pointer = some p →
       s.notices.queue[p]? = some e →
       (p < s.notices.inFlight → s.choose = { s with
         mgmt := { s.mgmt with tx := some (.notice e false) }
         notices := { s.notices with pointer := if p + 1 < s.notices.queue.length then some (p + 1) else none } }) ∧
       (s.notices.inFlight ≤ p → s.notices.inFlight < 4 → s.choose = { s with
         mgmt := { s.mgmt with tx := some (.notice e true) }
         notices := { s.notices with
           inFlight := s.notices.inFlight + 1
           pointer := if p + 1 < s.notices.queue.length then some (p + 1) else none } }) ∧
       (s.notices.inFlight ≤ p → 4 ≤ s.notices.inFlight → s.choose = s)) ∧
     (s.mgmt.tx = none → s.mgmt.replies = [] → (s.notices.quiet = true ∨ s.notices.pointer = none) → s.choose = s)) ∧
  (∀ s : State,
     (∀ r, s.mgmt.tx = some (.reply r) → r.restart = false →
       exec .transmissionComplete s = .next { s with mgmt := { s.mgmt with tx := none } }.choose) ∧
     (∀ e first h t, s.mgmt.tx = some (.notice e first) → s.notices.queue = h :: t → 1 ≤ s.notices.inFlight →
       s.notices.quiet = false →
       (h.number = e.number → exec .transmissionComplete s = .next { s with
         mgmt := { s.mgmt with tx := none }, notices := { s.notices with retryTimer := some 250000 } }.choose) ∧
       (h.number ≠ e.number → exec .transmissionComplete s = .next { s with mgmt := { s.mgmt with tx := none } }.choose)))

/-- R183. The retry timer at 0: a resend round from the oldest in-flight entry while the count is below 3, QUIET at 3. R184: a
good-frame report under QUIET ends it and begins a resend round; otherwise it has no effect. -/
def Obligations.RetryAndGoodFrames : Prop :=
  (∀ s : State, s.notices.retryTimer = some 0 → s.notices.queue ≠ [] →
     (s.notices.retryCount < 3 → exec .retryExpiry s = .next { s with
       notices := { s.notices with retryTimer := none, retryCount := s.notices.retryCount + 1, pointer := some 0 }
       mgmt := { s.mgmt with
         counters := s.mgmt.counters.set mctrNoticeRetries s.mgmt.counters[mctrNoticeRetries].bump } }.choose) ∧
     (3 ≤ s.notices.retryCount → exec .retryExpiry s = .next { s with
       notices := { s.notices with retryTimer := none, quiet := true } })) ∧
  (∀ (s : State) (n : Nat), s.goodReports = n + 1 →
     (s.notices.quiet = false → exec .goodFrameReport s = .next { s with goodReports := n }) ∧
     (s.notices.quiet = true → s.notices.queue ≠ [] → exec .goodFrameReport s = .next { s with
       goodReports := n
       notices := { s.notices with quiet := false, retryCount := 0, pointer := some 0 }
       mgmt := { s.mgmt with
         counters := s.mgmt.counters.set mctrNoticeRetries s.mgmt.counters[mctrNoticeRetries].bump } }.choose))

/-- R181, R182, R178. ACK_NOTICE: the numbered in-flight entry and every older one leave the queue, the retry count is 0, and a
lost count above 0 queues a NOTICES_LOST; a number of no in-flight entry changes nothing. The retry timer stops where no entry
remains in flight or the oldest is in its first transmission, and starts at 250 ms otherwise; the send pointer stays with its
entry, moves to the head, or is none. That the timer is stopped where QUIET is set is read from R183 (log 13, DEDUCED); that QUIET
then stays set (log 31), that the good-frame reports that wait are taken first (log 12), and that an idle Transmitter chooses once, when the reply has joined (log 14), are the model's choices. -/
def Obligations.AckNoticeAnswered : Prop :=
  ∀ (s : State) (f : MgmtFrame) (n : Byte) (u : NoticeUnit), s.Takes f 0x0D 1 → f.body = [n] →
    u = (s.beginRequest f).notices →
    ((∀ e ∈ u.queue.take u.inFlight, e.number ≠ n) →
      s.Answers .ackNotice f (s.beginRequest f) ⟨.notInFlight, [], false⟩) ∧
    (∀ j (h : j < u.queue.length), j < u.inFlight → u.queue[j].number = n → (∀ k (h' : k < j), u.queue[k].number ≠ n) →
      ∃ v, s.Answers .ackNotice f { s.beginRequest f with notices := v } ⟨.ok, [], false⟩ ∧
        v.inFlight = u.inFlight - (j + 1) ∧ v.retryCount = 0 ∧ v.lost = 0 ∧ v.quiet = u.quiet ∧
        v.queue = u.queue.drop (j + 1) ++ (if u.lost = 0 then [] else [⟨u.nextNumber, .noticesLost u.lost⟩]) ∧
        v.nextNumber = (if u.lost = 0 then u.nextNumber else u.nextNumber + 1) ∧
        (u.inFlight = j + 1 ∨ u.quiet = true → v.retryTimer = none) ∧
        (∀ h1 : j + 1 < u.queue.length, j + 1 < u.inFlight → u.quiet = false →
          ((∃ e, (s.beginRequest f).mgmt.tx = some (.notice e true) ∧ e.number = u.queue[j + 1].number) →
            v.retryTimer = none) ∧
          ((∀ e, (s.beginRequest f).mgmt.tx = some (.notice e true) → e.number ≠ u.queue[j + 1].number) →
            v.retryTimer = some 250000)) ∧
        (∀ p, u.pointer = some p → j < p → v.pointer = some (p - (j + 1))) ∧
        (∀ p, u.pointer = some p → p ≤ j →
          v.pointer = if j + 1 < u.queue.length ∨ u.lost ≠ 0 then some 0 else none) ∧
        (u.pointer = none → v.pointer = if u.lost = 0 then none else some (u.queue.length - (j + 1))))

/-! ## RESTART -/

/-- R156, R170. RESTART: a matching token makes it pending with the reply that authorises it; another is answered BAD_TOKEN,
counts a token failure and closes an open session. -/
def Obligations.RestartAnswered : Prop :=
  ∀ (s : State) (f : MgmtFrame) (g1 g0 k : Byte), s.Takes f 0x0E 3 → f.body = [g1, g0, k] →
    (g1 ++ g0 = s.generation → k = s.key → s.Answers .restart f
      { s.beginRequest f with mgmt := { (s.beginRequest f).mgmt with restartPending := true } } ⟨.ok, [], true⟩) ∧
    (g1 ++ g0 ≠ s.generation ∨ k ≠ s.key → s.Answers .restart f
      ({ s.beginRequest f with session := none }.countMgmt mctrTokenFail) ⟨.badToken, [], false⟩)

/-- R171, R172 and the RESTART columns of R23, R32, R106, R122, R137, R157, R174, R186. The RESTART takes effect when its reply
is complete: streams, store, cadence, port, links and management side are reset; the active set, the generation, the key, the
rate and the counters are kept; STARTED 0 is the next frame sent. What precedes it
(deliveries and created notices taken first, logs 10, 11) and that departure reports and hand-offs under way are dropped (log 19)
is the model's choice, in part DEDUCED. -/
def Obligations.RestartTakesEffect : Prop :=
  ∀ (s u : State) (r : Reply), s.mgmt.tx = some (.reply r) → r.restart = true → u = s.beforeRestart →
    ∃ t, exec .transmissionComplete s = .next t ∧ t.pending = s.pending ∧
      (∀ i, (u.stream i).state = .off → t.stream i = u.stream i) ∧
      (∀ i, (u.stream i).state = .draining → t.stream i = (u.stream i).toOff) ∧
      (∀ i, (u.stream i).state.live = true → t.stream i = (u.stream i).renewed (u.inForce i).paths) ∧
      t.active = s.active ∧ t.generation = s.generation ∧ t.key = s.key ∧ t.session = none ∧
      t.tagMap = s.tagMap.filter (fun p => !decide ((u.stream p.2).state = .draining)) ∧ t.free = 512 ∧
      t.cadence = { state := if s.active.device.cadenceSource = .internal then .internal else .extOk
                    interval := s.active.device.nominalInterval
                    generator := if s.active.device.cadenceSource = .internal then some s.active.device.nominalInterval
                      else none
                    loss := if s.active.device.cadenceSource = .internal then none else some 0
                    edgeAge := none, restore := 0 } ∧
      t.port.fifo = [] ∧
      (∀ x, t.link x = { state := .hunt, silence := some 0, pos := .seeking false, goodRun := 0, badRun := 0,
                         counters := (s.link x).counters }) ∧
      t.mgmt.rate = s.mgmt.rate ∧ t.mgmt.counters = u.mgmt.counters ∧ t.mgmt.rx = none ∧ t.mgmt.byteGap = none ∧ t.mgmt.requests = [] ∧ t.mgmt.inProgress = none ∧
      t.mgmt.replies = [] ∧ t.deliveries = [] ∧ t.reports = [] ∧ t.offers = [] ∧ t.goodReports = 0 ∧
      t.mgmt.restartPending = false ∧ t.mgmt.resetCause = .restart ∧
      t.mgmt.tx = some (.notice ⟨0, .started .restart⟩ true) ∧
      t.notices = { queue := [⟨0, .started .restart⟩], nextNumber := 1, inFlight := 1, pointer := none, retryTimer := none,
                    retryCount := 0, quiet := false, lost := 0 }

/-! ## Formats -/

/-- R190, R191, R196, R197. The bytes the Transmitter sends: a frame of the layout of R190 around a reply's status, detail and
result, or around a notice's body with its number as REQID; a receiver of such frames takes from them the KIND, the REQID and the
body; that it takes one whose LEN is A7h too is the model's choice (log 29). The status codes with their details, the notice KINDs
and their bodies. -/
def Obligations.FramesSent : Prop :=
  (∀ (tx : TxFrame) (f : MgmtFrame) (s : State),
     (f = match tx with
       | .reply r => ⟨r.kind, r.reqid, statusBytes r.status ++ r.result⟩
       | .notice e _ => ⟨noticeKind e.notice, e.number, noticeBody e.notice⟩) →
     tx.bytes = 0xA7 :: BitVec.ofNat 8 (f.body.length + 2) :: f.kind :: f.reqid ::
       (f.body ++ bytes16 (crc16 (BitVec.ofNat 8 (f.body.length + 2) :: f.kind :: f.reqid :: f.body))) ∧
     (s.mgmt.rx = none → s.mgmt.requests = [] → f.body.length ≤ 248 →
       (takeMgmtBytes tx.bytes s).mgmt.requests = [f] ∧ (takeMgmtBytes tx.bytes s).mgmt.rx = none)) ∧
  (∀ (n : Nat) (i : StreamIdx) (st : StreamState),
     statusBytes .ok = [0] ∧ statusBytes .unknownKind = [1] ∧ statusBytes (.badLength n) = [2, BitVec.ofNat 8 n] ∧
     statusBytes .badIndex = [3] ∧ statusBytes (.badValue n) = [4, BitVec.ofNat 8 n] ∧ statusBytes .noSession = [5] ∧
     statusBytes .sessionBusy = [6] ∧ statusBytes .badToken = [7] ∧
     statusBytes (.badConfig .tagDuplicate i) = [8, 1, BitVec.ofNat 8 i.val] ∧
     statusBytes (.badConfig .tagBusy i) = [8, 2, BitVec.ofNat 8 i.val] ∧
     statusBytes (.badConfig .budget i) = [8, 3, BitVec.ofNat 8 i.val] ∧
     statusBytes (.wrongState st) = [9, streamStateCode st] ∧ statusBytes .notInFlight = [10]) ∧
  ([StreamState.off, .acquire, .priming, .running, .stalled, .draining].map streamStateCode = [0, 1, 2, 3, 4, 5] ∧
   [Cause.enabled, .reconfigured, .disabled, .locked, .primed, .stall, .resumed, .reacquire, .forced, .drained].map causeCode =
     [1, 2, 3, 4, 5, 6, 7, 8, 9, 10] ∧
   [ResetCause.powerOn, .hard, .restart].map resetCauseCode = [0, 1, 2] ∧
   [Sys2Proof.Path.a, .b].map pathCode = [0, 1] ∧ [LinkState.down, .hunt, .up].map linkStateCode = [0, 1, 2]) ∧
  (∀ (i : StreamIdx) (x : Sys2Proof.Path) (st : StreamState) (ls : LinkState) (cause : Cause) (rc : ResetCause) (old new : Seq)
     (g : Word) (k : Nat),
     let sent := fun n => (noticeKind n, noticeBody n)
     sent (.started rc) = (0x40, [resetCauseCode rc]) ∧ sent (.linkState x ls) = (0x41, [pathCode x, linkStateCode ls]) ∧
     sent (.pathState i x false) = (0x42, [BitVec.ofNat 8 i.val, pathCode x, 1]) ∧
     sent (.pathState i x true) = (0x42, [BitVec.ofNat 8 i.val, pathCode x, 2]) ∧
     sent (.streamState i st cause) = (0x43, [BitVec.ofNat 8 i.val, streamStateCode st, causeCode cause]) ∧
     sent (.resync i old new .jump) = (0x44, BitVec.ofNat 8 i.val ::
       (bytes16 (BitVec.ofNat 16 old.toNat) ++ bytes16 (BitVec.ofNat 16 new.toNat) ++ [1])) ∧
     sent (.resync i old new .restartFlag) = (0x44, BitVec.ofNat 8 i.val ::
       (bytes16 (BitVec.ofNat 16 old.toNat) ++ bytes16 (BitVec.ofNat 16 new.toNat) ++ [2])) ∧
     sent (.cadence .lost) = (0x45, [1]) ∧ sent (.cadence .restored) = (0x45, [2]) ∧ sent (.committed g) = (0x46, bytes16 g) ∧
     sent .editExpired = (0x47, [0]) ∧
     sent (.counterSaturated (.stream i) k) = (0x48, [0, BitVec.ofNat 8 i.val, BitVec.ofNat 8 k]) ∧
     sent (.counterSaturated (.link x) k) = (0x48, [1, pathCode x, BitVec.ofNat 8 k]) ∧
     sent (.noticesLost g) = (0x49, bytes16 g))

/-- R193, R194. A record within its ranges passes every check as its body, and the body read back is the record: no bit of a record
body is dropped. A body that passes every check is the body of the record it stages, byte for byte. -/
def Obligations.RecordBodies : Prop :=
  ((∀ r : StreamRecord, r.wf = true → (streamRecordBody r).length = 16 ∧
     firstFailing (streamRecordChecks (streamRecordBody r)) = none ∧ streamRecordOf (streamRecordBody r) = r) ∧
   (∀ d : DeviceRecord, d.wf = true → (deviceRecordBody d).length = 6 ∧
     firstFailing (deviceRecordChecks (deviceRecordBody d)) = none ∧ deviceRecordOf (deviceRecordBody d) = d)) ∧
  ((∀ b : List Byte, b.length = 16 → firstFailing (streamRecordChecks b) = none → streamRecordBody (streamRecordOf b) = b) ∧
   (∀ b : List Byte, b.length = 6 → firstFailing (deviceRecordChecks b) = none → deviceRecordBody (deviceRecordOf b) = b))
end

