-- ==== Sys2Proof/Laws/Stream.lean ====
section
/-! SUPPORT. What each small operation on a stream context leaves unchanged: one lemma per field per operation, so that no proof unfolds a record update. -/

namespace Sys2Proof.Machine

/-! ## Notices, counters and slots -/

theorem Ctx.note_eq (c : Ctx) (a : Bool) (n : Notice) :
    c.note a n = { c with notes := c.notes ++ if a then [n] else [] } := by
  cases a <;> simp [Ctx.note]

theorem Ctx.count_eq (c : Ctx) (k : Fin 24) :
    c.count k = { c with
      s := { c.s with counters := c.s.counters.set k (c.s.counters[k]).bump }
      notes := c.notes ++ if c.cfg.noticeMask.saturated && (c.s.counters[k]).atBrink then
        [.counterSaturated (.stream c.idx) k.val] else [] } := by
  simp [Ctx.count, Ctx.note_eq]


/-! ### note -/

@[simp] theorem Ctx.note_idx (c : Ctx) (a : Bool) (n : Notice) : (c.note a n).idx = c.idx := by rw [Ctx.note_eq]
@[simp] theorem Ctx.note_cfg (c : Ctx) (a : Bool) (n : Notice) : (c.note a n).cfg = c.cfg := by rw [Ctx.note_eq]
@[simp] theorem Ctx.note_s (c : Ctx) (a : Bool) (n : Notice) : (c.note a n).s = c.s := by rw [Ctx.note_eq]
@[simp] theorem Ctx.note_free (c : Ctx) (a : Bool) (n : Notice) : (c.note a n).free = c.free := by rw [Ctx.note_eq]
@[simp] theorem Ctx.note_record (c : Ctx) (a : Bool) (n : Notice) : (c.note a n).record = c.record := by rw [Ctx.note_eq]

/-! ### count -/

@[simp] theorem Ctx.count_idx (c : Ctx) (k : Fin 24) : (c.count k).idx = c.idx := by rw [Ctx.count_eq]
@[simp] theorem Ctx.count_cfg (c : Ctx) (k : Fin 24) : (c.count k).cfg = c.cfg := by rw [Ctx.count_eq]
@[simp] theorem Ctx.count_free (c : Ctx) (k : Fin 24) : (c.count k).free = c.free := by rw [Ctx.count_eq]
@[simp] theorem Ctx.count_record (c : Ctx) (k : Fin 24) : (c.count k).record = c.record := by rw [Ctx.count_eq]
@[simp] theorem Ctx.count_s_state (c : Ctx) (k : Fin 24) : (c.count k).s.state = c.s.state := by rw [Ctx.count_eq]
@[simp] theorem Ctx.count_s_drain (c : Ctx) (k : Fin 24) : (c.count k).s.drain = c.s.drain := by rw [Ctx.count_eq]
@[simp] theorem Ctx.count_s_base (c : Ctx) (k : Fin 24) : (c.count k).s.base = c.s.base := by rw [Ctx.count_eq]
@[simp] theorem Ctx.count_s_window (c : Ctx) (k : Fin 24) : (c.count k).s.window = c.s.window := by rw [Ctx.count_eq]
@[simp] theorem Ctx.count_s_history (c : Ctx) (k : Fin 24) : (c.count k).s.history = c.s.history := by rw [Ctx.count_eq]
@[simp] theorem Ctx.count_s_acq (c : Ctx) (k : Fin 24) : (c.count k).s.acq = c.s.acq := by rw [Ctx.count_eq]
@[simp] theorem Ctx.count_s_jump (c : Ctx) (k : Fin 24) : (c.count k).s.jump = c.s.jump := by rw [Ctx.count_eq]
@[simp] theorem Ctx.count_s_guard (c : Ctx) (k : Fin 24) : (c.count k).s.guard = c.s.guard := by rw [Ctx.count_eq]
@[simp] theorem Ctx.count_s_timer (c : Ctx) (k : Fin 24) : (c.count k).s.timer = c.s.timer := by rw [Ctx.count_eq]
@[simp] theorem Ctx.count_s_pathA (c : Ctx) (k : Fin 24) : (c.count k).s.pathA = c.s.pathA := by rw [Ctx.count_eq]
@[simp] theorem Ctx.count_s_pathB (c : Ctx) (k : Fin 24) : (c.count k).s.pathB = c.s.pathB := by rw [Ctx.count_eq]
@[simp] theorem Ctx.count_s_queue (c : Ctx) (k : Fin 24) : (c.count k).s.queue = c.s.queue := by rw [Ctx.count_eq]
@[simp] theorem Ctx.count_s_run (c : Ctx) (k : Fin 24) : (c.count k).s.run = c.s.run := by rw [Ctx.count_eq]
@[simp] theorem Ctx.count_s_last (c : Ctx) (k : Fin 24) : (c.count k).s.last = c.s.last := by rw [Ctx.count_eq]
@[simp] theorem Ctx.count_s_phase (c : Ctx) (k : Fin 24) : (c.count k).s.phase = c.s.phase := by rw [Ctx.count_eq]
@[simp] theorem Ctx.count_s_counters (c : Ctx) (k : Fin 24) :
    (c.count k).s.counters = c.s.counters.set k (c.s.counters[k]).bump := by rw [Ctx.count_eq]

/-! ### countN -/

@[simp] theorem Ctx.countN_idx (c : Ctx) (k : Fin 24) (n : Nat) : (c.countN k n).idx = c.idx := by
  induction n generalizing c <;> simp_all [Ctx.countN]
@[simp] theorem Ctx.countN_cfg (c : Ctx) (k : Fin 24) (n : Nat) : (c.countN k n).cfg = c.cfg := by
  induction n generalizing c <;> simp_all [Ctx.countN]
@[simp] theorem Ctx.countN_free (c : Ctx) (k : Fin 24) (n : Nat) : (c.countN k n).free = c.free := by
  induction n generalizing c <;> simp_all [Ctx.countN]
@[simp] theorem Ctx.countN_record (c : Ctx) (k : Fin 24) (n : Nat) : (c.countN k n).record = c.record := by
  induction n generalizing c <;> simp_all [Ctx.countN]
@[simp] theorem Ctx.countN_s_state (c : Ctx) (k : Fin 24) (n : Nat) : (c.countN k n).s.state = c.s.state := by
  induction n generalizing c <;> simp_all [Ctx.countN]
@[simp] theorem Ctx.countN_s_drain (c : Ctx) (k : Fin 24) (n : Nat) : (c.countN k n).s.drain = c.s.drain := by
  induction n generalizing c <;> simp_all [Ctx.countN]
@[simp] theorem Ctx.countN_s_base (c : Ctx) (k : Fin 24) (n : Nat) : (c.countN k n).s.base = c.s.base := by
  induction n generalizing c <;> simp_all [Ctx.countN]
@[simp] theorem Ctx.countN_s_window (c : Ctx) (k : Fin 24) (n : Nat) : (c.countN k n).s.window = c.s.window := by
  induction n generalizing c <;> simp_all [Ctx.countN]
@[simp] theorem Ctx.countN_s_history (c : Ctx) (k : Fin 24) (n : Nat) : (c.countN k n).s.history = c.s.history := by
  induction n generalizing c <;> simp_all [Ctx.countN]
@[simp] theorem Ctx.countN_s_acq (c : Ctx) (k : Fin 24) (n : Nat) : (c.countN k n).s.acq = c.s.acq := by
  induction n generalizing c <;> simp_all [Ctx.countN]
@[simp] theorem Ctx.countN_s_jump (c : Ctx) (k : Fin 24) (n : Nat) : (c.countN k n).s.jump = c.s.jump := by
  induction n generalizing c <;> simp_all [Ctx.countN]
@[simp] theorem Ctx.countN_s_guard (c : Ctx) (k : Fin 24) (n : Nat) : (c.countN k n).s.guard = c.s.guard := by
  induction n generalizing c <;> simp_all [Ctx.countN]
@[simp] theorem Ctx.countN_s_timer (c : Ctx) (k : Fin 24) (n : Nat) : (c.countN k n).s.timer = c.s.timer := by
  induction n generalizing c <;> simp_all [Ctx.countN]
@[simp] theorem Ctx.countN_s_pathA (c : Ctx) (k : Fin 24) (n : Nat) : (c.countN k n).s.pathA = c.s.pathA := by
  induction n generalizing c <;> simp_all [Ctx.countN]
@[simp] theorem Ctx.countN_s_pathB (c : Ctx) (k : Fin 24) (n : Nat) : (c.countN k n).s.pathB = c.s.pathB := by
  induction n generalizing c <;> simp_all [Ctx.countN]
@[simp] theorem Ctx.countN_s_queue (c : Ctx) (k : Fin 24) (n : Nat) : (c.countN k n).s.queue = c.s.queue := by
  induction n generalizing c <;> simp_all [Ctx.countN]
@[simp] theorem Ctx.countN_s_run (c : Ctx) (k : Fin 24) (n : Nat) : (c.countN k n).s.run = c.s.run := by
  induction n generalizing c <;> simp_all [Ctx.countN]
@[simp] theorem Ctx.countN_s_last (c : Ctx) (k : Fin 24) (n : Nat) : (c.countN k n).s.last = c.s.last := by
  induction n generalizing c <;> simp_all [Ctx.countN]
@[simp] theorem Ctx.countN_s_phase (c : Ctx) (k : Fin 24) (n : Nat) : (c.countN k n).s.phase = c.s.phase := by
  induction n generalizing c <;> simp_all [Ctx.countN]

/-! ### takeSlot and giveSlots -/

@[simp] theorem Ctx.takeSlot_idx (c : Ctx) : (c.takeSlot).idx = c.idx := rfl
@[simp] theorem Ctx.takeSlot_cfg (c : Ctx) : (c.takeSlot).cfg = c.cfg := rfl
@[simp] theorem Ctx.takeSlot_s (c : Ctx) : (c.takeSlot).s = c.s := rfl
@[simp] theorem Ctx.takeSlot_notes (c : Ctx) : (c.takeSlot).notes = c.notes := rfl
@[simp] theorem Ctx.takeSlot_record (c : Ctx) : (c.takeSlot).record = c.record := rfl
@[simp] theorem Ctx.takeSlot_free (c : Ctx) : c.takeSlot.free = c.free - 1 := rfl
@[simp] theorem Ctx.giveSlots_idx (c : Ctx) (n : Nat) : (c.giveSlots n).idx = c.idx := rfl
@[simp] theorem Ctx.giveSlots_cfg (c : Ctx) (n : Nat) : (c.giveSlots n).cfg = c.cfg := rfl
@[simp] theorem Ctx.giveSlots_s (c : Ctx) (n : Nat) : (c.giveSlots n).s = c.s := rfl
@[simp] theorem Ctx.giveSlots_notes (c : Ctx) (n : Nat) : (c.giveSlots n).notes = c.notes := rfl
@[simp] theorem Ctx.giveSlots_record (c : Ctx) (n : Nat) : (c.giveSlots n).record = c.record := rfl
@[simp] theorem Ctx.giveSlots_free (c : Ctx) (n : Nat) : (c.giveSlots n).free = c.free + n := rfl

/-! ### append and advance -/

@[simp] theorem Ctx.append_idx (c : Ctx) (e : QueueEntry) : (c.append e).idx = c.idx := rfl
@[simp] theorem Ctx.append_cfg (c : Ctx) (e : QueueEntry) : (c.append e).cfg = c.cfg := rfl
@[simp] theorem Ctx.append_free (c : Ctx) (e : QueueEntry) : (c.append e).free = c.free := rfl
@[simp] theorem Ctx.append_notes (c : Ctx) (e : QueueEntry) : (c.append e).notes = c.notes := rfl
@[simp] theorem Ctx.append_record (c : Ctx) (e : QueueEntry) : (c.append e).record = c.record := rfl
@[simp] theorem Ctx.append_s_state (c : Ctx) (e : QueueEntry) : (c.append e).s.state = c.s.state := rfl
@[simp] theorem Ctx.append_s_drain (c : Ctx) (e : QueueEntry) : (c.append e).s.drain = c.s.drain := rfl
@[simp] theorem Ctx.append_s_base (c : Ctx) (e : QueueEntry) : (c.append e).s.base = c.s.base := rfl
@[simp] theorem Ctx.append_s_window (c : Ctx) (e : QueueEntry) : (c.append e).s.window = c.s.window := rfl
@[simp] theorem Ctx.append_s_history (c : Ctx) (e : QueueEntry) : (c.append e).s.history = c.s.history := rfl
@[simp] theorem Ctx.append_s_acq (c : Ctx) (e : QueueEntry) : (c.append e).s.acq = c.s.acq := rfl
@[simp] theorem Ctx.append_s_jump (c : Ctx) (e : QueueEntry) : (c.append e).s.jump = c.s.jump := rfl
@[simp] theorem Ctx.append_s_guard (c : Ctx) (e : QueueEntry) : (c.append e).s.guard = c.s.guard := rfl
@[simp] theorem Ctx.append_s_timer (c : Ctx) (e : QueueEntry) : (c.append e).s.timer = c.s.timer := rfl
@[simp] theorem Ctx.append_s_pathA (c : Ctx) (e : QueueEntry) : (c.append e).s.pathA = c.s.pathA := rfl
@[simp] theorem Ctx.append_s_pathB (c : Ctx) (e : QueueEntry) : (c.append e).s.pathB = c.s.pathB := rfl
@[simp] theorem Ctx.append_s_run (c : Ctx) (e : QueueEntry) : (c.append e).s.run = c.s.run := rfl
@[simp] theorem Ctx.append_s_last (c : Ctx) (e : QueueEntry) : (c.append e).s.last = c.s.last := rfl
@[simp] theorem Ctx.append_s_phase (c : Ctx) (e : QueueEntry) : (c.append e).s.phase = c.s.phase := rfl
@[simp] theorem Ctx.append_s_counters (c : Ctx) (e : QueueEntry) : (c.append e).s.counters = c.s.counters := rfl
@[simp] theorem Ctx.append_s_queue (c : Ctx) (e : QueueEntry) : (c.append e).s.queue = c.s.queue ++ [e] := rfl
@[simp] theorem Ctx.advance_idx (c : Ctx) (p : Passed) : (c.advance p).idx = c.idx := rfl
@[simp] theorem Ctx.advance_cfg (c : Ctx) (p : Passed) : (c.advance p).cfg = c.cfg := rfl
@[simp] theorem Ctx.advance_free (c : Ctx) (p : Passed) : (c.advance p).free = c.free := rfl
@[simp] theorem Ctx.advance_notes (c : Ctx) (p : Passed) : (c.advance p).notes = c.notes := rfl
@[simp] theorem Ctx.advance_record (c : Ctx) (p : Passed) : (c.advance p).record = c.record := rfl
@[simp] theorem Ctx.advance_s_state (c : Ctx) (p : Passed) : (c.advance p).s.state = c.s.state := rfl
@[simp] theorem Ctx.advance_s_drain (c : Ctx) (p : Passed) : (c.advance p).s.drain = c.s.drain := rfl
@[simp] theorem Ctx.advance_s_window (c : Ctx) (p : Passed) : (c.advance p).s.window = c.s.window := rfl
@[simp] theorem Ctx.advance_s_acq (c : Ctx) (p : Passed) : (c.advance p).s.acq = c.s.acq := rfl
@[simp] theorem Ctx.advance_s_jump (c : Ctx) (p : Passed) : (c.advance p).s.jump = c.s.jump := rfl
@[simp] theorem Ctx.advance_s_guard (c : Ctx) (p : Passed) : (c.advance p).s.guard = c.s.guard := rfl
@[simp] theorem Ctx.advance_s_timer (c : Ctx) (p : Passed) : (c.advance p).s.timer = c.s.timer := rfl
@[simp] theorem Ctx.advance_s_pathA (c : Ctx) (p : Passed) : (c.advance p).s.pathA = c.s.pathA := rfl
@[simp] theorem Ctx.advance_s_pathB (c : Ctx) (p : Passed) : (c.advance p).s.pathB = c.s.pathB := rfl
@[simp] theorem Ctx.advance_s_queue (c : Ctx) (p : Passed) : (c.advance p).s.queue = c.s.queue := rfl
@[simp] theorem Ctx.advance_s_run (c : Ctx) (p : Passed) : (c.advance p).s.run = c.s.run := rfl
@[simp] theorem Ctx.advance_s_last (c : Ctx) (p : Passed) : (c.advance p).s.last = c.s.last := rfl
@[simp] theorem Ctx.advance_s_phase (c : Ctx) (p : Passed) : (c.advance p).s.phase = c.s.phase := rfl
@[simp] theorem Ctx.advance_s_counters (c : Ctx) (p : Passed) : (c.advance p).s.counters = c.s.counters := rfl
@[simp] theorem Ctx.advance_s_base (c : Ctx) (p : Passed) : (c.advance p).s.base = c.s.base.map (· + 1) := rfl
@[simp] theorem Ctx.advance_s_history (c : Ctx) (p : Passed) :
    (c.advance p).s.history = (p :: c.s.history).take Config.historyDepth := rfl

/-! ### offerRecord -/

@[simp] theorem Ctx.offerRecord_idx (c : Ctx) (r : PlayRecord) : (c.offerRecord r).idx = c.idx := rfl
@[simp] theorem Ctx.offerRecord_cfg (c : Ctx) (r : PlayRecord) : (c.offerRecord r).cfg = c.cfg := rfl
@[simp] theorem Ctx.offerRecord_s (c : Ctx) (r : PlayRecord) : (c.offerRecord r).s = c.s := rfl
@[simp] theorem Ctx.offerRecord_free (c : Ctx) (r : PlayRecord) : (c.offerRecord r).free = c.free := rfl
@[simp] theorem Ctx.offerRecord_notes (c : Ctx) (r : PlayRecord) : (c.offerRecord r).notes = c.notes := rfl
@[simp] theorem Ctx.offerRecord_record (c : Ctx) (r : PlayRecord) : (c.offerRecord r).record = some r := rfl

/-! ### notices of a context -/

@[simp] theorem Ctx.noteState_idx (c : Ctx) (k : Cause) : (c.noteState k).idx = c.idx := Ctx.note_idx ..
@[simp] theorem Ctx.noteState_cfg (c : Ctx) (k : Cause) : (c.noteState k).cfg = c.cfg := Ctx.note_cfg ..
@[simp] theorem Ctx.noteState_s (c : Ctx) (k : Cause) : (c.noteState k).s = c.s := Ctx.note_s ..
@[simp] theorem Ctx.noteState_free (c : Ctx) (k : Cause) : (c.noteState k).free = c.free := Ctx.note_free ..
@[simp] theorem Ctx.noteState_record (c : Ctx) (k : Cause) : (c.noteState k).record = c.record := Ctx.note_record ..
@[simp] theorem Ctx.notePath_idx (c : Ctx) (x : Path) (b : Bool) : (c.notePath x b).idx = c.idx := Ctx.note_idx ..
@[simp] theorem Ctx.notePath_cfg (c : Ctx) (x : Path) (b : Bool) : (c.notePath x b).cfg = c.cfg := Ctx.note_cfg ..
@[simp] theorem Ctx.notePath_s (c : Ctx) (x : Path) (b : Bool) : (c.notePath x b).s = c.s := Ctx.note_s ..
@[simp] theorem Ctx.notePath_free (c : Ctx) (x : Path) (b : Bool) : (c.notePath x b).free = c.free := Ctx.note_free ..
@[simp] theorem Ctx.notePath_record (c : Ctx) (x : Path) (b : Bool) : (c.notePath x b).record = c.record := Ctx.note_record ..
@[simp] theorem Ctx.noteResync_idx (c : Ctx) (o n : Seq) (k : ResyncCause) : (c.noteResync o n k).idx = c.idx := Ctx.note_idx ..
@[simp] theorem Ctx.noteResync_cfg (c : Ctx) (o n : Seq) (k : ResyncCause) : (c.noteResync o n k).cfg = c.cfg := Ctx.note_cfg ..
@[simp] theorem Ctx.noteResync_s (c : Ctx) (o n : Seq) (k : ResyncCause) : (c.noteResync o n k).s = c.s := Ctx.note_s ..
@[simp] theorem Ctx.noteResync_free (c : Ctx) (o n : Seq) (k : ResyncCause) : (c.noteResync o n k).free = c.free := Ctx.note_free ..
@[simp] theorem Ctx.noteResync_record (c : Ctx) (o n : Seq) (k : ResyncCause) : (c.noteResync o n k).record = c.record := Ctx.note_record ..

/-! ### removeHeld and settleTimer -/

@[simp] theorem Ctx.removeHeld_idx (c : Ctx) (e : Seq) : (c.removeHeld e).idx = c.idx := rfl
@[simp] theorem Ctx.removeHeld_cfg (c : Ctx) (e : Seq) : (c.removeHeld e).cfg = c.cfg := rfl
@[simp] theorem Ctx.removeHeld_free (c : Ctx) (e : Seq) : (c.removeHeld e).free = c.free := rfl
@[simp] theorem Ctx.removeHeld_notes (c : Ctx) (e : Seq) : (c.removeHeld e).notes = c.notes := rfl
@[simp] theorem Ctx.removeHeld_record (c : Ctx) (e : Seq) : (c.removeHeld e).record = c.record := rfl
@[simp] theorem Ctx.removeHeld_s_state (c : Ctx) (e : Seq) : (c.removeHeld e).s.state = c.s.state := rfl
@[simp] theorem Ctx.removeHeld_s_drain (c : Ctx) (e : Seq) : (c.removeHeld e).s.drain = c.s.drain := rfl
@[simp] theorem Ctx.removeHeld_s_base (c : Ctx) (e : Seq) : (c.removeHeld e).s.base = c.s.base := rfl
@[simp] theorem Ctx.removeHeld_s_history (c : Ctx) (e : Seq) : (c.removeHeld e).s.history = c.s.history := rfl
@[simp] theorem Ctx.removeHeld_s_acq (c : Ctx) (e : Seq) : (c.removeHeld e).s.acq = c.s.acq := rfl
@[simp] theorem Ctx.removeHeld_s_jump (c : Ctx) (e : Seq) : (c.removeHeld e).s.jump = c.s.jump := rfl
@[simp] theorem Ctx.removeHeld_s_guard (c : Ctx) (e : Seq) : (c.removeHeld e).s.guard = c.s.guard := rfl
@[simp] theorem Ctx.removeHeld_s_timer (c : Ctx) (e : Seq) : (c.removeHeld e).s.timer = c.s.timer := rfl
@[simp] theorem Ctx.removeHeld_s_pathA (c : Ctx) (e : Seq) : (c.removeHeld e).s.pathA = c.s.pathA := rfl
@[simp] theorem Ctx.removeHeld_s_pathB (c : Ctx) (e : Seq) : (c.removeHeld e).s.pathB = c.s.pathB := rfl
@[simp] theorem Ctx.removeHeld_s_queue (c : Ctx) (e : Seq) : (c.removeHeld e).s.queue = c.s.queue := rfl
@[simp] theorem Ctx.removeHeld_s_run (c : Ctx) (e : Seq) : (c.removeHeld e).s.run = c.s.run := rfl
@[simp] theorem Ctx.removeHeld_s_last (c : Ctx) (e : Seq) : (c.removeHeld e).s.last = c.s.last := rfl
@[simp] theorem Ctx.removeHeld_s_phase (c : Ctx) (e : Seq) : (c.removeHeld e).s.phase = c.s.phase := rfl
@[simp] theorem Ctx.removeHeld_s_counters (c : Ctx) (e : Seq) : (c.removeHeld e).s.counters = c.s.counters := rfl
@[simp] theorem Ctx.removeHeld_s_window (c : Ctx) (e : Seq) :
    (c.removeHeld e).s.window = c.s.window.filter fun w => !decide (w.seq = e) := rfl
@[simp] theorem Ctx.startTimer_idx (c : Ctx) : (c.startTimer).idx = c.idx := by
  unfold Ctx.startTimer; repeat' split
  all_goals rfl
@[simp] theorem Ctx.startTimer_cfg (c : Ctx) : (c.startTimer).cfg = c.cfg := by
  unfold Ctx.startTimer; repeat' split
  all_goals rfl
@[simp] theorem Ctx.startTimer_free (c : Ctx) : (c.startTimer).free = c.free := by
  unfold Ctx.startTimer; repeat' split
  all_goals rfl
@[simp] theorem Ctx.startTimer_notes (c : Ctx) : (c.startTimer).notes = c.notes := by
  unfold Ctx.startTimer; repeat' split
  all_goals rfl
@[simp] theorem Ctx.startTimer_record (c : Ctx) : (c.startTimer).record = c.record := by
  unfold Ctx.startTimer; repeat' split
  all_goals rfl
@[simp] theorem Ctx.startTimer_s_state (c : Ctx) : (c.startTimer).s.state = c.s.state := by
  unfold Ctx.startTimer; repeat' split
  all_goals rfl
@[simp] theorem Ctx.startTimer_s_drain (c : Ctx) : (c.startTimer).s.drain = c.s.drain := by
  unfold Ctx.startTimer; repeat' split
  all_goals rfl
@[simp] theorem Ctx.startTimer_s_base (c : Ctx) : (c.startTimer).s.base = c.s.base := by
  unfold Ctx.startTimer; repeat' split
  all_goals rfl
@[simp] theorem Ctx.startTimer_s_window (c : Ctx) : (c.startTimer).s.window = c.s.window := by
  unfold Ctx.startTimer; repeat' split
  all_goals rfl
@[simp] theorem Ctx.startTimer_s_history (c : Ctx) : (c.startTimer).s.history = c.s.history := by
  unfold Ctx.startTimer; repeat' split
  all_goals rfl
@[simp] theorem Ctx.startTimer_s_acq (c : Ctx) : (c.startTimer).s.acq = c.s.acq := by
  unfold Ctx.startTimer; repeat' split
  all_goals rfl
@[simp] theorem Ctx.startTimer_s_jump (c : Ctx) : (c.startTimer).s.jump = c.s.jump := by
  unfold Ctx.startTimer; repeat' split
  all_goals rfl
@[simp] theorem Ctx.startTimer_s_guard (c : Ctx) : (c.startTimer).s.guard = c.s.guard := by
  unfold Ctx.startTimer; repeat' split
  all_goals rfl
@[simp] theorem Ctx.startTimer_s_pathA (c : Ctx) : (c.startTimer).s.pathA = c.s.pathA := by
  unfold Ctx.startTimer; repeat' split
  all_goals rfl
@[simp] theorem Ctx.startTimer_s_pathB (c : Ctx) : (c.startTimer).s.pathB = c.s.pathB := by
  unfold Ctx.startTimer; repeat' split
  all_goals rfl
@[simp] theorem Ctx.startTimer_s_queue (c : Ctx) : (c.startTimer).s.queue = c.s.queue := by
  unfold Ctx.startTimer; repeat' split
  all_goals rfl
@[simp] theorem Ctx.startTimer_s_run (c : Ctx) : (c.startTimer).s.run = c.s.run := by
  unfold Ctx.startTimer; repeat' split
  all_goals rfl
@[simp] theorem Ctx.startTimer_s_last (c : Ctx) : (c.startTimer).s.last = c.s.last := by
  unfold Ctx.startTimer; repeat' split
  all_goals rfl
@[simp] theorem Ctx.startTimer_s_phase (c : Ctx) : (c.startTimer).s.phase = c.s.phase := by
  unfold Ctx.startTimer; repeat' split
  all_goals rfl
@[simp] theorem Ctx.startTimer_s_counters (c : Ctx) : (c.startTimer).s.counters = c.s.counters := by
  unfold Ctx.startTimer; repeat' split
  all_goals rfl
@[simp] theorem Ctx.settleTimer_idx (c : Ctx) : (c.settleTimer).idx = c.idx := by
  unfold Ctx.settleTimer; split
  · rfl
  · simp
@[simp] theorem Ctx.settleTimer_cfg (c : Ctx) : (c.settleTimer).cfg = c.cfg := by
  unfold Ctx.settleTimer; split
  · rfl
  · simp
@[simp] theorem Ctx.settleTimer_free (c : Ctx) : (c.settleTimer).free = c.free := by
  unfold Ctx.settleTimer; split
  · rfl
  · simp
@[simp] theorem Ctx.settleTimer_notes (c : Ctx) : (c.settleTimer).notes = c.notes := by
  unfold Ctx.settleTimer; split
  · rfl
  · simp
@[simp] theorem Ctx.settleTimer_record (c : Ctx) : (c.settleTimer).record = c.record := by
  unfold Ctx.settleTimer; split
  · rfl
  · simp
@[simp] theorem Ctx.settleTimer_s_state (c : Ctx) : (c.settleTimer).s.state = c.s.state := by
  unfold Ctx.settleTimer; split
  · rfl
  · simp
@[simp] theorem Ctx.settleTimer_s_drain (c : Ctx) : (c.settleTimer).s.drain = c.s.drain := by
  unfold Ctx.settleTimer; split
  · rfl
  · simp
@[simp] theorem Ctx.settleTimer_s_base (c : Ctx) : (c.settleTimer).s.base = c.s.base := by
  unfold Ctx.settleTimer; split
  · rfl
  · simp
@[simp] theorem Ctx.settleTimer_s_window (c : Ctx) : (c.settleTimer).s.window = c.s.window := by
  unfold Ctx.settleTimer; split
  · rfl
  · simp
@[simp] theorem Ctx.settleTimer_s_history (c : Ctx) : (c.settleTimer).s.history = c.s.history := by
  unfold Ctx.settleTimer; split
  · rfl
  · simp
@[simp] theorem Ctx.settleTimer_s_acq (c : Ctx) : (c.settleTimer).s.acq = c.s.acq := by
  unfold Ctx.settleTimer; split
  · rfl
  · simp
@[simp] theorem Ctx.settleTimer_s_jump (c : Ctx) : (c.settleTimer).s.jump = c.s.jump := by
  unfold Ctx.settleTimer; split
  · rfl
  · simp
@[simp] theorem Ctx.settleTimer_s_guard (c : Ctx) : (c.settleTimer).s.guard = c.s.guard := by
  unfold Ctx.settleTimer; split
  · rfl
  · simp
@[simp] theorem Ctx.settleTimer_s_pathA (c : Ctx) : (c.settleTimer).s.pathA = c.s.pathA := by
  unfold Ctx.settleTimer; split
  · rfl
  · simp
@[simp] theorem Ctx.settleTimer_s_pathB (c : Ctx) : (c.settleTimer).s.pathB = c.s.pathB := by
  unfold Ctx.settleTimer; split
  · rfl
  · simp
@[simp] theorem Ctx.settleTimer_s_queue (c : Ctx) : (c.settleTimer).s.queue = c.s.queue := by
  unfold Ctx.settleTimer; split
  · rfl
  · simp
@[simp] theorem Ctx.settleTimer_s_run (c : Ctx) : (c.settleTimer).s.run = c.s.run := by
  unfold Ctx.settleTimer; split
  · rfl
  · simp
@[simp] theorem Ctx.settleTimer_s_last (c : Ctx) : (c.settleTimer).s.last = c.s.last := by
  unfold Ctx.settleTimer; split
  · rfl
  · simp
@[simp] theorem Ctx.settleTimer_s_phase (c : Ctx) : (c.settleTimer).s.phase = c.s.phase := by
  unfold Ctx.settleTimer; split
  · rfl
  · simp
@[simp] theorem Ctx.settleTimer_s_counters (c : Ctx) : (c.settleTimer).s.counters = c.s.counters := by
  unfold Ctx.settleTimer; split
  · rfl
  · simp

/-! ### dropHead and trimForInsert -/

@[simp] theorem Ctx.dropHead_idx (c : Ctx) : (c.dropHead).idx = c.idx := by
  unfold Ctx.dropHead; split <;> simp
@[simp] theorem Ctx.dropHead_cfg (c : Ctx) : (c.dropHead).cfg = c.cfg := by
  unfold Ctx.dropHead; split <;> simp
@[simp] theorem Ctx.dropHead_record (c : Ctx) : (c.dropHead).record = c.record := by
  unfold Ctx.dropHead; split <;> simp
@[simp] theorem Ctx.dropHead_s_state (c : Ctx) : (c.dropHead).s.state = c.s.state := by
  unfold Ctx.dropHead; split <;> simp
@[simp] theorem Ctx.dropHead_s_drain (c : Ctx) : (c.dropHead).s.drain = c.s.drain := by
  unfold Ctx.dropHead; split <;> simp
@[simp] theorem Ctx.dropHead_s_base (c : Ctx) : (c.dropHead).s.base = c.s.base := by
  unfold Ctx.dropHead; split <;> simp
@[simp] theorem Ctx.dropHead_s_window (c : Ctx) : (c.dropHead).s.window = c.s.window := by
  unfold Ctx.dropHead; split <;> simp
@[simp] theorem Ctx.dropHead_s_history (c : Ctx) : (c.dropHead).s.history = c.s.history := by
  unfold Ctx.dropHead; split <;> simp
@[simp] theorem Ctx.dropHead_s_acq (c : Ctx) : (c.dropHead).s.acq = c.s.acq := by
  unfold Ctx.dropHead; split <;> simp
@[simp] theorem Ctx.dropHead_s_jump (c : Ctx) : (c.dropHead).s.jump = c.s.jump := by
  unfold Ctx.dropHead; split <;> simp
@[simp] theorem Ctx.dropHead_s_guard (c : Ctx) : (c.dropHead).s.guard = c.s.guard := by
  unfold Ctx.dropHead; split <;> simp
@[simp] theorem Ctx.dropHead_s_timer (c : Ctx) : (c.dropHead).s.timer = c.s.timer := by
  unfold Ctx.dropHead; split <;> simp
@[simp] theorem Ctx.dropHead_s_pathA (c : Ctx) : (c.dropHead).s.pathA = c.s.pathA := by
  unfold Ctx.dropHead; split <;> simp
@[simp] theorem Ctx.dropHead_s_pathB (c : Ctx) : (c.dropHead).s.pathB = c.s.pathB := by
  unfold Ctx.dropHead; split <;> simp
@[simp] theorem Ctx.dropHead_s_run (c : Ctx) : (c.dropHead).s.run = c.s.run := by
  unfold Ctx.dropHead; split <;> simp
@[simp] theorem Ctx.dropHead_s_last (c : Ctx) : (c.dropHead).s.last = c.s.last := by
  unfold Ctx.dropHead; split <;> simp
@[simp] theorem Ctx.dropHead_s_phase (c : Ctx) : (c.dropHead).s.phase = c.s.phase := by
  unfold Ctx.dropHead; split <;> simp
@[simp] theorem Ctx.trimForInsert_idx (c : Ctx) : (c.trimForInsert).idx = c.idx := by
  unfold Ctx.trimForInsert; split <;> simp
@[simp] theorem Ctx.trimForInsert_cfg (c : Ctx) : (c.trimForInsert).cfg = c.cfg := by
  unfold Ctx.trimForInsert; split <;> simp
@[simp] theorem Ctx.trimForInsert_record (c : Ctx) : (c.trimForInsert).record = c.record := by
  unfold Ctx.trimForInsert; split <;> simp
@[simp] theorem Ctx.trimForInsert_s_state (c : Ctx) : (c.trimForInsert).s.state = c.s.state := by
  unfold Ctx.trimForInsert; split <;> simp
@[simp] theorem Ctx.trimForInsert_s_drain (c : Ctx) : (c.trimForInsert).s.drain = c.s.drain := by
  unfold Ctx.trimForInsert; split <;> simp
@[simp] theorem Ctx.trimForInsert_s_base (c : Ctx) : (c.trimForInsert).s.base = c.s.base := by
  unfold Ctx.trimForInsert; split <;> simp
@[simp] theorem Ctx.trimForInsert_s_window (c : Ctx) : (c.trimForInsert).s.window = c.s.window := by
  unfold Ctx.trimForInsert; split <;> simp
@[simp] theorem Ctx.trimForInsert_s_history (c : Ctx) : (c.trimForInsert).s.history = c.s.history := by
  unfold Ctx.trimForInsert; split <;> simp
@[simp] theorem Ctx.trimForInsert_s_acq (c : Ctx) : (c.trimForInsert).s.acq = c.s.acq := by
  unfold Ctx.trimForInsert; split <;> simp
@[simp] theorem Ctx.trimForInsert_s_jump (c : Ctx) : (c.trimForInsert).s.jump = c.s.jump := by
  unfold Ctx.trimForInsert; split <;> simp
@[simp] theorem Ctx.trimForInsert_s_guard (c : Ctx) : (c.trimForInsert).s.guard = c.s.guard := by
  unfold Ctx.trimForInsert; split <;> simp
@[simp] theorem Ctx.trimForInsert_s_timer (c : Ctx) : (c.trimForInsert).s.timer = c.s.timer := by
  unfold Ctx.trimForInsert; split <;> simp
@[simp] theorem Ctx.trimForInsert_s_pathA (c : Ctx) : (c.trimForInsert).s.pathA = c.s.pathA := by
  unfold Ctx.trimForInsert; split <;> simp
@[simp] theorem Ctx.trimForInsert_s_pathB (c : Ctx) : (c.trimForInsert).s.pathB = c.s.pathB := by
  unfold Ctx.trimForInsert; split <;> simp
@[simp] theorem Ctx.trimForInsert_s_run (c : Ctx) : (c.trimForInsert).s.run = c.s.run := by
  unfold Ctx.trimForInsert; split <;> simp
@[simp] theorem Ctx.trimForInsert_s_last (c : Ctx) : (c.trimForInsert).s.last = c.s.last := by
  unfold Ctx.trimForInsert; split <;> simp
@[simp] theorem Ctx.trimForInsert_s_phase (c : Ctx) : (c.trimForInsert).s.phase = c.s.phase := by
  unfold Ctx.trimForInsert; split <;> simp

/-! ### freed candidates -/

@[simp] theorem Ctx.freeAcq_idx (c : Ctx) : (c.freeAcq).idx = c.idx := by
  unfold Ctx.freeAcq; split <;> simp
@[simp] theorem Ctx.freeAcq_cfg (c : Ctx) : (c.freeAcq).cfg = c.cfg := by
  unfold Ctx.freeAcq; split <;> simp
@[simp] theorem Ctx.freeAcq_notes (c : Ctx) : (c.freeAcq).notes = c.notes := by
  unfold Ctx.freeAcq; split <;> simp
@[simp] theorem Ctx.freeAcq_record (c : Ctx) : (c.freeAcq).record = c.record := by
  unfold Ctx.freeAcq; split <;> simp
@[simp] theorem Ctx.freeAcq_s_state (c : Ctx) : (c.freeAcq).s.state = c.s.state := by
  unfold Ctx.freeAcq; split <;> simp
@[simp] theorem Ctx.freeAcq_s_drain (c : Ctx) : (c.freeAcq).s.drain = c.s.drain := by
  unfold Ctx.freeAcq; split <;> simp
@[simp] theorem Ctx.freeAcq_s_base (c : Ctx) : (c.freeAcq).s.base = c.s.base := by
  unfold Ctx.freeAcq; split <;> simp
@[simp] theorem Ctx.freeAcq_s_window (c : Ctx) : (c.freeAcq).s.window = c.s.window := by
  unfold Ctx.freeAcq; split <;> simp
@[simp] theorem Ctx.freeAcq_s_history (c : Ctx) : (c.freeAcq).s.history = c.s.history := by
  unfold Ctx.freeAcq; split <;> simp
@[simp] theorem Ctx.freeAcq_s_jump (c : Ctx) : (c.freeAcq).s.jump = c.s.jump := by
  unfold Ctx.freeAcq; split <;> simp
@[simp] theorem Ctx.freeAcq_s_guard (c : Ctx) : (c.freeAcq).s.guard = c.s.guard := by
  unfold Ctx.freeAcq; split <;> simp
@[simp] theorem Ctx.freeAcq_s_timer (c : Ctx) : (c.freeAcq).s.timer = c.s.timer := by
  unfold Ctx.freeAcq; split <;> simp
@[simp] theorem Ctx.freeAcq_s_pathA (c : Ctx) : (c.freeAcq).s.pathA = c.s.pathA := by
  unfold Ctx.freeAcq; split <;> simp
@[simp] theorem Ctx.freeAcq_s_pathB (c : Ctx) : (c.freeAcq).s.pathB = c.s.pathB := by
  unfold Ctx.freeAcq; split <;> simp
@[simp] theorem Ctx.freeAcq_s_queue (c : Ctx) : (c.freeAcq).s.queue = c.s.queue := by
  unfold Ctx.freeAcq; split <;> simp
@[simp] theorem Ctx.freeAcq_s_run (c : Ctx) : (c.freeAcq).s.run = c.s.run := by
  unfold Ctx.freeAcq; split <;> simp
@[simp] theorem Ctx.freeAcq_s_last (c : Ctx) : (c.freeAcq).s.last = c.s.last := by
  unfold Ctx.freeAcq; split <;> simp
@[simp] theorem Ctx.freeAcq_s_phase (c : Ctx) : (c.freeAcq).s.phase = c.s.phase := by
  unfold Ctx.freeAcq; split <;> simp
@[simp] theorem Ctx.freeAcq_s_counters (c : Ctx) : (c.freeAcq).s.counters = c.s.counters := by
  unfold Ctx.freeAcq; split <;> simp
@[simp] theorem Ctx.freeAcq_s_acq (c : Ctx) : c.freeAcq.s.acq = none := by
  unfold Ctx.freeAcq; split <;> simp_all
@[simp] theorem Ctx.freeJump_idx (c : Ctx) : (c.freeJump).idx = c.idx := by
  unfold Ctx.freeJump; split <;> simp
@[simp] theorem Ctx.freeJump_cfg (c : Ctx) : (c.freeJump).cfg = c.cfg := by
  unfold Ctx.freeJump; split <;> simp
@[simp] theorem Ctx.freeJump_notes (c : Ctx) : (c.freeJump).notes = c.notes := by
  unfold Ctx.freeJump; split <;> simp
@[simp] theorem Ctx.freeJump_record (c : Ctx) : (c.freeJump).record = c.record := by
  unfold Ctx.freeJump; split <;> simp
@[simp] theorem Ctx.freeJump_s_state (c : Ctx) : (c.freeJump).s.state = c.s.state := by
  unfold Ctx.freeJump; split <;> simp
@[simp] theorem Ctx.freeJump_s_drain (c : Ctx) : (c.freeJump).s.drain = c.s.drain := by
  unfold Ctx.freeJump; split <;> simp
@[simp] theorem Ctx.freeJump_s_base (c : Ctx) : (c.freeJump).s.base = c.s.base := by
  unfold Ctx.freeJump; split <;> simp
@[simp] theorem Ctx.freeJump_s_window (c : Ctx) : (c.freeJump).s.window = c.s.window := by
  unfold Ctx.freeJump; split <;> simp
@[simp] theorem Ctx.freeJump_s_history (c : Ctx) : (c.freeJump).s.history = c.s.history := by
  unfold Ctx.freeJump; split <;> simp
@[simp] theorem Ctx.freeJump_s_acq (c : Ctx) : (c.freeJump).s.acq = c.s.acq := by
  unfold Ctx.freeJump; split <;> simp
@[simp] theorem Ctx.freeJump_s_guard (c : Ctx) : (c.freeJump).s.guard = c.s.guard := by
  unfold Ctx.freeJump; split <;> simp
@[simp] theorem Ctx.freeJump_s_timer (c : Ctx) : (c.freeJump).s.timer = c.s.timer := by
  unfold Ctx.freeJump; split <;> simp
@[simp] theorem Ctx.freeJump_s_pathA (c : Ctx) : (c.freeJump).s.pathA = c.s.pathA := by
  unfold Ctx.freeJump; split <;> simp
@[simp] theorem Ctx.freeJump_s_pathB (c : Ctx) : (c.freeJump).s.pathB = c.s.pathB := by
  unfold Ctx.freeJump; split <;> simp
@[simp] theorem Ctx.freeJump_s_queue (c : Ctx) : (c.freeJump).s.queue = c.s.queue := by
  unfold Ctx.freeJump; split <;> simp
@[simp] theorem Ctx.freeJump_s_run (c : Ctx) : (c.freeJump).s.run = c.s.run := by
  unfold Ctx.freeJump; split <;> simp
@[simp] theorem Ctx.freeJump_s_last (c : Ctx) : (c.freeJump).s.last = c.s.last := by
  unfold Ctx.freeJump; split <;> simp
@[simp] theorem Ctx.freeJump_s_phase (c : Ctx) : (c.freeJump).s.phase = c.s.phase := by
  unfold Ctx.freeJump; split <;> simp
@[simp] theorem Ctx.freeJump_s_counters (c : Ctx) : (c.freeJump).s.counters = c.s.counters := by
  unfold Ctx.freeJump; split <;> simp
@[simp] theorem Ctx.freeJump_s_jump (c : Ctx) : c.freeJump.s.jump = none := by
  unfold Ctx.freeJump; split <;> simp_all
@[simp] theorem Ctx.strayJump_idx (c : Ctx) : (c.strayJump).idx = c.idx := by
  unfold Ctx.strayJump; split <;> simp
@[simp] theorem Ctx.strayJump_cfg (c : Ctx) : (c.strayJump).cfg = c.cfg := by
  unfold Ctx.strayJump; split <;> simp
@[simp] theorem Ctx.strayJump_record (c : Ctx) : (c.strayJump).record = c.record := by
  unfold Ctx.strayJump; split <;> simp
@[simp] theorem Ctx.strayJump_s_state (c : Ctx) : (c.strayJump).s.state = c.s.state := by
  unfold Ctx.strayJump; split <;> simp
@[simp] theorem Ctx.strayJump_s_drain (c : Ctx) : (c.strayJump).s.drain = c.s.drain := by
  unfold Ctx.strayJump; split <;> simp
@[simp] theorem Ctx.strayJump_s_base (c : Ctx) : (c.strayJump).s.base = c.s.base := by
  unfold Ctx.strayJump; split <;> simp
@[simp] theorem Ctx.strayJump_s_window (c : Ctx) : (c.strayJump).s.window = c.s.window := by
  unfold Ctx.strayJump; split <;> simp
@[simp] theorem Ctx.strayJump_s_history (c : Ctx) : (c.strayJump).s.history = c.s.history := by
  unfold Ctx.strayJump; split <;> simp
@[simp] theorem Ctx.strayJump_s_acq (c : Ctx) : (c.strayJump).s.acq = c.s.acq := by
  unfold Ctx.strayJump; split <;> simp
@[simp] theorem Ctx.strayJump_s_guard (c : Ctx) : (c.strayJump).s.guard = c.s.guard := by
  unfold Ctx.strayJump; split <;> simp
@[simp] theorem Ctx.strayJump_s_timer (c : Ctx) : (c.strayJump).s.timer = c.s.timer := by
  unfold Ctx.strayJump; split <;> simp
@[simp] theorem Ctx.strayJump_s_pathA (c : Ctx) : (c.strayJump).s.pathA = c.s.pathA := by
  unfold Ctx.strayJump; split <;> simp
@[simp] theorem Ctx.strayJump_s_pathB (c : Ctx) : (c.strayJump).s.pathB = c.s.pathB := by
  unfold Ctx.strayJump; split <;> simp
@[simp] theorem Ctx.strayJump_s_queue (c : Ctx) : (c.strayJump).s.queue = c.s.queue := by
  unfold Ctx.strayJump; split <;> simp
@[simp] theorem Ctx.strayJump_s_run (c : Ctx) : (c.strayJump).s.run = c.s.run := by
  unfold Ctx.strayJump; split <;> simp
@[simp] theorem Ctx.strayJump_s_last (c : Ctx) : (c.strayJump).s.last = c.s.last := by
  unfold Ctx.strayJump; split <;> simp
@[simp] theorem Ctx.strayJump_s_phase (c : Ctx) : (c.strayJump).s.phase = c.s.phase := by
  unfold Ctx.strayJump; split <;> simp
@[simp] theorem Ctx.strayJump_s_jump (c : Ctx) : c.strayJump.s.jump = none := by
  unfold Ctx.strayJump; split <;> simp_all
@[simp] theorem Ctx.discardJumpOn_idx (c : Ctx) (x : Path) : (c.discardJumpOn x).idx = c.idx := by
  unfold Ctx.discardJumpOn; repeat' split
  all_goals simp
@[simp] theorem Ctx.discardJumpOn_cfg (c : Ctx) (x : Path) : (c.discardJumpOn x).cfg = c.cfg := by
  unfold Ctx.discardJumpOn; repeat' split
  all_goals simp
@[simp] theorem Ctx.discardJumpOn_record (c : Ctx) (x : Path) : (c.discardJumpOn x).record = c.record := by
  unfold Ctx.discardJumpOn; repeat' split
  all_goals simp
@[simp] theorem Ctx.discardJumpOn_s_state (c : Ctx) (x : Path) : (c.discardJumpOn x).s.state = c.s.state := by
  unfold Ctx.discardJumpOn; repeat' split
  all_goals simp
@[simp] theorem Ctx.discardJumpOn_s_drain (c : Ctx) (x : Path) : (c.discardJumpOn x).s.drain = c.s.drain := by
  unfold Ctx.discardJumpOn; repeat' split
  all_goals simp
@[simp] theorem Ctx.discardJumpOn_s_base (c : Ctx) (x : Path) : (c.discardJumpOn x).s.base = c.s.base := by
  unfold Ctx.discardJumpOn; repeat' split
  all_goals simp
@[simp] theorem Ctx.discardJumpOn_s_window (c : Ctx) (x : Path) : (c.discardJumpOn x).s.window = c.s.window := by
  unfold Ctx.discardJumpOn; repeat' split
  all_goals simp
@[simp] theorem Ctx.discardJumpOn_s_history (c : Ctx) (x : Path) : (c.discardJumpOn x).s.history = c.s.history := by
  unfold Ctx.discardJumpOn; repeat' split
  all_goals simp
@[simp] theorem Ctx.discardJumpOn_s_acq (c : Ctx) (x : Path) : (c.discardJumpOn x).s.acq = c.s.acq := by
  unfold Ctx.discardJumpOn; repeat' split
  all_goals simp
@[simp] theorem Ctx.discardJumpOn_s_guard (c : Ctx) (x : Path) : (c.discardJumpOn x).s.guard = c.s.guard := by
  unfold Ctx.discardJumpOn; repeat' split
  all_goals simp
@[simp] theorem Ctx.discardJumpOn_s_timer (c : Ctx) (x : Path) : (c.discardJumpOn x).s.timer = c.s.timer := by
  unfold Ctx.discardJumpOn; repeat' split
  all_goals simp
@[simp] theorem Ctx.discardJumpOn_s_pathA (c : Ctx) (x : Path) : (c.discardJumpOn x).s.pathA = c.s.pathA := by
  unfold Ctx.discardJumpOn; repeat' split
  all_goals simp
@[simp] theorem Ctx.discardJumpOn_s_pathB (c : Ctx) (x : Path) : (c.discardJumpOn x).s.pathB = c.s.pathB := by
  unfold Ctx.discardJumpOn; repeat' split
  all_goals simp
@[simp] theorem Ctx.discardJumpOn_s_queue (c : Ctx) (x : Path) : (c.discardJumpOn x).s.queue = c.s.queue := by
  unfold Ctx.discardJumpOn; repeat' split
  all_goals simp
@[simp] theorem Ctx.discardJumpOn_s_run (c : Ctx) (x : Path) : (c.discardJumpOn x).s.run = c.s.run := by
  unfold Ctx.discardJumpOn; repeat' split
  all_goals simp
@[simp] theorem Ctx.discardJumpOn_s_last (c : Ctx) (x : Path) : (c.discardJumpOn x).s.last = c.s.last := by
  unfold Ctx.discardJumpOn; repeat' split
  all_goals simp
@[simp] theorem Ctx.discardJumpOn_s_phase (c : Ctx) (x : Path) : (c.discardJumpOn x).s.phase = c.s.phase := by
  unfold Ctx.discardJumpOn; repeat' split
  all_goals simp

/-! ### flushes -/

@[simp] theorem Ctx.flushWindow_idx (c : Ctx) : (c.flushWindow).idx = c.idx := by
  simp [Ctx.flushWindow]
@[simp] theorem Ctx.flushWindow_cfg (c : Ctx) : (c.flushWindow).cfg = c.cfg := by
  simp [Ctx.flushWindow]
@[simp] theorem Ctx.flushWindow_record (c : Ctx) : (c.flushWindow).record = c.record := by
  simp [Ctx.flushWindow]
@[simp] theorem Ctx.flushWindow_s_state (c : Ctx) : (c.flushWindow).s.state = c.s.state := by
  simp [Ctx.flushWindow]
@[simp] theorem Ctx.flushWindow_s_drain (c : Ctx) : (c.flushWindow).s.drain = c.s.drain := by
  simp [Ctx.flushWindow]
@[simp] theorem Ctx.flushWindow_s_base (c : Ctx) : (c.flushWindow).s.base = c.s.base := by
  simp [Ctx.flushWindow]
@[simp] theorem Ctx.flushWindow_s_history (c : Ctx) : (c.flushWindow).s.history = c.s.history := by
  simp [Ctx.flushWindow]
@[simp] theorem Ctx.flushWindow_s_acq (c : Ctx) : (c.flushWindow).s.acq = c.s.acq := by
  simp [Ctx.flushWindow]
@[simp] theorem Ctx.flushWindow_s_jump (c : Ctx) : (c.flushWindow).s.jump = c.s.jump := by
  simp [Ctx.flushWindow]
@[simp] theorem Ctx.flushWindow_s_guard (c : Ctx) : (c.flushWindow).s.guard = c.s.guard := by
  simp [Ctx.flushWindow]
@[simp] theorem Ctx.flushWindow_s_timer (c : Ctx) : (c.flushWindow).s.timer = c.s.timer := by
  simp [Ctx.flushWindow]
@[simp] theorem Ctx.flushWindow_s_pathA (c : Ctx) : (c.flushWindow).s.pathA = c.s.pathA := by
  simp [Ctx.flushWindow]
@[simp] theorem Ctx.flushWindow_s_pathB (c : Ctx) : (c.flushWindow).s.pathB = c.s.pathB := by
  simp [Ctx.flushWindow]
@[simp] theorem Ctx.flushWindow_s_queue (c : Ctx) : (c.flushWindow).s.queue = c.s.queue := by
  simp [Ctx.flushWindow]
@[simp] theorem Ctx.flushWindow_s_run (c : Ctx) : (c.flushWindow).s.run = c.s.run := by
  simp [Ctx.flushWindow]
@[simp] theorem Ctx.flushWindow_s_last (c : Ctx) : (c.flushWindow).s.last = c.s.last := by
  simp [Ctx.flushWindow]
@[simp] theorem Ctx.flushWindow_s_phase (c : Ctx) : (c.flushWindow).s.phase = c.s.phase := by
  simp [Ctx.flushWindow]
@[simp] theorem Ctx.flushWindow_s_window (c : Ctx) : c.flushWindow.s.window = [] := by simp [Ctx.flushWindow]
@[simp] theorem Ctx.flushWindow_free (c : Ctx) : c.flushWindow.free = c.free + c.s.window.length := by
  simp [Ctx.flushWindow]
@[simp] theorem Ctx.flushQueue_idx (c : Ctx) : (c.flushQueue).idx = c.idx := by
  simp [Ctx.flushQueue]
@[simp] theorem Ctx.flushQueue_cfg (c : Ctx) : (c.flushQueue).cfg = c.cfg := by
  simp [Ctx.flushQueue]
@[simp] theorem Ctx.flushQueue_record (c : Ctx) : (c.flushQueue).record = c.record := by
  simp [Ctx.flushQueue]
@[simp] theorem Ctx.flushQueue_s_state (c : Ctx) : (c.flushQueue).s.state = c.s.state := by
  simp [Ctx.flushQueue]
@[simp] theorem Ctx.flushQueue_s_drain (c : Ctx) : (c.flushQueue).s.drain = c.s.drain := by
  simp [Ctx.flushQueue]
@[simp] theorem Ctx.flushQueue_s_base (c : Ctx) : (c.flushQueue).s.base = c.s.base := by
  simp [Ctx.flushQueue]
@[simp] theorem Ctx.flushQueue_s_window (c : Ctx) : (c.flushQueue).s.window = c.s.window := by
  simp [Ctx.flushQueue]
@[simp] theorem Ctx.flushQueue_s_history (c : Ctx) : (c.flushQueue).s.history = c.s.history := by
  simp [Ctx.flushQueue]
@[simp] theorem Ctx.flushQueue_s_acq (c : Ctx) : (c.flushQueue).s.acq = c.s.acq := by
  simp [Ctx.flushQueue]
@[simp] theorem Ctx.flushQueue_s_jump (c : Ctx) : (c.flushQueue).s.jump = c.s.jump := by
  simp [Ctx.flushQueue]
@[simp] theorem Ctx.flushQueue_s_guard (c : Ctx) : (c.flushQueue).s.guard = c.s.guard := by
  simp [Ctx.flushQueue]
@[simp] theorem Ctx.flushQueue_s_timer (c : Ctx) : (c.flushQueue).s.timer = c.s.timer := by
  simp [Ctx.flushQueue]
@[simp] theorem Ctx.flushQueue_s_pathA (c : Ctx) : (c.flushQueue).s.pathA = c.s.pathA := by
  simp [Ctx.flushQueue]
@[simp] theorem Ctx.flushQueue_s_pathB (c : Ctx) : (c.flushQueue).s.pathB = c.s.pathB := by
  simp [Ctx.flushQueue]
@[simp] theorem Ctx.flushQueue_s_run (c : Ctx) : (c.flushQueue).s.run = c.s.run := by
  simp [Ctx.flushQueue]
@[simp] theorem Ctx.flushQueue_s_last (c : Ctx) : (c.flushQueue).s.last = c.s.last := by
  simp [Ctx.flushQueue]
@[simp] theorem Ctx.flushQueue_s_phase (c : Ctx) : (c.flushQueue).s.phase = c.s.phase := by
  simp [Ctx.flushQueue]
@[simp] theorem Ctx.flushQueue_s_queue (c : Ctx) : c.flushQueue.s.queue = [] := by simp [Ctx.flushQueue]
@[simp] theorem Ctx.flushQueue_free (c : Ctx) : c.flushQueue.free = c.free + queueSlots c.s.queue := by
  simp [Ctx.flushQueue]

end Sys2Proof.Machine
end

