-- ==== Sys2Proof/Laws/Slots.lean ====
section
/-! SUPPORT. What release, substitution, the release chain and the flushes do to the base, the window, the queue and the slots of a context. -/

namespace Sys2Proof.Machine

/-! ## Distances -/

theorem dist_self (e : Seq) : dist e e = 0 := by simp [dist]

theorem dist_eq_zero {s e : Seq} : dist s e = 0 ↔ s = e := by
  simp only [dist]
  constructor
  · intro h
    have h0 : s - e = 0 := by apply BitVec.eq_of_toNat_eq; simpa using h
    have := congrArg (· + e) h0
    simpa using this
  · rintro rfl; simp

theorem dist_inj {s t e : Seq} (h : dist s e = dist t e) : s = t := by
  have h1 : s - e = t - e := BitVec.eq_of_toNat_eq h
  have := congrArg (· + e) h1
  simpa using this

theorem dist_lt (s e : Seq) : dist s e < 4096 := (s - e).isLt

/-- E advances by one: every other position comes one nearer. -/
theorem dist_succ {s e : Seq} (h : s ≠ e) : dist s (e + 1) + 1 = dist s e := by
  have h1 : dist s e ≠ 0 := fun h0 => h (dist_eq_zero.mp h0)
  simp only [dist, BitVec.toNat_sub, BitVec.toNat_add] at *
  have hs := s.isLt
  have he := e.isLt
  simp at *
  omega

/-- Positions at distances lo..W-1 of one base, each held once, are at most W - lo. -/
theorem window_length {lo w : Nat} {e : Seq} {l : List WindowEntry}
    (h : ∀ v ∈ l, lo ≤ dist v.seq e ∧ dist v.seq e < w) (hn : (l.map WindowEntry.seq).Nodup) : l.length ≤ w - lo := by
  have hn' : (l.map fun v => dist v.seq e).Nodup := by
    have := List.Nodup.map (f := fun s => dist s e) (fun a b hab => dist_inj hab) hn
    simpa [List.map_map, Function.comp_def] using this
  have hs : (l.map fun v => dist v.seq e).toFinset ⊆ Finset.Ico lo w := by
    intro d hd
    simp only [List.mem_toFinset, List.mem_map] at hd
    obtain ⟨v, hv, rfl⟩ := hd
    exact Finset.mem_Ico.mpr (h v hv)
  have := Finset.card_le_card hs
  rw [List.toFinset_card_of_nodup hn'] at this
  simpa using this

/-! ## Queue entries -/

@[simp] theorem queueSlots_nil : queueSlots [] = 0 := rfl
@[simp] theorem queueSlots_cons (e : QueueEntry) (q : List QueueEntry) : queueSlots (e :: q) = e.slots + queueSlots q := by
  simp [queueSlots]
@[simp] theorem queueSlots_append (p q : List QueueEntry) : queueSlots (p ++ q) = queueSlots p + queueSlots q := by
  simp [queueSlots]
@[simp] theorem slots_real (s : Seq) (q : Bool) (ws : List Word) : (QueueEntry.real s q ws).slots = 1 := rfl
@[simp] theorem slots_subst (s : Seq) : (QueueEntry.subst s).slots = 0 := rfl

theorem queueSlots_le (q : List QueueEntry) : queueSlots q ≤ q.length := by
  induction q with
  | nil => simp
  | cons e q ih => cases e <;> simp only [queueSlots_cons, slots_real, slots_subst, List.length_cons] <;> omega

/-! ## The trim at insertion -/

/-- A dropped head returns its slot and shortens the queue by one. -/
theorem Ctx.dropHead_queue (c : Ctx) : c.dropHead.s.queue = c.s.queue.tail := by
  unfold Ctx.dropHead; split <;> simp_all

theorem Ctx.dropHead_slots (c : Ctx) : c.dropHead.free + queueSlots c.dropHead.s.queue = c.free + queueSlots c.s.queue := by
  unfold Ctx.dropHead; split <;> simp_all <;> omega

theorem Ctx.trimForInsert_slots (c : Ctx) :
    c.trimForInsert.free + queueSlots c.trimForInsert.s.queue = c.free + queueSlots c.s.queue := by
  unfold Ctx.trimForInsert; split
  · exact c.dropHead_slots
  · rfl

/-- After the trim there is room for one entry. -/
theorem Ctx.trimForInsert_room (c : Ctx) (ht : 1 ≤ c.cfg.trim) (hq : c.s.queue.length ≤ c.cfg.trim) :
    c.trimForInsert.s.queue.length + 1 ≤ c.cfg.trim := by
  unfold Ctx.trimForInsert; split
  · rw [dropHead_queue, List.length_tail]; omega
  · omega

theorem Ctx.trimForInsert_of_room (c : Ctx) (hq : c.s.queue.length < c.cfg.trim) : c.trimForInsert = c := by
  unfold Ctx.trimForInsert; rw [if_neg (by omega)]

end Sys2Proof.Machine
end

