-- ==== Sys2Proof/Laws/Chain.lean ====
section
/-! SUPPORT. Release, substitution and the release chain over a context with base e whose held frames lie at distance lo..W-1: each keeps that shape and the slot balance. -/

namespace Sys2Proof.Machine

/-- A context with base e: its held frames at distance lo..W-1, its queue within T, its history 64 long. -/
def Ctx.Play (lo : Nat) (e : Seq) (c : Ctx) : Prop :=
  c.s.base = some e ∧ (∀ v ∈ c.s.window, lo ≤ dist v.seq e ∧ dist v.seq e < c.cfg.window) ∧
  (c.s.window.map WindowEntry.seq).Nodup ∧ c.s.queue.length ≤ c.cfg.trim ∧ c.s.history.length = Config.historyDepth

/-- The parts that release, substitution and the chain leave alone. -/
def Ctx.SamePlay (c c' : Ctx) : Prop :=
  c'.idx = c.idx ∧ c'.cfg = c.cfg ∧ c'.record = c.record ∧ c'.s.state = c.s.state ∧ c'.s.drain = c.s.drain ∧
  c'.s.acq = c.s.acq ∧ c'.s.jump = c.s.jump ∧ c'.s.guard = c.s.guard ∧ c'.s.pathA = c.s.pathA ∧ c'.s.pathB = c.s.pathB ∧
  c'.s.run = c.s.run ∧ c'.s.last = c.s.last ∧ c'.s.phase = c.s.phase

theorem Ctx.SamePlay.refl (c : Ctx) : c.SamePlay c := by simp [SamePlay]

theorem Ctx.SamePlay.trans {a b c : Ctx} (h : a.SamePlay b) (k : b.SamePlay c) : a.SamePlay c := by
  simp only [SamePlay] at *; simp_all

/-- The slots of window and queue, with the free ones. -/
def Ctx.pool (c : Ctx) : Nat := c.free + c.s.window.length + queueSlots c.s.queue

/-! ## Release and substitution -/

theorem Ctx.releaseHeld_same (c : Ctx) (e : Seq) (q : Bool) (ws : List Word) : c.SamePlay (c.releaseHeld e q ws) := by
  simp [SamePlay, releaseHeld]

@[simp] theorem Ctx.releaseHeld_s_window (c : Ctx) (e : Seq) (q : Bool) (ws : List Word) :
    (c.releaseHeld e q ws).s.window = c.s.window := by simp [releaseHeld]

@[simp] theorem Ctx.releaseHeld_s_timer (c : Ctx) (e : Seq) (q : Bool) (ws : List Word) :
    (c.releaseHeld e q ws).s.timer = c.s.timer := by simp [releaseHeld]

@[simp] theorem Ctx.releaseHeld_s_base (c : Ctx) (e : Seq) (q : Bool) (ws : List Word) :
    (c.releaseHeld e q ws).s.base = c.s.base.map (· + 1) := by simp [releaseHeld]

theorem Ctx.releaseHeld_s_queue (c : Ctx) (e : Seq) (q : Bool) (ws : List Word) :
    (c.releaseHeld e q ws).s.queue = c.trimForInsert.s.queue ++ [.real e q ws] := by simp [releaseHeld]

theorem Ctx.releaseHeld_pool (c : Ctx) (e : Seq) (q : Bool) (ws : List Word) :
    (c.releaseHeld e q ws).pool = c.pool + 1 := by
  have := c.trimForInsert_slots
  simp only [pool, releaseHeld, count_free, count_s_window, count_s_queue, advance_free, advance_s_window, advance_s_queue,
    append_free, append_s_window, append_s_queue, trimForInsert_s_window, queueSlots_append, queueSlots_cons, slots_real,
    queueSlots_nil]
  omega

theorem Ctx.releaseNew_same (c : Ctx) (e : Seq) (q : Bool) (ws : List Word) : c.SamePlay (c.releaseNew e q ws) := by
  simp [SamePlay, releaseNew]

@[simp] theorem Ctx.releaseNew_s_window (c : Ctx) (e : Seq) (q : Bool) (ws : List Word) :
    (c.releaseNew e q ws).s.window = c.s.window := by simp [releaseNew]

@[simp] theorem Ctx.releaseNew_s_timer (c : Ctx) (e : Seq) (q : Bool) (ws : List Word) :
    (c.releaseNew e q ws).s.timer = c.s.timer := by simp [releaseNew]

@[simp] theorem Ctx.releaseNew_s_base (c : Ctx) (e : Seq) (q : Bool) (ws : List Word) :
    (c.releaseNew e q ws).s.base = c.s.base.map (· + 1) := by simp [releaseNew]

theorem Ctx.releaseNew_s_queue (c : Ctx) (e : Seq) (q : Bool) (ws : List Word) :
    (c.releaseNew e q ws).s.queue = c.trimForInsert.s.queue ++ [.real e q ws] := by simp [releaseNew]

/-- A release that takes a new slot finds one free, given the store's room. -/
theorem Ctx.releaseNew_pool (c : Ctx) (e : Seq) (q : Bool) (ws : List Word) (ht : 1 ≤ c.cfg.trim)
    (hq : c.s.queue.length ≤ c.cfg.trim) (hroom : c.cfg.trim + c.s.window.length ≤ c.pool) :
    (c.releaseNew e q ws).pool = c.pool := by
  have h1 := c.trimForInsert_slots
  have h2 := c.trimForInsert_room ht hq
  have h3 := queueSlots_le c.trimForInsert.s.queue
  simp only [pool] at *
  simp only [releaseNew, count_free, count_s_window, count_s_queue, advance_free, advance_s_window, advance_s_queue,
    append_free, append_s_window, append_s_queue, takeSlot_free, takeSlot_s, trimForInsert_s_window, queueSlots_append,
    queueSlots_cons, slots_real, queueSlots_nil]
  omega

theorem Ctx.substitute_same (c : Ctx) : c.SamePlay c.substitute := by
  unfold substitute; split <;> simp [SamePlay]

@[simp] theorem Ctx.substitute_s_window (c : Ctx) : c.substitute.s.window = c.s.window := by
  unfold substitute; split <;> simp

@[simp] theorem Ctx.substitute_s_timer (c : Ctx) : c.substitute.s.timer = c.s.timer := by
  unfold substitute; split <;> simp

@[simp] theorem Ctx.substitute_s_base (c : Ctx) : c.substitute.s.base = c.s.base.map (· + 1) := by
  unfold substitute; split <;> simp_all

theorem Ctx.substitute_pool (c : Ctx) : c.substitute.pool = c.pool := by
  unfold substitute; split
  · rfl
  · have := c.trimForInsert_slots
    simp only [pool, advance_free, advance_s_window, advance_s_queue, append_free, append_s_window, append_s_queue,
      trimForInsert_s_window, queueSlots_append, queueSlots_cons, slots_subst, queueSlots_nil]
    omega

/-! ## The shape -/

theorem history_push (p : Passed) (h : List Passed) (hl : h.length = Config.historyDepth) :
    ((p :: h).take Config.historyDepth).length = Config.historyDepth := by
  simp [hl]

/-- After E advances past a position that is not held, the held frames lie at distance 0..W-2. -/
theorem Play_advance {lo w : Nat} {e : Seq} {l : List WindowEntry}
    (h : ∀ v ∈ l, lo ≤ dist v.seq e ∧ dist v.seq e < w) (hne : ∀ v ∈ l, v.seq ≠ e) :
    ∀ v ∈ l, 0 ≤ dist v.seq (e + 1) ∧ dist v.seq (e + 1) < w := by
  intro v hv
  have h1 := h v hv
  have h2 := dist_succ (hne v hv)
  omega

theorem ne_base_of_pos {w : Nat} {e : Seq} {l : List WindowEntry}
    (h : ∀ v ∈ l, 1 ≤ dist v.seq e ∧ dist v.seq e < w) : ∀ v ∈ l, v.seq ≠ e := by
  intro v hv he
  have := (h v hv).1
  rw [he, dist_self] at this
  omega

theorem Ctx.releaseHeld_play {c : Ctx} {e r : Seq} {lo : Nat} {q : Bool} {ws : List Word} (ht : 1 ≤ c.cfg.trim)
    (h : c.Play lo e) (hne : ∀ v ∈ c.s.window, v.seq ≠ e) : (c.releaseHeld r q ws).Play 0 (e + 1) := by
  obtain ⟨hb, hw, hn, hq, hh⟩ := h
  refine ⟨by simp [hb], ?_, by simpa using hn, ?_, ?_⟩
  · have := Play_advance hw hne
    simpa [releaseHeld] using this
  · rw [releaseHeld_s_queue, List.length_append]
    have := c.trimForInsert_room ht hq
    simpa [releaseHeld] using this
  · simp [releaseHeld, hh]

theorem Ctx.releaseNew_play {c : Ctx} {e r : Seq} {lo : Nat} {q : Bool} {ws : List Word} (ht : 1 ≤ c.cfg.trim)
    (h : c.Play lo e) (hne : ∀ v ∈ c.s.window, v.seq ≠ e) : (c.releaseNew r q ws).Play 0 (e + 1) := by
  obtain ⟨hb, hw, hn, hq, hh⟩ := h
  refine ⟨by simp [hb], ?_, by simpa using hn, ?_, ?_⟩
  · have := Play_advance hw hne
    simpa [releaseNew] using this
  · rw [releaseNew_s_queue, List.length_append]
    have := c.trimForInsert_room ht hq
    simpa [releaseNew] using this
  · simp [releaseNew, hh]

theorem Ctx.substitute_play {c : Ctx} {e : Seq} (ht : 1 ≤ c.cfg.trim) (h : c.Play 1 e) : c.substitute.Play 0 (e + 1) := by
  obtain ⟨hb, hw, hn, hq, hh⟩ := h
  have hc : c.substitute.cfg = c.cfg := c.substitute_same.2.1
  refine ⟨by simp [hb], ?_, by simpa using hn, ?_, ?_⟩
  · rw [hc]
    simpa using Play_advance hw (ne_base_of_pos hw)
  · rw [hc]
    simp only [substitute, hb, advance_s_queue, append_s_queue, List.length_append, List.length_singleton]
    exact c.trimForInsert_room ht hq
  · simp [substitute, hb, hh]

/-! ## The release chain -/

theorem heldAt_none_iff {s : Stream} {e : Seq} : s.heldAt e = none ↔ ∀ v ∈ s.window, v.seq ≠ e := by
  simp [Stream.heldAt, List.find?_eq_none]

theorem heldAt_some {s : Stream} {e : Seq} {w : WindowEntry} (h : s.heldAt e = some w) : w ∈ s.window ∧ w.seq = e := by
  have h1 := List.mem_of_find?_eq_some h
  have h2 := List.find?_some h
  exact ⟨h1, by simpa using h2⟩

/-- Removing a held position takes out exactly one entry. -/
theorem removed_length {l : List WindowEntry} {w : WindowEntry} (hn : (l.map WindowEntry.seq).Nodup) (hw : w ∈ l) :
    (l.filter fun v => !decide (v.seq = w.seq)).length + 1 = l.length := by
  induction l with
  | nil => simp at hw
  | cons a l ih =>
    simp only [List.map_cons, List.nodup_cons] at hn
    by_cases ha : a.seq = w.seq
    · have hall : ∀ v ∈ l, ¬ v.seq = w.seq := by
        intro v hv he
        exact hn.1 (by rw [ha, ← he]; exact List.mem_map_of_mem hv)
      have : l.filter (fun v => !decide (v.seq = w.seq)) = l := by
        apply List.filter_eq_self.mpr
        intro v hv
        simp [hall v hv]
      simp [ha, this]
    · have hwl : w ∈ l := by
        rcases List.mem_cons.mp hw with h | h
        · exact absurd (by rw [h]) ha
        · exact h
      have := ih hn.2 hwl
      simp only [List.filter_cons, ha, decide_false, Bool.not_false, if_true, List.length_cons]
      omega

/-- What one release of a chain leaves. -/
theorem Ctx.chainStep {c : Ctx} {e : Seq} {w : WindowEntry} (ht : 1 ≤ c.cfg.trim) (h : c.Play 0 e)
    (hw : c.s.heldAt e = some w) :
    ((c.removeHeld e).releaseHeld e w.q w.words).Play 0 (e + 1) ∧
    ((c.removeHeld e).releaseHeld e w.q w.words).pool = c.pool ∧
    ((c.removeHeld e).releaseHeld e w.q w.words).s.window.length + 1 = c.s.window.length ∧
    c.SamePlay ((c.removeHeld e).releaseHeld e w.q w.words) := by
  obtain ⟨hm, rfl⟩ := heldAt_some hw
  obtain ⟨hb, hwin, hn, hq, hh⟩ := h
  have hlen := removed_length hn hm
  have hp : (c.removeHeld w.seq).Play 0 w.seq := by
    refine ⟨hb, ?_, ?_, hq, hh⟩
    · intro v hv
      exact hwin v (List.mem_of_mem_filter hv)
    · exact hn.sublist (List.Sublist.map _ List.filter_sublist)
  refine ⟨releaseHeld_play ht hp ?_, ?_, ?_, ?_⟩
  · intro v hv
    simpa using (List.mem_filter.mp hv).2
  · rw [releaseHeld_pool]
    simp only [pool, removeHeld_free, removeHeld_s_window, removeHeld_s_queue]
    omega
  · simpa using hlen
  · exact Ctx.SamePlay.trans (by simp [SamePlay]) (releaseHeld_same _ _ _ _)

/-- Every held frame lies nearer to the base than position t does. -/
def Ctx.Beyond (t e : Seq) (c : Ctx) : Prop := ∀ v ∈ c.s.window, dist v.seq e < dist t e

/-- E advances past a position that is neither held nor t: t stays beyond every held frame and comes one nearer. -/
theorem Beyond_advance {t e : Seq} {l : List WindowEntry} (h : ∀ v ∈ l, dist v.seq e < dist t e)
    (hne : ∀ v ∈ l, v.seq ≠ e) (ht : t ≠ e) :
    (∀ v ∈ l, dist v.seq (e + 1) < dist t (e + 1)) ∧ dist t (e + 1) + 1 = dist t e := by
  have h1 := dist_succ ht
  refine ⟨fun v hv => ?_, h1⟩
  have h2 := dist_succ (hne v hv)
  have h3 := h v hv
  omega

/-- The releases of a chain stop at a base that is not held; `n` bounds the held frames. A position beyond every held frame is
not passed. -/
theorem Ctx.chainReleases_spec (n : Nat) {c : Ctx} {e : Seq} (ht : 1 ≤ c.cfg.trim) (h : c.Play 0 e)
    (hn : c.s.window.length ≤ n) :
    ∃ e', (Ctx.chainReleases n c).Play 1 e' ∧ (Ctx.chainReleases n c).pool = c.pool ∧
      c.SamePlay (Ctx.chainReleases n c) ∧ (Ctx.chainReleases n c).s.timer = c.s.timer ∧
      ∀ t, c.Beyond t e → (Ctx.chainReleases n c).Beyond t e' ∧ dist t e' ≤ dist t e := by
  induction n generalizing c e with
  | zero =>
    have hnil : c.s.window = [] := List.length_eq_zero_iff.mp (by omega)
    refine ⟨e, ?_, rfl, Ctx.SamePlay.refl c, rfl, fun t hb => ⟨hb, Nat.le_refl _⟩⟩
    obtain ⟨hb, _, _, hq, hh⟩ := h
    exact ⟨hb, by simp [chainReleases, hnil], by simp [chainReleases, hnil], hq, hh⟩
  | succ n ih =>
    have hb := h.1
    cases hw : c.s.heldAt e with
    | none =>
      have hu : Ctx.chainReleases (n + 1) c = c := by simp [chainReleases, hb, hw]
      rw [hu]
      refine ⟨e, ?_, rfl, Ctx.SamePlay.refl c, rfl, fun t hb => ⟨hb, Nat.le_refl _⟩⟩
      obtain ⟨_, hwin, hn', hq, hh⟩ := h
      refine ⟨hb, ?_, hn', hq, hh⟩
      intro v hv
      have hne := heldAt_none_iff.mp hw v hv
      have : dist v.seq e ≠ 0 := fun h0 => hne (dist_eq_zero.mp h0)
      have := hwin v hv
      omega
    | some w =>
      have hu : Ctx.chainReleases (n + 1) c = Ctx.chainReleases n ((c.removeHeld e).releaseHeld e w.q w.words) := by
        simp [chainReleases, hb, hw]
      rw [hu]
      obtain ⟨hp, hpool, hlen, hsame⟩ := chainStep ht h hw
      have ht' : 1 ≤ ((c.removeHeld e).releaseHeld e w.q w.words).cfg.trim := by rw [hsame.2.1]; exact ht
      obtain ⟨e', k1, k2, k3, k4, k5⟩ := ih ht' hp (by omega)
      refine ⟨e', k1, by rw [k2, hpool], hsame.trans k3, by rw [k4]; simp, fun t hbt => ?_⟩
      obtain ⟨hm, hwe⟩ := heldAt_some hw
      have htne : t ≠ e := by
        rintro rfl
        have := hbt w hm
        rw [dist_self] at this
        omega
      have hadv := Beyond_advance (l := (c.removeHeld e).s.window) (t := t) (e := e)
        (fun v hv => hbt v (List.mem_of_mem_filter hv)) (fun v hv => by simpa using (List.mem_filter.mp hv).2) htne
      have := k5 t (by simpa [Beyond] using hadv.1)
      exact ⟨this.1, by omega⟩

theorem Ctx.settleTimer_same (c : Ctx) : c.SamePlay c.settleTimer := by simp [SamePlay]

theorem Ctx.settleTimer_play {c : Ctx} {lo : Nat} {e : Seq} (h : c.Play lo e) : c.settleTimer.Play lo e := by
  simpa [Play] using h

/-- After the timer step: no timer over an empty window; a running timer keeps its count; else the wait value if non-zero. -/
theorem Ctx.settleTimer_timer (c : Ctx) : c.settleTimer.s.timer =
    if c.s.window = [] then none
    else match c.s.timer with
      | some n => some n
      | none => if c.waitValue = 0 then none else some c.waitValue := by
  unfold settleTimer startTimer
  split
  · rfl
  · split
    · simp_all
    · split <;> simp_all

/-- A release chain: it ends at a base that is not held, keeps the slots and every part it does not name, and does not pass a
position beyond every held frame. -/
theorem Ctx.chain_spec {c : Ctx} {e : Seq} (ht : 1 ≤ c.cfg.trim) (h : c.Play 0 e) :
    ∃ e', c.chain.Play 1 e' ∧ c.chain.pool = c.pool ∧ c.SamePlay c.chain ∧
      ∀ t, c.Beyond t e → c.chain.Beyond t e' ∧ dist t e' ≤ dist t e := by
  obtain ⟨e', h1, h2, h3, _, h5⟩ := chainReleases_spec c.s.window.length ht h (Nat.le_refl _)
  refine ⟨e', settleTimer_play h1, ?_, h3.trans (settleTimer_same _), ?_⟩
  · rw [← h2]; simp [chain, pool]
  · simpa [chain, Beyond] using h5

end Sys2Proof.Machine
end

