-- ==== Sys2Proof/Laws/Arrivals.lean ====
section
/-! SUPPORT. What an arrival does to a context that has a base and a window: it keeps the shape, the slot balance and the parts no arrival touches; every slot it takes is free. -/

namespace Sys2Proof.Machine

theorem wf_iff (r : StreamRecord) : r.wf = true ↔
    (1 ≤ r.words ∧ r.words ≤ 16) ∧ (2 ≤ r.window ∧ r.window ≤ 64) ∧ (2 ≤ r.trim ∧ r.trim ≤ 64) ∧
    (1 ≤ r.hold ∧ r.hold ≤ 63) ∧ r.hold < r.trim ∧ (1 ≤ r.divisor ∧ r.divisor ≤ 64) ∧ r.gapWait2 ≤ 255 ∧
    r.gapWait1 ≤ 255 ∧ (1 ≤ r.pathSilence ∧ r.pathSilence ≤ 4095) ∧ (1 ≤ r.stallLimit ∧ r.stallLimit ≤ 255) := by
  simp [StreamRecord.wf, and_assoc]

/-- All slots of the context and the free ones. -/
def Ctx.total (c : Ctx) : Nat := c.free + c.s.held

theorem Ctx.total_eq (c : Ctx) :
    c.total = c.pool + (if c.s.acq.isSome then 1 else 0) + (if c.s.jump.isSome then 1 else 0) := by
  simp only [total, pool, Stream.held]; omega

/-- A context with a base, its window and queue in shape, and the store's room for its bound. -/
structure Ctx.PlayOk (c : Ctx) : Prop where
  play : ∃ e, c.Play 1 e
  acq : c.s.acq = none
  timer : ∀ n ∈ c.s.timer, 1 ≤ n ∧ n ≤ 255 ∧ c.s.window ≠ []
  guard : ∀ g ∈ c.s.guard, 1 ≤ g.remaining ∧ g.remaining ≤ Config.guardLife
  wf : c.cfg.wf = true
  room : c.cfg.window + c.cfg.trim ≤ c.total

/-- What an event at a context leaves alone, with the slot balance. -/
structure Ctx.Keep (c c' : Ctx) : Prop where
  idx : c'.idx = c.idx
  cfg : c'.cfg = c.cfg
  state : c'.s.state = c.s.state
  drain : c'.s.drain = c.s.drain
  phase : c'.s.phase = c.s.phase
  run : c'.s.run = c.s.run
  total : c'.total = c.total

theorem Ctx.Keep.refl (c : Ctx) : c.Keep c := ⟨rfl, rfl, rfl, rfl, rfl, rfl, rfl⟩

theorem Ctx.Keep.trans {a b c : Ctx} (h : a.Keep b) (k : b.Keep c) : a.Keep c :=
  ⟨k.idx.trans h.idx, k.cfg.trans h.cfg, k.state.trans h.state, k.drain.trans h.drain, k.phase.trans h.phase,
   k.run.trans h.run, k.total.trans h.total⟩

/-- An event that keeps the shape and the balance. -/
def Ctx.Fine (c c' : Ctx) : Prop := c'.PlayOk ∧ c.Keep c'

theorem Ctx.Fine.trans {a b c : Ctx} (h : a.Fine b) (k : b.Fine c) : a.Fine c := ⟨k.1, h.2.trans k.2⟩

theorem Ctx.SamePlay.keep {c c' : Ctx} (h : c.SamePlay c') (hp : c'.pool = c.pool) : c.Keep c' := by
  obtain ⟨h1, h2, h3, h4, h5, h6, h7, h8, h9, h10, h11, h12, h13⟩ := h
  refine ⟨h1, h2, h4, h5, h13, h11, ?_⟩
  rw [total_eq, total_eq, hp, h6, h7]

/-! ## Counting -/

@[simp] theorem Ctx.count_total (c : Ctx) (k : Fin 24) : (c.count k).total = c.total := by simp [total, Stream.held]

theorem Ctx.count_keep (c : Ctx) (k : Fin 24) : c.Keep (c.count k) := by constructor <;> simp

theorem Ctx.count_playOk {c : Ctx} (k : Fin 24) (h : c.PlayOk) : (c.count k).PlayOk := by
  obtain ⟨⟨e, hp⟩, h2, h3, h4, h5, h6⟩ := h
  exact ⟨⟨e, by simpa [Play] using hp⟩, by simpa using h2, by simpa using h3, by simpa using h4, by simpa using h5,
    by simpa using h6⟩

theorem Ctx.count_fine {c : Ctx} (k : Fin 24) (h : c.PlayOk) : c.Fine (c.count k) := ⟨count_playOk k h, count_keep c k⟩

/-! ## The timer -/

theorem Ctx.waitValue_le {c : Ctx} (h : c.cfg.wf = true) : c.waitValue ≤ 255 := by
  obtain ⟨_, _, _, _, _, _, h2, h1, _⟩ := (wf_iff _).mp h
  unfold waitValue; split <;> assumption

theorem Ctx.settleTimer_ok {c : Ctx} (hwf : c.cfg.wf = true) (h : ∀ n ∈ c.s.timer, 1 ≤ n ∧ n ≤ 255) :
    ∀ n ∈ c.settleTimer.s.timer, 1 ≤ n ∧ n ≤ 255 ∧ c.settleTimer.s.window ≠ [] := by
  have hw := waitValue_le hwf
  rw [settleTimer_timer, settleTimer_s_window]
  intro n hn
  split at hn
  · simp at hn
  · next hne =>
    cases ht : c.s.timer with
    | none =>
      rw [ht] at hn
      simp only [Option.mem_def] at hn
      split at hn
      · simp at hn
      · obtain rfl := Option.some.inj hn
        exact ⟨by omega, hw, hne⟩
    | some m =>
      rw [ht] at hn
      obtain rfl := Option.some.inj hn
      have := h m (by simp [ht])
      exact ⟨this.1, this.2, hne⟩

/-- A chain over a context whose base may be held: its shape, balance and timer. -/
theorem Ctx.chain_fine {c : Ctx} {e : Seq} (hp : c.Play 0 e) (hacq : c.s.acq = none)
    (ht : ∀ n ∈ c.s.timer, 1 ≤ n ∧ n ≤ 255)
    (hg : ∀ g ∈ c.s.guard, 1 ≤ g.remaining ∧ g.remaining ≤ Config.guardLife)
    (hwf : c.cfg.wf = true) (hr : c.cfg.window + c.cfg.trim ≤ c.total) : c.Fine c.chain := by
  have htr : 1 ≤ c.cfg.trim := by have := (wf_iff _).mp hwf; omega
  obtain ⟨e', h1, h2, h3, _⟩ := chain_spec htr hp
  have hk := h3.keep h2
  have hcfg := h3.2.1
  obtain ⟨_, _, _, _, k5, _⟩ := chainReleases_spec c.s.window.length htr hp (Nat.le_refl _)
  refine ⟨⟨⟨e', h1⟩, ?_, ?_, ?_, by rw [hcfg]; exact hwf, by rw [hcfg, hk.total]; exact hr⟩, hk⟩
  · rw [h3.2.2.2.2.2.1]; exact hacq
  · have := settleTimer_ok (c := chainReleases c.s.window.length c) (by
      obtain ⟨_, _, _, q3, _⟩ := chainReleases_spec c.s.window.length htr hp (Nat.le_refl _)
      rw [q3.2.1]; exact hwf) (by
      obtain ⟨_, _, _, _, q4, _⟩ := chainReleases_spec c.s.window.length htr hp (Nat.le_refl _)
      rw [q4]; exact ht)
    exact this
  · rw [h3.2.2.2.2.2.2.2.1]; exact hg

/-! ## Candidates -/

theorem Ctx.strayJump_total (c : Ctx) : c.strayJump.total = c.total := by
  unfold strayJump; split
  · rfl
  · simp_all [total, Stream.held]; omega

theorem Ctx.strayJump_keep (c : Ctx) : c.Keep c.strayJump := by
  constructor <;> first | simp | exact c.strayJump_total

theorem Ctx.strayJump_fine {c : Ctx} (h : c.PlayOk) : c.Fine c.strayJump := by
  obtain ⟨⟨e, hp⟩, h2, h3, h4, h5, h6⟩ := h
  refine ⟨⟨⟨e, by simpa [Play] using hp⟩, by simpa using h2, by simpa using h3, by simpa using h4, by simpa using h5, ?_⟩,
    strayJump_keep c⟩
  rw [strayJump_total]; simpa using h6

theorem Ctx.discardJumpOn_fine {c : Ctx} (x : Path) (h : c.PlayOk) : c.Fine (c.discardJumpOn x) := by
  unfold discardJumpOn
  split
  · exact ⟨h, Keep.refl c⟩
  · split
    · exact strayJump_fine h
    · exact ⟨h, Keep.refl c⟩

/-! ## Base and window arrivals -/

theorem Ctx.room_of {c : Ctx} {e : Seq} (h : c.PlayOk) (hp : c.Play 1 e) :
    c.cfg.trim + c.s.window.length ≤ c.pool ∧ c.s.window.length + 1 ≤ c.cfg.window := by
  have hlen := window_length hp.2.1 hp.2.2.1
  have hwf := (wf_iff _).mp h.wf
  have hr := h.room
  rw [total_eq, h.acq] at hr
  have : (if c.s.jump.isSome then 1 else 0) ≤ 1 := by split <;> omega
  simp at hr
  omega

theorem Ctx.baseArrival_fine {c : Ctx} {e : Seq} (x : Path) (f : Frame) (h : c.PlayOk) (hp : c.Play 1 e)
    : c.Fine (c.baseArrival x f) := by
  have hd := discardJumpOn_fine x h
  have hpd : (c.discardJumpOn x).Play 1 e := by simpa [Play] using hp
  have htr : 1 ≤ (c.discardJumpOn x).cfg.trim := by have := (wf_iff _).mp hd.1.wf; omega
  have hroom := room_of hd.1 hpd
  have hrel := releaseNew_play (r := f.seq) (q := f.q) (ws := f.words) htr hpd (ne_base_of_pos hpd.2.1)
  have hpool := releaseNew_pool (c.discardJumpOn x) f.seq f.q f.words htr hpd.2.2.2.1 hroom.1
  have hsame := releaseNew_same (c.discardJumpOn x) f.seq f.q f.words
  have hk := hsame.keep hpool
  have hrel' : (((c.discardJumpOn x).releaseNew f.seq f.q f.words).count (ctrAccepted x)).Play 0 (e + 1) := by
    simpa [Play] using hrel
  have hk : (c.discardJumpOn x).Keep (((c.discardJumpOn x).releaseNew f.seq f.q f.words).count (ctrAccepted x)) :=
    (hsame.keep hpool).trans (count_keep _ _)
  have hc := chain_fine hrel' (by simp [hsame.2.2.2.2.2.1, h.acq])
    (fun n hn => by have := hd.1.timer n (by simpa using hn); exact ⟨this.1, this.2.1⟩)
    (fun g hg => hd.1.guard g (by simpa [hsame.2.2.2.2.2.2.2.1] using hg))
    (by rw [hk.cfg]; exact hd.1.wf) (by rw [hk.cfg, hk.total]; exact hd.1.room)
  exact ⟨hc.1, hd.2.trans (hk.trans hc.2)⟩

theorem insertHeld_perm (e : Seq) (w : WindowEntry) (l : List WindowEntry) : (insertHeld e w l).Perm (w :: l) := by
  induction l with
  | nil => simp [insertHeld]
  | cons v vs ih =>
    unfold insertHeld; split
    · exact List.Perm.refl _
    · exact (List.Perm.cons v ih).trans (List.Perm.swap w v vs)

theorem Ctx.startTimer_ok {c : Ctx} (hwf : c.cfg.wf = true) (h : ∀ n ∈ c.s.timer, 1 ≤ n ∧ n ≤ 255 ∧ c.s.window ≠ []) :
    ∀ n ∈ c.startTimer.s.timer, 1 ≤ n ∧ n ≤ 255 ∧ c.startTimer.s.window ≠ [] := by
  have hw := waitValue_le hwf
  unfold startTimer
  split
  · exact h
  · next hne =>
    split
    · exact h
    · split
      · exact h
      · intro n hn
        obtain rfl := Option.some.inj hn
        exact ⟨by omega, hw, hne⟩

theorem Ctx.storeHeld_fine {c : Ctx} {e : Seq} (x : Path) (f : Frame) (h : c.PlayOk) (hp : c.Play 1 e)
    (hne : f.seq ≠ e) (hd : dist f.seq e < c.cfg.window) (hfree : c.s.heldAt f.seq = none) :
    c.Fine (c.storeHeld x e f) := by
  have hj := discardJumpOn_fine x h
  have hpd : (c.discardJumpOn x).Play 1 e := by simpa [Play] using hp
  have hpos : 1 ≤ dist f.seq e := by
    have : dist f.seq e ≠ 0 := fun h0 => hne (dist_eq_zero.mp h0)
    omega
  -- the positions held with the new one are still distinct and within the window
  have hwin : ∀ v ∈ insertHeld e ⟨f.seq, f.q, f.words⟩ c.s.window, 1 ≤ dist v.seq e ∧ dist v.seq e < c.cfg.window := by
    intro v hv
    rcases List.mem_cons.mp ((insertHeld_perm e ⟨f.seq, f.q, f.words⟩ c.s.window).mem_iff.mp hv) with rfl | hv
    · exact ⟨hpos, hd⟩
    · exact hp.2.1 v hv
  have hnd : ((insertHeld e ⟨f.seq, f.q, f.words⟩ c.s.window).map WindowEntry.seq).Nodup := by
    rw [((insertHeld_perm e ⟨f.seq, f.q, f.words⟩ c.s.window).map WindowEntry.seq).nodup_iff]
    simp only [List.map_cons, List.nodup_cons, List.mem_map, not_exists, not_and]
    exact ⟨fun v hv => heldAt_none_iff.mp hfree v hv, hp.2.2.1⟩
  have hlen := window_length hwin hnd
  have hlen' : (insertHeld e ⟨f.seq, f.q, f.words⟩ c.s.window).length = c.s.window.length + 1 := by
    rw [(insertHeld_perm e ⟨f.seq, f.q, f.words⟩ c.s.window).length_eq]; simp
  have hwf := (wf_iff _).mp h.wf
  -- a slot is free for it
  have hfree1 : 1 ≤ (c.discardJumpOn x).free := by
    have hr := hj.1.room
    rw [total_eq, hj.1.acq] at hr
    have hq := queueSlots_le (c.discardJumpOn x).s.queue
    simp only [pool, discardJumpOn_s_window, discardJumpOn_s_queue, discardJumpOn_cfg, Option.isSome_none] at hr hq
    have : (if (c.discardJumpOn x).s.jump.isSome then 1 else 0) ≤ 1 := by split <;> omega
    have hq4 := hp.2.2.2.1
    simp at hr
    omega
  obtain ⟨j2, j3, j4, j5, j6, j7, j8⟩ := hj.2
  obtain ⟨c2, hc2⟩ : ∃ c2 : Ctx, c2 = ({ (c.discardJumpOn x).takeSlot with
    s := { (c.discardJumpOn x).takeSlot.s with
      window := insertHeld e ⟨f.seq, f.q, f.words⟩ (c.discardJumpOn x).takeSlot.s.window } } : Ctx).count (ctrAccepted x) :=
    ⟨_, rfl⟩
  have hdef : c.storeHeld x e f = if c.s.window = [] then c2.startTimer else c2 := by subst hc2; rfl
  rw [hdef]
  have hnw : insertHeld e ⟨f.seq, f.q, f.words⟩ c.s.window ≠ [] := by
    intro h0; rw [h0] at hlen'; simp at hlen'
  have hk2 : c.Keep c2 := by
    subst hc2
    refine ⟨by simp, by simp, by simp, by simp, by simp, by simp, ?_⟩
    · rw [← j8]
      have h1 := hfree1
      simp only [total, Stream.held, count_free, count_s_window, count_s_queue, count_s_acq, count_s_jump, takeSlot_free,
        takeSlot_s, discardJumpOn_s_window, discardJumpOn_s_queue, hlen']
      omega
  have h2 : c2.PlayOk := by
    refine ⟨⟨e, ?_⟩, ?_, ?_, ?_, by rw [hk2.cfg]; exact h.wf, by rw [hk2.cfg, hk2.total]; exact h.room⟩
    · subst hc2
      exact ⟨by simpa using hp.1, by simpa using hwin, by simpa using hnd, by simpa using hp.2.2.2.1, by simpa using hp.2.2.2.2⟩
    · subst hc2; simpa using h.acq
    · subst hc2
      intro n hn
      have := h.timer n (by simpa using hn)
      exact ⟨this.1, this.2.1, by simpa using hnw⟩
    · subst hc2; simpa using h.guard
  split
  · refine ⟨⟨?_, by simpa using h2.acq, startTimer_ok h2.wf h2.timer, by simpa using h2.guard, by simpa using h2.wf, ?_⟩, ?_⟩
    · obtain ⟨e2, hp2⟩ := h2.play; exact ⟨e2, by simpa [Play] using hp2⟩
    · simpa [total, Stream.held] using h2.room
    · refine hk2.trans ?_
      constructor <;> simp [total, Stream.held]
  · exact ⟨h2, hk2⟩

theorem Ctx.windowArrival_fine {c : Ctx} {e : Seq} (x : Path) (f : Frame) (h : c.PlayOk) (hp : c.Play 1 e)
    (hne : f.seq ≠ e) (hd : dist f.seq e < c.cfg.window) : c.Fine (c.windowArrival x e f) := by
  unfold windowArrival
  split
  · exact count_fine _ h
  · next hfree => exact storeHeld_fine x f h hp hne hd hfree

theorem Ctx.nearArrival_fine {c : Ctx} {e : Seq} (x : Path) (f : Frame) (h : c.PlayOk) (hp : c.Play 1 e)
    (hd : dist f.seq e < c.cfg.window) : c.Fine (c.nearArrival x f) := by
  unfold nearArrival
  rw [hp.1]
  dsimp only
  split
  · next he => exact baseArrival_fine x f h hp
  · next he => exact windowArrival_fine x f h hp he hd

/-! ## Push -/

/-- One step of a push. -/
theorem Ctx.pushStep {c : Ctx} {e : Seq} {seq : Seq} (h : c.PlayOk) (hp : c.Play 1 e) (hb : c.Beyond seq e) (hne : seq ≠ e) :
    c.Fine ((c.substitute.count ctrSubstPush).chain) ∧
    ∃ e', ((c.substitute.count ctrSubstPush).chain).Play 1 e' ∧ ((c.substitute.count ctrSubstPush).chain).Beyond seq e' ∧
      dist seq e' + 1 ≤ dist seq e := by
  have hwf := (wf_iff _).mp h.wf
  have htr : 1 ≤ c.cfg.trim := by omega
  have hs := substitute_same c
  have hs0 : (c.substitute.count ctrSubstPush).Play 0 (e + 1) := by simpa [Play] using substitute_play htr hp
  have hk : c.Keep (c.substitute.count ctrSubstPush) := (hs.keep (substitute_pool c)).trans (count_keep _ _)
  have hc := chain_fine hs0 (by simp [hs.2.2.2.2.2.1, h.acq])
    (fun n hn => by have := h.timer n (by simpa using hn); exact ⟨this.1, this.2.1⟩)
    (fun g hg => h.guard g (by simpa [hs.2.2.2.2.2.2.2.1] using hg))
    (by rw [hk.cfg]; exact h.wf) (by rw [hk.cfg, hk.total]; exact h.room)
  refine ⟨⟨hc.1, hk.trans hc.2⟩, ?_⟩
  obtain ⟨e', k1, _, _, k4⟩ := chain_spec (by rw [hk.cfg]; exact htr) hs0
  have hadv := Beyond_advance (l := c.s.window) hb (ne_base_of_pos hp.2.1) hne
  have := k4 seq (by simpa [Beyond] using hadv.1)
  exact ⟨e', k1, this.1, by omega⟩

theorem Ctx.pushSteps_fine (n : Nat) {c : Ctx} {e seq : Seq} (h : c.PlayOk) (hp : c.Play 1 e) (hb : c.Beyond seq e)
    (hn : dist seq e ≤ n) :
    c.Fine (Ctx.pushSteps n seq c) ∧
    ∃ e', (Ctx.pushSteps n seq c).Play 1 e' ∧ dist seq e' < c.cfg.window := by
  have hwf := (wf_iff _).mp h.wf
  induction n generalizing c e with
  | zero => exact ⟨⟨h, Keep.refl c⟩, e, hp, by omega⟩
  | succ n ih =>
    by_cases hd : c.cfg.window ≤ dist seq e
    · have hu : Ctx.pushSteps (n + 1) seq c = Ctx.pushSteps n seq ((c.substitute.count ctrSubstPush).chain) := by
        simp [pushSteps, hp.1, hd]
      rw [hu]
      have hne : seq ≠ e := by rintro rfl; rw [dist_self] at hd; omega
      obtain ⟨hf, e', k1, k2, k3⟩ := pushStep h hp hb hne
      have hcfg := hf.2.cfg
      obtain ⟨g1, e2, g2, g3⟩ := ih hf.1 k1 k2 (by omega) (by rw [hcfg]; exact hwf)
      exact ⟨hf.trans g1, e2, g2, by rw [hcfg] at g3; exact g3⟩
    · have hu : Ctx.pushSteps (n + 1) seq c = c := by simp [pushSteps, hp.1, hd]
      rw [hu]
      exact ⟨⟨h, Keep.refl c⟩, e, hp, by omega⟩

theorem Ctx.pushArrival_fine {c : Ctx} {e : Seq} (x : Path) (f : Frame) (h : c.PlayOk) (hp : c.Play 1 e)
    (hd : c.cfg.window ≤ dist f.seq e) : c.Fine (c.pushArrival x (dist f.seq e) f) := by
  have hj := discardJumpOn_fine x h
  have hpd : (c.discardJumpOn x).Play 1 e := by simpa [Play] using hp
  have hb : (c.discardJumpOn x).Beyond f.seq e := by
    intro v hv
    have := (hpd.2.1 v hv).2
    simp at this
    omega
  obtain ⟨g1, e', g2, g3⟩ := pushSteps_fine (dist f.seq e) hj.1 hpd hb (Nat.le_refl _)
  unfold pushArrival
  refine hj.trans (g1.trans (nearArrival_fine x f g1.1 g2 ?_))
  rw [g1.2.cfg]; exact g3

end Sys2Proof.Machine
end

