-- ==== Sys2Proof/Laws/State.lean ====
section
/-! SUPPORT. What each operation on the whole state leaves unchanged: one lemma per field per operation, so that no proof unfolds a record update. -/

namespace Sys2Proof.Machine

/-! ### Streams and records by index -/

@[simp] theorem State.setStream_stream (s : State) (i : StreamIdx) (st : Stream) : (s.setStream i st).stream i = st := by
  simp [State.stream, State.setStream]
theorem State.setStream_stream_ne (s : State) {i j : StreamIdx} (st : Stream) (h : j ≠ i) :
    (s.setStream i st).stream j = s.stream j :=
  Vector.getElem_set_ne i.isLt j.isLt fun he => h (Fin.ext he.symm)
@[simp] theorem ConfigSet.setRecord_record (c : ConfigSet) (i : StreamIdx) (r : StreamRecord) : (c.setRecord i r).record i = r := by
  simp [ConfigSet.record, ConfigSet.setRecord]
theorem ConfigSet.setRecord_record_ne (c : ConfigSet) {i j : StreamIdx} (r : StreamRecord) (h : j ≠ i) :
    (c.setRecord i r).record j = c.record j :=
  Vector.getElem_set_ne i.isLt j.isLt fun he => h (Fin.ext he.symm)
@[simp] theorem ConfigSet.setRecord_device (c : ConfigSet) (i : StreamIdx) (r : StreamRecord) :
    (c.setRecord i r).device = c.device := rfl
@[simp] theorem State.put_stream (s : State) (c : Ctx) (b : Block) : (s.put c b).stream c.idx = c.s :=
  State.setStream_stream s c.idx c.s
theorem State.put_stream_ne (s : State) (c : Ctx) (b : Block) {j : StreamIdx} (h : j ≠ c.idx) :
    (s.put c b).stream j = s.stream j := State.setStream_stream_ne s c.s h
@[simp] theorem State.put_free (s : State) (c : Ctx) (b : Block) : (s.put c b).free = c.free := rfl
@[simp] theorem State.put_offers (s : State) (c : Ctx) (b : Block) :
    (s.put c b).offers = s.offers ++ c.notes.map (Offer.own b) := rfl
@[simp] theorem State.ctx_s (s : State) (i : StreamIdx) : (s.ctx i).s = s.stream i := rfl
@[simp] theorem State.ctx_cfg (s : State) (i : StreamIdx) : (s.ctx i).cfg = s.inForce i := rfl
@[simp] theorem State.ctx_idx (s : State) (i : StreamIdx) : (s.ctx i).idx = i := rfl
@[simp] theorem State.ctx_free (s : State) (i : StreamIdx) : (s.ctx i).free = s.free := rfl
@[simp] theorem State.ctx_notes (s : State) (i : StreamIdx) : (s.ctx i).notes = [] := rfl
@[simp] theorem State.ctx_record (s : State) (i : StreamIdx) : (s.ctx i).record = none := rfl
@[simp] theorem State.fresh_stream (c : ResetCause) (r : LineRate) (i : StreamIdx) : (State.fresh c r).stream i = Stream.reset := by
  simp [State.stream, State.fresh]
@[simp] theorem ConfigSet.default_record (i : StreamIdx) : ConfigSet.default.record i = StreamRecord.default i := by
  simp [ConfigSet.record, ConfigSet.default]


/-! ### countMgmt -/

@[simp] theorem State.countMgmt_pending (s : State) (k : Fin 6) : (s.countMgmt k).pending = s.pending := rfl
@[simp] theorem State.countMgmt_streams (s : State) (k : Fin 6) : (s.countMgmt k).streams = s.streams := rfl
@[simp] theorem State.countMgmt_active (s : State) (k : Fin 6) : (s.countMgmt k).active = s.active := rfl
@[simp] theorem State.countMgmt_generation (s : State) (k : Fin 6) : (s.countMgmt k).generation = s.generation := rfl
@[simp] theorem State.countMgmt_key (s : State) (k : Fin 6) : (s.countMgmt k).key = s.key := rfl
@[simp] theorem State.countMgmt_session (s : State) (k : Fin 6) : (s.countMgmt k).session = s.session := rfl
@[simp] theorem State.countMgmt_tagMap (s : State) (k : Fin 6) : (s.countMgmt k).tagMap = s.tagMap := rfl
@[simp] theorem State.countMgmt_free (s : State) (k : Fin 6) : (s.countMgmt k).free = s.free := rfl
@[simp] theorem State.countMgmt_cadence (s : State) (k : Fin 6) : (s.countMgmt k).cadence = s.cadence := rfl
@[simp] theorem State.countMgmt_port (s : State) (k : Fin 6) : (s.countMgmt k).port = s.port := rfl
@[simp] theorem State.countMgmt_linkA (s : State) (k : Fin 6) : (s.countMgmt k).linkA = s.linkA := rfl
@[simp] theorem State.countMgmt_linkB (s : State) (k : Fin 6) : (s.countMgmt k).linkB = s.linkB := rfl
@[simp] theorem State.countMgmt_notices (s : State) (k : Fin 6) : (s.countMgmt k).notices = s.notices := rfl
@[simp] theorem State.countMgmt_deliveries (s : State) (k : Fin 6) : (s.countMgmt k).deliveries = s.deliveries := rfl
@[simp] theorem State.countMgmt_reports (s : State) (k : Fin 6) : (s.countMgmt k).reports = s.reports := rfl
@[simp] theorem State.countMgmt_ticks (s : State) (k : Fin 6) : (s.countMgmt k).ticks = s.ticks := rfl
@[simp] theorem State.countMgmt_offers (s : State) (k : Fin 6) : (s.countMgmt k).offers = s.offers := rfl
@[simp] theorem State.countMgmt_goodReports (s : State) (k : Fin 6) : (s.countMgmt k).goodReports = s.goodReports := rfl
@[simp] theorem State.countMgmt_stream (s : State) (k : Fin 6) (j : StreamIdx) : (s.countMgmt k).stream j = s.stream j := by
  simp only [State.stream, State.countMgmt_streams]
@[simp] theorem State.countMgmt_inForce (s : State) (k : Fin 6) (j : StreamIdx) : (s.countMgmt k).inForce j = s.inForce j := by
  simp only [State.inForce, State.countMgmt_stream, State.countMgmt_active]

/-! ### offer -/

@[simp] theorem State.offer_pending (s : State) (b : Block) (a : Bool) (n : Notice) : (s.offer b a n).pending = s.pending := by
  unfold State.offer; split <;> rfl
@[simp] theorem State.offer_streams (s : State) (b : Block) (a : Bool) (n : Notice) : (s.offer b a n).streams = s.streams := by
  unfold State.offer; split <;> rfl
@[simp] theorem State.offer_active (s : State) (b : Block) (a : Bool) (n : Notice) : (s.offer b a n).active = s.active := by
  unfold State.offer; split <;> rfl
@[simp] theorem State.offer_generation (s : State) (b : Block) (a : Bool) (n : Notice) : (s.offer b a n).generation = s.generation := by
  unfold State.offer; split <;> rfl
@[simp] theorem State.offer_key (s : State) (b : Block) (a : Bool) (n : Notice) : (s.offer b a n).key = s.key := by
  unfold State.offer; split <;> rfl
@[simp] theorem State.offer_session (s : State) (b : Block) (a : Bool) (n : Notice) : (s.offer b a n).session = s.session := by
  unfold State.offer; split <;> rfl
@[simp] theorem State.offer_tagMap (s : State) (b : Block) (a : Bool) (n : Notice) : (s.offer b a n).tagMap = s.tagMap := by
  unfold State.offer; split <;> rfl
@[simp] theorem State.offer_free (s : State) (b : Block) (a : Bool) (n : Notice) : (s.offer b a n).free = s.free := by
  unfold State.offer; split <;> rfl
@[simp] theorem State.offer_cadence (s : State) (b : Block) (a : Bool) (n : Notice) : (s.offer b a n).cadence = s.cadence := by
  unfold State.offer; split <;> rfl
@[simp] theorem State.offer_port (s : State) (b : Block) (a : Bool) (n : Notice) : (s.offer b a n).port = s.port := by
  unfold State.offer; split <;> rfl
@[simp] theorem State.offer_linkA (s : State) (b : Block) (a : Bool) (n : Notice) : (s.offer b a n).linkA = s.linkA := by
  unfold State.offer; split <;> rfl
@[simp] theorem State.offer_linkB (s : State) (b : Block) (a : Bool) (n : Notice) : (s.offer b a n).linkB = s.linkB := by
  unfold State.offer; split <;> rfl
@[simp] theorem State.offer_mgmt (s : State) (b : Block) (a : Bool) (n : Notice) : (s.offer b a n).mgmt = s.mgmt := by
  unfold State.offer; split <;> rfl
@[simp] theorem State.offer_notices (s : State) (b : Block) (a : Bool) (n : Notice) : (s.offer b a n).notices = s.notices := by
  unfold State.offer; split <;> rfl
@[simp] theorem State.offer_deliveries (s : State) (b : Block) (a : Bool) (n : Notice) : (s.offer b a n).deliveries = s.deliveries := by
  unfold State.offer; split <;> rfl
@[simp] theorem State.offer_reports (s : State) (b : Block) (a : Bool) (n : Notice) : (s.offer b a n).reports = s.reports := by
  unfold State.offer; split <;> rfl
@[simp] theorem State.offer_ticks (s : State) (b : Block) (a : Bool) (n : Notice) : (s.offer b a n).ticks = s.ticks := by
  unfold State.offer; split <;> rfl
@[simp] theorem State.offer_goodReports (s : State) (b : Block) (a : Bool) (n : Notice) : (s.offer b a n).goodReports = s.goodReports := by
  unfold State.offer; split <;> rfl
@[simp] theorem State.offer_stream (s : State) (b : Block) (a : Bool) (n : Notice) (j : StreamIdx) : (s.offer b a n).stream j = s.stream j := by
  simp only [State.stream, State.offer_streams]
@[simp] theorem State.offer_inForce (s : State) (b : Block) (a : Bool) (n : Notice) (j : StreamIdx) : (s.offer b a n).inForce j = s.inForce j := by
  simp only [State.inForce, State.offer_stream, State.offer_active]

/-! ### put -/

@[simp] theorem State.put_pending (s : State) (c : Ctx) (b : Block) : (s.put c b).pending = s.pending := rfl
@[simp] theorem State.put_active (s : State) (c : Ctx) (b : Block) : (s.put c b).active = s.active := rfl
@[simp] theorem State.put_generation (s : State) (c : Ctx) (b : Block) : (s.put c b).generation = s.generation := rfl
@[simp] theorem State.put_key (s : State) (c : Ctx) (b : Block) : (s.put c b).key = s.key := rfl
@[simp] theorem State.put_session (s : State) (c : Ctx) (b : Block) : (s.put c b).session = s.session := rfl
@[simp] theorem State.put_tagMap (s : State) (c : Ctx) (b : Block) : (s.put c b).tagMap = s.tagMap := rfl
@[simp] theorem State.put_cadence (s : State) (c : Ctx) (b : Block) : (s.put c b).cadence = s.cadence := rfl
@[simp] theorem State.put_port (s : State) (c : Ctx) (b : Block) : (s.put c b).port = s.port := rfl
@[simp] theorem State.put_linkA (s : State) (c : Ctx) (b : Block) : (s.put c b).linkA = s.linkA := rfl
@[simp] theorem State.put_linkB (s : State) (c : Ctx) (b : Block) : (s.put c b).linkB = s.linkB := rfl
@[simp] theorem State.put_mgmt (s : State) (c : Ctx) (b : Block) : (s.put c b).mgmt = s.mgmt := rfl
@[simp] theorem State.put_notices (s : State) (c : Ctx) (b : Block) : (s.put c b).notices = s.notices := rfl
@[simp] theorem State.put_deliveries (s : State) (c : Ctx) (b : Block) : (s.put c b).deliveries = s.deliveries := rfl
@[simp] theorem State.put_reports (s : State) (c : Ctx) (b : Block) : (s.put c b).reports = s.reports := rfl
@[simp] theorem State.put_ticks (s : State) (c : Ctx) (b : Block) : (s.put c b).ticks = s.ticks := rfl
@[simp] theorem State.put_goodReports (s : State) (c : Ctx) (b : Block) : (s.put c b).goodReports = s.goodReports := rfl

/-! ### onStream -/

@[simp] theorem State.onStream_pending (s : State) (i : StreamIdx) (f : Ctx → Ctx) : (s.onStream i f).pending = s.pending := rfl
@[simp] theorem State.onStream_active (s : State) (i : StreamIdx) (f : Ctx → Ctx) : (s.onStream i f).active = s.active := rfl
@[simp] theorem State.onStream_generation (s : State) (i : StreamIdx) (f : Ctx → Ctx) : (s.onStream i f).generation = s.generation := rfl
@[simp] theorem State.onStream_key (s : State) (i : StreamIdx) (f : Ctx → Ctx) : (s.onStream i f).key = s.key := rfl
@[simp] theorem State.onStream_session (s : State) (i : StreamIdx) (f : Ctx → Ctx) : (s.onStream i f).session = s.session := rfl
@[simp] theorem State.onStream_tagMap (s : State) (i : StreamIdx) (f : Ctx → Ctx) : (s.onStream i f).tagMap = s.tagMap := rfl
@[simp] theorem State.onStream_cadence (s : State) (i : StreamIdx) (f : Ctx → Ctx) : (s.onStream i f).cadence = s.cadence := rfl
@[simp] theorem State.onStream_port (s : State) (i : StreamIdx) (f : Ctx → Ctx) : (s.onStream i f).port = s.port := rfl
@[simp] theorem State.onStream_linkA (s : State) (i : StreamIdx) (f : Ctx → Ctx) : (s.onStream i f).linkA = s.linkA := rfl
@[simp] theorem State.onStream_linkB (s : State) (i : StreamIdx) (f : Ctx → Ctx) : (s.onStream i f).linkB = s.linkB := rfl
@[simp] theorem State.onStream_mgmt (s : State) (i : StreamIdx) (f : Ctx → Ctx) : (s.onStream i f).mgmt = s.mgmt := rfl
@[simp] theorem State.onStream_notices (s : State) (i : StreamIdx) (f : Ctx → Ctx) : (s.onStream i f).notices = s.notices := rfl
@[simp] theorem State.onStream_deliveries (s : State) (i : StreamIdx) (f : Ctx → Ctx) : (s.onStream i f).deliveries = s.deliveries := rfl
@[simp] theorem State.onStream_reports (s : State) (i : StreamIdx) (f : Ctx → Ctx) : (s.onStream i f).reports = s.reports := rfl
@[simp] theorem State.onStream_ticks (s : State) (i : StreamIdx) (f : Ctx → Ctx) : (s.onStream i f).ticks = s.ticks := rfl
@[simp] theorem State.onStream_goodReports (s : State) (i : StreamIdx) (f : Ctx → Ctx) : (s.onStream i f).goodReports = s.goodReports := rfl

/-! ### setLink -/

@[simp] theorem State.setLink_pending (s : State) (x : Path) (l : LinkRx) : (s.setLink x l).pending = s.pending := by cases x <;> rfl
@[simp] theorem State.setLink_streams (s : State) (x : Path) (l : LinkRx) : (s.setLink x l).streams = s.streams := by cases x <;> rfl
@[simp] theorem State.setLink_active (s : State) (x : Path) (l : LinkRx) : (s.setLink x l).active = s.active := by cases x <;> rfl
@[simp] theorem State.setLink_generation (s : State) (x : Path) (l : LinkRx) : (s.setLink x l).generation = s.generation := by cases x <;> rfl
@[simp] theorem State.setLink_key (s : State) (x : Path) (l : LinkRx) : (s.setLink x l).key = s.key := by cases x <;> rfl
@[simp] theorem State.setLink_session (s : State) (x : Path) (l : LinkRx) : (s.setLink x l).session = s.session := by cases x <;> rfl
@[simp] theorem State.setLink_tagMap (s : State) (x : Path) (l : LinkRx) : (s.setLink x l).tagMap = s.tagMap := by cases x <;> rfl
@[simp] theorem State.setLink_free (s : State) (x : Path) (l : LinkRx) : (s.setLink x l).free = s.free := by cases x <;> rfl
@[simp] theorem State.setLink_cadence (s : State) (x : Path) (l : LinkRx) : (s.setLink x l).cadence = s.cadence := by cases x <;> rfl
@[simp] theorem State.setLink_port (s : State) (x : Path) (l : LinkRx) : (s.setLink x l).port = s.port := by cases x <;> rfl
@[simp] theorem State.setLink_mgmt (s : State) (x : Path) (l : LinkRx) : (s.setLink x l).mgmt = s.mgmt := by cases x <;> rfl
@[simp] theorem State.setLink_notices (s : State) (x : Path) (l : LinkRx) : (s.setLink x l).notices = s.notices := by cases x <;> rfl
@[simp] theorem State.setLink_deliveries (s : State) (x : Path) (l : LinkRx) : (s.setLink x l).deliveries = s.deliveries := by cases x <;> rfl
@[simp] theorem State.setLink_reports (s : State) (x : Path) (l : LinkRx) : (s.setLink x l).reports = s.reports := by cases x <;> rfl
@[simp] theorem State.setLink_ticks (s : State) (x : Path) (l : LinkRx) : (s.setLink x l).ticks = s.ticks := by cases x <;> rfl
@[simp] theorem State.setLink_offers (s : State) (x : Path) (l : LinkRx) : (s.setLink x l).offers = s.offers := by cases x <;> rfl
@[simp] theorem State.setLink_goodReports (s : State) (x : Path) (l : LinkRx) : (s.setLink x l).goodReports = s.goodReports := by cases x <;> rfl
@[simp] theorem State.setLink_stream (s : State) (x : Path) (l : LinkRx) (j : StreamIdx) : (s.setLink x l).stream j = s.stream j := by
  simp only [State.stream, State.setLink_streams]
@[simp] theorem State.setLink_inForce (s : State) (x : Path) (l : LinkRx) (j : StreamIdx) : (s.setLink x l).inForce j = s.inForce j := by
  simp only [State.inForce, State.setLink_stream, State.setLink_active]

/-! ### closeSession -/

@[simp] theorem State.closeSession_pending (s : State) : (s.closeSession).pending = s.pending := rfl
@[simp] theorem State.closeSession_streams (s : State) : (s.closeSession).streams = s.streams := rfl
@[simp] theorem State.closeSession_active (s : State) : (s.closeSession).active = s.active := rfl
@[simp] theorem State.closeSession_generation (s : State) : (s.closeSession).generation = s.generation := rfl
@[simp] theorem State.closeSession_key (s : State) : (s.closeSession).key = s.key := rfl
@[simp] theorem State.closeSession_tagMap (s : State) : (s.closeSession).tagMap = s.tagMap := rfl
@[simp] theorem State.closeSession_free (s : State) : (s.closeSession).free = s.free := rfl
@[simp] theorem State.closeSession_cadence (s : State) : (s.closeSession).cadence = s.cadence := rfl
@[simp] theorem State.closeSession_port (s : State) : (s.closeSession).port = s.port := rfl
@[simp] theorem State.closeSession_linkA (s : State) : (s.closeSession).linkA = s.linkA := rfl
@[simp] theorem State.closeSession_linkB (s : State) : (s.closeSession).linkB = s.linkB := rfl
@[simp] theorem State.closeSession_mgmt (s : State) : (s.closeSession).mgmt = s.mgmt := rfl
@[simp] theorem State.closeSession_notices (s : State) : (s.closeSession).notices = s.notices := rfl
@[simp] theorem State.closeSession_deliveries (s : State) : (s.closeSession).deliveries = s.deliveries := rfl
@[simp] theorem State.closeSession_reports (s : State) : (s.closeSession).reports = s.reports := rfl
@[simp] theorem State.closeSession_ticks (s : State) : (s.closeSession).ticks = s.ticks := rfl
@[simp] theorem State.closeSession_offers (s : State) : (s.closeSession).offers = s.offers := rfl
@[simp] theorem State.closeSession_goodReports (s : State) : (s.closeSession).goodReports = s.goodReports := rfl
@[simp] theorem State.closeSession_stream (s : State) (j : StreamIdx) : (s.closeSession).stream j = s.stream j := by
  simp only [State.stream, State.closeSession_streams]
@[simp] theorem State.closeSession_inForce (s : State) (j : StreamIdx) : (s.closeSession).inForce j = s.inForce j := by
  simp only [State.inForce, State.closeSession_stream, State.closeSession_active]

/-! ### idleTx -/

@[simp] theorem State.idleTx_pending (s : State) : (s.idleTx).pending = s.pending := rfl
@[simp] theorem State.idleTx_streams (s : State) : (s.idleTx).streams = s.streams := rfl
@[simp] theorem State.idleTx_active (s : State) : (s.idleTx).active = s.active := rfl
@[simp] theorem State.idleTx_generation (s : State) : (s.idleTx).generation = s.generation := rfl
@[simp] theorem State.idleTx_key (s : State) : (s.idleTx).key = s.key := rfl
@[simp] theorem State.idleTx_session (s : State) : (s.idleTx).session = s.session := rfl
@[simp] theorem State.idleTx_tagMap (s : State) : (s.idleTx).tagMap = s.tagMap := rfl
@[simp] theorem State.idleTx_free (s : State) : (s.idleTx).free = s.free := rfl
@[simp] theorem State.idleTx_cadence (s : State) : (s.idleTx).cadence = s.cadence := rfl
@[simp] theorem State.idleTx_port (s : State) : (s.idleTx).port = s.port := rfl
@[simp] theorem State.idleTx_linkA (s : State) : (s.idleTx).linkA = s.linkA := rfl
@[simp] theorem State.idleTx_linkB (s : State) : (s.idleTx).linkB = s.linkB := rfl
@[simp] theorem State.idleTx_notices (s : State) : (s.idleTx).notices = s.notices := rfl
@[simp] theorem State.idleTx_deliveries (s : State) : (s.idleTx).deliveries = s.deliveries := rfl
@[simp] theorem State.idleTx_reports (s : State) : (s.idleTx).reports = s.reports := rfl
@[simp] theorem State.idleTx_ticks (s : State) : (s.idleTx).ticks = s.ticks := rfl
@[simp] theorem State.idleTx_offers (s : State) : (s.idleTx).offers = s.offers := rfl
@[simp] theorem State.idleTx_goodReports (s : State) : (s.idleTx).goodReports = s.goodReports := rfl
@[simp] theorem State.idleTx_stream (s : State) (j : StreamIdx) : (s.idleTx).stream j = s.stream j := by
  simp only [State.stream, State.idleTx_streams]
@[simp] theorem State.idleTx_inForce (s : State) (j : StreamIdx) : (s.idleTx).inForce j = s.inForce j := by
  simp only [State.inForce, State.idleTx_stream, State.idleTx_active]

/-! ### produceTick -/

@[simp] theorem State.produceTick_pending (s : State) : (s.produceTick).pending = s.pending := rfl
@[simp] theorem State.produceTick_streams (s : State) : (s.produceTick).streams = s.streams := rfl
@[simp] theorem State.produceTick_active (s : State) : (s.produceTick).active = s.active := rfl
@[simp] theorem State.produceTick_generation (s : State) : (s.produceTick).generation = s.generation := rfl
@[simp] theorem State.produceTick_key (s : State) : (s.produceTick).key = s.key := rfl
@[simp] theorem State.produceTick_session (s : State) : (s.produceTick).session = s.session := rfl
@[simp] theorem State.produceTick_tagMap (s : State) : (s.produceTick).tagMap = s.tagMap := rfl
@[simp] theorem State.produceTick_free (s : State) : (s.produceTick).free = s.free := rfl
@[simp] theorem State.produceTick_cadence (s : State) : (s.produceTick).cadence = s.cadence := rfl
@[simp] theorem State.produceTick_port (s : State) : (s.produceTick).port = s.port := rfl
@[simp] theorem State.produceTick_linkA (s : State) : (s.produceTick).linkA = s.linkA := rfl
@[simp] theorem State.produceTick_linkB (s : State) : (s.produceTick).linkB = s.linkB := rfl
@[simp] theorem State.produceTick_mgmt (s : State) : (s.produceTick).mgmt = s.mgmt := rfl
@[simp] theorem State.produceTick_notices (s : State) : (s.produceTick).notices = s.notices := rfl
@[simp] theorem State.produceTick_deliveries (s : State) : (s.produceTick).deliveries = s.deliveries := rfl
@[simp] theorem State.produceTick_reports (s : State) : (s.produceTick).reports = s.reports := rfl
@[simp] theorem State.produceTick_offers (s : State) : (s.produceTick).offers = s.offers := rfl
@[simp] theorem State.produceTick_goodReports (s : State) : (s.produceTick).goodReports = s.goodReports := rfl
@[simp] theorem State.produceTick_stream (s : State) (j : StreamIdx) : (s.produceTick).stream j = s.stream j := by
  simp only [State.stream, State.produceTick_streams]
@[simp] theorem State.produceTick_inForce (s : State) (j : StreamIdx) : (s.produceTick).inForce j = s.inForce j := by
  simp only [State.inForce, State.produceTick_stream, State.produceTick_active]

/-! ### choose -/

@[simp] theorem State.choose_pending (s : State) : (s.choose).pending = s.pending := by
  unfold State.choose; repeat' split
  all_goals rfl
@[simp] theorem State.choose_streams (s : State) : (s.choose).streams = s.streams := by
  unfold State.choose; repeat' split
  all_goals rfl
@[simp] theorem State.choose_active (s : State) : (s.choose).active = s.active := by
  unfold State.choose; repeat' split
  all_goals rfl
@[simp] theorem State.choose_generation (s : State) : (s.choose).generation = s.generation := by
  unfold State.choose; repeat' split
  all_goals rfl
@[simp] theorem State.choose_key (s : State) : (s.choose).key = s.key := by
  unfold State.choose; repeat' split
  all_goals rfl
@[simp] theorem State.choose_session (s : State) : (s.choose).session = s.session := by
  unfold State.choose; repeat' split
  all_goals rfl
@[simp] theorem State.choose_tagMap (s : State) : (s.choose).tagMap = s.tagMap := by
  unfold State.choose; repeat' split
  all_goals rfl
@[simp] theorem State.choose_free (s : State) : (s.choose).free = s.free := by
  unfold State.choose; repeat' split
  all_goals rfl
@[simp] theorem State.choose_cadence (s : State) : (s.choose).cadence = s.cadence := by
  unfold State.choose; repeat' split
  all_goals rfl
@[simp] theorem State.choose_port (s : State) : (s.choose).port = s.port := by
  unfold State.choose; repeat' split
  all_goals rfl
@[simp] theorem State.choose_linkA (s : State) : (s.choose).linkA = s.linkA := by
  unfold State.choose; repeat' split
  all_goals rfl
@[simp] theorem State.choose_linkB (s : State) : (s.choose).linkB = s.linkB := by
  unfold State.choose; repeat' split
  all_goals rfl
@[simp] theorem State.choose_deliveries (s : State) : (s.choose).deliveries = s.deliveries := by
  unfold State.choose; repeat' split
  all_goals rfl
@[simp] theorem State.choose_reports (s : State) : (s.choose).reports = s.reports := by
  unfold State.choose; repeat' split
  all_goals rfl
@[simp] theorem State.choose_ticks (s : State) : (s.choose).ticks = s.ticks := by
  unfold State.choose; repeat' split
  all_goals rfl
@[simp] theorem State.choose_offers (s : State) : (s.choose).offers = s.offers := by
  unfold State.choose; repeat' split
  all_goals rfl
@[simp] theorem State.choose_goodReports (s : State) : (s.choose).goodReports = s.goodReports := by
  unfold State.choose; repeat' split
  all_goals rfl
@[simp] theorem State.choose_stream (s : State) (j : StreamIdx) : (s.choose).stream j = s.stream j := by
  simp only [State.stream, State.choose_streams]
@[simp] theorem State.choose_inForce (s : State) (j : StreamIdx) : (s.choose).inForce j = s.inForce j := by
  simp only [State.inForce, State.choose_stream, State.choose_active]

/-! ### takeNotice -/

@[simp] theorem State.takeNotice_pending (s : State) (n : Notice) : (s.takeNotice n).pending = s.pending := by
  unfold State.takeNotice; split <;> simp
@[simp] theorem State.takeNotice_streams (s : State) (n : Notice) : (s.takeNotice n).streams = s.streams := by
  unfold State.takeNotice; split <;> simp
@[simp] theorem State.takeNotice_active (s : State) (n : Notice) : (s.takeNotice n).active = s.active := by
  unfold State.takeNotice; split <;> simp
@[simp] theorem State.takeNotice_generation (s : State) (n : Notice) : (s.takeNotice n).generation = s.generation := by
  unfold State.takeNotice; split <;> simp
@[simp] theorem State.takeNotice_key (s : State) (n : Notice) : (s.takeNotice n).key = s.key := by
  unfold State.takeNotice; split <;> simp
@[simp] theorem State.takeNotice_session (s : State) (n : Notice) : (s.takeNotice n).session = s.session := by
  unfold State.takeNotice; split <;> simp
@[simp] theorem State.takeNotice_tagMap (s : State) (n : Notice) : (s.takeNotice n).tagMap = s.tagMap := by
  unfold State.takeNotice; split <;> simp
@[simp] theorem State.takeNotice_free (s : State) (n : Notice) : (s.takeNotice n).free = s.free := by
  unfold State.takeNotice; split <;> simp
@[simp] theorem State.takeNotice_cadence (s : State) (n : Notice) : (s.takeNotice n).cadence = s.cadence := by
  unfold State.takeNotice; split <;> simp
@[simp] theorem State.takeNotice_port (s : State) (n : Notice) : (s.takeNotice n).port = s.port := by
  unfold State.takeNotice; split <;> simp
@[simp] theorem State.takeNotice_linkA (s : State) (n : Notice) : (s.takeNotice n).linkA = s.linkA := by
  unfold State.takeNotice; split <;> simp
@[simp] theorem State.takeNotice_linkB (s : State) (n : Notice) : (s.takeNotice n).linkB = s.linkB := by
  unfold State.takeNotice; split <;> simp
@[simp] theorem State.takeNotice_deliveries (s : State) (n : Notice) : (s.takeNotice n).deliveries = s.deliveries := by
  unfold State.takeNotice; split <;> simp
@[simp] theorem State.takeNotice_reports (s : State) (n : Notice) : (s.takeNotice n).reports = s.reports := by
  unfold State.takeNotice; split <;> simp
@[simp] theorem State.takeNotice_ticks (s : State) (n : Notice) : (s.takeNotice n).ticks = s.ticks := by
  unfold State.takeNotice; split <;> simp
@[simp] theorem State.takeNotice_offers (s : State) (n : Notice) : (s.takeNotice n).offers = s.offers := by
  unfold State.takeNotice; split <;> simp
@[simp] theorem State.takeNotice_goodReports (s : State) (n : Notice) : (s.takeNotice n).goodReports = s.goodReports := by
  unfold State.takeNotice; split <;> simp
@[simp] theorem State.takeNotice_stream (s : State) (n : Notice) (j : StreamIdx) : (s.takeNotice n).stream j = s.stream j := by
  simp only [State.stream, State.takeNotice_streams]
@[simp] theorem State.takeNotice_inForce (s : State) (n : Notice) (j : StreamIdx) : (s.takeNotice n).inForce j = s.inForce j := by
  simp only [State.inForce, State.takeNotice_stream, State.takeNotice_active]

/-! ### takeOffers -/

/-- The notices taken change the Notice Unit and the management side only. -/
theorem State.foldNotices_frame (l : List Offer) (s : State) {α : Type} (g : State → α)
    (h : ∀ (t : State) (n : Notice), g (t.takeNotice n) = g t) :
    g (l.foldl (fun t o => t.takeNotice o.notice) s) = g s := by
  induction l generalizing s with
  | nil => rfl
  | cons o l ih => rw [List.foldl_cons, ih, h]

@[simp] theorem State.takeOffers_pending (s : State) (p : Block → Bool) : (s.takeOffers p).pending = s.pending := by
  unfold State.takeOffers; rw [State.foldNotices_frame _ _ State.pending (by simp)]
@[simp] theorem State.takeOffers_streams (s : State) (p : Block → Bool) : (s.takeOffers p).streams = s.streams := by
  unfold State.takeOffers; rw [State.foldNotices_frame _ _ State.streams (by simp)]
@[simp] theorem State.takeOffers_active (s : State) (p : Block → Bool) : (s.takeOffers p).active = s.active := by
  unfold State.takeOffers; rw [State.foldNotices_frame _ _ State.active (by simp)]
@[simp] theorem State.takeOffers_generation (s : State) (p : Block → Bool) : (s.takeOffers p).generation = s.generation := by
  unfold State.takeOffers; rw [State.foldNotices_frame _ _ State.generation (by simp)]
@[simp] theorem State.takeOffers_key (s : State) (p : Block → Bool) : (s.takeOffers p).key = s.key := by
  unfold State.takeOffers; rw [State.foldNotices_frame _ _ State.key (by simp)]
@[simp] theorem State.takeOffers_session (s : State) (p : Block → Bool) : (s.takeOffers p).session = s.session := by
  unfold State.takeOffers; rw [State.foldNotices_frame _ _ State.session (by simp)]
@[simp] theorem State.takeOffers_tagMap (s : State) (p : Block → Bool) : (s.takeOffers p).tagMap = s.tagMap := by
  unfold State.takeOffers; rw [State.foldNotices_frame _ _ State.tagMap (by simp)]
@[simp] theorem State.takeOffers_free (s : State) (p : Block → Bool) : (s.takeOffers p).free = s.free := by
  unfold State.takeOffers; rw [State.foldNotices_frame _ _ State.free (by simp)]
@[simp] theorem State.takeOffers_cadence (s : State) (p : Block → Bool) : (s.takeOffers p).cadence = s.cadence := by
  unfold State.takeOffers; rw [State.foldNotices_frame _ _ State.cadence (by simp)]
@[simp] theorem State.takeOffers_port (s : State) (p : Block → Bool) : (s.takeOffers p).port = s.port := by
  unfold State.takeOffers; rw [State.foldNotices_frame _ _ State.port (by simp)]
@[simp] theorem State.takeOffers_linkA (s : State) (p : Block → Bool) : (s.takeOffers p).linkA = s.linkA := by
  unfold State.takeOffers; rw [State.foldNotices_frame _ _ State.linkA (by simp)]
@[simp] theorem State.takeOffers_linkB (s : State) (p : Block → Bool) : (s.takeOffers p).linkB = s.linkB := by
  unfold State.takeOffers; rw [State.foldNotices_frame _ _ State.linkB (by simp)]
@[simp] theorem State.takeOffers_deliveries (s : State) (p : Block → Bool) : (s.takeOffers p).deliveries = s.deliveries := by
  unfold State.takeOffers; rw [State.foldNotices_frame _ _ State.deliveries (by simp)]
@[simp] theorem State.takeOffers_reports (s : State) (p : Block → Bool) : (s.takeOffers p).reports = s.reports := by
  unfold State.takeOffers; rw [State.foldNotices_frame _ _ State.reports (by simp)]
@[simp] theorem State.takeOffers_ticks (s : State) (p : Block → Bool) : (s.takeOffers p).ticks = s.ticks := by
  unfold State.takeOffers; rw [State.foldNotices_frame _ _ State.ticks (by simp)]
@[simp] theorem State.takeOffers_goodReports (s : State) (p : Block → Bool) : (s.takeOffers p).goodReports = s.goodReports := by
  unfold State.takeOffers; rw [State.foldNotices_frame _ _ State.goodReports (by simp)]
@[simp] theorem State.takeOffers_stream (s : State) (p : Block → Bool) (j : StreamIdx) : (s.takeOffers p).stream j = s.stream j := by
  unfold State.takeOffers; rw [State.foldNotices_frame _ _ (fun t => State.stream t j) (by simp)]; rfl
@[simp] theorem State.takeOffers_inForce (s : State) (p : Block → Bool) (j : StreamIdx) : (s.takeOffers p).inForce j = s.inForce j := by
  unfold State.takeOffers; rw [State.foldNotices_frame _ _ (fun t => State.inForce t j) (by simp)]; rfl
@[simp] theorem State.takeOffers_offers (s : State) (p : Block → Bool) :
    (s.takeOffers p).offers = (splitOffers p s.offers).2 := by
  unfold State.takeOffers; rw [State.foldNotices_frame _ _ State.offers (by simp)]
/-- With no offer of the blocks picked waiting, none is taken. -/
theorem splitOffers_none {p : Block → Bool} {l : List Offer} (h : ∀ o ∈ l, p o.block = false) : splitOffers p l = ([], l) := by
  induction l with
  | nil => rfl
  | cons o l ih =>
    unfold splitOffers
    rw [ih fun e he => h e (List.mem_cons_of_mem _ he)]
    simp [h o (List.mem_cons_self ..)]
/-- With no offer of the blocks picked waiting, nothing changes. -/
theorem State.takeOffers_none {s : State} {p : Block → Bool} (h : ∀ o ∈ s.offers, p o.block = false) : s.takeOffers p = s := by
  unfold State.takeOffers; rw [splitOffers_none h]; rfl

/-! ### goodFrame -/

@[simp] theorem State.goodFrame_pending (s : State) : (s.goodFrame).pending = s.pending := by
  unfold State.goodFrame; split <;> simp
@[simp] theorem State.goodFrame_streams (s : State) : (s.goodFrame).streams = s.streams := by
  unfold State.goodFrame; split <;> simp
@[simp] theorem State.goodFrame_active (s : State) : (s.goodFrame).active = s.active := by
  unfold State.goodFrame; split <;> simp
@[simp] theorem State.goodFrame_generation (s : State) : (s.goodFrame).generation = s.generation := by
  unfold State.goodFrame; split <;> simp
@[simp] theorem State.goodFrame_key (s : State) : (s.goodFrame).key = s.key := by
  unfold State.goodFrame; split <;> simp
@[simp] theorem State.goodFrame_session (s : State) : (s.goodFrame).session = s.session := by
  unfold State.goodFrame; split <;> simp
@[simp] theorem State.goodFrame_tagMap (s : State) : (s.goodFrame).tagMap = s.tagMap := by
  unfold State.goodFrame; split <;> simp
@[simp] theorem State.goodFrame_free (s : State) : (s.goodFrame).free = s.free := by
  unfold State.goodFrame; split <;> simp
@[simp] theorem State.goodFrame_cadence (s : State) : (s.goodFrame).cadence = s.cadence := by
  unfold State.goodFrame; split <;> simp
@[simp] theorem State.goodFrame_port (s : State) : (s.goodFrame).port = s.port := by
  unfold State.goodFrame; split <;> simp
@[simp] theorem State.goodFrame_linkA (s : State) : (s.goodFrame).linkA = s.linkA := by
  unfold State.goodFrame; split <;> simp
@[simp] theorem State.goodFrame_linkB (s : State) : (s.goodFrame).linkB = s.linkB := by
  unfold State.goodFrame; split <;> simp
@[simp] theorem State.goodFrame_deliveries (s : State) : (s.goodFrame).deliveries = s.deliveries := by
  unfold State.goodFrame; split <;> simp
@[simp] theorem State.goodFrame_reports (s : State) : (s.goodFrame).reports = s.reports := by
  unfold State.goodFrame; split <;> simp
@[simp] theorem State.goodFrame_ticks (s : State) : (s.goodFrame).ticks = s.ticks := by
  unfold State.goodFrame; split <;> simp
@[simp] theorem State.goodFrame_offers (s : State) : (s.goodFrame).offers = s.offers := by
  unfold State.goodFrame; split <;> simp
@[simp] theorem State.goodFrame_goodReports (s : State) : (s.goodFrame).goodReports = s.goodReports := by
  unfold State.goodFrame; split <;> simp
@[simp] theorem State.goodFrame_stream (s : State) (j : StreamIdx) : (s.goodFrame).stream j = s.stream j := by
  simp only [State.stream, State.goodFrame_streams]
@[simp] theorem State.goodFrame_inForce (s : State) (j : StreamIdx) : (s.goodFrame).inForce j = s.inForce j := by
  simp only [State.inForce, State.goodFrame_stream, State.goodFrame_active]

/-! ### settleReports -/

@[simp] theorem State.settleReports_pending (s : State) : (s.settleReports).pending = s.pending := by
  unfold State.settleReports; split <;> simp
@[simp] theorem State.settleReports_streams (s : State) : (s.settleReports).streams = s.streams := by
  unfold State.settleReports; split <;> simp
@[simp] theorem State.settleReports_active (s : State) : (s.settleReports).active = s.active := by
  unfold State.settleReports; split <;> simp
@[simp] theorem State.settleReports_generation (s : State) : (s.settleReports).generation = s.generation := by
  unfold State.settleReports; split <;> simp
@[simp] theorem State.settleReports_key (s : State) : (s.settleReports).key = s.key := by
  unfold State.settleReports; split <;> simp
@[simp] theorem State.settleReports_session (s : State) : (s.settleReports).session = s.session := by
  unfold State.settleReports; split <;> simp
@[simp] theorem State.settleReports_tagMap (s : State) : (s.settleReports).tagMap = s.tagMap := by
  unfold State.settleReports; split <;> simp
@[simp] theorem State.settleReports_free (s : State) : (s.settleReports).free = s.free := by
  unfold State.settleReports; split <;> simp
@[simp] theorem State.settleReports_cadence (s : State) : (s.settleReports).cadence = s.cadence := by
  unfold State.settleReports; split <;> simp
@[simp] theorem State.settleReports_port (s : State) : (s.settleReports).port = s.port := by
  unfold State.settleReports; split <;> simp
@[simp] theorem State.settleReports_linkA (s : State) : (s.settleReports).linkA = s.linkA := by
  unfold State.settleReports; split <;> simp
@[simp] theorem State.settleReports_linkB (s : State) : (s.settleReports).linkB = s.linkB := by
  unfold State.settleReports; split <;> simp
@[simp] theorem State.settleReports_deliveries (s : State) : (s.settleReports).deliveries = s.deliveries := by
  unfold State.settleReports; split <;> simp
@[simp] theorem State.settleReports_reports (s : State) : (s.settleReports).reports = s.reports := by
  unfold State.settleReports; split <;> simp
@[simp] theorem State.settleReports_ticks (s : State) : (s.settleReports).ticks = s.ticks := by
  unfold State.settleReports; split <;> simp
@[simp] theorem State.settleReports_offers (s : State) : (s.settleReports).offers = s.offers := by
  unfold State.settleReports; split <;> simp
@[simp] theorem State.settleReports_stream (s : State) (j : StreamIdx) : (s.settleReports).stream j = s.stream j := by
  simp only [State.stream, State.settleReports_streams]
@[simp] theorem State.settleReports_inForce (s : State) (j : StreamIdx) : (s.settleReports).inForce j = s.inForce j := by
  simp only [State.inForce, State.settleReports_stream, State.settleReports_active]

/-! ### beginRequest -/

@[simp] theorem State.beginRequest_pending (s : State) (f : MgmtFrame) : (s.beginRequest f).pending = s.pending := by
  simp [State.beginRequest]
@[simp] theorem State.beginRequest_streams (s : State) (f : MgmtFrame) : (s.beginRequest f).streams = s.streams := by
  simp [State.beginRequest]
@[simp] theorem State.beginRequest_active (s : State) (f : MgmtFrame) : (s.beginRequest f).active = s.active := by
  simp [State.beginRequest]
@[simp] theorem State.beginRequest_generation (s : State) (f : MgmtFrame) : (s.beginRequest f).generation = s.generation := by
  simp [State.beginRequest]
@[simp] theorem State.beginRequest_key (s : State) (f : MgmtFrame) : (s.beginRequest f).key = s.key := by
  simp [State.beginRequest]
@[simp] theorem State.beginRequest_session (s : State) (f : MgmtFrame) : (s.beginRequest f).session = s.session := by
  simp [State.beginRequest]
@[simp] theorem State.beginRequest_tagMap (s : State) (f : MgmtFrame) : (s.beginRequest f).tagMap = s.tagMap := by
  simp [State.beginRequest]
@[simp] theorem State.beginRequest_free (s : State) (f : MgmtFrame) : (s.beginRequest f).free = s.free := by
  simp [State.beginRequest]
@[simp] theorem State.beginRequest_cadence (s : State) (f : MgmtFrame) : (s.beginRequest f).cadence = s.cadence := by
  simp [State.beginRequest]
@[simp] theorem State.beginRequest_port (s : State) (f : MgmtFrame) : (s.beginRequest f).port = s.port := by
  simp [State.beginRequest]
@[simp] theorem State.beginRequest_linkA (s : State) (f : MgmtFrame) : (s.beginRequest f).linkA = s.linkA := by
  simp [State.beginRequest]
@[simp] theorem State.beginRequest_linkB (s : State) (f : MgmtFrame) : (s.beginRequest f).linkB = s.linkB := by
  simp [State.beginRequest]
@[simp] theorem State.beginRequest_deliveries (s : State) (f : MgmtFrame) : (s.beginRequest f).deliveries = s.deliveries := by
  simp [State.beginRequest]
@[simp] theorem State.beginRequest_reports (s : State) (f : MgmtFrame) : (s.beginRequest f).reports = s.reports := by
  simp [State.beginRequest]
@[simp] theorem State.beginRequest_ticks (s : State) (f : MgmtFrame) : (s.beginRequest f).ticks = s.ticks := by
  simp [State.beginRequest]
@[simp] theorem State.beginRequest_offers (s : State) (f : MgmtFrame) : (s.beginRequest f).offers = s.offers := by
  simp [State.beginRequest]
@[simp] theorem State.beginRequest_stream (s : State) (f : MgmtFrame) (j : StreamIdx) : (s.beginRequest f).stream j = s.stream j := by
  simp only [State.stream, State.beginRequest_streams]
@[simp] theorem State.beginRequest_inForce (s : State) (f : MgmtFrame) (j : StreamIdx) : (s.beginRequest f).inForce j = s.inForce j := by
  simp only [State.inForce, State.beginRequest_stream, State.beginRequest_active]

/-! ### endRequest -/

@[simp] theorem State.endRequest_pending (s : State) (f : MgmtFrame) (a : Answer) : (s.endRequest f a).pending = s.pending := by
  simp [State.endRequest]
@[simp] theorem State.endRequest_streams (s : State) (f : MgmtFrame) (a : Answer) : (s.endRequest f a).streams = s.streams := by
  simp [State.endRequest]
@[simp] theorem State.endRequest_active (s : State) (f : MgmtFrame) (a : Answer) : (s.endRequest f a).active = s.active := by
  simp [State.endRequest]
@[simp] theorem State.endRequest_generation (s : State) (f : MgmtFrame) (a : Answer) : (s.endRequest f a).generation = s.generation := by
  simp [State.endRequest]
@[simp] theorem State.endRequest_key (s : State) (f : MgmtFrame) (a : Answer) : (s.endRequest f a).key = s.key := by
  simp [State.endRequest]
@[simp] theorem State.endRequest_session (s : State) (f : MgmtFrame) (a : Answer) : (s.endRequest f a).session = s.session := by
  simp [State.endRequest]
@[simp] theorem State.endRequest_tagMap (s : State) (f : MgmtFrame) (a : Answer) : (s.endRequest f a).tagMap = s.tagMap := by
  simp [State.endRequest]
@[simp] theorem State.endRequest_free (s : State) (f : MgmtFrame) (a : Answer) : (s.endRequest f a).free = s.free := by
  simp [State.endRequest]
@[simp] theorem State.endRequest_cadence (s : State) (f : MgmtFrame) (a : Answer) : (s.endRequest f a).cadence = s.cadence := by
  simp [State.endRequest]
@[simp] theorem State.endRequest_port (s : State) (f : MgmtFrame) (a : Answer) : (s.endRequest f a).port = s.port := by
  simp [State.endRequest]
@[simp] theorem State.endRequest_linkA (s : State) (f : MgmtFrame) (a : Answer) : (s.endRequest f a).linkA = s.linkA := by
  simp [State.endRequest]
@[simp] theorem State.endRequest_linkB (s : State) (f : MgmtFrame) (a : Answer) : (s.endRequest f a).linkB = s.linkB := by
  simp [State.endRequest]
@[simp] theorem State.endRequest_deliveries (s : State) (f : MgmtFrame) (a : Answer) : (s.endRequest f a).deliveries = s.deliveries := by
  simp [State.endRequest]
@[simp] theorem State.endRequest_reports (s : State) (f : MgmtFrame) (a : Answer) : (s.endRequest f a).reports = s.reports := by
  simp [State.endRequest]
@[simp] theorem State.endRequest_ticks (s : State) (f : MgmtFrame) (a : Answer) : (s.endRequest f a).ticks = s.ticks := by
  simp [State.endRequest]
@[simp] theorem State.endRequest_offers (s : State) (f : MgmtFrame) (a : Answer) : (s.endRequest f a).offers = s.offers := by
  simp [State.endRequest]
@[simp] theorem State.endRequest_goodReports (s : State) (f : MgmtFrame) (a : Answer) : (s.endRequest f a).goodReports = s.goodReports := by
  simp [State.endRequest]
@[simp] theorem State.endRequest_stream (s : State) (f : MgmtFrame) (a : Answer) (j : StreamIdx) : (s.endRequest f a).stream j = s.stream j := by
  simp only [State.stream, State.endRequest_streams]
@[simp] theorem State.endRequest_inForce (s : State) (f : MgmtFrame) (a : Answer) (j : StreamIdx) : (s.endRequest f a).inForce j = s.inForce j := by
  simp only [State.inForce, State.endRequest_stream, State.endRequest_active]

/-! ### goodRequest -/

@[simp] theorem State.goodRequest_pending (s : State) (f : MgmtFrame) : (s.goodRequest f).pending = s.pending := by
  unfold State.goodRequest; dsimp only; split <;> simp
@[simp] theorem State.goodRequest_streams (s : State) (f : MgmtFrame) : (s.goodRequest f).streams = s.streams := by
  unfold State.goodRequest; dsimp only; split <;> simp
@[simp] theorem State.goodRequest_active (s : State) (f : MgmtFrame) : (s.goodRequest f).active = s.active := by
  unfold State.goodRequest; dsimp only; split <;> simp
@[simp] theorem State.goodRequest_generation (s : State) (f : MgmtFrame) : (s.goodRequest f).generation = s.generation := by
  unfold State.goodRequest; dsimp only; split <;> simp
@[simp] theorem State.goodRequest_key (s : State) (f : MgmtFrame) : (s.goodRequest f).key = s.key := by
  unfold State.goodRequest; dsimp only; split <;> simp
@[simp] theorem State.goodRequest_session (s : State) (f : MgmtFrame) : (s.goodRequest f).session = s.session := by
  unfold State.goodRequest; dsimp only; split <;> simp
@[simp] theorem State.goodRequest_tagMap (s : State) (f : MgmtFrame) : (s.goodRequest f).tagMap = s.tagMap := by
  unfold State.goodRequest; dsimp only; split <;> simp
@[simp] theorem State.goodRequest_free (s : State) (f : MgmtFrame) : (s.goodRequest f).free = s.free := by
  unfold State.goodRequest; dsimp only; split <;> simp
@[simp] theorem State.goodRequest_cadence (s : State) (f : MgmtFrame) : (s.goodRequest f).cadence = s.cadence := by
  unfold State.goodRequest; dsimp only; split <;> simp
@[simp] theorem State.goodRequest_port (s : State) (f : MgmtFrame) : (s.goodRequest f).port = s.port := by
  unfold State.goodRequest; dsimp only; split <;> simp
@[simp] theorem State.goodRequest_linkA (s : State) (f : MgmtFrame) : (s.goodRequest f).linkA = s.linkA := by
  unfold State.goodRequest; dsimp only; split <;> simp
@[simp] theorem State.goodRequest_linkB (s : State) (f : MgmtFrame) : (s.goodRequest f).linkB = s.linkB := by
  unfold State.goodRequest; dsimp only; split <;> simp
@[simp] theorem State.goodRequest_notices (s : State) (f : MgmtFrame) : (s.goodRequest f).notices = s.notices := by
  unfold State.goodRequest; dsimp only; split <;> simp
@[simp] theorem State.goodRequest_deliveries (s : State) (f : MgmtFrame) : (s.goodRequest f).deliveries = s.deliveries := by
  unfold State.goodRequest; dsimp only; split <;> simp
@[simp] theorem State.goodRequest_reports (s : State) (f : MgmtFrame) : (s.goodRequest f).reports = s.reports := by
  unfold State.goodRequest; dsimp only; split <;> simp
@[simp] theorem State.goodRequest_ticks (s : State) (f : MgmtFrame) : (s.goodRequest f).ticks = s.ticks := by
  unfold State.goodRequest; dsimp only; split <;> simp
@[simp] theorem State.goodRequest_offers (s : State) (f : MgmtFrame) : (s.goodRequest f).offers = s.offers := by
  unfold State.goodRequest; dsimp only; split <;> simp
@[simp] theorem State.goodRequest_stream (s : State) (f : MgmtFrame) (j : StreamIdx) : (s.goodRequest f).stream j = s.stream j := by
  simp only [State.stream, State.goodRequest_streams]
@[simp] theorem State.goodRequest_inForce (s : State) (f : MgmtFrame) (j : StreamIdx) : (s.goodRequest f).inForce j = s.inForce j := by
  simp only [State.inForce, State.goodRequest_stream, State.goodRequest_active]

/-! ### examine -/

/-- The bytes examined change the receiver, the request buffer, the counters and the good-frame reports only. -/
theorem State.examine_frame {α : Type} (g : State → α) (h1 : ∀ (t : State) (m : Mgmt), g { t with mgmt := m } = g t)
    (h2 : ∀ (t : State) (f : MgmtFrame), g (t.goodRequest f) = g t) (n : Nat) (l : List Byte) (s : State) :
    g (State.examine n l s) = g s := by
  induction n generalizing l s with
  | zero => cases l <;> rfl
  | succ n ih =>
    cases l with
    | nil => rfl
    | cons b rest =>
      unfold State.examine
      split
      · split
        · exact h1 _ _
        · split
          · exact ih _ _
          · split
            · exact h1 _ _
            · split
              · rw [ih, h2]
              · rw [ih]; exact h1 _ _
      · exact ih _ _

@[simp] theorem State.examine_pending (n : Nat) (l : List Byte) (s : State) : (State.examine n l s).pending = s.pending :=
  State.examine_frame State.pending (fun _ _ => rfl) (by simp) n l s
@[simp] theorem State.examine_streams (n : Nat) (l : List Byte) (s : State) : (State.examine n l s).streams = s.streams :=
  State.examine_frame State.streams (fun _ _ => rfl) (by simp) n l s
@[simp] theorem State.examine_active (n : Nat) (l : List Byte) (s : State) : (State.examine n l s).active = s.active :=
  State.examine_frame State.active (fun _ _ => rfl) (by simp) n l s
@[simp] theorem State.examine_generation (n : Nat) (l : List Byte) (s : State) : (State.examine n l s).generation = s.generation :=
  State.examine_frame State.generation (fun _ _ => rfl) (by simp) n l s
@[simp] theorem State.examine_key (n : Nat) (l : List Byte) (s : State) : (State.examine n l s).key = s.key :=
  State.examine_frame State.key (fun _ _ => rfl) (by simp) n l s
@[simp] theorem State.examine_session (n : Nat) (l : List Byte) (s : State) : (State.examine n l s).session = s.session :=
  State.examine_frame State.session (fun _ _ => rfl) (by simp) n l s
@[simp] theorem State.examine_tagMap (n : Nat) (l : List Byte) (s : State) : (State.examine n l s).tagMap = s.tagMap :=
  State.examine_frame State.tagMap (fun _ _ => rfl) (by simp) n l s
@[simp] theorem State.examine_free (n : Nat) (l : List Byte) (s : State) : (State.examine n l s).free = s.free :=
  State.examine_frame State.free (fun _ _ => rfl) (by simp) n l s
@[simp] theorem State.examine_cadence (n : Nat) (l : List Byte) (s : State) : (State.examine n l s).cadence = s.cadence :=
  State.examine_frame State.cadence (fun _ _ => rfl) (by simp) n l s
@[simp] theorem State.examine_port (n : Nat) (l : List Byte) (s : State) : (State.examine n l s).port = s.port :=
  State.examine_frame State.port (fun _ _ => rfl) (by simp) n l s
@[simp] theorem State.examine_linkA (n : Nat) (l : List Byte) (s : State) : (State.examine n l s).linkA = s.linkA :=
  State.examine_frame State.linkA (fun _ _ => rfl) (by simp) n l s
@[simp] theorem State.examine_linkB (n : Nat) (l : List Byte) (s : State) : (State.examine n l s).linkB = s.linkB :=
  State.examine_frame State.linkB (fun _ _ => rfl) (by simp) n l s
@[simp] theorem State.examine_notices (n : Nat) (l : List Byte) (s : State) : (State.examine n l s).notices = s.notices :=
  State.examine_frame State.notices (fun _ _ => rfl) (by simp) n l s
@[simp] theorem State.examine_deliveries (n : Nat) (l : List Byte) (s : State) : (State.examine n l s).deliveries = s.deliveries :=
  State.examine_frame State.deliveries (fun _ _ => rfl) (by simp) n l s
@[simp] theorem State.examine_reports (n : Nat) (l : List Byte) (s : State) : (State.examine n l s).reports = s.reports :=
  State.examine_frame State.reports (fun _ _ => rfl) (by simp) n l s
@[simp] theorem State.examine_ticks (n : Nat) (l : List Byte) (s : State) : (State.examine n l s).ticks = s.ticks :=
  State.examine_frame State.ticks (fun _ _ => rfl) (by simp) n l s
@[simp] theorem State.examine_offers (n : Nat) (l : List Byte) (s : State) : (State.examine n l s).offers = s.offers :=
  State.examine_frame State.offers (fun _ _ => rfl) (by simp) n l s

end Sys2Proof.Machine
end

