-- ==== Sys2Proof/Laws/Clock.lean ====
section
/-! SUPPORT. The reference clock: whatever the expiries and the moving of the timers keep, the passing of time keeps; and how time passes: over µs at whose end no timer has passed its own end nothing expires, and time cut in two is the same time. -/

namespace Sys2Proof.Machine

/-- Every expiry, where it is due, keeps P, and so does settling all that is due. -/
structure State.DuesKeep (P : State → Prop) : Prop where
  silence   : ∀ (s : State) (x : Path), P s → P (s.silenceDue x)
  loss      : ∀ s : State, P s → P s.lossDue
  generator : ∀ s : State, P s → P s.generatorDue
  gap       : ∀ s : State, P s → P s.gapDue
  edit      : ∀ s : State, P s → P s.editDue
  retry     : ∀ s : State, P s → P s.retryDue
  settle    : ∀ s : State, P s → P s.settleDue

/-- What each expiry keeps, it keeps where it is due, and the settling of what is due keeps. -/
theorem State.duesKeep {P : State → Prop} (hs : ∀ s x, P s → P (s.linkSilent x)) (hl : ∀ s, P s → P s.loseCadence)
    (hg : ∀ s, P s → P s.generate) (hb : ∀ s, P s → P s.abandonFrame) (he : ∀ s, P s → P s.editExpired)
    (hr : ∀ s, P s → P s.retryExpired) : State.DuesKeep P := by
  have h1 : ∀ s x, P s → P (s.silenceDue x) := fun s x h => by unfold State.silenceDue; split <;> [exact hs s x h; exact h]
  have h2 : ∀ s, P s → P s.lossDue := fun s h => by unfold State.lossDue; split <;> [exact hl s h; exact h]
  have h3 : ∀ s, P s → P s.generatorDue := fun s h => by unfold State.generatorDue; split <;> [exact hg s h; exact h]
  have h4 : ∀ s, P s → P s.gapDue := fun s h => by unfold State.gapDue; split <;> [exact hb s h; exact h]
  have h5 : ∀ s, P s → P s.editDue := fun s h => by unfold State.editDue; split <;> [exact he s h; exact h]
  have h6 : ∀ s, P s → P s.retryDue := fun s h => by unfold State.retryDue; split <;> [exact hr s h; exact h]
  exact ⟨h1, h2, h3, h4, h5, h6, fun s h => h6 _ (h5 _ (h4 _ (h3 _ (h2 _ (h1 _ _ (h1 _ _ h))))))⟩

/-- What settling and the moving of the timers keep, the passing of time keeps. -/
theorem State.pass_keeps {P : State → Prop} (hd : ∀ s, P s → P s.settleDue) (he : ∀ s us, P s → P (s.elapse us)) (us : Nat)
    {s : State} (h : P s) : P (s.pass us) := by
  have key : ∀ (n us : Nat) (s : State), P s → P (State.passRounds n us s) := by
    intro n
    induction n with
    | zero => exact fun _ _ h => h
    | succ n ih =>
      intro us s h
      unfold State.passRounds
      split
      · exact h
      · exact ih _ _ (he _ _ (hd _ h))
  exact key us us s h

/-- A command that a time brings keeps what the passing of time and its expiry keep. -/
theorem State.atEnd_keeps {P : State → Prop} (hp : ∀ s us, P s → P (s.pass us)) {f : State → State} (hf : ∀ s, P s → P (f s))
    (left : Option Nat) {s : State} (h : P s) : P (s.atEnd left f) := by
  unfold State.atEnd
  split
  · exact h
  · exact hf _ (hp _ _ h)

/-! ## Moving the timers -/

theorem countUp_countUp (limit a b : Nat) (t : Option Nat) : countUp limit b (countUp limit a t) = countUp limit (a + b) t := by
  cases t <;> simp [countUp]; omega

theorem countDown_countDown (a b : Nat) (t : Option Nat) : countDown b (countDown a t) = countDown (a + b) t := by
  cases t <;> simp [countDown]; omega

theorem leftTo_countUp (limit us : Nat) (t : Option Nat) : leftTo limit (countUp limit us t) = countDown us (leftTo limit t) := by
  cases t <;> simp [leftTo, countUp, countDown]; omega

/-- Two moves of the timers are one. -/
theorem State.elapse_elapse (s : State) (a b : Nat) : (s.elapse a).elapse b = s.elapse (a + b) := by
  have h : Option.map (fun e : Session => { e with timer := e.timer - b }) (s.session.map fun e => { e with timer := e.timer - a }) =
      s.session.map fun e => { e with timer := e.timer - (a + b) } := by
    cases s.session <;> simp; omega
  simp only [State.elapse, LinkRx.elapse, Cadence.elapse, countUp_countUp, countDown_countDown, h]

/-- What each timer has left falls by the time that passes. -/
theorem State.timersLeft_elapse (s : State) (us : Nat) : (s.elapse us).timersLeft = s.timersLeft.map (countDown us) := by
  have h : Option.map Session.timer (s.session.map fun e => { e with timer := e.timer - us }) =
      countDown us (s.session.map Session.timer) := by cases s.session <;> simp [countDown]
  simp only [State.timersLeft, State.elapse, LinkRx.elapse, Cadence.elapse, leftTo_countUp, h, List.map]

/-! ## Until the first end -/

theorem foldl_min_le (us : Nat) (l : List (Option Nat)) (a k : Nat) (hk : k ≤ us) :
    k ≤ l.foldl (fun m t => min m (t.getD us)) a ↔ k ≤ a ∧ ∀ n, some n ∈ l → k ≤ n := by
  induction l generalizing a with
  | nil => simp
  | cons t l ih =>
    rw [List.foldl_cons, ih]
    cases t with
    | none =>
      simp only [Option.getD_none, List.mem_cons, reduceCtorEq, false_or]
      exact and_congr_left fun _ => by omega
    | some m =>
      simp only [Option.getD_some, List.mem_cons, Option.some.injEq]
      refine ⟨fun ⟨h1, h2⟩ => ⟨by omega, ?_⟩, fun ⟨h1, h2⟩ => ⟨?_, fun n hn => h2 n (Or.inr hn)⟩⟩
      · rintro n (rfl | hn)
        · omega
        · exact h2 n hn
      · have := h2 m (Or.inl rfl)
        omega

/-- k µs lie before the first end, within us, exactly if they lie within us and within what each running timer has left. -/
theorem State.le_untilDue (s : State) (us k : Nat) : k ≤ s.untilDue us ↔ k ≤ us ∧ ∀ n, some n ∈ s.timersLeft → k ≤ n := by
  by_cases h : k ≤ us
  · rw [show s.untilDue us = s.timersLeft.foldl (fun m t => min m (t.getD us)) us from rfl, foldl_min_le us _ _ _ h]
  · constructor
    · intro hk
      have : ∀ (l : List (Option Nat)) (a : Nat), l.foldl (fun m t => min m (t.getD us)) a ≤ a := by
        intro l
        induction l with
        | nil => intro a; exact Nat.le_refl a
        | cons t l ih => intro a; exact (ih _).trans (Nat.min_le_left _ _)
      exact absurd (hk.trans (this _ _)) h
    · rintro ⟨h1, _⟩; exact absurd h1 h

/-- No timer stands at its end. -/
abbrev State.NoneDue (s : State) : Prop := ∀ n, some n ∈ s.timersLeft → 1 ≤ n

theorem not_reached {limit : Nat} {t : Option Nat} (h : ∀ n, leftTo limit t = some n → 1 ≤ n) : reached limit t = false := by
  cases t with
  | none => rfl
  | some n => have h : 1 ≤ limit - n := h _ rfl; simp [reached]; omega

theorem not_ended {t : Option Nat} (h : ∀ n, t = some n → 1 ≤ n) : ended t = false := by
  cases t with
  | none => rfl
  | some n => have := h _ rfl; simp [ended]; omega

/-- With no timer at its end nothing expires. -/
theorem State.settleDue_of_noneDue {s : State} (h : s.NoneDue) : s.settleDue = s := by
  have ha : s.silenceDue .a = s := by
    unfold State.silenceDue; rw [not_reached fun n hn => h n (by simp [State.timersLeft, State.link] at *; simp [hn])]; rfl
  have hb : s.silenceDue .b = s := by
    unfold State.silenceDue; rw [not_reached fun n hn => h n (by simp [State.timersLeft, State.link] at *; simp [hn])]; rfl
  have hl : s.lossDue = s := by
    unfold State.lossDue; rw [not_reached fun n hn => h n (by simp [State.timersLeft] at *; simp [hn])]; rfl
  have hg : s.generatorDue = s := by
    unfold State.generatorDue; rw [not_ended fun n hn => h n (by simp [State.timersLeft]; simp [hn])]; rfl
  have hgap : s.gapDue = s := by
    unfold State.gapDue; rw [not_reached fun n hn => h n (by simp [State.timersLeft]; simp [hn])]; rfl
  have he : s.editDue = s := by
    unfold State.editDue
    rw [not_ended fun n hn => h n (by unfold State.timersLeft; rw [hn]; simp)]; rfl
  have hr : s.retryDue = s := by
    unfold State.retryDue; rw [not_ended fun n hn => h n (by simp [State.timersLeft]; simp [hn])]; rfl
  unfold State.settleDue
  rw [ha, hb, hl, hg, hgap, he, hr]

/-! ## How time passes -/

theorem State.passRounds_zero (n : Nat) (s : State) : State.passRounds n 0 s = s := by cases n <;> simp [State.passRounds]

/-- Rounds beyond the µs that are left change nothing. -/
theorem State.passRounds_eq (n us : Nat) (s : State) (h : us ≤ n) : State.passRounds n us s = s.pass us := by
  induction n using Nat.strongRecOn generalizing us s with
  | _ n ih =>
    unfold State.pass
    cases us with
    | zero => rw [State.passRounds_zero, State.passRounds_zero]
    | succ us =>
      cases n with
      | zero => omega
      | succ n =>
        simp only [State.passRounds, Nat.succ_ne_zero, if_false]
        by_cases hn : n = us
        · rw [hn]
        · rw [ih n (by omega) _ _ (by omega), ih us (by omega) _ _ (by omega)]

/-- One round of the passing of time. -/
theorem State.pass_round (s : State) {us : Nat} (h : 1 ≤ us) :
    s.pass us = (s.settleDue.elapse (max 1 (s.settleDue.untilDue us))).pass (us - max 1 (s.settleDue.untilDue us)) := by
  obtain ⟨n, rfl⟩ : ∃ n, us = n + 1 := ⟨us - 1, by omega⟩
  conv_lhs => unfold State.pass
  simp only [State.passRounds, Nat.succ_ne_zero, if_false]
  exact State.passRounds_eq _ _ _ (by omega)

@[simp] theorem State.pass_zero (s : State) : s.pass 0 = s := State.passRounds_zero 0 s

/-- Over µs at whose end no timer has passed its own end, every timer moves and nothing expires. -/
theorem State.pass_eq_elapse {s : State} {us : Nat} (h1 : 1 ≤ us) (h : ∀ n, some n ∈ s.timersLeft → us ≤ n) :
    s.pass us = s.elapse us := by
  have hd : s.untilDue us = us :=
    Nat.le_antisymm ((s.le_untilDue us _).1 (Nat.le_refl _)).1 ((s.le_untilDue us us).2 ⟨Nat.le_refl _, h⟩)
  rw [State.pass_round s h1, State.settleDue_of_noneDue fun n hn => h1.trans (h n hn), hd, Nat.max_eq_right h1, Nat.sub_self,
    State.pass_zero]

/-- However the µs are cut, the same state follows. -/
theorem State.pass_add (s : State) (m n : Nat) : s.pass (m + n) = (s.pass m).pass n := by
  induction m using Nat.strongRecOn generalizing s with
  | _ m ih =>
    by_cases hm : m = 0
    · subst hm; rw [State.pass_zero, Nat.zero_add]
    by_cases hn : n = 0
    · subst hn; rw [State.pass_zero, Nat.add_zero]
    rw [State.pass_round s (us := m + n) (by omega), State.pass_round s (us := m) (by omega)]
    generalize s.settleDue = u
    by_cases hL : m ≤ u.untilDue (m + n)
    · have hm' : u.untilDue m = m := Nat.le_antisymm ((u.le_untilDue m _).1 (Nat.le_refl _)).1
        ((u.le_untilDue m m).2 ⟨Nat.le_refl _, ((u.le_untilDue _ _).1 hL).2⟩)
      rw [hm', Nat.max_eq_right (by omega), Nat.max_eq_right (by omega), Nat.sub_self, State.pass_zero]
      generalize hd : u.untilDue (m + n) = d at *
      have hdl : ∀ k, some k ∈ u.timersLeft → d ≤ k := ((u.le_untilDue (m + n) d).1 (by omega)).2
      have hdm : d ≤ m + n := ((u.le_untilDue (m + n) d).1 (by omega)).1
      by_cases hdm' : d = m
      · subst hdm'; rw [Nat.add_sub_cancel_left]
      have hl : ∀ k, some k ∈ (u.elapse m).timersLeft → d - m ≤ k := by
        intro k hk
        rw [State.timersLeft_elapse] at hk
        obtain ⟨t, ht, he⟩ := List.mem_map.1 hk
        cases t with
        | none => simp [countDown] at he
        | some j => simp [countDown] at he; have := hdl j ht; omega
      have hstop : (u.elapse m).untilDue n = d - m := by
        refine Nat.le_antisymm ?_ ((State.le_untilDue _ _ _).2 ⟨by omega, hl⟩)
        have h1 := (State.le_untilDue (u.elapse m) n _).1 (Nat.le_refl _)
        have : m + (u.elapse m).untilDue n ≤ u.untilDue (m + n) := by
          refine (u.le_untilDue _ _).2 ⟨by have := h1.1; omega, fun j hj => ?_⟩
          have hj' := h1.2 (j - m) (by
            rw [State.timersLeft_elapse]; exact List.mem_map.2 ⟨some j, hj, rfl⟩)
          have := hdl j hj
          omega
        omega
      rw [State.pass_round (u.elapse m) (by omega),
        State.settleDue_of_noneDue fun k hk => (by have := hl k hk; omega), hstop, Nat.max_eq_right (by omega),
        State.elapse_elapse]
      rw [show m + (d - m) = d by omega, show n - (d - m) = m + n - d by omega]
    · have hL' : u.untilDue m = u.untilDue (m + n) := by
        refine Nat.le_antisymm ?_ ?_
        · have h1 := (u.le_untilDue m _).1 (Nat.le_refl _)
          exact (u.le_untilDue _ _).2 ⟨by have := h1.1; omega, h1.2⟩
        · have h1 := (u.le_untilDue (m + n) _).1 (Nat.le_refl _)
          exact (u.le_untilDue _ _).2 ⟨by omega, h1.2⟩
      rw [hL']
      generalize u.untilDue (m + n) = d at *
      rw [show m + n - max 1 d = (m - max 1 d) + n by omega]
      exact ih _ (by omega) _

end Sys2Proof.Machine
end

