-- ==== Sys2Proof/Laws/Shape.lean ====
section
/-! SUPPORT. The shape of a context read state by state, and what an event at a context keeps. -/

namespace Sys2Proof.Machine

/-! ## The shape, state by state -/

@[simp] theorem historyNone_length : historyNone.length = Config.historyDepth := by simp [historyNone]

theorem shape_off {cfg : StreamRecord} {s : Stream} (hs : s.state = .off) : s.ShapeOk cfg ↔ s = s.toOff := by
  constructor
  · intro h; exact h.1 hs
  · intro h
    rw [h]
    simp [Stream.ShapeOk, Stream.toOff, Stream.reset, StreamState.based, StreamState.depth]

theorem shape_acquire {cfg : StreamRecord} {s : Stream} (hs : s.state = .acquire) : s.ShapeOk cfg ↔
    s.drain = none ∧ s.base = none ∧ s.window = [] ∧ s.queue = [] ∧ s.jump = none ∧ s.guard = none ∧ s.timer = none ∧
    s.history = historyNone ∧ ∃ p, s.phase = some p ∧ p < cfg.divisor := by
  simp only [Stream.ShapeOk, hs, StreamState.based, StreamState.playing, StreamState.depth]
  cases hd : s.drain <;> cases hb : s.base <;> cases hj : s.jump <;> cases hg : s.guard <;> cases ht : s.timer <;>
    cases hp : s.phase <;> simp [and_assoc] <;> grind [historyNone_length]

theorem shape_stalled {cfg : StreamRecord} {s : Stream} (hs : s.state = .stalled) : s.ShapeOk cfg ↔
    s.drain = none ∧ (∃ e, s.base = some e) ∧ s.window = [] ∧ s.queue = [] ∧ s.acq = none ∧ s.jump = none ∧ s.guard = none ∧
    s.timer = none ∧ s.history.length = Config.historyDepth ∧ ∃ p, s.phase = some p ∧ p < cfg.divisor := by
  simp only [Stream.ShapeOk, hs, StreamState.based, StreamState.playing, StreamState.depth]
  cases hd : s.drain <;> cases hb : s.base <;> cases hj : s.jump <;> cases hg : s.guard <;> cases ht : s.timer <;>
    cases hp : s.phase <;> cases ha : s.acq <;> simp <;> grind

theorem shape_draining {cfg : StreamRecord} {s : Stream} (hs : s.state = .draining) : s.ShapeOk cfg ↔
    (∃ d, s.drain = some d) ∧ (∃ e, s.base = some e) ∧ s.window = [] ∧ s.queue.length ≤ cfg.trim + cfg.window - 1 ∧
    s.acq = none ∧ s.jump = none ∧ s.guard = none ∧
    s.timer = none ∧ s.history.length = Config.historyDepth ∧ ∃ p, s.phase = some p ∧ p < cfg.divisor := by
  simp only [Stream.ShapeOk, hs, StreamState.based, StreamState.playing, StreamState.depth]
  cases hd : s.drain <;> cases hb : s.base <;> cases hj : s.jump <;> cases hg : s.guard <;> cases ht : s.timer <;>
    cases hp : s.phase <;> cases ha : s.acq <;> simp <;> grind

theorem shape_playing {cfg : StreamRecord} {s : Stream} (hs : s.state.playing = true) : s.ShapeOk cfg ↔
    s.drain = none ∧ s.acq = none ∧
    (∃ e, s.base = some e ∧ WindowOk cfg.window e s.window) ∧ s.queue.length ≤ cfg.trim ∧
    (∀ g ∈ s.guard, 1 ≤ g.remaining ∧ g.remaining ≤ Config.guardLife) ∧
    (∀ n ∈ s.timer, 1 ≤ n ∧ n ≤ 255 ∧ s.window ≠ []) ∧
    s.history.length = Config.historyDepth ∧ ∃ p, s.phase = some p ∧ p < cfg.divisor := by
  have h1 : s.state.based = true := by cases h : s.state <;> simp_all [StreamState.playing, StreamState.based]
  have h2 : s.state.depth cfg = cfg.trim := by cases h : s.state <;> simp_all [StreamState.playing, StreamState.depth]
  have h3 : s.state ≠ .off := by intro h; simp [h, StreamState.playing] at hs
  have h4 : s.state ≠ .acquire := by intro h; simp [h, StreamState.playing] at hs
  have h5 : s.state ≠ .draining := by intro h; simp [h, StreamState.playing] at hs
  simp only [Stream.ShapeOk, hs, h1, h2, h3, h4, h5]
  cases hd : s.drain <;> cases hb : s.base <;> cases hp : s.phase <;> cases ha : s.acq <;> simp <;> grind

/-! ## Contexts -/

/-- A context in shape, under a record within its ranges, with the store's room for its bound. -/
structure Ctx.Good (c : Ctx) : Prop where
  shape : c.s.ShapeOk c.cfg
  wf : c.cfg.wf = true
  room : c.cfg.window + c.cfg.trim ≤ c.total

/-- What an event at a context keeps: its shape, the slot balance, its ENABLE class and, while it drains, its drain record. -/
structure Ctx.Kept (c c' : Ctx) : Prop where
  idx : c'.idx = c.idx
  cfg : c'.cfg = c.cfg
  shape : c'.s.ShapeOk c.cfg
  total : c'.total = c.total
  live : c'.s.state.live = c.s.state.live
  drain : c'.s.state = .draining → c.s.state = .draining ∧ c'.s.drain = c.s.drain
  off : c'.s.state = .off → c.s.state = .off ∨ c.s.state = .draining

theorem Ctx.Kept.refl {c : Ctx} (h : c.s.ShapeOk c.cfg) : c.Kept c :=
  ⟨rfl, rfl, h, rfl, rfl, fun h => ⟨h, rfl⟩, fun h => Or.inl h⟩

theorem Ctx.Kept.good {c c' : Ctx} (h : c.Good) (k : c.Kept c') : c'.Good :=
  ⟨by rw [k.cfg]; exact k.shape, by rw [k.cfg]; exact h.wf, by rw [k.cfg, k.total]; exact h.room⟩

theorem Ctx.Kept.trans {a b c : Ctx} (h : a.Kept b) (k : b.Kept c) : a.Kept c := by
  refine ⟨k.idx.trans h.idx, k.cfg.trans h.cfg, by rw [← h.cfg]; exact k.shape, k.total.trans h.total, k.live.trans h.live, ?_, ?_⟩
  · intro hc
    have h1 := k.drain hc
    have h2 := h.drain h1.1
    exact ⟨h2.1, h1.2.trans h2.2⟩
  · intro hc
    rcases k.off hc with h1 | h1
    · exact h.off h1
    · exact Or.inr (h.drain h1).1

theorem Ctx.Good.playOk {c : Ctx} (h : c.Good) (hs : c.s.state.playing = true) : c.PlayOk := by
  obtain ⟨_, h2, ⟨e, h3, h4⟩, h5, h6, h7, h8, _⟩ := (shape_playing hs).mp h.shape
  exact ⟨⟨e, h3, h4.1, h4.2, h5, h8⟩, h2, h7, h6, h.wf, h.room⟩

theorem Ctx.PlayOk.shape {c : Ctx} (h : c.PlayOk) (hs : c.s.state.playing = true) (hd : c.s.drain = none)
    (hp : ∃ p, c.s.phase = some p ∧ p < c.cfg.divisor) : c.s.ShapeOk c.cfg := by
  obtain ⟨e, h1, h2, h3, h4, h5⟩ := h.play
  exact (shape_playing hs).mpr ⟨hd, h.acq, ⟨e, h1, h2, h3⟩, h4, h.guard, h.timer, h5, hp⟩

/-- An event in PRIMING or RUNNING that keeps the play shape and the state. -/
theorem Ctx.Fine.kept {c c' : Ctx} (h : c.Good) (hs : c.s.state.playing = true) (k : c.Fine c') : c.Kept c' := by
  obtain ⟨h1, _, _, _, _, _, _, h8⟩ := (shape_playing hs).mp h.shape
  have hp := k.1.shape (by rw [k.2.state]; exact hs) (by rw [k.2.drain]; exact h1) (by rw [k.2.phase, k.2.cfg]; exact h8)
  refine ⟨k.2.idx, k.2.cfg, by rw [← k.2.cfg]; exact hp, k.2.total, by rw [k.2.state], ?_, ?_⟩
  · intro hd; rw [k.2.state] at hd; exact ⟨hd, k.2.drain⟩
  · intro hd; rw [k.2.state] at hd; exact Or.inl hd

/-- Counting and notices change nothing that the shape speaks of. -/
theorem Ctx.kept_of_parts {c c' : Ctx} (h : c.s.ShapeOk c.cfg) (hi : c'.idx = c.idx) (hc : c'.cfg = c.cfg)
    (hf : c'.free = c.free) (hs : ∃ k, c'.s = { c.s with counters := k }) : c.Kept c' := by
  obtain ⟨k, hk⟩ := hs
  have hsh : c'.s.ShapeOk c.cfg := by
    rw [hk]
    obtain ⟨h1, h2⟩ := h
    refine ⟨fun h0 => ?_, h2⟩
    have := h1 h0
    simp only [Stream.toOff] at *
    rw [this]
  refine ⟨hi, hc, hsh, ?_, by rw [hk], fun hd => ?_, fun hd => ?_⟩
  · simp [total, Stream.held, hk, hf]
  · rw [hk] at hd ⊢; exact ⟨hd, rfl⟩
  · rw [hk] at hd; exact Or.inl hd

theorem Ctx.count_kept {c : Ctx} (h : c.s.ShapeOk c.cfg) (k : Fin 24) : c.Kept (c.count k) :=
  kept_of_parts h (by simp) (by simp) (by simp) ⟨_, by rw [count_eq]⟩

theorem Ctx.note_kept {c : Ctx} (h : c.s.ShapeOk c.cfg) (a : Bool) (n : Notice) : c.Kept (c.note a n) :=
  kept_of_parts h (by simp) (by simp) (by simp) ⟨c.s.counters, by simp⟩

end Sys2Proof.Machine
end

