-- ==== Sys2Proof/Laws/Events.lean ====
section
/-! SUPPORT. Every event at a stream context keeps its shape and the slot balance: arrivals, resynchronisations, departure reports, ticks, playout events, FORCE_RESYNC and the changes of a commit. -/

namespace Sys2Proof.Machine

@[simp] theorem Ctx.noteState_total (c : Ctx) (k : Cause) : (c.noteState k).total = c.total := by simp [total]
@[simp] theorem Ctx.notePath_total (c : Ctx) (x : Path) (b : Bool) : (c.notePath x b).total = c.total := by simp [total]
@[simp] theorem Ctx.noteResync_total (c : Ctx) (o n : Seq) (k : ResyncCause) : (c.noteResync o n k).total = c.total := by
  simp [total]

theorem Ctx.noteResync_fine {c : Ctx} (o n : Seq) (k : ResyncCause) (h : c.PlayOk) : c.Fine (c.noteResync o n k) := by
  obtain ⟨⟨e, hp⟩, h2, h3, h4, h5, h6⟩ := h
  exact ⟨⟨⟨e, by simpa [Play] using hp⟩, by simpa using h2, by simpa using h3, by simpa using h4, by simpa using h5,
    by simpa using h6⟩, by constructor <;> simp⟩

/-! ## Far and behind arrivals -/

theorem Ctx.setJump_fine {c : Ctx} (x : Path) (f : Frame) (h : c.PlayOk) (hj : c.s.jump = none) : c.Fine (c.setJump x f) := by
  obtain ⟨e, hp⟩ := h.play
  have hr := room_of h hp
  have hq := queueSlots_le c.s.queue
  have hq4 := hp.2.2.2.1
  have hwf := (wf_iff _).mp h.wf
  have hroom := h.room
  rw [total_eq, h.acq, hj] at hroom
  simp only [pool, Option.isSome_none, Bool.false_eq_true, if_false] at hr hroom
  have hk : c.Keep (c.setJump x f) := by
    refine ⟨by simp [setJump], by simp [setJump], by simp [setJump], by simp [setJump], by simp [setJump], by simp [setJump], ?_⟩
    simp only [setJump, count_total]
    simp [total, Stream.held, hj, h.acq]
    omega
  refine ⟨⟨⟨e, by simpa [Play, setJump] using hp⟩, by simpa [setJump] using h.acq, by simpa [setJump] using h.timer,
    by simpa [setJump] using h.guard, by rw [hk.cfg]; exact h.wf, by rw [hk.cfg, hk.total]; exact h.room⟩, hk⟩

/-- A flushed and rebased context: empty window, no timer, a new guard, the new base. -/
theorem Ctx.rebase_play {c : Ctx} {e : Seq} (new : Seq) (hp : c.Play 1 e) :
    ((c.flushWindow).rebase e new).Play 0 new := by
  obtain ⟨_, _, _, hq, _⟩ := hp
  exact ⟨rfl, by simp [rebase], by simp [rebase], by simpa [rebase] using hq, by simp [rebase]⟩

theorem Ctx.flushWindow_pool (c : Ctx) : c.flushWindow.pool = c.pool := by simp [pool]

theorem Ctx.confirmJump_fine {c : Ctx} {e : Seq} (x : Path) (j : JumpCandidate) (f : Frame) (h : c.PlayOk) (hp : c.Play 1 e)
    (hj : c.s.jump = some j) : c.Fine (c.confirmJump x e j f) := by
  have hwf := (wf_iff _).mp h.wf
  have hroom := h.room
  rw [total_eq, h.acq, hj] at hroom
  simp only [Option.isSome_none, Bool.false_eq_true, if_false, Option.isSome_some, if_true] at hroom
  obtain ⟨c1, hc1⟩ : ∃ c1 : Ctx, c1 = (c.flushWindow).rebase e j.seq := ⟨_, rfl⟩
  obtain ⟨c0, hc0⟩ : ∃ c0 : Ctx, c0 = { c1 with s := { c1.s with jump := none } } := ⟨_, rfl⟩
  have hdef : c.confirmJump x e j f = ((((((c0.releaseHeld j.seq j.q j.words).releaseNew f.seq f.q f.words).count
      (ctrAccepted x)).chain).count ctrResyncJump).noteResync e j.seq .jump) := by subst hc0 hc1; rfl
  have p0 : c0.Play 0 j.seq := by
    have := rebase_play (c := c) j.seq hp
    subst hc0 hc1; simpa [Play] using this
  have w0 : c0.s.window = [] := by subst hc0 hc1; simp [rebase]
  have t0 : c0.s.timer = none := by subst hc0 hc1; simp [rebase]
  have g0 : ∀ g ∈ c0.s.guard, 1 ≤ g.remaining ∧ g.remaining ≤ Config.guardLife := by
    subst hc0 hc1; simp [rebase, Config.guardLife]
  have pool0 : c0.pool = c.pool := by
    subst hc0 hc1; simp [pool, rebase]
  have k0 : c0.idx = c.idx ∧ c0.cfg = c.cfg ∧ c0.s.state = c.s.state ∧ c0.s.drain = c.s.drain ∧ c0.s.phase = c.s.phase ∧
      c0.s.run = c.s.run ∧ c0.s.acq = none ∧ c0.s.jump = none := by
    subst hc0 hc1; simp [rebase, h.acq]
  have htr : 1 ≤ c0.cfg.trim := by rw [k0.2.1]; omega
  have s1 := releaseHeld_same c0 j.seq j.q j.words
  have p1 : (c0.releaseHeld j.seq j.q j.words).Play 0 (j.seq + 1) := releaseHeld_play htr p0 (by simp [w0])
  have pool1 := releaseHeld_pool c0 j.seq j.q j.words
  have htr1 : 1 ≤ (c0.releaseHeld j.seq j.q j.words).cfg.trim := by rw [s1.2.1]; exact htr
  have s2 := s1.trans (releaseNew_same (c0.releaseHeld j.seq j.q j.words) f.seq f.q f.words)
  have p2 := releaseNew_play (r := f.seq) (q := f.q) (ws := f.words) htr1 p1 (by simp [w0])
  have pool2 := releaseNew_pool (c0.releaseHeld j.seq j.q j.words) f.seq f.q f.words htr1 p1.2.2.2.1 (by
    rw [pool1, pool0, s1.2.1, k0.2.1, releaseHeld_s_window, w0]; simp; omega)
  obtain ⟨c2, hc2⟩ : ∃ c2 : Ctx, c2 = ((c0.releaseHeld j.seq j.q j.words).releaseNew f.seq f.q f.words).count (ctrAccepted x) :=
    ⟨_, rfl⟩
  have kc2 : c.Keep c2 := by
    subst hc2
    refine ⟨?_, ?_, ?_, ?_, ?_, ?_, ?_⟩
    · simp [s2.1, k0]
    · simp [s2.2.1, k0]
    · simp [s2.2.2.2.1, k0]
    · simp [s2.2.2.2.2.1, k0]
    · simp [s2.2.2.2.2.2.2.2.2.2.2.2.2, k0]
    · simp [s2.2.2.2.2.2.2.2.2.2.2.1, k0]
    · rw [count_total, total_eq, total_eq, pool2, pool1, pool0, s2.2.2.2.2.2.1, s2.2.2.2.2.2.2.1, k0.2.2.2.2.2.2.1,
        k0.2.2.2.2.2.2.2, h.acq, hj]
      simp
  have hc := chain_fine (c := c2) (e := j.seq + 1 + 1) (by subst hc2; simpa [Play] using p2)
    (by subst hc2; simp [s2.2.2.2.2.2.1, k0]) (by subst hc2; simp [t0])
    (by subst hc2; simpa [s2.2.2.2.2.2.2.2.1] using g0) (by rw [kc2.cfg]; exact h.wf) (by rw [kc2.cfg, kc2.total]; exact h.room)
  rw [hdef, ← hc2]
  have hcount := count_fine ctrResyncJump hc.1
  have hnote := noteResync_fine e j.seq .jump hcount.1
  exact ⟨hnote.1, kc2.trans (hc.2.trans (hcount.2.trans hnote.2))⟩

theorem Ctx.farArrival_fine {c : Ctx} {e : Seq} (x : Path) (f : Frame) (h : c.PlayOk) (hp : c.Play 1 e) :
    c.Fine (c.farArrival x e f) := by
  unfold farArrival
  split
  · next hj => exact setJump_fine x f h hj
  · next j hj =>
    split
    · exact confirmJump_fine x j f h hp hj
    · split
      · exact count_fine _ h
      · exact (strayJump_fine h).trans (setJump_fine x f (strayJump_fine h).1 (by simp))

theorem Ctx.restartResync_fine {c : Ctx} {e : Seq} (x : Path) (f : Frame) (h : c.PlayOk) (hp : c.Play 1 e) :
    c.Fine (c.restartResync x e f) := by
  have hwf := (wf_iff _).mp h.wf
  obtain ⟨c0, hc0⟩ : ∃ c0 : Ctx, c0 = ((c.flushWindow).strayJump).rebase e f.seq := ⟨_, rfl⟩
  have hdef : c.restartResync x e f = ((((c0.releaseNew f.seq f.q f.words).count (ctrAccepted x)).count ctrResyncFlag).noteResync
      e f.seq .restartFlag) := by subst hc0; rfl
  have p0 : c0.Play 0 f.seq := by
    obtain ⟨_, _, _, hq, _⟩ := hp
    subst hc0
    exact ⟨rfl, by simp [rebase], by simp [rebase], by simpa [rebase] using hq, by simp [rebase]⟩
  have w0 : c0.s.window = [] := by subst hc0; simp [rebase]
  have t0 : c0.s.timer = none := by subst hc0; simp [rebase]
  have g0 : ∀ g ∈ c0.s.guard, 1 ≤ g.remaining ∧ g.remaining ≤ Config.guardLife := by
    subst hc0; simp [rebase, Config.guardLife]
  have k0 : c0.idx = c.idx ∧ c0.cfg = c.cfg ∧ c0.s.state = c.s.state ∧ c0.s.drain = c.s.drain ∧ c0.s.phase = c.s.phase ∧
      c0.s.run = c.s.run ∧ c0.s.acq = none ∧ c0.s.jump = none := by
    subst hc0; simp [rebase, h.acq]
  have tot0 : c0.total = c.total := by
    have h1 := strayJump_total c.flushWindow
    have h2 : c.flushWindow.total = c.total := by simp [total, Stream.held]; omega
    have h3 : c0.total = c.flushWindow.strayJump.total := by subst hc0; simp [rebase, total, Stream.held]
    rw [h3, h1, h2]
  have hroom := h.room
  rw [← tot0, total_eq, k0.2.2.2.2.2.2.1, k0.2.2.2.2.2.2.2] at hroom
  simp only [Option.isSome_none, Bool.false_eq_true, if_false] at hroom
  have htr : 1 ≤ c0.cfg.trim := by rw [k0.2.1]; omega
  have s1 := releaseNew_same c0 f.seq f.q f.words
  have p1 := releaseNew_play (r := f.seq) (q := f.q) (ws := f.words) htr p0 (by simp [w0])
  have pool1 := releaseNew_pool c0 f.seq f.q f.words htr p0.2.2.2.1 (by rw [k0.2.1, w0]; simp; omega)
  have hk : c.Keep (c0.releaseNew f.seq f.q f.words) := by
    refine ⟨by simp [s1.1, k0], by simp [s1.2.1, k0], by simp [s1.2.2.2.1, k0], by simp [s1.2.2.2.2.1, k0],
      by simp [s1.2.2.2.2.2.2.2.2.2.2.2.2, k0], by simp [s1.2.2.2.2.2.2.2.2.2.2.1, k0], ?_⟩
    rw [← tot0, total_eq, total_eq, pool1, s1.2.2.2.2.2.1, s1.2.2.2.2.2.2.1]
  have hok : (c0.releaseNew f.seq f.q f.words).PlayOk := by
    refine ⟨⟨f.seq + 1, p1.1, ?_, p1.2.2⟩, by simp [s1.2.2.2.2.2.1, k0], by simp [t0],
      by simpa [s1.2.2.2.2.2.2.2.1] using g0, by rw [hk.cfg]; exact h.wf, by rw [hk.cfg, hk.total]; exact h.room⟩
    simp [w0]
  rw [hdef]
  have f1 := count_fine (ctrAccepted x) hok
  have f2 := count_fine ctrResyncFlag f1.1
  have f3 := noteResync_fine e f.seq .restartFlag f2.1
  exact ⟨f3.1, hk.trans (f1.2.trans (f2.2.trans f3.2))⟩

theorem Ctx.behindArrival_fine {c : Ctx} (x : Path) (d : Nat) (h : c.PlayOk) : c.Fine (c.behindArrival x d) := by
  unfold behindArrival; split <;> exact count_fine _ h

theorem Ctx.outerArrival_fine {c : Ctx} {e : Seq} (x : Path) (d : Nat) (f : Frame) (h : c.PlayOk) (hp : c.Play 1 e) :
    c.Fine (c.outerArrival x e d f) := by
  unfold outerArrival
  split
  · exact count_fine _ h
  · split
    · split
      · exact restartResync_fine x f h hp
      · exact farArrival_fine x f h hp
    · split
      · exact restartResync_fine x f h hp
      · exact behindArrival_fine x d h

theorem Ctx.runArrival_fine {c : Ctx} (x : Path) (f : Frame) (h : c.PlayOk) : c.Fine (c.runArrival x f) := by
  obtain ⟨e, hp⟩ := h.play
  unfold runArrival
  rw [hp.1]
  dsimp only
  split
  · next hd => exact nearArrival_fine x f h hp hd
  · next hd =>
    split
    · exact pushArrival_fine x f h hp (by omega)
    · exact outerArrival_fine x _ f h hp

/-! ## Acquisition and the stall -/

theorem Ctx.setAcq_kept {c : Ctx} (x : Path) (f : Frame) (h : c.Good) (hs : c.s.state = .acquire) (ha : c.s.acq = none) :
    c.Kept (c.setAcq x f) := by
  have hsh := (shape_acquire hs).mp h.shape
  have hwf := (wf_iff _).mp h.wf
  have hroom := h.room
  simp only [total, Stream.held, hsh, ha] at hroom
  simp at hroom
  refine ⟨by simp [setAcq], by simp [setAcq], ?_, ?_, by simp [setAcq], ?_, ?_⟩
  · refine (shape_acquire (by simp [setAcq, hs])).mpr ?_
    simpa [setAcq] using hsh
  · simp only [setAcq, count_total]
    simp [total, Stream.held, hsh, ha]
    omega
  · intro hd; simp [setAcq, hs] at hd
  · intro hd; simp [setAcq, hs] at hd

theorem held_without_acq (s : Stream) (h : s.acq.isSome = true) : ({ s with acq := none } : Stream).held + 1 = s.held := by
  have h1 : ({ s with acq := none } : Stream).held = s.window.length + queueSlots s.queue + 0 + (if s.jump.isSome then 1 else 0) := rfl
  rw [h1, Stream.held, h]; simp; omega

theorem Ctx.freeAcq_total (c : Ctx) : c.freeAcq.total = c.total := by
  unfold freeAcq; split
  · rfl
  · next a ha =>
    have := held_without_acq c.s (by rw [ha]; rfl)
    exact (Nat.add_assoc c.free 1 _).trans (by rw [Nat.add_comm 1]; exact congrArg (c.free + ·) this)

theorem held_without_jump (s : Stream) (h : s.jump.isSome = true) : ({ s with jump := none } : Stream).held + 1 = s.held := by
  have h1 : ({ s with jump := none } : Stream).held = s.window.length + queueSlots s.queue + (if s.acq.isSome then 1 else 0) + 0 := rfl
  rw [h1, Stream.held, h]; simp

theorem Ctx.freeJump_total (c : Ctx) : c.freeJump.total = c.total := by
  unfold freeJump; split
  · rfl
  · next a ha =>
    have := held_without_jump c.s (by rw [ha]; rfl)
    exact (Nat.add_assoc c.free 1 _).trans (by rw [Nat.add_comm 1]; exact congrArg (c.free + ·) this)

theorem Ctx.freeAcq_kept {c : Ctx} (h : c.Good) (hs : c.s.state = .acquire) : c.Kept c.freeAcq := by
  have hsh := (shape_acquire hs).mp h.shape
  refine ⟨by simp, by simp, ?_, freeAcq_total c, by simp, ?_, ?_⟩
  · exact (shape_acquire (by simp [hs])).mpr (by simpa using hsh)
  · intro hd; simp [hs] at hd
  · intro hd; simp [hs] at hd

/-- The lock: from ACQUIRE to PRIMING. -/
theorem Ctx.lock_kept {c : Ctx} (x : Path) (a : AcqCandidate) (f : Frame) (h : c.Good) (hs : c.s.state = .acquire)
    (ha : c.s.acq = some a) (hne : f.seq ≠ a.seq) (hd : dist f.seq a.seq < c.cfg.window) : c.Kept (c.lock x a f) := by
  have hsh := (shape_acquire hs).mp h.shape
  have hwf := (wf_iff _).mp h.wf
  obtain ⟨c0, hc0⟩ : ∃ c0 : Ctx, c0 = { c with s := { c.s with history := historyNone, base := some a.seq, acq := none } } :=
    ⟨_, rfl⟩
  obtain ⟨c2, hc2⟩ : ∃ c2 : Ctx, c2 = { c0.releaseHeld a.seq a.q a.words with
    s := { (c0.releaseHeld a.seq a.q a.words).s with state := .priming, run := 0 } } := ⟨_, rfl⟩
  have hdef : c.lock x a f = (c2.nearArrival x f).noteState .locked := by subst hc2 hc0; rfl
  have p0 : c0.Play 1 a.seq := by
    subst hc0
    exact ⟨rfl, by simp [hsh], by simp [hsh], by simp [hsh], by simp⟩
  have htr : 1 ≤ c0.cfg.trim := by subst hc0; simp; omega
  have s1 := releaseHeld_same c0 a.seq a.q a.words
  have p1 := releaseHeld_play (r := a.seq) (q := a.q) (ws := a.words) htr p0 (by subst hc0; simp [hsh])
  have pool1 := releaseHeld_pool c0 a.seq a.q a.words
  have w0 : c0.s.window = [] := by subst hc0; simp [hsh]
  have tot : c2.total = c.total := by
    have e1 : c2.total = (c0.releaseHeld a.seq a.q a.words).total := by subst hc2; rfl
    have e2 : (c0.releaseHeld a.seq a.q a.words).s.acq = none := by rw [s1.2.2.2.2.2.1]; subst hc0; rfl
    have e3 : (c0.releaseHeld a.seq a.q a.words).s.jump = none := by rw [s1.2.2.2.2.2.2.1]; subst hc0; simp [hsh]
    have e4 : c0.pool = c.pool := by subst hc0; rfl
    rw [e1, total_eq, total_eq, pool1, e2, e3, e4, ha]
    simp [hsh]
  have k2 : c2.cfg = c.cfg ∧ c2.idx = c.idx ∧ c2.s.phase = c.s.phase ∧ c2.s.drain = none ∧ c2.s.state = .priming := by
    subst hc2
    refine ⟨by rw [s1.2.1]; subst hc0; rfl, by rw [s1.1]; subst hc0; rfl, ?_, ?_, rfl⟩
    · simp only [s1.2.2.2.2.2.2.2.2.2.2.2.2]; subst hc0; rfl
    · simp only [s1.2.2.2.2.1]; subst hc0; exact hsh.1
  have play2 : c2.Play 1 (a.seq + 1) := by
    obtain ⟨q1, q2, q3, q4, q5⟩ := p1
    subst hc2
    exact ⟨q1, by simp [w0], by simp [w0], q4, q5⟩
  have ok2 : c2.PlayOk := by
    refine ⟨⟨_, play2⟩, ?_, ?_, ?_, by rw [k2.1]; exact h.wf, by rw [k2.1, tot]; exact h.room⟩
    · subst hc2; simp only [s1.2.2.2.2.2.1]; subst hc0; rfl
    · subst hc2; simp only [releaseHeld_s_timer]; subst hc0; simp [hsh]
    · subst hc2; simp only [s1.2.2.2.2.2.2.2.1]; subst hc0; simp [hsh]
  have hdist := dist_succ hne
  have hf := nearArrival_fine x f ok2 play2 (by rw [k2.1]; omega)
  rw [hdef]
  have hplay : (c2.nearArrival x f).s.state = .priming := by rw [hf.2.state]; exact k2.2.2.2.2
  have hsh2 := hf.1.shape (by rw [hplay]; rfl) (by rw [hf.2.drain]; exact k2.2.2.2.1)
    (by rw [hf.2.phase, k2.2.2.1, hf.2.cfg, k2.1]; exact hsh.2.2.2.2.2.2.2.2)
  refine ⟨by simp [hf.2.idx, k2], by simp [hf.2.cfg, k2], ?_, ?_, by simp [hplay, hs, StreamState.live], ?_, ?_⟩
  · rw [hf.2.cfg, k2.1] at hsh2; simpa using hsh2
  · rw [noteState_total, hf.2.total, tot]
  · intro h0; simp [hplay] at h0
  · intro h0; simp [hplay] at h0

theorem Ctx.acquireArrival_kept {c : Ctx} (x : Path) (f : Frame) (h : c.Good) (hs : c.s.state = .acquire) :
    c.Kept (c.acquireArrival x f) := by
  unfold acquireArrival
  split
  · next ha => exact setAcq_kept x f h hs ha
  · next a ha =>
    split
    · exact count_kept h.shape _
    · next hne =>
      split
      · next hd => exact lock_kept x a f h hs ha hne hd
      · have k1 := freeAcq_kept h hs
        have g1 := k1.good h
        have k2 := count_kept g1.shape ctrAcqDiscard
        have g2 := k2.good g1
        exact k1.trans (k2.trans (setAcq_kept x f g2 (by simpa using hs) (by simp)))

theorem Ctx.stalledArrival_kept {c : Ctx} (x : Path) (f : Frame) (h : c.Good) (hs : c.s.state = .stalled) :
    c.Kept (c.stalledArrival x f) := by
  have hsh := (shape_stalled hs).mp h.shape
  obtain ⟨hdr, ⟨e, hb⟩, hw, hq, ha, hj, hg, ht, hh, hp⟩ := hsh
  unfold stalledArrival
  rw [hb]
  dsimp only
  split
  · next hd =>
    obtain ⟨c0, hc0⟩ : ∃ c0 : Ctx, c0 = { c with s := { c.s with state := .priming, run := 0 } } := ⟨_, rfl⟩
    rw [← hc0]
    have play0 : c0.Play 1 e := by
      subst hc0; exact ⟨hb, by simp [hw], by simp [hw], by simp [hq], hh⟩
    have tot0 : c0.total = c.total := by subst hc0; rfl
    have ok0 : c0.PlayOk := by
      refine ⟨⟨e, play0⟩, ?_, ?_, ?_, ?_, ?_⟩
      · subst hc0; exact ha
      · subst hc0; simp [ht]
      · subst hc0; simp [hg]
      · subst hc0; exact h.wf
      · rw [tot0]; subst hc0; exact h.room
    have hf := nearArrival_fine x f ok0 play0 (by subst hc0; exact hd)
    have hst : (c0.nearArrival x f).s.state = .priming := by rw [hf.2.state]; subst hc0; rfl
    have hcfg : c0.cfg = c.cfg := by subst hc0; rfl
    have hsh2 := hf.1.shape (by rw [hst]; rfl) (by rw [hf.2.drain]; subst hc0; exact hdr)
      (by rw [hf.2.phase, hf.2.cfg]; subst hc0; exact hp)
    refine ⟨?_, by simp [hf.2.cfg, hcfg], ?_, ?_, by simp [hst, hs, StreamState.live], ?_, ?_⟩
    · simp only [noteState_idx, hf.2.idx]; subst hc0; rfl
    · rw [hf.2.cfg, hcfg] at hsh2; simpa using hsh2
    · rw [noteState_total, hf.2.total, tot0]
    · intro h0; simp [hst] at h0
    · intro h0; simp [hst] at h0
  · split
    · obtain ⟨c0, hc0⟩ : ∃ c0 : Ctx, c0 = { c with s := { c.s with history := historyNone, base := none, run := 0, state := .acquire } } :=
        ⟨_, rfl⟩
      rw [← hc0]
      have k0 : c.Kept c0 := by
        subst hc0
        refine ⟨rfl, rfl, ?_, rfl, by simp [hs, StreamState.live], ?_, ?_⟩
        · exact (shape_acquire rfl).mpr ⟨hdr, rfl, hw, hq, hj, hg, ht, rfl, hp⟩
        · intro h0; simp at h0
        · intro h0; simp at h0
      have g0 := k0.good h
      have k1 := setAcq_kept x f g0 (by subst hc0; rfl) (by subst hc0; exact ha)
      have g1 := k1.good g0
      exact k0.trans (k1.trans (note_kept g1.shape _ _))
    · unfold behindArrival; split <;> exact count_kept h.shape _

/-! ## Presence -/

/-- Setting the presence of a path touches nothing the shape speaks of, in a state other than OFF. -/
theorem Ctx.setPresence_kept {c : Ctx} (x : Path) (p : Presence) (h : c.s.ShapeOk c.cfg) (hs : c.s.state ≠ .off) :
    c.Kept { c with s := c.s.setPresence x p } := by
  have e1 : ∀ s : Stream, (s.setPresence x p).state = s.state ∧ (s.setPresence x p).held = s.held ∧
      (s.setPresence x p).drain = s.drain := by
    intro s; cases x <;> exact ⟨rfl, rfl, rfl⟩
  refine ⟨rfl, rfl, ?_, ?_, by rw [(e1 c.s).1], ?_, ?_⟩
  · obtain ⟨h1, h2⟩ := h
    refine ⟨fun h0 => absurd ((e1 c.s).1 ▸ h0) hs, ?_⟩
    cases x <;> exact h2
  · simp [total, (e1 c.s).2.1]
  · intro h0; exact ⟨(e1 c.s).1 ▸ h0, (e1 c.s).2.2⟩
  · intro h0; simp only [(e1 c.s).1] at h0; exact Or.inl h0

theorem Ctx.presence_kept {c : Ctx} (x : Path) (p : Presence) (b : Bool) (h : c.s.ShapeOk c.cfg) (hs : c.s.state ≠ .off) :
    c.Kept ({ c with s := c.s.setPresence x p }.notePath x b) := by
  have k := setPresence_kept x p h hs
  exact k.trans (note_kept (by rw [k.cfg]; exact k.shape) _ _)

theorem off_unused {cfg : StreamRecord} {s : Stream} (h : s.ShapeOk cfg) (hs : s.state = .off) (x : Path) :
    s.presence x = .unused := by
  rw [(shape_off hs).mp h]; cases x <;> rfl

theorem Ctx.departed_kept {c : Ctx} (x : Path) (h : c.s.ShapeOk c.cfg) : c.Kept (c.departed x) := by
  unfold departed
  split
  · exact Kept.refl h
  · exact Kept.refl h
  · next n hn =>
    exact presence_kept x _ _ h (fun hs => by rw [off_unused h hs] at hn; simp at hn)

theorem Ctx.refresh_kept {c : Ctx} (x : Path) (h : c.s.ShapeOk c.cfg) (hs : c.s.state ≠ .off) : c.Kept (c.refresh x) := by
  unfold refresh
  split
  · exact Kept.refl h
  · exact setPresence_kept x _ h hs
  · exact presence_kept x _ _ h hs

theorem Ctx.setPresence_state (s : Stream) (x : Path) (p : Presence) : (s.setPresence x p).state = s.state := by
  cases x <;> rfl

theorem Ctx.refresh_state (c : Ctx) (x : Path) : (c.refresh x).s.state = c.s.state := by
  unfold refresh; split <;> simp [setPresence_state]

/-! ## An arrival -/

theorem Ctx.handle_kept {c : Ctx} (x : Path) (f : Frame) (h : c.Good) : c.Kept (c.handle x f) := by
  unfold handle
  split
  · exact Kept.refl h.shape
  · next hs => exact acquireArrival_kept x f h hs
  · next hs => exact (runArrival_fine x f (h.playOk (by rw [hs]; rfl))).kept h (by rw [hs]; rfl)
  · next hs => exact (runArrival_fine x f (h.playOk (by rw [hs]; rfl))).kept h (by rw [hs]; rfl)
  · next hs => exact stalledArrival_kept x f h hs
  · exact Kept.refl h.shape

/-- Every arrival keeps the shape of its context and the slot balance; every slot it takes is free. -/
theorem Ctx.arrive_kept {c : Ctx} (x : Path) (f : Frame) (h : c.Good) : c.Kept (c.arrive x f) := by
  have key : c.s.state ≠ .off → c.Kept (if admits c.cfg.paths x = false then c.count (ctrRefused x)
      else if f.words.length = c.cfg.words then (c.refresh x).handle x f else (c.refresh x).count ctrMalformed) := by
    intro hs
    split
    · exact count_kept h.shape _
    · have k1 := refresh_kept x h.shape hs
      have g1 := k1.good h
      split
      · exact k1.trans (handle_kept x f g1)
      · exact k1.trans (count_kept g1.shape _)
  unfold arrive
  split
  · exact Kept.refl h.shape
  · exact count_kept h.shape _
  all_goals
    next hs => exact key (by rw [hs]; simp)

end Sys2Proof.Machine
end

