-- ==== Sys2Proof/Laws/Ticks.lean ====
section
/-! SUPPORT. Ticks, playout events and FORCE_RESYNC keep a context's shape and the slot balance. -/

namespace Sys2Proof.Machine

/-! ## Silence step and timer step -/

theorem Ctx.silencePath_kept {c : Ctx} (x : Path) (h : c.s.ShapeOk c.cfg) : c.Kept (c.silencePath x) := by
  unfold silencePath
  split
  · exact Kept.refl h
  · exact Kept.refl h
  · next n hn =>
    have hs : c.s.state ≠ .off := fun hs => by rw [off_unused h hs] at hn; simp at hn
    split
    · exact presence_kept x _ _ h hs
    · exact setPresence_kept x _ h hs

theorem Ctx.silencePath_state (c : Ctx) (x : Path) : (c.silencePath x).s.state = c.s.state := by
  unfold silencePath; split
  · rfl
  · rfl
  · split <;> simp [setPresence_state]

theorem Ctx.silenceStep_kept {c : Ctx} (h : c.Good) : c.Kept c.silenceStep := by
  have k := silencePath_kept .a h.shape
  exact k.trans (silencePath_kept .b (k.good h).shape)

/-- Substituting E with its counter and the chain that follows. -/
theorem Ctx.substChain_fine {c : Ctx} (k : Fin 24) (h : c.PlayOk) : c.Fine ((c.substitute.count k).chain) := by
  obtain ⟨e, hp⟩ := h.play
  have hwf := (wf_iff _).mp h.wf
  have htr : 1 ≤ c.cfg.trim := by omega
  have hs := substitute_same c
  have hs0 : (c.substitute.count k).Play 0 (e + 1) := by simpa [Play] using substitute_play htr hp
  have hk : c.Keep (c.substitute.count k) := (hs.keep (substitute_pool c)).trans (count_keep _ _)
  have hc := chain_fine hs0 (by simp [hs.2.2.2.2.2.1, h.acq])
    (fun n hn => by have := h.timer n (by simpa using hn); exact ⟨this.1, this.2.1⟩)
    (fun g hg => h.guard g (by simpa [hs.2.2.2.2.2.2.2.1] using hg))
    (by rw [hk.cfg]; exact h.wf) (by rw [hk.cfg, hk.total]; exact h.room)
  exact ⟨hc.1, hk.trans hc.2⟩

theorem Ctx.noTimer_fine {c : Ctx} (h : c.PlayOk) : c.Fine { c with s := { c.s with timer := none } } := by
  obtain ⟨⟨e, hp⟩, h2, h3, h4, h5, h6⟩ := h
  exact ⟨⟨⟨e, hp⟩, h2, by simp, h4, h5, h6⟩, ⟨rfl, rfl, rfl, rfl, rfl, rfl, rfl⟩⟩

theorem Ctx.expireTimer_fine {c : Ctx} (h : c.PlayOk) : c.Fine c.expireTimer :=
  (noTimer_fine h).trans (substChain_fine _ (noTimer_fine h).1)

/-- A gap timer runs in PRIMING and RUNNING only. -/
theorem playing_of_timer {cfg : StreamRecord} {s : Stream} (h : s.ShapeOk cfg) {n : Nat} (ht : s.timer = some n) :
    s.state.playing = true := by
  obtain ⟨_, _, _, _, h5, _, _, _, _, _, h11, _⟩ := h
  exact h5 (h11 n (by simp [ht])).2.2

theorem Ctx.expireTimer_kept {c : Ctx} (h : c.Good) {n : Nat} (ht : c.s.timer = some n) : c.Kept c.expireTimer :=
  (expireTimer_fine (h.playOk (playing_of_timer h.shape ht))).kept h (playing_of_timer h.shape ht)

theorem Ctx.timerStep_kept {c : Ctx} (h : c.Good) : c.Kept c.timerStep := by
  unfold timerStep
  split
  · exact Kept.refl h.shape
  · next n ht =>
    have hs := playing_of_timer h.shape ht
    have hok := h.playOk hs
    split
    · exact expireTimer_kept h ht
    · next hn =>
      have ht1 := hok.timer n (by simp [ht])
      have hf : c.Fine { c with s := { c.s with timer := some (n - 1) } } := by
        obtain ⟨⟨e, hp⟩, h2, h3, h4, h5, h6⟩ := hok
        refine ⟨⟨⟨e, hp⟩, h2, ?_, h4, h5, h6⟩, ⟨rfl, rfl, rfl, rfl, rfl, rfl, rfl⟩⟩
        intro m hm
        obtain rfl := Option.some.inj hm
        exact ⟨by omega, by omega, ht1.2.2⟩
      exact hf.kept h hs

/-! ## Playout events -/

@[simp] theorem Ctx.offerRecord_total (c : Ctx) (r : PlayRecord) : (c.offerRecord r).total = c.total := rfl

theorem Ctx.offerRecord_kept {c : Ctx} (h : c.s.ShapeOk c.cfg) (r : PlayRecord) : c.Kept (c.offerRecord r) :=
  kept_of_parts h rfl rfl rfl ⟨c.s.counters, rfl⟩

/-- What the emission of the head leaves: the queue without its head, the words of a REAL head, its slot given back. -/
theorem Ctx.emitHead_eq (c : Ctx) : ∃ last record, c.emitHead =
    { c with s := { c.s with queue := c.s.queue.tail, last := last }
             free := c.free + (c.s.queue.head?.map QueueEntry.slots).getD 0, record := record } := by
  unfold emitHead
  split
  · next hq => exact ⟨c.s.last, c.record, by cases c; rename_i s _ _ _; cases s; simp_all⟩
  · next hq => exact ⟨_, _, by simp [offerRecord, giveSlots, hq]; exact ⟨rfl, rfl⟩⟩
  · next hq => exact ⟨c.s.last, _, by simp [offerRecord, hq]; rfl⟩

theorem Ctx.emitHead_total (c : Ctx) : c.emitHead.total = c.total := by
  obtain ⟨l, r, h⟩ := c.emitHead_eq
  rw [h]
  cases hq : c.s.queue with
  | nil => simp [total, Stream.held, hq]
  | cons e q => simp [total, Stream.held, hq]; omega

theorem Ctx.emitHead_kept {c : Ctx} (h : c.Good) (hs : c.s.state ≠ .off) : c.Kept c.emitHead := by
  have ht := c.emitHead_total
  obtain ⟨l, r, he⟩ := c.emitHead_eq
  refine ⟨by rw [he], by rw [he], ?_, ht, by rw [he], by rw [he]; exact fun h0 => ⟨h0, rfl⟩, by rw [he]; exact Or.inl⟩
  rw [he]
  obtain ⟨h1, h2, h3, h4, h5, h6, h7⟩ := h.shape
  refine ⟨fun h0 => absurd h0 hs, h2, h3, h4, h5, ?_, h7⟩
  simp only [List.length_tail]
  omega

theorem Ctx.clearRun_kept {c : Ctx} (h : c.s.ShapeOk c.cfg) (hs : c.s.state ≠ .off) : c.Kept c.clearRun := by
  refine ⟨rfl, rfl, ?_, rfl, rfl, fun h0 => ⟨h0, rfl⟩, Or.inl⟩
  obtain ⟨h1, h2⟩ := h
  exact ⟨fun h0 => absurd h0 hs, h2⟩

theorem Ctx.demand_fine {c : Ctx} (h : c.PlayOk) : c.Fine c.demand := substChain_fine _ h

theorem Ctx.demand_kept {c : Ctx} (h : c.Good) (hs : c.s.state.playing = true) : c.Kept c.demand :=
  (demand_fine (h.playOk hs)).kept h hs

/-- The underrun's own effects, over an empty queue and window. -/
theorem Ctx.passUnderrun_kept {c : Ctx} (h : c.Good) (hs : c.s.state.playing = true) (hw : c.s.window = []) :
    c.Kept c.passUnderrun := by
  obtain ⟨h1, h2, ⟨e, h3, h4⟩, h5, h6, h7, h8, h9⟩ := (shape_playing hs).mp h.shape
  unfold passUnderrun
  rw [h3]
  dsimp only
  have hsh : (((c.offerRecord (.subst c.idx e c.substPayload)).advance .substituted).count ctrUnderrun).s.state.playing = true := by
    simpa using hs
  refine ⟨by simp, by simp, ?_, ?_, by simp, fun h0 => ?_, fun h0 => ?_⟩
  · refine (shape_playing (by simpa using hs)).mpr ⟨by simpa using h1, by simpa using h2, ⟨e + 1, by simp [h3], by simp [hw, WindowOk]⟩,
      by simpa using h5, by simpa using h6, by simpa using h7, by simp [h8], by simpa using h9⟩
  · simp [total, Stream.held]
  · have h0' : c.s.state = .draining := by simpa using h0
    rw [h0'] at hs; simp [StreamState.playing] at hs
  · have h0' : c.s.state = .off := by simpa using h0
    rw [h0'] at hs; simp [StreamState.playing] at hs

theorem Ctx.stallNow_kept {c : Ctx} (h : c.Good) (hs : c.s.state = .running) (hw : c.s.window = []) (hq : c.s.queue = []) :
    c.Kept c.stallNow := by
  have hpl : c.s.state.playing = true := by rw [hs]; rfl
  obtain ⟨h1, h2, ⟨e, h3, h4⟩, h5, h6, h7, h8, h9⟩ := (shape_playing hpl).mp h.shape
  have ht : c.s.timer = none := by
    cases hti : c.s.timer with
    | none => rfl
    | some n => exact absurd hw (h7 n (by simp [hti])).2.2
  have hfree := freeJump_total { c with s := { c.s with state := .stalled } }
  unfold stallNow
  refine ⟨by simp, by simp, ?_, ?_, by simp [hs, StreamState.live], fun h0 => ?_, fun h0 => ?_⟩
  · exact (shape_stalled (by simp)).mpr ⟨by simpa using h1, ⟨e, by simpa using h3⟩, by simpa using hw, by simpa using hq,
      by simpa using h2, by simp, by simp, by simpa using ht, by simpa using h8, by simpa using h9⟩
  · rw [noteState_total]; exact hfree
  · simp at h0
  · simp at h0

theorem Ctx.underrun_kept {c : Ctx} (h : c.Good) (hs : c.s.state = .running) (hw : c.s.window = []) (hq : c.s.queue = []) :
    c.Kept c.underrun := by
  have k1 := passUnderrun_kept h (by rw [hs]; rfl) hw
  have g1 := k1.good h
  obtain ⟨_, _, ⟨e, h3, _⟩, _⟩ := (shape_playing (by rw [hs]; rfl)).mp h.shape
  unfold underrun
  dsimp only
  split
  · refine k1.trans (stallNow_kept g1 ?_ ?_ ?_)
    · simpa [passUnderrun, h3] using hs
    · simpa [passUnderrun, h3] using hw
    · simpa [passUnderrun, h3] using hq
  · exact k1

theorem Ctx.playRunning_kept {c : Ctx} (h : c.Good) (hs : c.s.state = .running) : c.Kept c.playRunning := by
  have emit : ∀ d : Ctx, d.Good → d.s.state ≠ .off → d.Kept d.emitHead.clearRun := by
    intro d hd hds
    have k := emitHead_kept hd hds
    refine k.trans (clearRun_kept (k.good hd).shape ?_)
    obtain ⟨l, r, he⟩ := d.emitHead_eq
    rw [he]; exact hds
  unfold playRunning
  split
  · exact emit c h (by rw [hs]; simp)
  · next hq =>
    split
    · have k := demand_kept h (by rw [hs]; rfl)
      have hf := demand_fine (h.playOk (by rw [hs]; rfl))
      exact k.trans (emit _ (k.good h) (by rw [hf.2.state, hs]; simp))
    · next hw => exact underrun_kept h hs (by simpa using hw) (by simpa using hq)

theorem Ctx.playPriming_kept {c : Ctx} (h : c.Good) (hs : c.s.state = .priming) : c.Kept c.playPriming := by
  unfold playPriming
  split
  · exact offerRecord_kept h.shape _
  · obtain ⟨c0, hc0⟩ : ∃ c0 : Ctx, c0 = { c with s := { c.s with state := .running } }.noteState .primed := ⟨_, rfl⟩
    rw [← hc0]
    have k0 : c.Kept c0 := by
      subst hc0
      refine ⟨by simp, by simp, ?_, by simp [total, Stream.held], by simp [hs, StreamState.live], ?_, ?_⟩
      · have := (shape_playing (by rw [hs]; rfl)).mp h.shape
        exact (shape_playing (by simp [StreamState.playing])).mpr (by simpa using this)
      · intro h0; simp at h0
      · intro h0; simp at h0
    exact k0.trans (playRunning_kept (k0.good h) (by subst hc0; simp))

theorem Ctx.endDrain_kept {c : Ctx} (h : c.Good) (hs : c.s.state = .draining) (hq : c.s.queue = []) : c.Kept c.endDrain := by
  obtain ⟨_, _, h3, _, h5, h6, h7, h8, h9, h10⟩ := (shape_draining hs).mp h.shape
  unfold endDrain
  refine ⟨by simp, by simp, ?_, by simp [total, Stream.held], by simp [hs, StreamState.live], fun h0 => ?_, fun _ => Or.inr hs⟩
  · refine (shape_off (by simp)).mpr ?_
    simp [Stream.toOff, Stream.reset, h3, h5, h6, h7, h8, hq]
  · simp at h0

theorem Ctx.guardCountdown_fine {c : Ctx} (h : c.PlayOk) : c.Fine c.guardCountdown := by
  unfold guardCountdown
  split
  · exact ⟨h, Keep.refl c⟩
  · next g hg =>
    have h4' := h.guard g (by simp [hg])
    obtain ⟨⟨e, hp⟩, h2, h3, h4, h5, h6⟩ := h
    refine ⟨⟨⟨e, hp⟩, h2, h3, ?_, h5, h6⟩, ⟨rfl, rfl, rfl, rfl, rfl, rfl, rfl⟩⟩
    intro g' hg'
    simp only [Option.mem_def] at hg'
    split at hg'
    · simp at hg'
    · obtain rfl := Option.some.inj hg'
      exact ⟨by simp; omega, by simp; omega⟩

theorem Ctx.guardCountdown_kept {c : Ctx} (h : c.Good) (hs : c.s.state.playing = true) : c.Kept c.guardCountdown :=
  (guardCountdown_fine (h.playOk hs)).kept h hs

theorem Ctx.guardCountdown_state (c : Ctx) : c.guardCountdown.s.state = c.s.state := by
  unfold guardCountdown; split <;> rfl

/-- Every playout event keeps the shape and the slot balance. -/
theorem Ctx.playout_kept {c : Ctx} (h : c.Good) : c.Kept c.playout := by
  unfold playout
  split
  · exact Kept.refl h.shape
  · exact Kept.refl h.shape
  · next hs =>
    have k := guardCountdown_kept h (by rw [hs]; rfl)
    exact k.trans (playPriming_kept (k.good h) (by rw [guardCountdown_state, hs]))
  · next hs =>
    have k := guardCountdown_kept h (by rw [hs]; rfl)
    exact k.trans (playRunning_kept (k.good h) (by rw [guardCountdown_state, hs]))
  · exact offerRecord_kept h.shape _
  · next hs =>
    unfold playDraining
    split
    · exact emitHead_kept h (by rw [hs]; simp)
    · next hq => exact endDrain_kept h hs (by simpa using hq)

theorem Ctx.setPhase_kept {c : Ctx} (h : c.s.ShapeOk c.cfg) (p q : Nat) (hp : c.s.phase = some p) (hq : q < c.cfg.divisor) :
    c.Kept { c with s := { c.s with phase := some q } } := by
  obtain ⟨h1, h2, h3, h4, h5, h6, h7, h8, h9, h10, h11, h12, h13, h14, h15⟩ := h
  have hs : c.s.state ≠ .off := by
    intro hs
    have := h1 hs
    rw [this] at hp; simp [Stream.toOff, Stream.reset] at hp
  refine ⟨rfl, rfl, ⟨fun h0 => absurd h0 hs, h2, h3, h4, h5, h6, h7, h8, h9, h10, h11, h12, h13, fun _ => rfl, ?_⟩, rfl, rfl,
    fun h0 => ⟨h0, rfl⟩, Or.inl⟩
  intro r hr
  obtain rfl := Option.some.inj hr
  exact hq

theorem Ctx.phaseStep_kept {c : Ctx} (h : c.Good) : c.Kept c.phaseStep := by
  have hwf := (wf_iff _).mp h.wf
  unfold phaseStep
  split
  · exact Kept.refl h.shape
  · next p hp =>
    split
    · have k := setPhase_kept h.shape p 0 hp (by omega)
      exact k.trans (playout_kept (k.good h))
    · next hlt => exact setPhase_kept h.shape p (p + 1) hp (by omega)

/-- A cadence tick keeps the shape of its context and the slot balance. -/
theorem Ctx.tick_kept {c : Ctx} (h : c.Good) : c.Kept c.tick := by
  have k1 := silenceStep_kept h
  have g1 := k1.good h
  have k2 := timerStep_kept g1
  exact k1.trans (k2.trans (phaseStep_kept (k2.good g1)))

/-! ## FORCE_RESYNC -/

theorem Ctx.flushWindow_total (c : Ctx) : c.flushWindow.total = c.total := by simp [total, Stream.held]; omega

theorem Ctx.flushQueue_total (c : Ctx) : c.flushQueue.total = c.total := by simp [total, Stream.held]; omega

theorem Ctx.forceAcquire_kept {c : Ctx} (h : c.Good) (hd : c.s.drain = none) (ha : c.s.acq = none)
    (hp : ∃ p, c.s.phase = some p ∧ p < c.cfg.divisor) (hl : c.s.state.live = true) : c.Kept c.forceAcquire := by
  have ht : (c.flushWindow.flushQueue.freeJump).total = c.total := by
    rw [freeJump_total, flushQueue_total, flushWindow_total]
  unfold forceAcquire
  refine ⟨by simp, by simp, ?_, ?_, by rw [hl]; simp [StreamState.live], fun h0 => ?_, fun h0 => ?_⟩
  · exact (shape_acquire (by simp)).mpr ⟨by simpa using hd, by simp, by simp, by simp, by simp, by simp, by simp, by simp,
      by simpa using hp⟩
  · rw [noteState_total, ← ht]; rfl
  · simp at h0
  · simp at h0

theorem Ctx.forceInAcquire_kept {c : Ctx} (h : c.Good) (hs : c.s.state = .acquire) : c.Kept c.forceInAcquire := by
  have k := freeAcq_kept h hs
  have hsh := (shape_acquire (s := c.freeAcq.s) (by simp [hs])).mp k.shape
  unfold forceInAcquire
  refine ⟨k.idx, k.cfg, ?_, k.total, k.live, ?_, ?_⟩
  · exact (shape_acquire (by simp [hs])).mpr hsh
  · intro h0; simp [hs] at h0
  · intro h0; simp [hs] at h0

theorem Ctx.force_kept {c : Ctx} (h : c.Good) : c.Kept c.force := by
  unfold force
  split
  · exact Kept.refl h.shape
  · exact Kept.refl h.shape
  · next hs => exact forceInAcquire_kept h hs
  · next hs =>
    have := (shape_playing (by rw [hs]; rfl)).mp h.shape
    exact forceAcquire_kept h this.1 this.2.1 this.2.2.2.2.2.2.2 (by rw [hs]; rfl)
  · next hs =>
    have := (shape_playing (by rw [hs]; rfl)).mp h.shape
    exact forceAcquire_kept h this.1 this.2.1 this.2.2.2.2.2.2.2 (by rw [hs]; rfl)
  · next hs =>
    have := (shape_stalled hs).mp h.shape
    exact forceAcquire_kept h this.1 this.2.2.2.2.1 this.2.2.2.2.2.2.2.2.2 (by rw [hs]; rfl)

end Sys2Proof.Machine
end

