-- ==== Sys2Proof/Laws/Merge.lean ====
section
/-! SUPPORT. The invariant of the merging machinery (State.MergeOk) is kept by whatever leaves its parts alone and by every event at one stream context. -/

namespace Sys2Proof.Machine

/-! ## Sums over the streams -/

theorem sum_finRange (f : StreamIdx → Nat) : ((List.finRange 32).map f).sum = ∑ i, f i := (Fin.sum_univ_def f).symm

/-- Two families that differ at i only. -/
theorem sum_differ (f g : StreamIdx → Nat) (i : StreamIdx) (h : ∀ j, j ≠ i → g j = f j) :
    ((List.finRange 32).map g).sum + f i = ((List.finRange 32).map f).sum + g i := by
  rw [sum_finRange, sum_finRange, ← Finset.add_sum_erase _ f (Finset.mem_univ i), ← Finset.add_sum_erase _ g (Finset.mem_univ i)]
  have : ∑ j ∈ Finset.univ.erase i, g j = ∑ j ∈ Finset.univ.erase i, f j :=
    Finset.sum_congr rfl fun j hj => h j (Finset.ne_of_mem_erase hj)
  omega

theorem sum_le (f g : StreamIdx → Nat) (h : ∀ j, f j ≤ g j) : ((List.finRange 32).map f).sum ≤ ((List.finRange 32).map g).sum := by
  rw [sum_finRange, sum_finRange]; exact Finset.sum_le_sum fun j _ => h j

/-! ## Bounds -/

theorem inForce_wf {s : State} (h : s.RecordsOk) (i : StreamIdx) : (s.inForce i).wf = true := by
  unfold State.inForce
  split
  · cases hd : (s.stream i).drain with
    | none => exact h.1 i
    | some r => exact h.2.2.1 i r (by simp [hd])
  · exact h.1 i

/-- A stream holds at most W + T slots (02 R29). -/
theorem held_le_bound {cfg : StreamRecord} {s : Stream} (h : s.ShapeOk cfg) (hw : cfg.wf = true) :
    s.held ≤ if s.state = .off then 0 else cfg.window + cfg.trim := by
  have hwf := (wf_iff _).mp hw
  cases hs : s.state with
  | off => rw [(shape_off hs).mp h]; simp [Stream.toOff, Stream.reset, Stream.held]
  | acquire =>
    have := (shape_acquire hs).mp h
    simp [Stream.held, this]
    split <;> omega
  | stalled =>
    have := (shape_stalled hs).mp h
    simp [Stream.held, this]
  | draining =>
    obtain ⟨_, _, h3, h4, h5, h6, _⟩ := (shape_draining hs).mp h
    have := queueSlots_le s.queue
    simp [Stream.held, h3, h5, h6]
    omega
  | priming =>
    obtain ⟨_, h2, ⟨e, _, h4⟩, h5, _⟩ := (shape_playing (by rw [hs]; rfl)).mp h
    have := queueSlots_le s.queue
    have := window_length h4.1 h4.2
    have : (if s.jump.isSome then 1 else 0) ≤ 1 := by split <;> omega
    simp [Stream.held, h2]
    omega
  | running =>
    obtain ⟨_, h2, ⟨e, _, h4⟩, h5, _⟩ := (shape_playing (by rw [hs]; rfl)).mp h
    have := queueSlots_le s.queue
    have := window_length h4.1 h4.2
    have : (if s.jump.isSome then 1 else 0) ≤ 1 := by split <;> omega
    simp [Stream.held, h2]
    omega

/-- The store has room for every stream's bound: a stream that takes a slot finds one free (02 R31). -/
theorem ctx_good {s : State} (h : s.MergeOk) (i : StreamIdx) (hs : (s.stream i).state ≠ .off) : (s.ctx i).Good := by
  refine ⟨(h.1 i).1, inForce_wf h.2.1 i, ?_⟩
  have h1 := h.2.2.1
  have h2 := h.2.2.2
  have hle : ∀ j, (s.stream j).held ≤ s.slotBound j := fun j => held_le_bound (h.1 j).1 (inForce_wf h.2.1 j)
  have hd := sum_differ (fun j => (s.stream j).held) (fun j => if j = i then s.slotBound i else (s.stream j).held) i
    (fun j hj => by simp [hj])
  have hl := sum_le (fun j => if j = i then s.slotBound i else (s.stream j).held) s.slotBound (fun j => by
    by_cases hj : j = i
    · simp [hj]
    · simp only [hj, if_false]; exact hle j)
  have hb : s.slotBound i = (s.inForce i).window + (s.inForce i).trim := by simp [State.slotBound, hs]
  simp only [if_true] at hd
  simp only [State.heldSlots] at h1
  show (s.inForce i).window + (s.inForce i).trim ≤ s.free + (s.stream i).held
  omega

/-! ## Frames -/

/-- The parts that the invariant speaks of stay, the staged set too. -/
structure State.SameMerge (s t : State) : Prop where
  streams : t.streams = s.streams
  active : t.active = s.active
  free : t.free = s.free
  staged : t.session.map Session.staged = s.session.map Session.staged ∨ t.session = none

theorem State.SameMerge.refl (s : State) : s.SameMerge s := ⟨rfl, rfl, rfl, Or.inl rfl⟩

theorem State.SameMerge.trans {a b c : State} (h : a.SameMerge b) (k : b.SameMerge c) : a.SameMerge c := by
  refine ⟨k.streams.trans h.streams, k.active.trans h.active, k.free.trans h.free, ?_⟩
  rcases k.staged with h1 | h1
  · rcases h.staged with h2 | h2
    · exact Or.inl (h1.trans h2)
    · right
      rw [h2] at h1
      cases hc : c.session with
      | none => rfl
      | some e => rw [hc] at h1; simp at h1
  · exact Or.inr h1

theorem State.SameMerge.inForce {s t : State} (k : s.SameMerge t) (i : StreamIdx) : t.inForce i = s.inForce i := by
  unfold State.inForce State.stream
  rw [k.streams, k.active]

theorem State.SameMerge.stream {s t : State} (k : s.SameMerge t) (i : StreamIdx) : t.stream i = s.stream i := by
  simp only [State.stream, k.streams]

theorem State.SameMerge.ok {s t : State} (k : s.SameMerge t) (h : s.MergeOk) : t.MergeOk := by
  obtain ⟨h1, ⟨h2, h3, h4, h5⟩, h6, h7⟩ := h
  refine ⟨fun i => ?_, ⟨fun i => by rw [k.active]; exact h2 i, by rw [k.active]; exact h3,
    fun i => by rw [k.stream]; exact h4 i, ?_⟩, ?_, ?_⟩
  · rw [k.inForce, k.stream, k.active]; exact h1 i
  · intro e he
    rcases k.staged with hs | hs
    · have he' : t.session = some e := he
      rw [he'] at hs
      cases hse : s.session with
      | none => rw [hse] at hs; simp at hs
      | some e' =>
        rw [hse] at hs
        have : e.staged = e'.staged := by simpa using hs
        rw [this]
        exact h5 e' hse
    · rw [hs] at he; simp at he
  · simp only [State.heldSlots, k.stream, k.free]; exact h6
  · have : t.slotBound = s.slotBound := by
      funext i; simp only [State.slotBound, k.stream, k.inForce]
    rw [this]; exact h7

/-- A record update that names none of the invariant's parts. -/
theorem State.sameMerge_of {s t : State} (h1 : t.streams = s.streams) (h2 : t.active = s.active) (h3 : t.free = s.free)
    (h4 : t.session = s.session) : s.SameMerge t := ⟨h1, h2, h3, Or.inl (by rw [h4])⟩

/-! ## One event at one context -/

/-- The record in force after an event that keeps the context's class. -/
theorem inForce_put {s : State} {i : StreamIdx} {c : Ctx} {b : Block} (k : (s.ctx i).Kept c)
    (hlive : (s.active.record i).enable = (s.stream i).state.live) (hdr : c.s.state ≠ .off) :
    (s.put c b).inForce i = s.inForce i := by
  have hi : c.idx = i := k.idx
  have hst : (s.put c b).stream i = c.s := by subst hi; simp
  unfold State.inForce
  rw [hst]
  have hact : (s.put c b).active = s.active := rfl
  rw [hact]
  by_cases hd : c.s.state = .draining
  · have hk := k.drain hd
    have h1 : (s.stream i).state = .draining := hk.1
    have h2 : c.s.drain = (s.stream i).drain := hk.2
    simp [hd, h1, h2]
  · have hl : c.s.state.live = (s.stream i).state.live := k.live
    have h1 : (s.stream i).state ≠ .draining := by
      intro h1
      rw [h1] at hl
      cases hc : c.s.state <;> simp_all [StreamState.live]
    simp [hd, h1]

theorem put_other {s : State} {c : Ctx} {b : Block} {i j : StreamIdx} (hi : c.idx = i) (hj : j ≠ i) :
    (s.put c b).stream j = s.stream j ∧ (s.put c b).inForce j = s.inForce j := by
  have h1 : (s.put c b).stream j = s.stream j := by
    subst hi
    exact State.put_stream_ne s c b hj
  exact ⟨h1, by simp only [State.inForce, h1]; rfl⟩

/-- An event at one context that keeps its shape, class and slot balance keeps the invariant. -/
theorem put_mergeOk {s : State} {i : StreamIdx} {c : Ctx} {b : Block} (h : s.MergeOk) (k : (s.ctx i).Kept c) :
    (s.put c b).MergeOk := by
  have hi : c.idx = i := k.idx
  have hst : (s.put c b).stream i = c.s := by subst hi; simp
  have hlive : c.s.state.live = (s.stream i).state.live := k.live
  obtain ⟨h1, ⟨h2, h3, h4, h5⟩, h6, h7⟩ := h
  have hsh : c.s.ShapeOk (s.inForce i) := k.shape
  refine ⟨fun j => ?_, ⟨h2, h3, fun j r hr => ?_, h5⟩, ?_, ?_⟩
  · by_cases hj : j = i
    · subst hj
      rw [hst]
      refine ⟨?_, by rw [hlive]; exact (h1 j).2⟩
      by_cases hoff : c.s.state = .off
      · exact (shape_off hoff).mpr ((shape_off hoff).mp hsh)
      · rw [inForce_put k (h1 j).2 hoff]; exact hsh
    · obtain ⟨p1, p2⟩ := put_other (s := s) (c := c) (b := b) hi hj
      rw [p1, p2]; exact h1 j
  · by_cases hj : j = i
    · subst hj
      rw [hst] at hr
      have hdr : c.s.state = .draining := hsh.2.1.mp (by rw [Option.mem_def.mp hr]; rfl)
      have : c.s.drain = (s.stream j).drain := (k.drain hdr).2
      rw [this] at hr
      exact h4 j r hr
    · obtain ⟨p1, _⟩ := put_other (s := s) (c := c) (b := b) hi hj
      rw [p1] at hr; exact h4 j r hr
  · have hd := sum_differ (fun j => (s.stream j).held) (fun j => ((s.put c b).stream j).held) i
      (fun j hj => by simp only [(put_other (s := s) (c := c) (b := b) hi hj).1])
    rw [hst] at hd
    have ht : c.free + c.s.held = s.free + (s.stream i).held := k.total
    simp only [State.heldSlots] at h6 ⊢
    show c.free + _ = _
    omega
  · refine Nat.le_trans (sum_le _ s.slotBound fun j => ?_) h7
    by_cases hj : j = i
    · subst hj
      unfold State.slotBound
      rw [hst]
      by_cases hoff : c.s.state = .off
      · simp [hoff]
      · rw [inForce_put k (h1 j).2 hoff]
        have : (s.stream j).state ≠ .off := by
          intro h0
          rw [h0] at hlive
          cases hc : c.s.state with
          | off => exact hoff hc
          | draining =>
            have hkd : (s.stream j).state = .draining := (k.drain hc).1
            rw [hkd] at h0
            simp at h0
          | acquire => rw [hc] at hlive; simp [StreamState.live] at hlive
          | priming => rw [hc] at hlive; simp [StreamState.live] at hlive
          | running => rw [hc] at hlive; simp [StreamState.live] at hlive
          | stalled => rw [hc] at hlive; simp [StreamState.live] at hlive
        simp [hoff, this]
    · obtain ⟨p1, p2⟩ := put_other (s := s) (c := c) (b := b) hi hj
      simp only [State.slotBound, p1, p2]; exact Nat.le_refl _

end Sys2Proof.Machine
end

