-- ==== Sys2Proof/Laws/Steps.lean ====
section
/-! SUPPORT. The invariant of the merging machinery is kept by the events of one stream context, the Link Receivers, the Cadence Controller, the Playout Port, the Notice Unit, and the requests that are no commit. -/

namespace Sys2Proof.Machine

/-! ## OFF contexts -/

theorem Ctx.arrive_off {c : Ctx} (x : Path) (f : Frame) (h : c.s.state = .off) : c.arrive x f = c := by simp [arrive, h]

/-- An event that keeps every good context, and an OFF one. -/
def Ctx.KeepsAll (f : Ctx → Ctx) : Prop :=
  ∀ c : Ctx, c.s.ShapeOk c.cfg → (c.s.state ≠ .off → c.Good) → c.Kept (f c)

theorem Ctx.keepsAll_of_shape {f : Ctx → Ctx} (h : ∀ c : Ctx, c.s.ShapeOk c.cfg → c.Kept (f c)) : KeepsAll f :=
  fun c hc _ => h c hc

theorem Ctx.arrive_keepsAll (x : Path) (f : Frame) : KeepsAll fun c => c.arrive x f := by
  intro c hc hg
  by_cases hs : c.s.state = .off
  · simp only [arrive_off x f hs]; exact Kept.refl hc
  · exact arrive_kept x f (hg hs)

theorem Ctx.departed_keepsAll (x : Path) : KeepsAll fun c => c.departed x := keepsAll_of_shape fun _ h => departed_kept x h

theorem Ctx.count_keepsAll (k : Fin 24) : KeepsAll fun c => c.count k := keepsAll_of_shape fun _ h => count_kept h k

theorem Ctx.silencePath_keepsAll (x : Path) : KeepsAll fun c => c.silencePath x :=
  keepsAll_of_shape fun _ h => silencePath_kept x h

theorem Ctx.force_keepsAll : KeepsAll Ctx.force := by
  intro c hc hg
  by_cases hs : c.s.state = .off
  · simp only [force, hs]; exact Kept.refl hc
  · exact force_kept (hg hs)

theorem Ctx.phaseStep_keepsAll : KeepsAll Ctx.phaseStep := by
  intro c hc hg
  by_cases hs : c.s.state = .off
  · have hp : c.s.phase = none := by rw [(shape_off hs).mp hc]; rfl
    simp only [phaseStep, hp]; exact Kept.refl hc
  · exact phaseStep_kept (hg hs)

theorem Ctx.tick_keepsAll : KeepsAll Ctx.tick := by
  intro c hc hg
  by_cases hs : c.s.state = .off
  · have e := (shape_off hs).mp hc
    have h1 : c.silencePath .a = c := by
      have : c.s.presence .a = .unused := by rw [e]; rfl
      simp only [silencePath, this]
    have h2 : c.silencePath .b = c := by
      have : c.s.presence .b = .unused := by rw [e]; rfl
      simp only [silencePath, this]
    have h3 : c.timerStep = c := by
      have : c.s.timer = none := by rw [e]; rfl
      simp only [timerStep, this]
    have h4 : c.phaseStep = c := by
      have : c.s.phase = none := by rw [e]; rfl
      simp only [phaseStep, this]
    simp only [tick, silenceStep, h1, h2, h3, h4]; exact Kept.refl hc
  · exact tick_kept (hg hs)

theorem ctx_kept {s : State} (h : s.MergeOk) {f : Ctx → Ctx} (hf : Ctx.KeepsAll f) (i : StreamIdx) :
    (s.ctx i).Kept (f (s.ctx i)) := hf _ (h.1 i).1 fun hs => ctx_good h i hs

/-- One event at one context. -/
theorem onStream_mergeOk {s : State} (h : s.MergeOk) {f : Ctx → Ctx} (hf : Ctx.KeepsAll f) (i : StreamIdx) :
    (s.onStream i f).MergeOk := put_mergeOk h (ctx_kept h hf i)

/-! ## The Notice Unit, the Transmitter and the hand-offs -/

theorem choose_same (s : State) : s.SameMerge s.choose := State.sameMerge_of (by simp) (by simp) (by simp) (by simp)

theorem takeOffers_same (s : State) (p : Block → Bool) : s.SameMerge (s.takeOffers p) :=
  State.sameMerge_of (by simp) (by simp) (by simp) (by simp)

theorem takeDelivery_mergeOk {s : State} (h : s.MergeOk) (d : Delivery) : (s.takeDelivery d).MergeOk :=
  onStream_mergeOk ((takeOffers_same s _).ok h) (Ctx.arrive_keepsAll _ _) _

theorem foldl_mergeOk {α : Type} {f : State → α → State} (hf : ∀ s a, s.MergeOk → (f s a).MergeOk) (l : List α) {s : State}
    (h : s.MergeOk) : (l.foldl f s).MergeOk := by
  induction l generalizing s with
  | nil => exact h
  | cons a l ih => exact ih (hf s a h)

theorem settleDeliveries_mergeOk {s : State} (h : s.MergeOk) (p : Delivery → Bool) : (s.settleDeliveries p).MergeOk :=
  foldl_mergeOk (fun _ d hs => takeDelivery_mergeOk hs d) _
    ((State.sameMerge_of (s := s) (t := { s with deliveries := s.deliveries.filter fun d => !p d }) rfl rfl rfl rfl).ok h)

theorem arrival_mergeOk {s : State} (h : s.MergeOk) (x : Path) (i : StreamIdx) : (arrival x i s).MergeOk := by
  unfold arrival
  split
  · exact h
  · next d rest _ =>
    exact takeDelivery_mergeOk ((State.sameMerge_of (s := s) (t := { s with deliveries := rest }) rfl rfl rfl rfl).ok h) d

theorem takeReport_mergeOk {s : State} (h : s.MergeOk) (x : Path) (i : StreamIdx) : (s.takeReport x i).MergeOk :=
  (State.sameMerge_of (s := s.onStream i fun c => c.departed x) (t := s.takeReport x i) rfl rfl rfl rfl).ok
    (onStream_mergeOk h (Ctx.departed_keepsAll x) i)

theorem linkDepartureReport_mergeOk {s : State} (h : s.MergeOk) (x : Path) (i : StreamIdx) :
    (linkDepartureReport x i s).MergeOk := by
  unfold linkDepartureReport
  split
  · exact takeReport_mergeOk ((takeOffers_same _ _).ok
      ((State.sameMerge_of (s := s) (t := { s with reports := s.reports.erase (x, i) }) rfl rfl rfl rfl).ok h)) x i
  · exact h

/-! ## Ticks and playout -/

theorem endDrain_mergeOk {s : State} (h : s.MergeOk) (i : StreamIdx) : (s.endDrain i).MergeOk := by
  unfold State.endDrain
  split
  · exact (State.sameMerge_of (s := s) rfl rfl rfl rfl).ok h
  · exact h

theorem playStream_mergeOk {s : State} (h : s.MergeOk) {f : Ctx → Ctx} (hf : Ctx.KeepsAll f) (i : StreamIdx)
    (g : Option PlayRecord → List Tick → List Tick) : (s.playStream i f g).MergeOk := by
  have h1 : (s.beforePlayout i).MergeOk := by
    unfold State.beforePlayout
    split
    · exact settleDeliveries_mergeOk h _
    · exact h
  refine endDrain_mergeOk ?_ i
  exact (State.sameMerge_of (s := (s.beforePlayout i).put (f ((s.beforePlayout i).ctx i)) (.stream i)) rfl rfl rfl rfl).ok
    (put_mergeOk h1 (ctx_kept h1 hf i))

theorem streamTick_mergeOk {s : State} (h : s.MergeOk) (i : StreamIdx) : (streamTick i s).MergeOk := by
  unfold streamTick
  split
  · exact playStream_mergeOk ((takeOffers_same _ _).ok h) Ctx.tick_keepsAll i _
  · exact h

theorem pathAbsent_mergeOk {s : State} (h : s.MergeOk) (i : StreamIdx) (x : Path) : (pathAbsent i x s).MergeOk := by
  unfold pathAbsent
  split
  · exact h
  · exact h
  · split
    · exact onStream_mergeOk h (Ctx.silencePath_keepsAll x) i
    · exact h

theorem gapTimerExpiry_mergeOk {s : State} (h : s.MergeOk) (i : StreamIdx) : (gapTimerExpiry i s).MergeOk := by
  unfold gapTimerExpiry
  split
  · exact h
  · next n hn =>
    split
    · have hs : (s.stream i).state ≠ .off := by
        intro hs
        rw [(shape_off hs).mp (h.1 i).1] at hn
        simp [Stream.toOff, Stream.reset] at hn
      exact put_mergeOk h (Ctx.expireTimer_kept (ctx_good h i hs) hn)
    · exact h

theorem playoutEvent_mergeOk {s : State} (h : s.MergeOk) (i : StreamIdx) : (playoutEvent i s).MergeOk := by
  unfold playoutEvent
  split
  · exact playStream_mergeOk h Ctx.phaseStep_keepsAll i _
  · exact h

theorem stall_mergeOk {s : State} (h : s.MergeOk) (i : StreamIdx) : (stall i s).MergeOk := by
  unfold stall
  split
  · exact playStream_mergeOk h Ctx.phaseStep_keepsAll i _
  · exact h

theorem guardExpiry_mergeOk {s : State} (h : s.MergeOk) (i : StreamIdx) : (guardExpiry i s).MergeOk := by
  unfold guardExpiry
  split
  · exact playStream_mergeOk h Ctx.phaseStep_keepsAll i _
  · exact h

theorem placeRecord_mergeOk {s : State} (h : s.MergeOk) (r : PlayRecord) : (s.placeRecord r).MergeOk := by
  unfold State.placeRecord
  split
  · exact (State.sameMerge_of (s := s) rfl rfl rfl rfl).ok h
  · exact put_mergeOk h (ctx_kept h (Ctx.count_keepsAll _) _)

theorem playoutRound_mergeOk {s : State} (h : s.MergeOk) : (playoutRound s).MergeOk := by
  unfold playoutRound
  split
  · exact h
  · split
    · exact foldl_mergeOk (fun _ r hs => placeRecord_mergeOk hs r) _ ((takeOffers_same _ _).ok
        ((State.sameMerge_of (s := s) rfl rfl rfl rfl).ok h))
    · exact h

/-! ## The other blocks -/

theorem countMgmt_same (s : State) (k : Fin 6) : s.SameMerge (s.countMgmt k) := State.sameMerge_of rfl rfl rfl rfl

theorem produceTick_same (s : State) : s.SameMerge s.produceTick := State.sameMerge_of rfl rfl rfl rfl

theorem offer_same (s : State) (b : Block) (a : Bool) (n : Notice) : s.SameMerge (s.offer b a n) :=
  State.sameMerge_of (by simp) (by simp) (by simp) (by simp)

theorem elapse_same (s : State) (us : Nat) : s.SameMerge (s.elapse us) := by
  refine ⟨rfl, rfl, rfl, Or.inl ?_⟩
  simp only [State.elapse]
  cases s.session <;> rfl

theorem edge_same (s : State) : s.SameMerge s.edge := by
  unfold State.edge
  split
  · exact State.SameMerge.refl s
  · exact State.sameMerge_of rfl rfl rfl rfl
  · split
    · exact State.SameMerge.trans (b := { s with cadence := s.cadence.edgeOk }.produceTick) (State.sameMerge_of rfl rfl rfl rfl)
        (offer_same _ _ _ _)
    · exact State.sameMerge_of rfl rfl rfl rfl

theorem putLink_same (s : State) (c : LinkCtx) : s.SameMerge (s.putLink c) := by
  refine State.sameMerge_of ?_ ?_ ?_ ?_ <;> simp [State.putLink]

theorem linkByte_mergeOk {s : State} (h : s.MergeOk) (x : Path) (b : Byte) : (linkByte x b s).MergeOk := (putLink_same _ _).ok h

theorem wordTransfer_mergeOk {s : State} (h : s.MergeOk) : (wordTransfer s).MergeOk :=
  (State.sameMerge_of (s := s) rfl rfl rfl rfl).ok h

theorem noticeOffer_mergeOk {s : State} (h : s.MergeOk) (b : Block) : (noticeOffer b s).MergeOk := by
  unfold noticeOffer
  split
  · exact h
  · split
    · exact (State.sameMerge_of (s := s) (by simp) (by simp) (by simp) (by simp)).ok h
    · exact h

theorem goodFrameReport_mergeOk {s : State} (h : s.MergeOk) : (goodFrameReport s).MergeOk := by
  unfold goodFrameReport
  split
  · exact h
  · exact (State.sameMerge_of (s := s) (by simp) (by simp) (by simp) (by simp)).ok h

theorem mgmtByte_mergeOk {s : State} (h : s.MergeOk) (b : Byte) (stop : Bool) : (mgmtByte b stop s).MergeOk := by
  unfold mgmtByte
  split
  · refine (State.sameMerge_of (s := s) ?_ ?_ ?_ ?_).ok h <;> simp [State.takeMgmtByte]
  · exact h

theorem closeSession_same (s : State) : s.SameMerge s.closeSession := ⟨rfl, rfl, rfl, Or.inr rfl⟩

/-! ## The reference clock -/

theorem loseCadence_same (s : State) : s.SameMerge s.loseCadence := by
  unfold State.loseCadence
  split
  · exact State.SameMerge.refl s
  · exact State.SameMerge.refl s
  · exact State.sameMerge_of (by simp) (by simp) (by simp) (by simp)

theorem retryExpired_same (s : State) : s.SameMerge s.retryExpired := by
  unfold State.retryExpired
  split
  · exact State.sameMerge_of (by simp) (by simp) (by simp) (by simp)
  · exact State.sameMerge_of rfl rfl rfl rfl

theorem editExpired_same (s : State) : s.SameMerge s.editExpired := (closeSession_same s).trans (offer_same _ _ _ _)

/-- The expiries keep the invariant, and so does settling what is due. -/
theorem dues_mergeOk : State.DuesKeep State.MergeOk := State.duesKeep (fun s x => (putLink_same s _).ok)
  (fun s => (loseCadence_same s).ok) (fun _ => (State.sameMerge_of rfl rfl rfl rfl).ok)
  (fun _ => (State.sameMerge_of rfl rfl rfl rfl).ok) (fun s => (editExpired_same s).ok) (fun s => (retryExpired_same s).ok)

theorem pass_mergeOk {s : State} (h : s.MergeOk) (us : Nat) : (s.pass us).MergeOk :=
  State.pass_keeps dues_mergeOk.settle (fun s us => (elapse_same s us).ok) us h

theorem atEnd_mergeOk {s : State} (h : s.MergeOk) {f : State → State} (hf : ∀ s : State, s.MergeOk → (f s).MergeOk)
    (left : Option Nat) : (s.atEnd left f).MergeOk := State.atEnd_keeps (fun _ us h => pass_mergeOk h us) hf left h

theorem idle_mergeOk {s : State} (h : s.MergeOk) : (idle s).MergeOk := pass_mergeOk ((choose_same s).ok h) 1

theorem cadenceEdge_mergeOk {s : State} (h : s.MergeOk) (us : Nat) : (cadenceEdge us s).MergeOk :=
  (edge_same _).ok (pass_mergeOk h us)

theorem linkSilence_mergeOk {s : State} (h : s.MergeOk) (x : Path) : (linkSilence x s).MergeOk :=
  atEnd_mergeOk h (fun t => dues_mergeOk.silence t x) _

theorem cadenceLoss_mergeOk {s : State} (h : s.MergeOk) : (cadenceLoss s).MergeOk := atEnd_mergeOk h dues_mergeOk.loss _

theorem generatorTick_mergeOk {s : State} (h : s.MergeOk) : (generatorTick s).MergeOk := atEnd_mergeOk h dues_mergeOk.generator _

theorem byteGapExpiry_mergeOk {s : State} (h : s.MergeOk) : (byteGapExpiry s).MergeOk :=
  atEnd_mergeOk h dues_mergeOk.gap _

theorem editExpiry_mergeOk {s : State} (h : s.MergeOk) : (editExpiry s).MergeOk := atEnd_mergeOk h dues_mergeOk.edit _

theorem retryExpiry_mergeOk {s : State} (h : s.MergeOk) : (retryExpiry s).MergeOk :=
  atEnd_mergeOk h dues_mergeOk.retry _

/-! ## Requests -/

theorem beginRequest_same (s : State) (f : MgmtFrame) : s.SameMerge (s.beginRequest f) :=
  State.sameMerge_of (by simp) (by simp) (by simp) (by simp)

theorem endRequest_same (s : State) (f : MgmtFrame) (a : Answer) : s.SameMerge (s.endRequest f a) :=
  State.sameMerge_of (by simp) (by simp) (by simp) (by simp)

/-- A request keeps the invariant if its effect at its block does. -/
theorem serve_mergeOk {s : State} (h : s.MergeOk) (kind : Byte) (len : Nat) {g : List Byte → State → State × Answer}
    (hg : ∀ body t, t.MergeOk → body.length = len → (g body t).1.MergeOk) : (s.serve kind len g).MergeOk := by
  unfold State.serve
  split
  · exact h
  · next f _ =>
    have h1 := (beginRequest_same s f).ok h
    simp only
    split
    · next hl => exact (endRequest_same _ _ _).ok (hg _ _ h1 hl)
    · exact (endRequest_same _ _ _).ok h1

theorem unknownKind_mergeOk {s : State} (h : s.MergeOk) : (unknownKind s).MergeOk := by
  unfold unknownKind
  split
  · exact h
  · exact (endRequest_same _ _ _).ok ((beginRequest_same _ _).ok h)

theorem readStream_mergeOk {s : State} (h : s.MergeOk) (body : List Byte) : (readStream body s).1.MergeOk := by
  unfold readStream
  split
  · exact h
  · simp only
    split
    · exact h
    · exact h
    · split <;> exact h

theorem clearStreamCounters_mergeOk {s : State} (h : s.MergeOk) (i : StreamIdx) : (s.clearStreamCounters i).MergeOk := by
  have k : (s.ctx i).Kept { s.ctx i with s := { s.stream i with counters := Vector.replicate 24 Counter.zero } } :=
    Ctx.kept_of_parts (h.1 i).1 rfl rfl rfl ⟨_, rfl⟩
  have := put_mergeOk (b := .stream i) h k
  exact (State.sameMerge_of (t := s.clearStreamCounters i)
    (s := s.put { s.ctx i with s := { s.stream i with counters := Vector.replicate 24 Counter.zero } } (.stream i)) rfl rfl rfl rfl).ok this

theorem readCounters_mergeOk {s : State} (h : s.MergeOk) (body : List Byte) : (readCounters body s).1.MergeOk := by
  unfold readCounters
  split
  · exact h
  · split
    · exact h
    · next c _ => cases c
                  · exact h
                  · exact clearStreamCounters_mergeOk h _

theorem readLink_mergeOk {s : State} (h : s.MergeOk) (body : List Byte) : (readLink body s).1.MergeOk := by
  unfold readLink
  split
  · exact h
  · split
    · exact h
    · next x _ _ c _ =>
      cases c
      · exact h
      · exact (State.sameMerge_of (s := s) (by simp) (by simp) (by simp) (by simp)).ok h

theorem readDevice_mergeOk {s : State} (h : s.MergeOk) (body : List Byte) : (readDevice body s).1.MergeOk := by
  unfold readDevice
  split
  · exact h
  · exact h
  · split <;> exact h

theorem readMgmt_mergeOk {s : State} (h : s.MergeOk) (body : List Byte) : (readMgmt body s).1.MergeOk := by
  unfold readMgmt
  split
  · exact h
  · next c _ =>
    cases c
    · exact h
    · exact (State.sameMerge_of (s := s) rfl rfl rfl rfl).ok h

theorem openEdit_mergeOk {s : State} (h : s.MergeOk) (body : List Byte) : (openEdit body s).1.MergeOk := by
  unfold openEdit
  split
  · exact h
  · split
    · obtain ⟨h1, ⟨h2, h3, h4, h5⟩, h6⟩ := h
      refine ⟨h1, ⟨h2, h3, h4, fun e he => ?_⟩, h6⟩
      obtain rfl := Option.some.inj he
      exact ⟨h2, h3⟩
    · exact (countMgmt_same s _).ok h

theorem firstFailing_none {l : List (Nat × Bool)} (h : firstFailing l = none) : ∀ p ∈ l, p.2 = true := by
  unfold firstFailing at h
  rw [Option.map_eq_none_iff, List.find?_eq_none] at h
  intro p hp
  simpa using h p hp

/-- A record whose body passes every check satisfies every range (01 R2). -/
theorem streamRecordOf_wf {b : List Byte} (h : firstFailing (streamRecordChecks b) = none) : (streamRecordOf b).wf = true := by
  have hp := firstFailing_none h
  simp only [streamRecordChecks, List.forall_mem_cons, inRange, decide_eq_true_eq, Bool.and_eq_true] at hp
  obtain ⟨h0, h1, h2, h3, h4, h5, h6, h7, h8, h9, h10, h11, h12, h13, h14⟩ := hp
  refine (wf_iff _).mpr ⟨h3, h4, h5.1, h6, h5.2, h7, ?_, ?_, h11, h12⟩ <;>
  · simp only [streamRecordOf]
    have := (byteAt b 9).isLt
    have := (byteAt b 10).isLt
    omega

theorem deviceRecordOf_wf {b : List Byte} (h : firstFailing (deviceRecordChecks b) = none) : (deviceRecordOf b).wf = true := by
  have hp := firstFailing_none h
  simp only [deviceRecordChecks, List.forall_mem_cons, inRange, decide_eq_true_eq] at hp
  obtain ⟨h0, h1, h2, h3⟩ := hp
  simp only [DeviceRecord.wf, deviceRecordOf, Bool.and_eq_true]
  exact ⟨decide_eq_true h1, decide_eq_true h2⟩

theorem stageStream_mergeOk {s : State} (h : s.MergeOk) (body : List Byte) : (stageStream body s).1.MergeOk := by
  unfold stageStream
  split
  · exact h
  · next e he =>
    split
    · exact h
    · next i _ =>
      split
      · exact h
      · next hc =>
        obtain ⟨h1, ⟨h2, h3, h4, h5⟩, h6⟩ := h
        refine ⟨h1, ⟨h2, h3, h4, fun e' he' => ?_⟩, h6⟩
        obtain rfl := Option.some.inj he'
        refine ⟨fun j => ?_, (h5 e he).2⟩
        by_cases hj : j = i
        · subst hj; simp only [ConfigSet.setRecord_record]; exact streamRecordOf_wf hc
        · simp only [ConfigSet.setRecord_record_ne _ _ hj]; exact (h5 e he).1 j

theorem stageDevice_mergeOk {s : State} (h : s.MergeOk) (body : List Byte) : (stageDevice body s).1.MergeOk := by
  unfold stageDevice
  split
  · exact h
  · next e he =>
    split
    · exact h
    · next hc =>
      obtain ⟨h1, ⟨h2, h3, h4, h5⟩, h6⟩ := h
      refine ⟨h1, ⟨h2, h3, h4, fun e' he' => ?_⟩, h6⟩
      obtain rfl := Option.some.inj he'
      exact ⟨(h5 e he).1, deviceRecordOf_wf hc⟩

theorem discardEdit_mergeOk {s : State} (h : s.MergeOk) (body : List Byte) : (discardEdit body s).1.MergeOk := by
  unfold discardEdit
  split
  · exact h
  · exact (closeSession_same s).ok h

theorem forceResync_mergeOk {s : State} (h : s.MergeOk) (body : List Byte) : (forceResync body s).1.MergeOk := by
  unfold forceResync
  split
  · exact h
  · split
    · exact h
    · exact h
    all_goals exact onStream_mergeOk h Ctx.force_keepsAll _

theorem ackNotice_mergeOk {s : State} (h : s.MergeOk) (body : List Byte) : (ackNotice body s).1.MergeOk := by
  unfold ackNotice
  split
  · exact h
  · exact (State.sameMerge_of (s := s) rfl rfl rfl rfl).ok h

theorem restartRequest_mergeOk {s : State} (h : s.MergeOk) (body : List Byte) : (restartRequest body s).1.MergeOk := by
  unfold restartRequest
  split
  · exact (State.sameMerge_of (s := s) rfl rfl rfl rfl).ok h
  · exact (countMgmt_same _ _).ok ((closeSession_same s).ok h)

/-! ## Resets -/

theorem fresh_mergeOk (c : ResetCause) (r : LineRate) : (State.fresh c r).MergeOk := by
  have hoff : Stream.reset = Stream.reset.toOff := rfl
  refine ⟨fun i => ?_, ⟨fun i => ?_, rfl, fun i r hr => ?_, fun e he => ?_⟩, ?_, ?_⟩
  · refine ⟨?_, ?_⟩
    · rw [State.fresh_stream]; exact (shape_off (s := Stream.reset) rfl).mpr hoff
    · rw [State.fresh_stream]
      show (ConfigSet.default.record i).enable = _
      rw [ConfigSet.default_record]; rfl
  · show (ConfigSet.default.record i).wf = true
    rw [ConfigSet.default_record]; rfl
  · rw [State.fresh_stream] at hr; simp [Stream.reset] at hr
  · simp [State.fresh] at he
  · have : (State.fresh c r).heldSlots = 0 := by
      simp only [State.heldSlots, State.fresh_stream]
      decide
    rw [this]; rfl
  · have : (State.fresh c r).slotBound = fun _ => 0 := by
      funext i; simp only [State.slotBound, State.fresh_stream]; rfl
    rw [this]; simp

theorem powerOn_mergeOk (r1 r0 : Bool) (s : State) : (powerOn r1 r0 s).MergeOk :=
  (State.sameMerge_of (s := State.fresh .powerOn (rateOfStraps r1 r0)) rfl rfl rfl rfl).ok (fresh_mergeOk _ _)

theorem hardReset_mergeOk (r1 r0 : Bool) (s : State) : (hardReset r1 r0 s).MergeOk :=
  (State.sameMerge_of (s := State.fresh .hard (rateOfStraps r1 r0)) rfl rfl rfl rfl).ok (fresh_mergeOk _ _)

end Sys2Proof.Machine
end

