-- ==== Sys2Proof/Laws/Changes.lean ====
section
/-! SUPPORT. What each change of 08 R149 leaves at a context: the shape under the record in force after the commit, and the slot balance. -/

namespace Sys2Proof.Machine

/-! ## Renewal and cut -/

theorem Ctx.renew_parts (c : Ctx) : c.renew.idx = c.idx ∧ c.renew.cfg = c.cfg ∧ c.renew.total = c.total ∧
    c.renew.s.state = .acquire := by
  have ht : (c.flushWindow.flushQueue.freeAcq.freeJump).total = c.total := by
    rw [freeJump_total, freeAcq_total, flushQueue_total, flushWindow_total]
  refine ⟨by simp [renew], by simp [renew], ?_, rfl⟩
  rw [← ht]
  simp [renew, total, Stream.held, Stream.renewed]

theorem Ctx.renew_shape {c : Ctx} {cfg : StreamRecord} (hwf : cfg.wf = true) : c.renew.s.ShapeOk cfg := by
  have h := (wf_iff _).mp hwf
  exact (shape_acquire rfl).mpr ⟨rfl, rfl, rfl, rfl, rfl, rfl, rfl, rfl, 0, rfl, by omega⟩

theorem Ctx.cutOff_parts (c : Ctx) : c.cutOff.idx = c.idx ∧ c.cutOff.cfg = c.cfg ∧ c.cutOff.total = c.total ∧
    c.cutOff.s.state = .off := by
  have ht : (c.flushWindow.flushQueue.freeAcq.freeJump).total = c.total := by
    rw [freeJump_total, freeAcq_total, flushQueue_total, flushWindow_total]
  refine ⟨by simp [cutOff], by simp [cutOff], ?_, by simp [cutOff, Stream.toOff, Stream.reset]⟩
  unfold cutOff
  rw [noteState_total, ← ht]
  simp [total, Stream.held, Stream.toOff, Stream.reset]

theorem Ctx.cutOff_shape (c : Ctx) (cfg : StreamRecord) : c.cutOff.s.ShapeOk cfg := by
  refine (shape_off (by simp [cutOff, Stream.toOff, Stream.reset])).mpr ?_
  simp [cutOff, Stream.toOff]

/-! ## The trim of an in-place change -/

theorem Ctx.dropHead_pool (c : Ctx) : c.dropHead.pool = c.pool := by
  have := c.dropHead_slots
  simp only [pool, dropHead_s_window]; omega

theorem Ctx.dropHeads_spec (n : Nat) (c : Ctx) : (c.dropHeads n).idx = c.idx ∧ (c.dropHeads n).cfg = c.cfg ∧
    (c.dropHeads n).pool = c.pool ∧
    ∃ k, (c.dropHeads n).s = { c.s with queue := c.s.queue.drop n, counters := k } := by
  induction n generalizing c with
  | zero => exact ⟨rfl, rfl, rfl, c.s.counters, by simp [dropHeads]⟩
  | succ n ih =>
    obtain ⟨h1, h2, h3, k, h4⟩ := ih c.dropHead
    refine ⟨by simpa [dropHeads] using h1, by simpa [dropHeads] using h2, h3.trans c.dropHead_pool, k, ?_⟩
    have : c.dropHead.s = { c.s with queue := c.s.queue.tail, counters := c.dropHead.s.counters } := by
      have hq := c.dropHead_queue
      generalize hd : c.dropHead.s = d at *
      have e1 := c.dropHead_s_state; have e2 := c.dropHead_s_drain; have e3 := c.dropHead_s_base
      have e4 := c.dropHead_s_window; have e5 := c.dropHead_s_history; have e6 := c.dropHead_s_acq
      have e7 := c.dropHead_s_jump; have e8 := c.dropHead_s_guard; have e9 := c.dropHead_s_timer
      have e10 := c.dropHead_s_pathA; have e11 := c.dropHead_s_pathB; have e12 := c.dropHead_s_run
      have e13 := c.dropHead_s_last; have e14 := c.dropHead_s_phase
      rw [hd] at e1 e2 e3 e4 e5 e6 e7 e8 e9 e10 e11 e12 e13 e14
      cases d; cases hc : c.s
      simp_all
    show (c.dropHead.dropHeads n).s = _
    rw [h4, this]
    simp

theorem Ctx.trimToTrim_spec (c : Ctx) : c.trimToTrim.idx = c.idx ∧ c.trimToTrim.cfg = c.cfg ∧
    c.trimToTrim.total = c.total ∧ c.trimToTrim.s.queue.length ≤ c.cfg.trim ∧
    ∃ k q, c.trimToTrim.s = { c.s with queue := q, counters := k } ∧ (c.s.queue = [] → q = []) := by
  obtain ⟨h1, h2, h3, k, h4⟩ := dropHeads_spec (c.s.queue.length - c.cfg.trim) c
  refine ⟨h1, h2, ?_, ?_, k, _, h4, fun h => by simp [h]⟩
  · rw [total_eq, total_eq, show c.trimToTrim.pool = c.pool from h3]
    simp only [trimToTrim, h4]
  · simp only [trimToTrim, h4, List.length_drop]; omega

/-- An in-place change keeps the shape: the restart-class fields are the same, and the queue is within the new TRIM. -/
theorem Ctx.trimToTrim_shape {c : Ctx} {old : StreamRecord} (h : c.s.ShapeOk old) (hl : c.s.state.live = true)
    (hw : c.cfg.window = old.window) (hk : c.cfg.divisor = old.divisor) : c.trimToTrim.s.ShapeOk c.cfg := by
  obtain ⟨_, _, _, hq, k, q, he, hnil⟩ := trimToTrim_spec c
  rw [he] at hq ⊢
  simp only at hq
  cases hs : c.s.state with
  | off => rw [hs] at hl; simp [StreamState.live] at hl
  | draining => rw [hs] at hl; simp [StreamState.live] at hl
  | acquire =>
    obtain ⟨h1, h2, h3, h4, h5, h6, h7, h8, h9⟩ := (shape_acquire hs).mp h
    exact (shape_acquire (s := { c.s with queue := q, counters := k }) hs).mpr ⟨h1, h2, h3, hnil h4, h5, h6, h7, h8, by rw [hk]; exact h9⟩
  | stalled =>
    obtain ⟨h1, h2, h3, h4, h5, h6, h7, h8, h9, h10⟩ := (shape_stalled hs).mp h
    exact (shape_stalled (s := { c.s with queue := q, counters := k }) hs).mpr ⟨h1, h2, h3, hnil h4, h5, h6, h7, h8, h9, by rw [hk]; exact h10⟩
  | priming =>
    have hp : c.s.state.playing = true := by rw [hs]; rfl
    obtain ⟨h1, h2, h3, h4, h5, h6, h7, h8⟩ := (shape_playing hp).mp h
    exact (shape_playing (s := { c.s with queue := q, counters := k }) hp).mpr
      ⟨h1, h2, by rw [hw]; exact h3, hq, h5, h6, h7, by rw [hk]; exact h8⟩
  | running =>
    have hp : c.s.state.playing = true := by rw [hs]; rfl
    obtain ⟨h1, h2, h3, h4, h5, h6, h7, h8⟩ := (shape_playing hp).mp h
    exact (shape_playing (s := { c.s with queue := q, counters := k }) hp).mpr
      ⟨h1, h2, by rw [hw]; exact h3, hq, h5, h6, h7, by rw [hk]; exact h8⟩

/-! ## Drain forwarding -/

/-- A context under drain forwarding with `m` positions left: its held frames lie at distance 0..m-1 from the base. -/
structure Ctx.Fwd (m : Nat) (c : Ctx) : Prop where
  base : ∃ e, c.s.base = some e ∧ ∀ v ∈ c.s.window, dist v.seq e < m
  nodup : (c.s.window.map WindowEntry.seq).Nodup
  history : c.s.history.length = Config.historyDepth

/-- What drain forwarding leaves alone. -/
structure Ctx.FwdSame (c c' : Ctx) : Prop where
  idx : c'.idx = c.idx
  cfg : c'.cfg = c.cfg
  drain : c'.s.drain = c.s.drain
  acq : c'.s.acq = c.s.acq
  jump : c'.s.jump = c.s.jump
  guard : c'.s.guard = c.s.guard
  timer : c'.s.timer = c.s.timer
  phase : c'.s.phase = c.s.phase
  pool : c'.pool = c.pool

theorem Ctx.FwdSame.trans {a b c : Ctx} (h : a.FwdSame b) (k : b.FwdSame c) : a.FwdSame c :=
  ⟨k.1.trans h.1, k.2.trans h.2, k.3.trans h.3, k.4.trans h.4, k.5.trans h.5, k.6.trans h.6, k.7.trans h.7, k.8.trans h.8,
   k.9.trans h.9⟩

theorem Ctx.forwardOne_spec {c : Ctx} {m : Nat} (h : c.Fwd (m + 1)) :
    c.forwardOne.Fwd m ∧ c.FwdSame c.forwardOne ∧ c.forwardOne.s.queue.length = c.s.queue.length + 1 := by
  obtain ⟨⟨e, hb, hw⟩, hn, hh⟩ := h
  unfold forwardOne
  simp only [hb]
  split
  · next w hw' =>
    obtain ⟨hm, rfl⟩ := heldAt_some hw'
    have hlen := removed_length hn hm
    refine ⟨⟨⟨w.seq + 1, by simp [hb], fun v hv => ?_⟩, ?_, ?_⟩, ?_, ?_⟩
    · simp only [count_s_window, advance_s_window, append_s_window, removeHeld_s_window, List.mem_filter] at hv
      have h1 := hw v hv.1
      have h2 := dist_succ (s := v.seq) (e := w.seq) (by simpa using hv.2)
      omega
    · simp only [count_s_window, advance_s_window, append_s_window, removeHeld_s_window]
      exact hn.sublist (List.Sublist.map _ List.filter_sublist)
    · simp [hh]
    · constructor <;> simp [pool]
      omega
    · simp
  · next hnone =>
    have hne := heldAt_none_iff.mp hnone
    refine ⟨⟨⟨e + 1, by simp [hb], fun v hv => ?_⟩, ?_, ?_⟩, ?_, ?_⟩
    · simp only [count_s_window, advance_s_window, append_s_window] at hv
      have h1 := hw v hv
      have h2 := dist_succ (hne v hv)
      omega
    · simpa using hn
    · simp [hh]
    · constructor <;> simp [pool]
    · simp

theorem Ctx.forward_spec (m : Nat) {c : Ctx} (h : c.Fwd m) :
    (c.forward m).Fwd 0 ∧ c.FwdSame (c.forward m) ∧ (c.forward m).s.queue.length = c.s.queue.length + m := by
  induction m generalizing c with
  | zero => exact ⟨h, ⟨rfl, rfl, rfl, rfl, rfl, rfl, rfl, rfl, rfl⟩, rfl⟩
  | succ m ih =>
    obtain ⟨h1, h2, h3⟩ := forwardOne_spec h
    obtain ⟨k1, k2, k3⟩ := ih h1
    exact ⟨k1, h2.trans k2, by simp only [forward]; rw [k3, h3]; omega⟩

/-! ## The entry to DRAINING -/

theorem foldl_max_le {e : Seq} {b : Nat} (l : List WindowEntry) (n : Nat) (hn : n ≤ b) (h : ∀ v ∈ l, dist v.seq e + 1 ≤ b) :
    l.foldl (fun n w => max n (dist w.seq e + 1)) n ≤ b := by
  induction l generalizing n with
  | nil => exact hn
  | cons a l ih =>
    exact ih _ (Nat.max_le.mpr ⟨hn, h a (by simp)⟩) fun v hv => h v (by simp [hv])

theorem le_foldl_max {e : Seq} (l : List WindowEntry) (n : Nat) :
    n ≤ l.foldl (fun n w => max n (dist w.seq e + 1)) n ∧
    ∀ v ∈ l, dist v.seq e + 1 ≤ l.foldl (fun n w => max n (dist w.seq e + 1)) n := by
  induction l generalizing n with
  | nil => simp
  | cons a l ih =>
    obtain ⟨h1, h2⟩ := ih (max n (dist a.seq e + 1))
    simp only [List.foldl_cons]
    refine ⟨by omega, fun v hv => ?_⟩
    rcases List.mem_cons.mp hv with rfl | hv
    · omega
    · exact h2 v hv

/-- What the entry to DRAINING leaves, from a live state. -/
theorem Ctx.enterDrain_spec {c : Ctx} (h : c.s.ShapeOk c.cfg) (hwf : c.cfg.wf = true) (hl : c.s.state.live = true) :
    c.enterDrain.idx = c.idx ∧ c.enterDrain.total = c.total ∧ c.enterDrain.s.state = .draining ∧
    c.enterDrain.s.drain = some c.cfg ∧ c.enterDrain.s.ShapeOk c.cfg := by
  have w := (wf_iff _).mp hwf
  -- the parts that the entry starts from
  have hstart : (∃ e, c.drainBase.s.base = some e ∧ ∀ v ∈ c.s.window, 1 ≤ dist v.seq e ∧ dist v.seq e < c.cfg.window) ∧
      (c.s.window.map WindowEntry.seq).Nodup ∧ c.s.queue.length ≤ c.cfg.trim ∧ c.s.history.length = Config.historyDepth ∧
      (∃ p, c.s.phase = some p ∧ p < c.cfg.divisor) := by
    cases hs : c.s.state with
    | off => rw [hs] at hl; simp [StreamState.live] at hl
    | draining => rw [hs] at hl; simp [StreamState.live] at hl
    | acquire =>
      obtain ⟨h1, h2, h3, h4, h5, h6, h7, h8, h9⟩ := (shape_acquire hs).mp h
      exact ⟨⟨_, by simp only [drainBase, hs, if_true]; rfl, by simp [h3]⟩, by simp [h3], by simp [h4], by simp [h8], h9⟩
    | stalled =>
      obtain ⟨h1, ⟨e, h2⟩, h3, h4, h5, h6, h7, h8, h9, h10⟩ := (shape_stalled hs).mp h
      exact ⟨⟨e, by simp [drainBase, hs, h2], by simp [h3]⟩, by simp [h3], by simp [h4], h9, h10⟩
    | priming =>
      obtain ⟨h1, h2, ⟨e, h3, h3'⟩, h4, h5, h6, h7, h8⟩ := (shape_playing (by rw [hs]; rfl)).mp h
      exact ⟨⟨e, by simp [drainBase, hs, h3], h3'.1⟩, h3'.2, h4, h7, h8⟩
    | running =>
      obtain ⟨h1, h2, ⟨e, h3, h3'⟩, h4, h5, h6, h7, h8⟩ := (shape_playing (by rw [hs]; rfl)).mp h
      exact ⟨⟨e, by simp [drainBase, hs, h3], h3'.1⟩, h3'.2, h4, h7, h8⟩
  obtain ⟨⟨e, hb, hw⟩, hn, hq, hh, hp⟩ := hstart
  have hdb : c.drainBase.idx = c.idx ∧ c.drainBase.cfg = c.cfg ∧ c.drainBase.total = c.total ∧
      c.drainBase.s.window = c.s.window ∧ c.drainBase.s.queue = c.s.queue ∧ c.drainBase.s.history = c.s.history ∧
      c.drainBase.s.phase = c.s.phase := by
    unfold drainBase; split
    · exact ⟨rfl, rfl, rfl, rfl, rfl, rfl, rfl⟩
    · exact ⟨rfl, rfl, rfl, rfl, rfl, rfl, rfl⟩
  obtain ⟨d1, d2, d3, d4, d5, d6, d7⟩ := hdb
  -- after the candidates are freed and the drain record is set
  let c1 := c.drainBase.freeAcq.freeJump
  let c2 := { c1 with s := { c1.s with drain := some c1.cfg, guard := none, timer := none } }
  have ht2 : c2.total = c.total := by
    have : c1.total = c.total := by simp only [c1]; rw [freeJump_total, freeAcq_total, d3]
    rw [← this]; rfl
  have hacq : c2.s.acq = none := by simp [c2, c1]
  have hjump : c2.s.jump = none := by simp [c2, c1]
  have hbase : c2.s.base = some e := by simp [c2, c1, hb]
  have hwin : c2.s.window = c.s.window := by simp [c2, c1, d4]
  have hque : c2.s.queue = c.s.queue := by simp [c2, c1, d5]
  have hcfg : c2.cfg = c.cfg := by simp [c2, c1, d2]
  have hspan : c2.s.forwardSpan = c.s.window.foldl (fun n w => max n (dist w.seq e + 1)) 0 := by
    simp only [Stream.forwardSpan, hbase, hwin]
  have hle : c2.s.forwardSpan ≤ c.cfg.window := by
    rw [hspan]; exact foldl_max_le _ _ (by omega) fun v hv => by have := (hw v hv).2; omega
  have hcov : ∀ v ∈ c.s.window, dist v.seq e < c2.s.forwardSpan := by
    rw [hspan]; intro v hv; have := (le_foldl_max (e := e) c.s.window 0).2 v hv; omega
  -- the one drop
  let c3 := if c2.cfg.trim + c2.cfg.window - 1 < c2.s.queue.length + c2.s.forwardSpan then c2.dropHead else c2
  have h3 : c3.Fwd c2.s.forwardSpan ∧ c2.FwdSame c3 ∧
      c3.s.queue.length + c2.s.forwardSpan ≤ c.cfg.trim + c.cfg.window - 1 := by
    simp only [c3, hcfg, hque]
    split
    · refine ⟨⟨⟨e, by simp [hbase], ?_⟩, ?_, ?_⟩, ?_, ?_⟩
      · rw [dropHead_s_window, hwin]; exact hcov
      · rw [dropHead_s_window, hwin]; exact hn
      · simp [c2, c1, d6, hh]
      · exact ⟨by simp, by simp, by simp, by simp, by simp, by simp, by simp, by simp, dropHead_pool c2⟩
      · rw [dropHead_queue, hque, List.length_tail]
        omega
    · refine ⟨⟨⟨e, hbase, by rw [hwin]; exact hcov⟩, by rw [hwin]; exact hn, by simp [c2, c1, d6, hh]⟩,
        ⟨rfl, rfl, rfl, rfl, rfl, rfl, rfl, rfl, rfl⟩, ?_⟩
      rw [hque]; omega
  obtain ⟨f1, f2, f3⟩ := h3
  obtain ⟨g1, g2, g3⟩ := forward_spec _ f1
  have hsame := f2.trans g2
  let c4 := c3.forward c2.s.forwardSpan
  have hdef : c.enterDrain = { c4 with s := { c4.s with state := .draining } }.noteState .disabled := rfl
  have hempty : c4.s.window = [] := by
    obtain ⟨⟨e', _, hw'⟩, _, _⟩ := g1
    cases hc : c4.s.window with
    | nil => rfl
    | cons v l => exact absurd (hw' v (by rw [show (c3.forward _).s.window = _ from hc]; simp)) (by omega)
  rw [hdef]
  refine ⟨?_, ?_, by simp, ?_, ?_⟩
  · simp only [noteState_idx]
    rw [show c4.idx = c2.idx from hsame.idx]; simp [c2, c1, d1]
  · rw [noteState_total]
    show c4.total = c.total
    rw [← ht2, total_eq, total_eq, show c4.pool = c2.pool from hsame.pool, show c4.s.acq = c2.s.acq from hsame.acq,
      show c4.s.jump = c2.s.jump from hsame.jump]
  · simp only [noteState_s]
    rw [show c4.s.drain = c2.s.drain from hsame.drain]; simp [c2, c1, d2]
  · refine (shape_draining (by simp)).mpr ?_
    simp only [noteState_s]
    obtain ⟨⟨e', hb', _⟩, _, hh'⟩ := g1
    refine ⟨⟨_, hsame.drain⟩, ⟨e', hb'⟩, hempty, ?_, ?_, ?_, ?_, ?_, hh', ?_⟩
    · rw [show c4.s.queue.length = c3.s.queue.length + c2.s.forwardSpan from g3]; exact f3
    · rw [show c4.s.acq = c2.s.acq from hsame.acq]; exact hacq
    · rw [show c4.s.jump = c2.s.jump from hsame.jump]; exact hjump
    · rw [show c4.s.guard = c2.s.guard from hsame.guard]
    · rw [show c4.s.timer = c2.s.timer from hsame.timer]
    · rw [show c4.s.phase = c2.s.phase from hsame.phase]
      simp [c2, c1, d7, hp]

end Sys2Proof.Machine
end

