-- ==== Sys2Proof/Laws/Commit.lean ====
section
/-! SUPPORT. A commit and a RESTART keep the invariant of the merging machinery; what a commit does to each stream. -/

namespace Sys2Proof.Machine

/-! ## One stream's change -/

theorem recordAfter_wf {s : State} (h : s.RecordsOk) {new : ConfigSet} {i : StreamIdx} (hn : (new.record i).wf = true) :
    (s.recordAfter new i).wf = true := by
  unfold State.recordAfter
  split
  · exact h.1 i
  · split
    · exact inForce_wf h i
    · exact hn
  all_goals exact hn

/-- Stream i's context at the start of its change, with `free` slots free. -/
def State.ctxAfter (s : State) (new : ConfigSet) (i : StreamIdx) (free : Nat) : Ctx :=
  { s.ctx i with cfg := s.recordAfter new i, free := free }

/-- What a commit leaves at stream i: `c'` is its context after its change. -/
structure Changed (s : State) (new : ConfigSet) (i : StreamIdx) (free : Nat) (c' : Ctx) : Prop where
  idx : c'.idx = i
  total : c'.total = free + (s.stream i).held
  shape : c'.s.ShapeOk (s.recordAfter new i)
  live : c'.s.state.live = (new.record i).enable
  drain : c'.s.state = .draining → c'.s.drain = some (s.recordAfter new i)
  record : c'.s.state ≠ .off → c'.s.state ≠ .draining → s.recordAfter new i = new.record i
  off : c'.s.state ≠ .off → s.offAfter new i = false
  bound : (s.recordAfter new i).wf = true

theorem renew_changed {s : State} {new : ConfigSet} {i : StreamIdx} {free : Nat} {cause : Cause}
    (hw : (s.recordAfter new i).wf = true) (he : (new.record i).enable = true) (hc : s.change new i = .renew cause) :
    Changed s new i free ((Change.renew cause).apply (s.ctxAfter new i free)) := by
  have hr : s.recordAfter new i = new.record i := by simp only [State.recordAfter, hc]
  obtain ⟨h1, h2, h3, h4⟩ := Ctx.renew_parts (s.ctxAfter new i free)
  refine ⟨?_, ?_, ?_, ?_, ?_, fun _ _ => hr, fun _ => by simp only [State.offAfter, hc], hw⟩
  · simp only [Change.apply, Ctx.noteState_idx, h1]; rfl
  · simp only [Change.apply, Ctx.noteState_total, h3]; rfl
  · simp only [Change.apply, Ctx.noteState_s]; exact Ctx.renew_shape hw
  · simp only [Change.apply, Ctx.noteState_s, h4, he, StreamState.live]
  · intro h0; simp only [Change.apply, Ctx.noteState_s, h4] at h0; cases h0

theorem cut_changed {s : State} {new : ConfigSet} {i : StreamIdx} {free : Nat}
    (hw : (s.recordAfter new i).wf = true) (he : (new.record i).enable = false) :
    Changed s new i free (Change.cut.apply (s.ctxAfter new i free)) := by
  obtain ⟨h1, h2, h3, h4⟩ := Ctx.cutOff_parts (s.ctxAfter new i free)
  refine ⟨h1, h3, Ctx.cutOff_shape _ _, ?_, ?_, fun h0 => absurd h4 h0, fun h0 => absurd h4 h0, hw⟩
  · simp only [Change.apply, h4, he, StreamState.live]
  · intro h0; simp only [Change.apply, h4] at h0; cases h0

theorem live_ne {st : StreamState} (h : st.live = true) : st ≠ .off ∧ st ≠ .draining := by
  cases st <;> simp_all [StreamState.live]

theorem live_of_ne {st : StreamState} (h : st ≠ .off) (k : st ≠ .draining) : st.live = true := by
  cases st <;> simp_all [StreamState.live]

theorem put_stream_of (s : State) {c : Ctx} {i : StreamIdx} (b : Block) (h : c.idx = i) : (s.put c b).stream i = c.s := by
  subst h; simp

theorem restarted_live {s : Stream} (h : s.state.live = true) (cfg : StreamRecord) : s.restarted cfg = s.renewed cfg.paths := by
  unfold Stream.restarted
  split <;> first | rfl | (rename_i hs; rw [hs] at h; simp [StreamState.live] at h)

theorem changeOf_live {st : StreamState} (h : st.live = true) (old new : StreamRecord) : changeOf st old new = liveChange old new := by
  cases st <;> simp_all [StreamState.live, changeOf]

/-- Each stream's change leaves the shape, the ENABLE class and the balance that the staged record asks for. -/
theorem apply_changed {s : State} (h1 : s.StreamsOk) (h2 : s.RecordsOk) {new : ConfigSet} {i : StreamIdx} (free : Nat)
    (hn : (new.record i).wf = true) :
    Changed s new i free ((s.change new i).apply (s.ctxAfter new i free)) := by
  have hw := recordAfter_wf h2 hn
  obtain ⟨hsh, hact⟩ := h1 i
  by_cases hoff : (s.stream i).state = .off
  · cases he : (new.record i).enable with
    | true =>
      have hc : s.change new i = .renew .enabled := by simp [State.change, hoff, changeOf, he]
      rw [hc]; exact renew_changed hw he hc
    | false =>
      have hc : s.change new i = .store := by simp [State.change, hoff, changeOf, he]
      rw [hc]
      refine ⟨rfl, rfl, ?_, ?_, fun h0 => ?_, fun h0 => absurd hoff h0, fun h0 => absurd hoff h0, hw⟩
      · exact (shape_off hoff).mpr ((shape_off hoff).mp hsh)
      · show (s.stream i).state.live = _; rw [hoff, he]; rfl
      · have h0' : (s.stream i).state = .draining := h0
        rw [hoff] at h0'; simp at h0'
  · by_cases hd : (s.stream i).state = .draining
    · cases he : (new.record i).enable with
      | true =>
        have hc : s.change new i = .renew .enabled := by simp [State.change, hd, changeOf, he]
        rw [hc]; exact renew_changed hw he hc
      | false =>
        cases hm : (new.record i).stopMode with
        | cut =>
          have hc : s.change new i = .cut := by simp [State.change, hd, changeOf, he, hm]
          rw [hc]; exact cut_changed hw he
        | drain =>
          have hc : s.change new i = .store := by simp [State.change, hd, changeOf, he, hm]
          have hr : s.recordAfter new i = s.inForce i := by simp [State.recordAfter, hc, hd]
          rw [hc]
          refine ⟨rfl, rfl, ?_, ?_, fun _ => ?_, fun _ h0 => absurd hd h0, fun _ => ?_, hw⟩
          · rw [hr]; exact hsh
          · show (s.stream i).state.live = _; rw [hd, he]; rfl
          · rw [hr]
            obtain ⟨⟨d, hd'⟩, _⟩ := (shape_draining hd).mp hsh
            show (s.stream i).drain = _
            unfold State.inForce; rw [if_pos hd, hd']; rfl
          · simp [State.offAfter, hc, hd]
    · have hl : (s.stream i).state.live = true := live_of_ne hoff hd
      have hin : s.inForce i = s.active.record i := by simp [State.inForce, hd]
      rw [hin] at hsh
      have hch : s.change new i = liveChange (s.active.record i) (new.record i) := changeOf_live hl _ _
      cases he : (new.record i).enable with
      | false =>
        cases hm : (new.record i).stopMode with
        | cut =>
          have hc : s.change new i = .cut := by rw [hch]; simp [liveChange, he, hm]
          rw [hc]; exact cut_changed hw he
        | drain =>
          have hc : s.change new i = .drainEntry := by rw [hch]; simp [liveChange, he, hm]
          have hr : s.recordAfter new i = s.active.record i := by simp [State.recordAfter, hc]
          rw [hc]
          obtain ⟨e1, e2, e3, e4, e5⟩ := Ctx.enterDrain_spec
            (c := s.ctxAfter new i free) (by show Stream.ShapeOk (s.recordAfter new i) (s.stream i); rw [hr]; exact hsh) hw hl
          refine ⟨e1, e2, e5, ?_, fun _ => e4, fun _ h0 => absurd e3 h0, fun _ => by simp [State.offAfter, hc], hw⟩
          show (Ctx.enterDrain _).s.state.live = _
          rw [e3, he]; rfl
      | true =>
        by_cases hdiff : restartClassDiffers (s.active.record i) (new.record i) = true
        · have hc : s.change new i = .renew .reconfigured := by rw [hch]; simp [liveChange, he, hdiff]
          rw [hc]; exact renew_changed hw he hc
        · by_cases heq : new.record i = s.active.record i
          · have hc : s.change new i = .keep := by
              rw [hch]; unfold liveChange; rw [if_pos he, if_neg hdiff, if_pos heq]
            have hr : s.recordAfter new i = new.record i := by simp only [State.recordAfter, hc]
            rw [hc]
            refine ⟨rfl, rfl, ?_, ?_, fun h0 => absurd h0 hd, fun _ _ => hr, fun _ => by simp [State.offAfter, hc], hw⟩
            · rw [hr, heq]; exact hsh
            · show (s.stream i).state.live = _; rw [hl, he]
          · have hc : s.change new i = .inPlace := by rw [hch]; simp [liveChange, he, hdiff, heq]
            have hr : s.recordAfter new i = new.record i := by simp only [State.recordAfter, hc]
            rw [hc]
            obtain ⟨t1, t2, t3, t4, k, q, t5, t6⟩ :=
              Ctx.trimToTrim_spec (s.ctxAfter new i free)
            have hfields : (new.record i).window = (s.active.record i).window ∧
                (new.record i).divisor = (s.active.record i).divisor := by
              simp [restartClassDiffers] at hdiff
              exact ⟨hdiff.2.2.1.symm, hdiff.2.2.2.1.symm⟩
            have hst : (Change.inPlace.apply (s.ctxAfter new i free)).s.state =
                (s.stream i).state := by
              show (Ctx.trimToTrim _).s.state = _; rw [t5]; rfl
            refine ⟨t1, t3, ?_, ?_, ?_, fun _ _ => hr, fun _ => by simp [State.offAfter, hc], hw⟩
            · exact Ctx.trimToTrim_shape (c := s.ctxAfter new i free) hsh hl
                (by rw [← hr] at hfields; exact hfields.1) (by rw [← hr] at hfields; exact hfields.2)
            · rw [hst, hl, he]
            · rw [hst]; intro h0; exact absurd h0 hd

/-! ## The fold over the contexts -/

/-- The state while a commit is being applied: the streams of `l` are still to come. -/
structure Applying (s : State) (new : ConfigSet) (l : List StreamIdx) (t : State) : Prop where
  active : t.active = s.active
  session : t.session = s.session
  same : ∀ i ∈ l, t.stream i = s.stream i
  done : ∀ i, i ∉ l → ∃ free c', Changed s new i free c' ∧ t.stream i = c'.s
  slots : t.free + t.heldSlots = Config.slots

theorem applyStream_step {s : State} (h1 : s.StreamsOk) (h2 : s.RecordsOk) {new : ConfigSet}
    (hn : ∀ i, (new.record i).wf = true) {i : StreamIdx} {l : List StreamIdx} (hi : i ∉ l) {t : State}
    (k : Applying s new (i :: l) t) : Applying s new l (t.applyStream new i) := by
  have hsi := k.same i (by simp)
  have hin : t.inForce i = s.inForce i := by simp only [State.inForce, hsi, k.active]
  have hch : t.change new i = s.change new i := by simp only [State.change, hsi, k.active]
  have hra : t.recordAfter new i = s.recordAfter new i := by
    simp only [State.recordAfter, hch, hsi, k.active, hin]
  have hctx : ({ t.ctx i with cfg := t.recordAfter new i } : Ctx) =
      s.ctxAfter new i t.free := by
    simp only [State.ctx, State.ctxAfter, hsi, hra]
  have hC := apply_changed h1 h2 t.free (hn i)
  generalize hc' : (s.change new i).apply (s.ctxAfter new i t.free) = c' at hC
  have hput : t.applyStream new i = t.put c' .config := by
    simp only [State.applyStream, hch, hctx, hc']
  rw [hput]
  have hst : (t.put c' .config).stream i = c'.s := by have := hC.idx; subst this; simp
  have hne : ∀ j, j ≠ i → (t.put c' .config).stream j = t.stream j := fun j hj => (put_other hC.idx hj).1
  refine ⟨k.active, k.session, fun j hj => ?_, fun j hj => ?_, ?_⟩
  · have : j ≠ i := by rintro rfl; exact hi hj
    rw [hne j this]; exact k.same j (by simp [hj])
  · by_cases hji : j = i
    · subst hji; exact ⟨_, _, hC, hst⟩
    · rw [hne j hji]; exact k.done j (by simp [hji, hj])
  · have hd := sum_differ (fun j => (t.stream j).held) (fun j => ((t.put c' .config).stream j).held) i
      (fun j hj => by simp only [hne j hj])
    rw [hst] at hd
    have ht := hC.total
    have hs := k.slots
    rw [hsi] at hd
    simp only [State.heldSlots, Ctx.total, State.put_free] at *
    omega

theorem applyStreams {s : State} (h1 : s.StreamsOk) (h2 : s.RecordsOk) {new : ConfigSet}
    (hn : ∀ i, (new.record i).wf = true) (l : List StreamIdx) (hl : l.Nodup) {t : State} (k : Applying s new l t) :
    Applying s new [] (l.foldl (State.applyStream new) t) := by
  induction l generalizing t with
  | nil => exact k
  | cons i l ih =>
    rw [List.nodup_cons] at hl
    exact ih hl.2 (applyStream_step h1 h2 hn hl.1 k)

/-! ## The budget -/

theorem firstOver_none {l : List (StreamIdx × Nat)} {n : Nat} (h0 : n ≤ Config.slots) (h : firstOver l n = none) :
    n + (l.map Prod.snd).sum ≤ Config.slots := by
  induction l generalizing n with
  | nil => simpa using h0
  | cons a l ih =>
    obtain ⟨i, m⟩ := a
    simp only [firstOver] at h
    split at h
    · simp at h
    · next hle =>
      have := ih (by omega) h
      simp only [List.map_cons, List.sum_cons]
      omega

theorem sum_filter (l : List StreamIdx) (p : StreamIdx → Bool) (f : StreamIdx → Nat) :
    ((l.filter p).map f).sum = (l.map fun i => if p i then f i else 0).sum := by
  induction l with
  | nil => rfl
  | cons a l ih =>
    simp only [List.filter_cons, List.map_cons, List.sum_cons]
    split <;> simp [ih]

theorem overBudget_none {s : State} {new : ConfigSet} (h : s.overBudget new = none) :
    ((List.finRange 32).map fun i => if s.offAfter new i then 0 else (s.recordAfter new i).window + (s.recordAfter new i).trim).sum
      ≤ Config.slots := by
  have := firstOver_none (by decide) h
  rw [List.map_map] at this
  simp only [Nat.zero_add] at this
  rw [show (Prod.snd ∘ fun i => (i, (s.recordAfter new i).window + (s.recordAfter new i).trim)) =
    fun i => (s.recordAfter new i).window + (s.recordAfter new i).trim from rfl, sum_filter] at this
  refine Nat.le_trans (sum_le _ _ fun j => ?_) this
  cases s.offAfter new j <;> simp

/-! ## The commit -/

/-- The apply step of a commit whose cross-record checks passed keeps the invariant. -/
theorem applyCommit_mergeOk {s : State} (h : s.MergeOk) {new : ConfigSet} (hn : ∀ i, (new.record i).wf = true)
    (hd : new.device.wf = true) (hb : s.overBudget new = none) (key : Byte) : (s.applyCommit new key).MergeOk := by
  obtain ⟨h1, h2, h3, h4⟩ := h
  have k := applyStreams h1 h2 hn (List.finRange 32) (List.nodup_finRange 32) (t := s)
    ⟨rfl, rfl, fun _ _ => rfl, fun i hi => absurd (List.mem_finRange i) hi, h3⟩
  generalize hs1 : (List.finRange 32).foldl (State.applyStream new) s = s1 at k
  have hstreams : (s.applyCommit new key).streams = s1.streams := by
    simp only [State.applyCommit, hs1, State.offer_streams, State.dropOffWaiting, State.rebuildTagMap]
  have hfree : (s.applyCommit new key).free = s1.free := by
    simp only [State.applyCommit, hs1, State.offer_free, State.dropOffWaiting, State.rebuildTagMap]
  have hactive : (s.applyCommit new key).active = new := by
    simp only [State.applyCommit, State.offer_active, State.dropOffWaiting, State.rebuildTagMap]
  have hsession : (s.applyCommit new key).session = none := by
    simp only [State.applyCommit, State.offer_session]
  have hstream : ∀ i, (s.applyCommit new key).stream i = s1.stream i := fun i => by
    simp only [State.stream, hstreams]
  -- the record in force of a stream that is not OFF
  have hrec : ∀ i, (s1.stream i).state ≠ .off → (s.applyCommit new key).inForce i = s.recordAfter new i := by
    intro i hi
    obtain ⟨free, c', hC, he⟩ := k.done i (by simp)
    simp only [State.inForce, hstream, hactive, he]
    rw [he] at hi
    split
    · next hdr => simp [hC.drain hdr]
    · next hdr => exact (hC.record hi hdr).symm
  refine ⟨fun i => ?_, ⟨fun i => by rw [hactive]; exact hn i, by rw [hactive]; exact hd, fun i r hr => ?_, ?_⟩, ?_, ?_⟩
  · obtain ⟨free, c', hC, he⟩ := k.done i (by simp)
    rw [hactive, hstream, he]
    refine ⟨?_, hC.live.symm⟩
    by_cases hoff : c'.s.state = .off
    · exact (shape_off hoff).mpr ((shape_off hoff).mp hC.shape)
    · rw [hrec i (by rw [he]; exact hoff)]; exact hC.shape
  · obtain ⟨free, c', hC, he⟩ := k.done i (by simp)
    rw [hstream, he] at hr
    have hdr : c'.s.state = .draining := hC.shape.2.1.mp (by rw [Option.mem_def.mp hr]; rfl)
    rw [hC.drain hdr] at hr
    obtain rfl := Option.some.inj hr
    exact hC.bound
  · rw [hsession]; simp
  · rw [hfree, show (s.applyCommit new key).heldSlots = s1.heldSlots from by simp only [State.heldSlots, hstream]]
    exact k.slots
  · refine Nat.le_trans (sum_le _ _ fun i => ?_) (overBudget_none hb)
    unfold State.slotBound
    rw [hstream]
    by_cases hoff : (s1.stream i).state = .off
    · simp [hoff]
    · obtain ⟨free, c', hC, he⟩ := k.done i (by simp)
      rw [hrec i hoff, hC.off (by rw [← he]; exact hoff)]
      simp [hoff]

/-! ## What a commit's checks read is not changed by the arrivals taken before it -/

/-- The class of each stream, its drain record and the active set stay. -/
structure State.SameClass (s t : State) : Prop where
  active : t.active = s.active
  live : ∀ i, (t.stream i).state.live = (s.stream i).state.live
  draining : ∀ i, (t.stream i).state = .draining ↔ (s.stream i).state = .draining
  drain : ∀ i, (s.stream i).state = .draining → (t.stream i).drain = (s.stream i).drain

theorem State.SameClass.refl (s : State) : s.SameClass s := ⟨rfl, fun _ => rfl, fun _ => Iff.rfl, fun _ _ => rfl⟩

theorem State.SameClass.trans {a b c : State} (h : a.SameClass b) (k : b.SameClass c) : a.SameClass c :=
  ⟨k.active.trans h.active, fun i => (k.live i).trans (h.live i), fun i => (k.draining i).trans (h.draining i),
   fun i hi => (k.drain i ((h.draining i).mpr hi)).trans (h.drain i hi)⟩

theorem State.SameMerge.sameClass {s t : State} (h : s.SameMerge t) : s.SameClass t :=
  ⟨h.active, fun i => by rw [h.stream], fun i => by rw [h.stream], fun i _ => by rw [h.stream]⟩

theorem State.SameClass.off {s t : State} (k : s.SameClass t) (i : StreamIdx) :
    (t.stream i).state = .off ↔ (s.stream i).state = .off := by
  have h1 := k.live i
  have h2 := k.draining i
  cases hs : (s.stream i).state <;> cases ht : (t.stream i).state <;> simp_all [StreamState.live]

theorem State.SameClass.inForce {s t : State} (k : s.SameClass t) (i : StreamIdx) : t.inForce i = s.inForce i := by
  unfold State.inForce
  by_cases hd : (s.stream i).state = .draining
  · simp [hd, (k.draining i).mpr hd, k.drain i hd, k.active]
  · have : (t.stream i).state ≠ .draining := fun h => hd ((k.draining i).mp h)
    simp [hd, this, k.active]

theorem State.SameClass.change {s t : State} (k : s.SameClass t) (new : ConfigSet) (i : StreamIdx) :
    t.change new i = s.change new i := by
  have h1 := k.live i
  have h2 := k.draining i
  have h3 := k.off i
  unfold State.change
  rw [k.active]
  cases hs : (s.stream i).state <;> cases ht : (t.stream i).state <;> simp_all [StreamState.live, changeOf]

theorem State.SameClass.recordAfter {s t : State} (k : s.SameClass t) (new : ConfigSet) (i : StreamIdx) :
    t.recordAfter new i = s.recordAfter new i := by
  simp only [State.recordAfter, k.change, k.active, k.inForce, k.draining]

theorem State.SameClass.offAfter {s t : State} (k : s.SameClass t) (new : ConfigSet) (i : StreamIdx) :
    t.offAfter new i = s.offAfter new i := by
  simp only [State.offAfter, k.change, Ne, k.draining]

theorem State.SameClass.crossCheck {s t : State} (k : s.SameClass t) (new : ConfigSet) : t.crossCheck new = s.crossCheck new := by
  have h1 : ∀ i, t.staysDraining new i = s.staysDraining new i := fun i => by
    simp only [State.staysDraining, k.change, k.draining]
  simp only [State.crossCheck, State.tagDuplicate, State.tagBusy, State.overBudget, h1, k.offAfter, k.recordAfter]

/-- An arrival keeps the class of its stream. -/
theorem arrive_class {c : Ctx} (x : Path) (f : Frame) (k : c.Kept (c.arrive x f)) :
    ((c.arrive x f).s.state = .draining ↔ c.s.state = .draining) ∧
    (c.s.state = .draining → (c.arrive x f).s.drain = c.s.drain) := by
  refine ⟨⟨fun h => (k.drain h).1, fun h => ?_⟩, fun h => ?_⟩
  · simp [Ctx.arrive, h]
  · simp [Ctx.arrive, h]

theorem takeDelivery_class {s : State} (h : s.MergeOk) (d : Delivery) : s.SameClass (s.takeDelivery d) := by
  have h1 := (takeOffers_same s (isLink d.path))
  have hm := h1.ok h
  refine h1.sameClass.trans ?_
  have k := ctx_kept hm (Ctx.arrive_keepsAll d.path d.frame) d.stream
  have kc := arrive_class d.path d.frame k
  have hst : (s.takeDelivery d).stream d.stream = (((s.takeOffers (isLink d.path)).ctx d.stream).arrive d.path d.frame).s := by
    exact put_stream_of _ _ k.idx
  have hne : ∀ j, j ≠ d.stream → (s.takeDelivery d).stream j = (s.takeOffers (isLink d.path)).stream j :=
    fun j hj => (put_other k.idx hj).1
  refine ⟨rfl, fun i => ?_, fun i => ?_, fun i hi => ?_⟩
  all_goals
    by_cases hj : i = d.stream
    · subst hj
      rw [hst]
      first
      | exact k.live
      | exact kc.1
      | exact kc.2 hi
    · rw [hne i hj]

theorem settleDeliveries_class {s : State} (h : s.MergeOk) (p : Delivery → Bool) : s.SameClass (s.settleDeliveries p) := by
  have key : ∀ (l : List Delivery) (t : State), t.MergeOk → t.SameClass (l.foldl State.takeDelivery t) := by
    intro l
    induction l with
    | nil => intro t _; exact State.SameClass.refl t
    | cons d l ih => intro t ht; exact (takeDelivery_class ht d).trans (ih _ (takeDelivery_mergeOk ht d))
  have h0 := State.sameMerge_of (s := s) (t := { s with deliveries := s.deliveries.filter fun d => !p d }) rfl rfl rfl rfl
  exact h0.sameClass.trans (key _ _ (h0.ok h))

theorem beforeCommit_mergeOk {s : State} (h : s.MergeOk) : s.beforeCommit.MergeOk :=
  (takeOffers_same _ _).ok (settleDeliveries_mergeOk h _)

theorem beforeCommit_class {s : State} (h : s.MergeOk) : s.SameClass s.beforeCommit :=
  (settleDeliveries_class h _).trans (takeOffers_same _ _).sameClass

theorem crossCheck_budget {s : State} {new : ConfigSet} (h : s.crossCheck new = none) : s.overBudget new = none := by
  unfold State.crossCheck at h
  split at h
  · simp at h
  · split at h
    · simp at h
    · simpa using h

theorem commitEdit_mergeOk {s : State} (h : s.MergeOk) (body : List Byte) : (commitEdit body s).1.MergeOk := by
  unfold commitEdit
  split
  · exact h
  · next e he =>
    split
    · split
      · exact h
      · next hcc =>
        obtain ⟨hn, hd⟩ := h.2.1.2.2.2 e he
        refine applyCommit_mergeOk (beforeCommit_mergeOk h) hn hd (crossCheck_budget ?_) _
        rw [(beforeCommit_class h).crossCheck]; exact hcc
    · exact (countMgmt_same _ _).ok ((closeSession_same s).ok h)

/-! ## RESTART -/

theorem beforeRestart_mergeOk {s : State} (h : s.MergeOk) : s.beforeRestart.MergeOk :=
  (takeOffers_same _ _).ok (settleDeliveries_mergeOk h _)

theorem restartNow_stream (s : State) (i : StreamIdx) : s.restartNow.stream i = (s.stream i).restarted (s.inForce i) := by
  simp [State.stream, State.restartNow]

theorem restartNow_active (s : State) : s.restartNow.active = s.active := by simp only [State.restartNow]

theorem restartNow_session (s : State) : s.restartNow.session = none := by simp only [State.restartNow]

theorem restartNow_free (s : State) : s.restartNow.free = Config.slots := by simp only [State.restartNow]

/-- A RESTART leaves each context renewed, or OFF. -/
theorem restartNow_mergeOk {s : State} (h : s.MergeOk) : s.restartNow.MergeOk := by
  obtain ⟨h1, ⟨h2, h3, h4, h5⟩, h6, h7⟩ := h
  have hin : ∀ i, s.restartNow.inForce i = s.active.record i := by
    intro i
    have : (s.restartNow.stream i).state ≠ .draining := by
      rw [restartNow_stream]; unfold Stream.restarted
      cases hs : (s.stream i).state <;> simp [Stream.toOff, Stream.reset, Stream.renewed, hs]
    rw [State.inForce, if_neg this, restartNow_active]
  have hlive : ∀ i, (s.stream i).state ≠ .off → (s.stream i).state ≠ .draining →
      s.restartNow.stream i = (s.stream i).renewed (s.inForce i).paths ∧ s.inForce i = s.active.record i := by
    intro i a b
    refine ⟨?_, by simp [State.inForce, b]⟩
    rw [restartNow_stream, restarted_live (live_of_ne a b)]
  have hoff : ∀ i, (s.stream i).state = .off ∨ (s.stream i).state = .draining →
      s.restartNow.stream i = (s.stream i).toOff := by
    intro i hi
    rw [restartNow_stream]; unfold Stream.restarted
    rcases hi with hi | hi
    · simp only [hi]; exact (shape_off hi).mp (h1 i).1
    · simp only [hi]
  have hcases : ∀ i, ((s.stream i).state = .off ∨ (s.stream i).state = .draining) ∨
      ((s.stream i).state ≠ .off ∧ (s.stream i).state ≠ .draining) := fun i => by
    by_cases a : (s.stream i).state = .off
    · exact Or.inl (Or.inl a)
    · by_cases b : (s.stream i).state = .draining
      · exact Or.inl (Or.inr b)
      · exact Or.inr ⟨a, b⟩
  have hwf : ∀ i, (s.active.record i).wf = true := h2
  refine ⟨fun i => ?_, ⟨by rw [restartNow_active]; exact h2, by rw [restartNow_active]; exact h3, fun i r hr => ?_, fun e he => ?_⟩, ?_, ?_⟩
  · rw [hin]
    rw [restartNow_active, (h1 i).2]
    rcases hcases i with hc | ⟨a, b⟩
    · rw [hoff i hc]
      refine ⟨(shape_off rfl).mpr rfl, ?_⟩
      rcases hc with hc | hc <;> rw [hc] <;> rfl
    · rw [(hlive i a b).1]
      have w := (wf_iff _).mp (hwf i)
      refine ⟨(shape_acquire rfl).mpr ⟨rfl, rfl, rfl, rfl, rfl, rfl, rfl, rfl, 0, rfl, by omega⟩, ?_⟩
      exact live_of_ne a b
  · rcases hcases i with hc | ⟨a, b⟩
    · rw [hoff i hc] at hr; simp [Stream.toOff, Stream.reset] at hr
    · rw [(hlive i a b).1] at hr; simp [Stream.renewed] at hr
  · rw [restartNow_session] at he; simp at he
  · have : s.restartNow.heldSlots = 0 := by
      have hz : ∀ i, (s.restartNow.stream i).held = 0 := by
        intro i
        rcases hcases i with hc | ⟨a, b⟩
        · rw [hoff i hc]; simp [Stream.toOff, Stream.reset, Stream.held]
        · rw [(hlive i a b).1]; simp [Stream.renewed, Stream.held]
      simp only [State.heldSlots, hz]; decide
    rw [this, restartNow_free, Nat.add_zero]
  · refine Nat.le_trans (sum_le _ s.slotBound fun i => ?_) h7
    unfold State.slotBound
    rcases hcases i with hc | ⟨a, b⟩
    · rw [hoff i hc]; simp [Stream.toOff, Stream.reset]
    · rw [hin, (hlive i a b).2]; simp only [a, if_false]; split <;> omega

theorem transmissionComplete_mergeOk {s : State} (h : s.MergeOk) : (transmissionComplete s).MergeOk := by
  unfold transmissionComplete
  split
  · exact (choose_same _).ok h
  · split
    · exact (choose_same _).ok (restartNow_mergeOk (beforeRestart_mergeOk h))
    · exact (choose_same _).ok ((State.sameMerge_of (s := s) rfl rfl rfl rfl).ok h)
  · exact (choose_same _).ok ((State.sameMerge_of (s := s) rfl rfl rfl rfl).ok h)

end Sys2Proof.Machine
end

