-- ==== Sys2Proof/Laws/Counters.lean ====
section
/-! SUPPORT. The counters' marks (01 R22): every operation of a stream context, of a Link Receiver and of the management side keeps them in agreement with the counters' values. -/

namespace Sys2Proof.Machine

/-! ## Counters -/

/-- Every counter of a set has its mark exactly at 65535. -/
def Marked {n : Nat} (v : Vector Counter n) : Prop := ∀ k : Fin n, (v[k]).Ok

theorem bump_ok {c : Counter} (h : c.Ok) : c.bump.Ok := by
  unfold Counter.bump
  split
  · exact h
  · next hn =>
    have hm : c.mark = false := by
      cases hc : c.mark
      · rfl
      · exact absurd (h.1 hc) hn
    simp [Counter.Ok, hm]

theorem Marked.bump {n : Nat} {v : Vector Counter n} (h : Marked v) (k : Fin n) : Marked (v.set k v[k].bump) := by
  intro j
  by_cases hj : k = j
  · subst hj; simpa using bump_ok (h k)
  · have : k.val ≠ j.val := fun he => hj (Fin.ext he)
    have h2 := h j
    simp only [Fin.getElem_fin] at h2 ⊢
    rwa [Vector.getElem_set_ne _ _ this]

theorem marked_zero (n : Nat) : Marked (Vector.replicate n Counter.zero) := fun k => by simp [Counter.Ok, Counter.zero]

/-! ## Stream contexts -/

/-- Context c's counters are marked. -/
def Ctx.Marks (c : Ctx) : Prop := Marked c.s.counters

namespace Ctx

/-- A context with the counters of a marked one. -/
theorem Marks.of {c d : Ctx} (h : c.Marks) (e : d.s.counters = c.s.counters) : d.Marks := by unfold Marks; rw [e]; exact h

theorem Marks.count {c : Ctx} (h : c.Marks) (k : Fin 24) : (c.count k).Marks := by
  unfold Marks; rw [count_s_counters]; exact h.bump k

theorem Marks.countN {c : Ctx} (h : c.Marks) (k : Fin 24) (n : Nat) : (c.countN k n).Marks := by
  induction n generalizing c with
  | zero => exact h
  | succ n ih => exact ih (h.count k)

theorem Marks.note {c : Ctx} (h : c.Marks) (a : Bool) (n : Notice) : (c.note a n).Marks := by
  unfold Ctx.note; split <;> exact h

theorem Marks.noteState {c : Ctx} (h : c.Marks) (cause : Cause) : (c.noteState cause).Marks := h.note _ _

theorem Marks.dropHead {c : Ctx} (h : c.Marks) : c.dropHead.Marks := by
  unfold Ctx.dropHead; split
  · exact h
  · exact Marks.count (h.of (by rfl)) _

theorem Marks.dropHeads {c : Ctx} (h : c.Marks) (n : Nat) : (c.dropHeads n).Marks := by
  induction n generalizing c with
  | zero => exact h
  | succ n ih => exact ih h.dropHead

theorem Marks.trimForInsert {c : Ctx} (h : c.Marks) : c.trimForInsert.Marks := by
  unfold Ctx.trimForInsert; split
  · exact h.dropHead
  · exact h

theorem Marks.releaseHeld {c : Ctx} (h : c.Marks) (e : Seq) (q : Bool) (ws : List Word) : (c.releaseHeld e q ws).Marks := by
  unfold Ctx.releaseHeld; exact Marks.count (h.trimForInsert.of (by rfl)) _

theorem Marks.releaseNew {c : Ctx} (h : c.Marks) (e : Seq) (q : Bool) (ws : List Word) : (c.releaseNew e q ws).Marks := by
  unfold Ctx.releaseNew; exact Marks.count (h.trimForInsert.of (by rfl)) _

theorem Marks.substitute {c : Ctx} (h : c.Marks) : c.substitute.Marks := by
  unfold Ctx.substitute; split
  · exact h
  · exact h.trimForInsert.of (by rfl)

theorem Marks.startTimer {c : Ctx} (h : c.Marks) : c.startTimer.Marks := by unfold Marks; rw [startTimer_s_counters]; exact h

theorem Marks.settleTimer {c : Ctx} (h : c.Marks) : c.settleTimer.Marks := by unfold Marks; rw [settleTimer_s_counters]; exact h

theorem Marks.chainReleases {c : Ctx} (h : c.Marks) (n : Nat) : (c.chainReleases n).Marks := by
  induction n generalizing c with
  | zero => exact h
  | succ n ih =>
    unfold Ctx.chainReleases
    split
    · exact h
    · split
      · exact h
      · exact ih ((h.of (by rfl)).releaseHeld _ _ _)

theorem Marks.chain {c : Ctx} (h : c.Marks) : c.chain.Marks := (Marks.chainReleases h _).settleTimer

theorem Marks.flushWindow {c : Ctx} (h : c.Marks) : c.flushWindow.Marks := Marks.countN (h.of (by rfl)) _ _

theorem Marks.flushQueue {c : Ctx} (h : c.Marks) : c.flushQueue.Marks := Marks.countN (h.of (by rfl)) _ _

theorem Marks.freeAcq {c : Ctx} (h : c.Marks) : c.freeAcq.Marks := by unfold Marks; rw [freeAcq_s_counters]; exact h

theorem Marks.freeJump {c : Ctx} (h : c.Marks) : c.freeJump.Marks := by unfold Marks; rw [freeJump_s_counters]; exact h

theorem Marks.strayJump {c : Ctx} (h : c.Marks) : c.strayJump.Marks := by
  unfold Ctx.strayJump; split
  · exact h
  · exact Marks.count (h.of (by rfl)) _

theorem Marks.discardJumpOn {c : Ctx} (h : c.Marks) (x : Path) : (c.discardJumpOn x).Marks := by
  unfold Ctx.discardJumpOn; split
  · exact h
  · split
    · exact h.strayJump
    · exact h

theorem Marks.presence {c : Ctx} (h : c.Marks) (x : Path) (p : Presence) : Marks { c with s := c.s.setPresence x p } := by
  cases x <;> exact h

/-! ### Arrivals -/

theorem Marks.baseArrival {c : Ctx} (h : c.Marks) (x : Path) (f : Frame) : (c.baseArrival x f).Marks :=
  (((h.discardJumpOn x).releaseNew _ _ _).count _).chain

theorem Marks.storeHeld {c : Ctx} (h : c.Marks) (x : Path) (e : Seq) (f : Frame) : (c.storeHeld x e f).Marks := by
  unfold Ctx.storeHeld
  simp only
  split
  · exact (((h.discardJumpOn x).of (by rfl)).count _).startTimer
  · exact ((h.discardJumpOn x).of (by rfl)).count _

theorem Marks.windowArrival {c : Ctx} (h : c.Marks) (x : Path) (e : Seq) (f : Frame) : (c.windowArrival x e f).Marks := by
  unfold Ctx.windowArrival; split
  · exact h.count _
  · exact h.storeHeld x e f

theorem Marks.nearArrival {c : Ctx} (h : c.Marks) (x : Path) (f : Frame) : (c.nearArrival x f).Marks := by
  unfold Ctx.nearArrival; split
  · exact h
  · split
    · exact h.baseArrival x f
    · exact h.windowArrival x _ f

theorem Marks.pushSteps {c : Ctx} (h : c.Marks) (n : Nat) (seq : Seq) : (Ctx.pushSteps n seq c).Marks := by
  induction n generalizing c with
  | zero => exact h
  | succ n ih =>
    unfold Ctx.pushSteps; split
    · exact h
    · split
      · exact ih (h.substitute.count _).chain
      · exact h

theorem Marks.behindArrival {c : Ctx} (h : c.Marks) (x : Path) (d : Nat) : (c.behindArrival x d).Marks := by
  unfold Ctx.behindArrival; split <;> exact h.count _

theorem Marks.setJump {c : Ctx} (h : c.Marks) (x : Path) (f : Frame) : (c.setJump x f).Marks :=
  (h.of (by rfl)).count _

theorem Marks.setAcq {c : Ctx} (h : c.Marks) (x : Path) (f : Frame) : (c.setAcq x f).Marks :=
  (h.of (by rfl)).count _

theorem Marks.confirmJump {c : Ctx} (h : c.Marks) (x : Path) (e : Seq) (j : JumpCandidate) (f : Frame) :
    (c.confirmJump x e j f).Marks := by
  exact ((((((h.flushWindow.of (by rfl)).releaseHeld _ _ _).releaseNew _ _ _).count _).chain).count _).note _ _

theorem Marks.restartResync {c : Ctx} (h : c.Marks) (x : Path) (e : Seq) (f : Frame) : (c.restartResync x e f).Marks := by
  exact ((((h.flushWindow.strayJump.of (by rfl)).releaseNew _ _ _).count _).count _).note _ _

theorem Marks.farArrival {c : Ctx} (h : c.Marks) (x : Path) (e : Seq) (f : Frame) : (c.farArrival x e f).Marks := by
  unfold Ctx.farArrival
  split
  · exact h.setJump x f
  · split
    · exact h.confirmJump x e _ f
    · split
      · exact h.count _
      · exact h.strayJump.setJump x f

theorem Marks.outerArrival {c : Ctx} (h : c.Marks) (x : Path) (e : Seq) (d : Nat) (f : Frame) : (c.outerArrival x e d f).Marks := by
  unfold Ctx.outerArrival
  split
  · exact h.count _
  · split
    · split
      · exact h.restartResync x e f
      · exact h.farArrival x e f
    · split
      · exact h.restartResync x e f
      · exact h.behindArrival x d

theorem Marks.runArrival {c : Ctx} (h : c.Marks) (x : Path) (f : Frame) : (c.runArrival x f).Marks := by
  unfold Ctx.runArrival
  split
  · exact h
  · split
    · exact h.nearArrival x f
    · split
      · exact ((h.discardJumpOn x).pushSteps _ _).nearArrival x f
      · exact h.outerArrival x _ _ f

theorem Marks.acquireArrival {c : Ctx} (h : c.Marks) (x : Path) (f : Frame) : (c.acquireArrival x f).Marks := by
  unfold Ctx.acquireArrival
  split
  · exact h.setAcq x f
  · next a _ =>
    split
    · exact h.count _
    · split
      · have h2 := Marks.releaseHeld (c := { c with s := { c.s with history := historyNone, base := some a.seq, acq := none } })
          (h.of (by rfl)) a.seq a.q a.words
        exact ((h2.of (by rfl)).nearArrival x f).noteState _
      · exact (h.freeAcq.count _).setAcq x f

theorem Marks.stalledArrival {c : Ctx} (h : c.Marks) (x : Path) (f : Frame) : (c.stalledArrival x f).Marks := by
  unfold Ctx.stalledArrival
  split
  · exact h
  · split
    · exact ((h.of (by rfl)).nearArrival x f).noteState _
    · split
      · exact ((h.of (by rfl)).setAcq x f).noteState _
      · exact h.behindArrival x _

theorem Marks.refresh {c : Ctx} (h : c.Marks) (x : Path) : (c.refresh x).Marks := by
  unfold Ctx.refresh
  split
  · exact h
  · exact h.presence x _
  · exact (h.presence x _).note _ _

/-- An arrival keeps the marks. -/
theorem Marks.arrive {c : Ctx} (h : c.Marks) (x : Path) (f : Frame) : (c.arrive x f).Marks := by
  have hh : ∀ c : Ctx, c.Marks → (c.handle x f).Marks := fun c h => by
    unfold Ctx.handle
    split
    · exact h
    · exact h.acquireArrival x f
    · exact h.runArrival x f
    · exact h.runArrival x f
    · exact h.stalledArrival x f
    · exact h
  unfold Ctx.arrive
  split
  · exact h
  · exact h.count _
  all_goals
    split
    · exact h.count _
    · split
      · exact hh _ (h.refresh x)
      · exact (h.refresh x).count _

/-- A departure report keeps the marks. -/
theorem Marks.departed {c : Ctx} (h : c.Marks) (x : Path) : (c.departed x).Marks := by
  unfold Ctx.departed
  split
  · exact h
  · exact h
  · exact (h.presence x _).note _ _

/-- FORCE_RESYNC keeps the marks. -/
theorem Marks.force {c : Ctx} (h : c.Marks) : c.force.Marks := by
  unfold Ctx.force
  split
  · exact h
  · exact h
  · exact h.freeAcq.of (by rfl)
  all_goals exact (h.flushWindow.flushQueue.freeJump.of (by rfl)).noteState _

/-! ### Ticks and playout events -/

theorem Marks.silencePath {c : Ctx} (h : c.Marks) (x : Path) : (c.silencePath x).Marks := by
  unfold Ctx.silencePath
  split
  · exact h
  · exact h
  · split
    · exact (h.presence x _).note _ _
    · exact h.presence x _

theorem Marks.expireTimer {c : Ctx} (h : c.Marks) : c.expireTimer.Marks :=
  ((h.of (by rfl)).substitute.count _).chain

theorem Marks.timerStep {c : Ctx} (h : c.Marks) : c.timerStep.Marks := by
  unfold Ctx.timerStep
  split
  · exact h
  · split
    · exact h.expireTimer
    · exact h

theorem Marks.emitHead {c : Ctx} (h : c.Marks) : c.emitHead.Marks := by unfold Ctx.emitHead; split <;> exact h

theorem Marks.guardCountdown {c : Ctx} (h : c.Marks) : c.guardCountdown.Marks := by unfold Ctx.guardCountdown; split <;> exact h

theorem Marks.passUnderrun {c : Ctx} (h : c.Marks) : c.passUnderrun.Marks := by
  unfold Ctx.passUnderrun
  split
  · exact h
  · next e _ =>
    exact (Marks.count (c := (c.offerRecord (.subst c.idx e c.substPayload)).advance .substituted) (h.of (by rfl)) _).of (by rfl)

theorem Marks.stallNow {c : Ctx} (h : c.Marks) : c.stallNow.Marks :=
  ((Marks.freeJump (c := { c with s := { c.s with state := .stalled } }) (h.of (by rfl))).of (by rfl)).noteState _

theorem Marks.playRunning {c : Ctx} (h : c.Marks) : c.playRunning.Marks := by
  unfold Ctx.playRunning
  split
  · exact h.emitHead.of (by rfl)
  · split
    · exact (h.substitute.count _).chain.emitHead.of (by rfl)
    · unfold Ctx.underrun
      simp only
      split
      · exact h.passUnderrun.stallNow
      · exact h.passUnderrun

theorem Marks.playPriming {c : Ctx} (h : c.Marks) : c.playPriming.Marks := by
  unfold Ctx.playPriming
  split
  · exact h
  · exact ((h.of (by rfl)).noteState _).playRunning

theorem Marks.playDraining {c : Ctx} (h : c.Marks) : c.playDraining.Marks := by
  unfold Ctx.playDraining
  split
  · exact h.emitHead
  · exact (h.of (by rfl)).noteState _

theorem Marks.playout {c : Ctx} (h : c.Marks) : c.playout.Marks := by
  unfold Ctx.playout
  split
  · exact h
  · exact h
  · exact h.guardCountdown.playPriming
  · exact h.guardCountdown.playRunning
  · exact h
  · exact h.playDraining

/-- The phase step, with its playout event, keeps the marks. -/
theorem Marks.phaseStep {c : Ctx} (h : c.Marks) : c.phaseStep.Marks := by
  unfold Ctx.phaseStep
  split
  · exact h
  · split
    · exact (h.of (by rfl)).playout
    · exact h

/-- A cadence tick keeps the marks. -/
theorem Marks.tick {c : Ctx} (h : c.Marks) : c.tick.Marks := ((h.silencePath .a).silencePath .b).timerStep.phaseStep

/-! ### Changes by a commit -/

theorem Marks.forward {c : Ctx} (h : c.Marks) (n : Nat) : (c.forward n).Marks := by
  induction n generalizing c with
  | zero => exact h
  | succ n ih =>
    refine ih ?_
    unfold Ctx.forwardOne
    split
    · exact h
    · split
      · exact (h.of (by rfl)).count _
      · exact (h.of (by rfl)).count _

theorem Marks.enterDrain {c : Ctx} (h : c.Marks) : c.enterDrain.Marks := by
  have h0 : c.drainBase.Marks := by unfold Ctx.drainBase; split <;> exact h
  have h2 := h0.freeAcq.freeJump
  unfold Ctx.enterDrain
  simp only
  refine Marks.noteState (Marks.of (Marks.forward ?_ _) (by rfl)) _
  split
  · exact (h2.of (by rfl)).dropHead
  · exact h2.of (by rfl)

/-- A change by a commit keeps the marks. -/
theorem Marks.change {c : Ctx} (h : c.Marks) (ch : Change) : (ch.apply c).Marks := by
  have hf := h.flushWindow.flushQueue.freeAcq.freeJump
  unfold Change.apply
  split
  · exact h
  · exact h
  · exact (hf.of (by rfl)).noteState _
  · exact h.dropHeads _
  · exact h.enterDrain
  · exact (hf.of (by rfl)).noteState _

end Ctx

/-! ## The whole part -/

/-- The counters of a state are marked, set by set. -/
theorem countersOk_iff (s : State) : s.CountersOk ↔
    (∀ i, (s.ctx i).Marks) ∧ Marked s.linkA.counters ∧ Marked s.linkB.counters ∧ Marked s.mgmt.counters :=
  ⟨fun h => ⟨h.1, fun k => (h.2 k).1, fun k => (h.2 k).2.1, fun k => (h.2 k).2.2⟩,
   fun h => ⟨h.1, fun k => ⟨h.2.1 k, h.2.2.1 k, h.2.2.2 k⟩⟩⟩

/-- A state with the counters of another. -/
theorem State.CountersOk.of_eq {s t : State} (h : s.CountersOk) (h1 : t.streams = s.streams)
    (h2 : t.linkA.counters = s.linkA.counters) (h3 : t.linkB.counters = s.linkB.counters)
    (h4 : t.mgmt.counters = s.mgmt.counters) : t.CountersOk := by
  unfold State.CountersOk State.stream; rw [h1, h2, h3, h4]; exact h

/-- An event put back at a context. -/
theorem State.CountersOk.put {s : State} (h : s.CountersOk) {c : Ctx} (hc : c.Marks) (b : Block) : (s.put c b).CountersOk := by
  refine ⟨fun i => ?_, h.2⟩
  by_cases hi : i = c.idx
  · subst hi; rw [show (s.put c b).stream c.idx = c.s from State.setStream_stream s c.idx c.s]; exact hc
  · rw [show (s.put c b).stream i = s.stream i from State.setStream_stream_ne s c.s hi]; exact h.1 i

/-- One event at one context. -/
theorem State.CountersOk.onStream {s : State} (h : s.CountersOk) (i : StreamIdx) {f : Ctx → Ctx}
    (hf : ∀ c : Ctx, c.Marks → (f c).Marks) : (s.onStream i f).CountersOk := h.put (hf (s.ctx i) (h.1 i)) _

theorem State.CountersOk.countMgmt {s : State} (h : s.CountersOk) (k : Fin 6) : (s.countMgmt k).CountersOk :=
  (countersOk_iff _).2 ⟨((countersOk_iff s).1 h).1, ((countersOk_iff s).1 h).2.1, ((countersOk_iff s).1 h).2.2.1,
    ((countersOk_iff s).1 h).2.2.2.bump k⟩

theorem State.CountersOk.choose {s : State} (h : s.CountersOk) : s.choose.CountersOk := by
  unfold State.choose
  split
  · exact h
  · split
    · exact h
    · split <;> exact h

/-- The Notice Unit taking offers keeps the marks. -/
theorem State.CountersOk.takeOffers {s : State} (h : s.CountersOk) (p : Block → Bool) : (s.takeOffers p).CountersOk := by
  have key : ∀ (l : List Offer) (t : State), t.CountersOk → (l.foldl (fun t o => t.takeNotice o.notice) t).CountersOk := by
    intro l
    induction l with
    | nil => exact fun _ h => h
    | cons o l ih =>
      intro t ht
      refine ih _ ?_
      show (t.takeNotice o.notice).CountersOk
      unfold State.takeNotice
      split
      · exact State.CountersOk.choose (s := { t with notices := t.notices.join o.notice }) ht
      · exact State.CountersOk.countMgmt (s := { t with notices := { t.notices with lost := lostBump t.notices.lost } }) ht _
  exact key _ { s with offers := (splitOffers p s.offers).2 } h

/-! ## The Link Receivers -/

theorem linkCount_marked {c : LinkCtx} (h : Marked c.l.counters) (k : Fin 6) : Marked (c.count k).l.counters := by
  unfold LinkCtx.count LinkCtx.note
  split <;> exact h.bump k

theorem linkNoteState_marked {c : LinkCtx} (h : Marked c.l.counters) : Marked c.noteState.l.counters := by
  unfold LinkCtx.noteState LinkCtx.note
  split <;> exact h

theorem linkGood_marked {c : LinkCtx} (h : Marked c.l.counters) (got : List Byte) : Marked (c.good got).l.counters := by
  unfold LinkCtx.good
  split
  · exact h
  · exact h
  · split
    · exact linkNoteState_marked (c := { c with l := { c.l with state := .up, goodRun := c.l.goodRun + 1, badRun := 0 } }) h
    · exact h

theorem linkHunt_marked {c : LinkCtx} (h : Marked c.l.counters) : Marked c.enterHunt.l.counters :=
  linkNoteState_marked (linkCount_marked (c := { c with l := { c.l with state := .hunt, goodRun := 0 } }) h _)

theorem linkBad_marked {c : LinkCtx} (h : Marked c.l.counters) : Marked c.bad.l.counters := by
  unfold LinkCtx.bad
  split
  · exact h
  · exact h
  · simp only
    split
    · exact linkHunt_marked (c := { c with l := { c.l with badRun := c.l.badRun + 1 } }) h
    · exact h

theorem linkJudge_marked {c : LinkCtx} (h : Marked c.l.counters) (b : Byte) : Marked (c.judge b).l.counters := by
  unfold LinkCtx.judge
  split
  · exact h
  · unfold LinkCtx.frameByte
    split
    · exact h
    · split
      · exact linkBad_marked (linkCount_marked h _)
      · split
        · exact h
        · unfold LinkCtx.checkFrame
          simp only
          split
          · exact linkGood_marked (linkCount_marked (c := c.setPos (.seeking false)) h _) _
          · exact linkBad_marked (linkCount_marked (c := c.setPos (.seeking false)) h _)

/-- A byte of a link keeps the marks. -/
theorem linkByte_marked {c : LinkCtx} (h : Marked c.l.counters) (b : Byte) : Marked (c.byte b).l.counters := by
  unfold LinkCtx.byte
  simp only
  split
  · exact linkJudge_marked (linkHunt_marked (c := ({ c with l := { c.l with silence := some 0 } } : LinkCtx).setPos (.seeking false)) h) b
  · exact linkJudge_marked (c := { c with l := { c.l with silence := some 0 } }) h b
  · exact linkJudge_marked (c := { c with l := { c.l with silence := some 0 } }) h b

/-- The silence of a link keeps the marks. -/
theorem linkSilent_marked {c : LinkCtx} (h : Marked c.l.counters) : Marked c.silent.l.counters := by
  unfold LinkCtx.silent
  split
  · exact h
  all_goals exact linkNoteState_marked (linkCount_marked
    (c := { c with l := { c.l with pos := .seeking false, goodRun := 0, badRun := 0, silence := none, state := .down } }) h _)

/-- A link's event put back. -/
theorem State.CountersOk.putLink {s : State} (h : s.CountersOk) {c : LinkCtx} (hc : Marked c.l.counters) :
    (s.putLink c).CountersOk := by
  have h1 : Marked (c.strayTag s).l.counters := by
    unfold LinkCtx.strayTag
    split
    · exact hc
    · split
      · exact linkCount_marked hc _
      · exact hc
  obtain ⟨k1, k2, k3, k4⟩ := (countersOk_iff s).1 h
  refine (countersOk_iff _).2 ?_
  unfold State.putLink
  simp only
  cases (c.strayTag s).path
  · exact ⟨k1, h1, k3, k4⟩
  · exact ⟨k1, k2, h1, k4⟩

/-! ## Time -/

/-- The expiries keep the marks, and so does settling what is due. -/
theorem dues_countersOk : State.DuesKeep State.CountersOk := by
  refine State.duesKeep (fun s x h => h.putLink (linkSilent_marked ?_)) (fun s h => ?_) (fun s h => h) (fun s h => ?_)
    (fun s h => ?_) (fun s h => ?_)
  · obtain ⟨_, k2, k3, _⟩ := (countersOk_iff s).1 h
    cases x
    · exact k2
    · exact k3
  · unfold State.loseCadence State.offer
    split
    · exact h
    · exact h
    · split <;> exact h
  · exact State.CountersOk.countMgmt (s := { s with mgmt := { s.mgmt with rx := none, byteGap := none } }) h _
  · unfold State.editExpired State.offer
    split <;> exact h
  · unfold State.retryExpired
    split
    · exact State.CountersOk.choose (State.CountersOk.countMgmt (s := { s with notices := _ }) h _)
    · exact h

/-- The passing of time keeps the marks. -/
theorem State.CountersOk.pass {s : State} (h : s.CountersOk) (us : Nat) : (s.pass us).CountersOk :=
  State.pass_keeps dues_countersOk.settle (fun _ _ h => h) us h

/-! ## Deliveries and playout -/

theorem State.CountersOk.settleDeliveries {s : State} (h : s.CountersOk) (p : Delivery → Bool) : (s.settleDeliveries p).CountersOk := by
  have key : ∀ (l : List Delivery) (t : State), t.CountersOk → (l.foldl State.takeDelivery t).CountersOk := by
    intro l
    induction l with
    | nil => exact fun _ h => h
    | cons d l ih => exact fun t ht => ih _ ((ht.takeOffers _).onStream _ fun c hc => hc.arrive _ _)
  exact key _ { s with deliveries := s.deliveries.filter fun d => !p d } h

/-- An event that may offer a record keeps the marks. -/
theorem State.CountersOk.playStream {s : State} (h : s.CountersOk) (i : StreamIdx) {f : Ctx → Ctx}
    (hf : ∀ c : Ctx, c.Marks → (f c).Marks) (g : Option PlayRecord → List Tick → List Tick) : (s.playStream i f g).CountersOk := by
  have h1 : (s.beforePlayout i).CountersOk := by
    unfold State.beforePlayout
    split
    · exact h.settleDeliveries _
    · exact h
  have h2 := h1.put (hf ((s.beforePlayout i).ctx i) (h1.1 i)) (.stream i)
  unfold State.playStream State.endDrain
  simp only
  split <;> exact h2

/-! ## Commit and RESTART -/

/-- The apply step keeps the marks. -/
theorem State.CountersOk.applyCommit {s : State} (h : s.CountersOk) (new : ConfigSet) (key : Byte) : (s.applyCommit new key).CountersOk := by
  have hk : ∀ (l : List StreamIdx) (t : State), t.CountersOk → (l.foldl (State.applyStream new) t).CountersOk := by
    intro l
    induction l with
    | nil => exact fun _ h => h
    | cons i l ih => exact fun t ht => ih _ (ht.put (Ctx.Marks.change (Ctx.Marks.of (c := t.ctx i) (ht.1 i) (by rfl)) _) _)
  have h1 := hk (List.finRange 32) s h
  unfold State.applyCommit
  generalize (List.finRange 32).foldl (State.applyStream new) s = s1 at h1 ⊢
  unfold State.offer
  split <;> exact h1.of_eq rfl rfl rfl rfl

/-- A RESTART keeps the marks, as it keeps the counters. -/
theorem State.CountersOk.restartNow {s : State} (h : s.CountersOk) : s.restartNow.CountersOk := by
  refine ⟨fun i => ?_, h.2⟩
  have : (s.restartNow.stream i).counters = (s.stream i).counters := by
    rw [show s.restartNow.stream i = (s.stream i).restarted (s.inForce i) by simp [State.stream, State.restartNow]]
    unfold Stream.restarted
    split <;> rfl
  rw [this]
  exact h.1 i

end Sys2Proof.Machine
end

