-- ==== Sys2Proof/Laws/Queues.lean ====
section
/-! SUPPORT. The bounds of the notice queue, the request buffer, the reply queue and the port FIFO are kept by each operation on them. -/

namespace Sys2Proof.Machine

/-! ## The Notice Unit -/

theorem numbers_tail {q : List NoticeEntry} {n : Byte}
    (h : q.map NoticeEntry.number = (List.range q.length).map (fun j => n - BitVec.ofNat 8 (q.length - j))) (k : Nat) :
    (q.drop k).map NoticeEntry.number =
      (List.range (q.drop k).length).map (fun j => n - BitVec.ofNat 8 ((q.drop k).length - j)) := by
  rw [List.map_drop, h]
  apply List.ext_getElem
  · simp
  · intro j h1 h2
    simp only [List.length_drop, List.length_map, List.length_range] at h1 h2
    simp only [List.getElem_drop, List.getElem_map, List.getElem_range, List.length_drop]
    congr 2
    omega

theorem join_ok {u : NoticeUnit} (h : u.Ok) (n : Notice) (hl : u.queue.length < Config.noticeDepth) : (u.join n).Ok := by
  obtain ⟨h1, h2, h3, h4, h5, h6⟩ := h
  refine ⟨by simp [NoticeUnit.join]; omega, h2, by simp [NoticeUnit.join]; omega, ?_, ?_, ?_⟩
  · simp only [NoticeUnit.join, List.map_append, List.length_append, List.length_singleton, List.range_succ, h4, List.map_cons,
      List.map_nil]
    congr 1
    · apply List.map_congr_left
      intro j hj
      have hj' : j < u.queue.length := List.mem_range.mp hj
      have : u.queue.length + 1 - j = (u.queue.length - j) + 1 := by omega
      rw [this]
      apply BitVec.eq_of_toNat_eq
      simp only [BitVec.toNat_sub, BitVec.toNat_add, BitVec.toNat_ofNat, show (1 : BitVec 8).toNat = 1 from rfl]
      omega
    · congr 1
      apply BitVec.eq_of_toNat_eq
      simp only [BitVec.toNat_sub, BitVec.toNat_add, BitVec.toNat_ofNat, show (1 : BitVec 8).toNat = 1 from rfl]
      have := u.nextNumber.isLt
      have : u.queue.length + 1 - u.queue.length = 1 := by omega
      rw [this]
      omega
  · intro p hp
    simp only [NoticeUnit.join] at hp ⊢
    cases hu : u.pointer with
    | none =>
      rw [hu] at hp
      obtain rfl := Option.some.inj hp
      have := h6 hu
      simp; omega
    | some p' =>
      rw [hu] at hp
      obtain rfl := Option.some.inj hp
      have := h5 p' hu
      simp; omega
  · simp only [NoticeUnit.join]; cases u.pointer <;> simp

theorem eligible_spec {u : NoticeUnit} {e : NoticeEntry} {first : Bool} (h : u.eligible = some (e, first)) :
    ∃ p, u.pointer = some p ∧ p < u.queue.length ∧
      (first = false ∧ p < u.inFlight ∨ first = true ∧ ¬ p < u.inFlight ∧ u.inFlight < Config.inFlightLimit) := by
  unfold NoticeUnit.eligible at h
  split at h
  · simp at h
  · split at h
    · simp at h
    · next p hp =>
      split at h
      · simp at h
      · next e' he =>
        have hlt : p < u.queue.length := (List.getElem?_eq_some_iff.mp he).1
        split at h
        · next hlt' => refine ⟨p, hp, hlt, Or.inl ⟨?_, hlt'⟩⟩; simp at h; exact h.2
        · next hge =>
          split at h
          · next hlim => refine ⟨p, hp, hlt, Or.inr ⟨?_, hge, hlim⟩⟩; simp at h; exact h.2
          · simp at h

theorem begin_ok {u : NoticeUnit} (h : u.Ok) {e : NoticeEntry} {first : Bool} (he : u.eligible = some (e, first)) :
    (u.begin first).Ok := by
  obtain ⟨h1, h2, h3, h4, h5, h6⟩ := h
  obtain ⟨p, hp, hlt, hcase⟩ := eligible_spec he
  have hle := (h5 p hp).2
  have hptr : u.pointerAfter = if p + 1 < u.queue.length then some (p + 1) else none := by
    simp [NoticeUnit.pointerAfter, hp]
  rcases hcase with ⟨rfl, hf⟩ | ⟨rfl, hf, hlim⟩
  · refine ⟨h1, h2, h3, h4, ?_, ?_⟩
    · intro p' hp'
      simp only [NoticeUnit.begin, hptr] at hp' ⊢
      split at hp'
      · obtain rfl := Option.some.inj hp'; simp; omega
      · simp at hp'
    · simp only [NoticeUnit.begin, hptr]
      split
      · simp
      · intro _; simp; omega
  · refine ⟨h1, by simp only [NoticeUnit.begin, if_true]; omega, by simp only [NoticeUnit.begin, if_true]; omega, h4, ?_, ?_⟩
    · intro p' hp'
      simp only [NoticeUnit.begin, hptr, if_true] at hp' ⊢
      split at hp'
      · obtain rfl := Option.some.inj hp'; omega
      · simp at hp'
    · simp only [NoticeUnit.begin, hptr, if_true]
      split
      · simp
      · intro _; omega

theorem goBack_ok {u : NoticeUnit} (h : u.Ok) : u.goBack.Ok := by
  obtain ⟨h1, h2, h3, h4, h5, h6⟩ := h
  refine ⟨h1, h2, h3, h4, ?_, ?_⟩
  · intro p hp
    simp only [NoticeUnit.goBack] at hp ⊢
    split at hp
    · simp at hp
    · next hne =>
      obtain rfl := Option.some.inj hp
      exact ⟨List.length_pos_iff.mpr hne, by omega⟩
  · simp only [NoticeUnit.goBack]
    split
    · next hnil => intro _; rw [hnil] at h3 ⊢; simpa using h3
    · simp

theorem retire_ok {u : NoticeUnit} (h : u.Ok) {k : Nat} (hk : 1 ≤ k) (hk' : k ≤ u.inFlight) (tx : Option TxFrame) :
    (u.retire k tx).Ok := by
  obtain ⟨h1, h2, h3, h4, h5, h6⟩ := h
  let u1 : NoticeUnit := { u with
    queue := u.queue.drop k, inFlight := u.inFlight - k, retryCount := 0,
    pointer := pointerAfterRetire u.pointer k (u.queue.drop k) }
  let u2 : NoticeUnit := { u1 with retryTimer := retryAfterRetire u1 tx }
  have hlen : (u.queue.drop k).length = u.queue.length - k := by simp
  have hok : u2.Ok := by
    refine ⟨?_, ?_, ?_, numbers_tail h4 k, ?_, ?_⟩
    · show (u.queue.drop k).length ≤ _; omega
    · show u.inFlight - k ≤ _; omega
    · show u.inFlight - k ≤ (u.queue.drop k).length; omega
    · intro p hp
      change p ∈ pointerAfterRetire u.pointer k (u.queue.drop k) at hp
      show p < (u.queue.drop k).length ∧ p ≤ u.inFlight - k
      unfold pointerAfterRetire at hp
      split at hp
      · simp at hp
      · next p' hp' =>
        have := h5 p' hp'
        split at hp
        · split at hp
          · simp at hp
          · next hne =>
            obtain rfl := Option.some.inj hp
            exact ⟨List.length_pos_iff.mpr hne, by omega⟩
        · obtain rfl := Option.some.inj hp
          omega
    · show pointerAfterRetire u.pointer k (u.queue.drop k) = none → u.inFlight - k = (u.queue.drop k).length
      unfold pointerAfterRetire
      split
      · next hn => intro _; have := h6 hn; omega
      · split
        · split
          · next hnil => intro _; rw [hnil] at hlen ⊢; simp at hlen ⊢; omega
          · simp
        · simp
  show (if u2.lost = 0 then u2 else { u2.join (.noticesLost u2.lost) with lost := 0 }).Ok
  split
  · exact hok
  · have hl : u2.queue.length < Config.noticeDepth := by
      show (u.queue.drop k).length < _
      have : 0 < u.queue.length := by omega
      omega
    exact join_ok hok _ hl

theorem acked_bound {u : NoticeUnit} {n : Byte} {k : Nat} (h : u.acked n = some k) : 1 ≤ k ∧ k ≤ u.inFlight := by
  unfold NoticeUnit.acked at h
  cases hf : (u.queue.take u.inFlight).findIdx? fun e => decide (e.number = n) with
  | none => rw [hf] at h; simp at h
  | some j =>
    rw [hf] at h
    obtain rfl := Option.some.inj h
    have := (List.findIdx?_eq_some_iff_getElem.mp hf).1
    simp only [List.length_take] at this
    show 1 ≤ j + 1 ∧ j + 1 ≤ u.inFlight
    omega

theorem completed_ok {u : NoticeUnit} (h : u.Ok) (e : NoticeEntry) : (u.completed e).Ok := by
  unfold NoticeUnit.completed
  split
  · exact h
  · split <;> exact h

/-! ## The bounded queues -/

theorem choose_queues {s : State} (h : s.QueuesOk) : s.choose.QueuesOk := by
  obtain ⟨h1, h2, h3, h4⟩ := h
  unfold State.choose
  split
  · exact ⟨h1, h2, h3, h4⟩
  · split
    · next r rest hr =>
      refine ⟨h1, h2, ?_, h4⟩
      rw [hr] at h3
      simp only [List.length_cons] at h3
      show rest.length ≤ _
      omega
    · split
      · exact ⟨h1, h2, h3, h4⟩
      · next e first he => exact ⟨h1, h2, h3, begin_ok h4 he⟩

theorem countMgmt_queues {s : State} (h : s.QueuesOk) (k : Fin 6) : (s.countMgmt k).QueuesOk := h

theorem takeNotice_queues {s : State} (h : s.QueuesOk) (n : Notice) : (s.takeNotice n).QueuesOk := by
  unfold State.takeNotice
  split
  · next hl => exact choose_queues ⟨h.1, h.2.1, h.2.2.1, join_ok h.2.2.2 n hl⟩
  · exact h

theorem takeOffers_queues {s : State} (h : s.QueuesOk) (p : Block → Bool) : (s.takeOffers p).QueuesOk := by
  have key : ∀ (l : List Offer) (t : State), t.QueuesOk → (l.foldl (fun t o => t.takeNotice o.notice) t).QueuesOk := by
    intro l
    induction l with
    | nil => intro t ht; exact ht
    | cons o l ih => intro t ht; exact ih _ (takeNotice_queues ht _)
  exact key _ _ h

/-- What the bounds speak of stays. -/
theorem queues_of {s t : State} (h : s.QueuesOk) (h1 : t.port = s.port) (h2 : t.mgmt = s.mgmt) (h3 : t.notices = s.notices) :
    t.QueuesOk := by
  unfold State.QueuesOk at *
  rw [h1, h2, h3]; exact h

theorem onStream_queues {s : State} (h : s.QueuesOk) (i : StreamIdx) (f : Ctx → Ctx) : (s.onStream i f).QueuesOk := h

theorem takeDelivery_queues {s : State} (h : s.QueuesOk) (d : Delivery) : (s.takeDelivery d).QueuesOk :=
  onStream_queues (takeOffers_queues h _) _ _

theorem settleDeliveries_queues {s : State} (h : s.QueuesOk) (p : Delivery → Bool) : (s.settleDeliveries p).QueuesOk := by
  have key : ∀ (l : List Delivery) (t : State), t.QueuesOk → (l.foldl State.takeDelivery t).QueuesOk := by
    intro l
    induction l with
    | nil => intro t ht; exact ht
    | cons d l ih => intro t ht; exact ih _ (takeDelivery_queues ht d)
  exact key _ _ h

theorem playStream_queues {s : State} (h : s.QueuesOk) (i : StreamIdx) (f : Ctx → Ctx)
    (g : Option PlayRecord → List Tick → List Tick) : (s.playStream i f g).QueuesOk := by
  have h1 : (s.beforePlayout i).QueuesOk := by
    unfold State.beforePlayout
    split
    · exact settleDeliveries_queues h _
    · exact h
  unfold State.playStream State.endDrain
  simp only
  split <;> exact h1

theorem placeRecord_queues {s : State} (h : s.QueuesOk) (r : PlayRecord) : (s.placeRecord r).QueuesOk := by
  unfold State.placeRecord
  split
  · next hl => exact ⟨by simp; omega, h.2⟩
  · exact h

theorem playoutRound_queues {s : State} (h : s.QueuesOk) : (playoutRound s).QueuesOk := by
  have key : ∀ (l : List PlayRecord) (t : State), t.QueuesOk → (l.foldl State.placeRecord t).QueuesOk := by
    intro l
    induction l with
    | nil => intro t ht; exact ht
    | cons d l ih => intro t ht; exact ih _ (placeRecord_queues ht d)
  unfold playoutRound
  split
  · exact h
  · next t ts _ =>
    split
    · exact key _ _ (takeOffers_queues (s := { s with ticks := ts }) h _)
    · exact h

theorem transfer_length (p : Port) : p.transfer.fifo.length ≤ p.fifo.length := by
  unfold Port.transfer
  split
  · exact Nat.le_refl _
  · next r rest hr => split
                      · exact Nat.le_refl _
                      · simp [hr]

theorem goodRequest_queues {s : State} (h : s.QueuesOk) (f : MgmtFrame) : (s.goodRequest f).QueuesOk := by
  unfold State.goodRequest
  simp only
  split
  · next hl => exact ⟨h.1, by simp; omega, h.2.2⟩
  · exact h

theorem examine_queues (n : Nat) (l : List Byte) {s : State} (h : s.QueuesOk) : (State.examine n l s).QueuesOk := by
  induction n generalizing l s with
  | zero => exact h
  | succ n ih =>
    cases l with
    | nil => exact h
    | cons b rest =>
      unfold State.examine
      split
      · split
        · exact h
        · split
          · exact ih _ h
          · split
            · exact h
            · split
              · exact ih _ (goodRequest_queues h _)
              · exact ih _ h
      · exact ih _ h

theorem goodFrame_queues {s : State} (h : s.QueuesOk) : s.goodFrame.QueuesOk := by
  unfold State.goodFrame
  split
  · refine choose_queues (countMgmt_queues (s := { s with notices := _ }) ?_ _)
    exact ⟨h.1, h.2.1, h.2.2.1, goBack_ok (u := { s.notices with quiet := false, retryCount := 0 }) h.2.2.2⟩
  · exact h

theorem beginRequest_queues {s : State} (h : s.QueuesOk) (f : MgmtFrame) : (s.beginRequest f).QueuesOk := by
  have h0 : ({ s with mgmt := { s.mgmt with requests := s.mgmt.requests.tail, inProgress := some f } } : State).QueuesOk :=
    ⟨h.1, by have := h.2.1; simp; omega, h.2.2⟩
  unfold State.beginRequest State.settleReports
  split
  · exact h0
  · exact goodFrame_queues h0

theorem endRequest_queues {s : State} (h : s.QueuesOk) (hr : s.mgmt.replies.length < Config.replyDepth) (f : MgmtFrame)
    (a : Answer) : (s.endRequest f a).QueuesOk :=
  choose_queues ⟨h.1, h.2.1, by simp; omega, h.2.2.2⟩

/-! ## Time -/

/-- The expiries keep the queues' bounds, and so does settling what is due. -/
theorem dues_queues : State.DuesKeep State.QueuesOk := by
  refine State.duesKeep (fun s x h => queues_of h ?_ ?_ ?_) (fun s h => queues_of h ?_ ?_ ?_) (fun s h => h) (fun s h => h)
    (fun s h => queues_of h ?_ ?_ ?_) (fun s h => ?_)
  · simp [State.linkSilent, State.putLink]
  · simp [State.linkSilent, State.putLink]
  · simp [State.linkSilent, State.putLink]
  · unfold State.loseCadence; split <;> simp [State.produceTick]
  · unfold State.loseCadence; split <;> simp [State.produceTick]
  · unfold State.loseCadence; split <;> simp [State.produceTick]
  · simp [State.editExpired, State.closeSession]
  · simp [State.editExpired, State.closeSession]
  · simp [State.editExpired, State.closeSession]
  · have hn : ({ s.notices with retryTimer := none, retryCount := s.notices.retryCount + 1 } : NoticeUnit).Ok := h.2.2.2
    unfold State.retryExpired
    split
    · have hs : State.QueuesOk { s with notices := NoticeUnit.goBack _ } := ⟨h.1, h.2.1, h.2.2.1, goBack_ok hn⟩
      exact choose_queues (countMgmt_queues hs _)
    · exact h

theorem pass_queues {s : State} (h : s.QueuesOk) (us : Nat) : (s.pass us).QueuesOk :=
  State.pass_keeps dues_queues.settle (fun _ _ h => h) us h

end Sys2Proof.Machine
end

