-- ==== Sys2Proof/Laws/Rounds.lean ====
section
/-! SUPPORT. The rounds of the ticks under way (06 R120): a record offered by an event names its context, and joins its tick's round in ascending stream index. -/

namespace Sys2Proof.Machine

/-! ## The record an event offers -/

/-- The context is context i, and the record it offers, if any, is of stream i. -/
def Ctx.Names (i : StreamIdx) (c : Ctx) : Prop := c.idx = i ∧ ∀ r ∈ c.record, r.idx = i

namespace Ctx

variable {i : StreamIdx} {c d : Ctx}

theorem Names.of (h : c.Names i) (h1 : d.idx = c.idx) (h2 : d.record = c.record) : d.Names i := by
  unfold Names; rw [h1, h2]; exact h

theorem Names.note (h : c.Names i) (a : Bool) (n : Notice) : (c.note a n).Names i := h.of (by simp) (by simp)

theorem Names.noteState (h : c.Names i) (cause : Cause) : (c.noteState cause).Names i := h.note _ _

theorem Names.count (h : c.Names i) (k : Fin 24) : (c.count k).Names i := h.of (by simp) (by simp)

theorem Names.offer (h : c.Names i) {r : PlayRecord} (hr : r.idx = c.idx) : (c.offerRecord r).Names i := by
  refine ⟨h.1, fun p hp => ?_⟩
  obtain rfl := Option.some.inj hp
  exact hr.trans h.1

theorem Names.trimForInsert (h : c.Names i) : c.trimForInsert.Names i := by
  unfold Ctx.trimForInsert
  split
  · exact h.of (by simp) (by simp)
  · exact h

theorem Names.substitute (h : c.Names i) : c.substitute.Names i := by
  unfold Ctx.substitute
  split
  · exact h
  · exact h.trimForInsert

theorem Names.chain (h : c.Names i) : c.chain.Names i := by
  have key : ∀ (n : Nat) (c : Ctx), c.Names i → (c.chainReleases n).Names i := by
    intro n
    induction n with
    | zero => exact fun _ h => h
    | succ n ih =>
      intro c h
      unfold Ctx.chainReleases
      split
      · exact h
      · next e _ =>
        split
        · exact h
        · next w _ =>
          have h1 := Names.trimForInsert (c := c.removeHeld e) h
          exact ih _ (Names.count (c := ((c.removeHeld e).trimForInsert.append (.real e w.q w.words)).advance .real) h1 _)
  have h1 := key c.s.window.length c h
  unfold Ctx.chain Ctx.settleTimer Ctx.startTimer
  split
  · exact h1
  · split
    · exact h1
    · split <;> exact h1

theorem Names.freeJump (h : c.Names i) : c.freeJump.Names i := by
  unfold Ctx.freeJump; split <;> exact h

theorem Names.emitHead (h : c.Names i) : c.emitHead.Names i := by
  unfold Ctx.emitHead
  split
  · exact h
  · exact h.offer rfl
  · exact h.offer rfl

theorem Names.guardCountdown (h : c.Names i) : c.guardCountdown.Names i := by
  unfold Ctx.guardCountdown; split <;> exact h

theorem Names.playRunning (h : c.Names i) : c.playRunning.Names i := by
  unfold Ctx.playRunning
  split
  · exact h.emitHead
  · split
    · exact ((h.substitute.count _).chain).emitHead
    · have hp : c.passUnderrun.Names i := by
        unfold Ctx.passUnderrun
        split
        · exact h
        · next e _ =>
          exact (Names.count (c := (c.offerRecord (.subst c.idx e c.substPayload)).advance .substituted) (h.offer rfl) _)
      unfold Ctx.underrun
      simp only
      split
      · unfold Ctx.stallNow
        exact Names.noteState (Names.of (Names.freeJump (c := { c.passUnderrun with s := { c.passUnderrun.s with state := .stalled } }) hp) (by rfl) (by rfl)) _
      · exact hp

/-- A playout event offers a record of its own context only. -/
theorem Names.playout (h : c.Names i) : c.playout.Names i := by
  unfold Ctx.playout
  split
  · exact h
  · exact h
  · unfold Ctx.playPriming
    split
    · exact h.guardCountdown.offer rfl
    · exact (Names.noteState (h.guardCountdown.of (by rfl) (by rfl)) _).playRunning
  · exact h.guardCountdown.playRunning
  · exact h.offer rfl
  · unfold Ctx.playDraining
    split
    · exact h.emitHead
    · exact Names.noteState (Names.of (h.offer (r := .ended c.idx) rfl) (by rfl) (by rfl)) _

theorem Names.phaseStep (h : c.Names i) : c.phaseStep.Names i := by
  unfold Ctx.phaseStep
  split
  · exact h
  · split
    · exact (h.of (by rfl) (by rfl)).playout
    · exact h

theorem Names.silencePath (h : c.Names i) (x : Path) : (c.silencePath x).Names i := by
  unfold Ctx.silencePath
  split
  · exact h
  · exact h
  · split
    · exact (h.of (by rfl) (by rfl)).note _ _
    · exact h

theorem Names.timerStep (h : c.Names i) : c.timerStep.Names i := by
  unfold Ctx.timerStep
  split
  · exact h
  · split
    · exact ((Names.substitute (c := { c with s := { c.s with timer := none } }) h).count _).chain
    · exact h

/-- A cadence tick at a context offers a record of that context only. -/
theorem Names.tick (h : c.Names i) : c.tick.Names i := ((h.silencePath .a).silencePath .b).timerStep.phaseStep

end Ctx

/-! ## Rounds -/

theorem insertRecord_perm (r : PlayRecord) (l : List PlayRecord) : (insertRecord r l).Perm (r :: l) := by
  induction l with
  | nil => exact List.Perm.refl _
  | cons v l ih =>
    unfold insertRecord
    split
    · exact List.Perm.refl _
    · exact (List.Perm.cons v ih).trans (List.Perm.swap r v l)

/-- A record of a stream that has none in a round joins it in order. -/
theorem insertRecord_sorted {r : PlayRecord} {l : List PlayRecord} (h : l.Pairwise fun a b => a.idx < b.idx)
    (hr : ∀ v ∈ l, v.idx ≠ r.idx) : (insertRecord r l).Pairwise fun a b => a.idx < b.idx := by
  induction l with
  | nil => exact List.pairwise_singleton _ _
  | cons v l ih =>
    obtain ⟨h1, h2⟩ := List.pairwise_cons.1 h
    unfold insertRecord
    split
    · next hlt =>
      refine List.pairwise_cons.2 ⟨fun w hw => ?_, h⟩
      rcases List.mem_cons.1 hw with rfl | hw
      · exact hlt
      · exact hlt.trans (h1 w hw)
    · next hlt =>
      have hv : v.idx < r.idx := lt_of_le_of_ne (not_lt.1 hlt) (hr v List.mem_cons_self)
      refine List.pairwise_cons.2 ⟨fun w hw => ?_, ih h2 fun w hw => hr w (List.mem_cons_of_mem v hw)⟩
      rcases List.mem_cons.1 ((insertRecord_perm r l).mem_iff.1 hw) with rfl | hw
      · exact hv
      · exact h1 w hw

/-- A context that takes its oldest tick leaves every round in order. -/
theorem takeTick_ok (i : StreamIdx) {r : Option PlayRecord} (hr : ∀ p ∈ r, p.idx = i) {ts : List Tick} (h : ∀ t ∈ ts, t.Ok) :
    ∀ t ∈ takeTick i r ts, t.Ok := by
  induction ts with
  | nil => exact h
  | cons t ts ih =>
    have ht := h t List.mem_cons_self
    have hts : ∀ u ∈ ts, u.Ok := fun u hu => h u (List.mem_cons_of_mem t hu)
    unfold takeTick
    split
    · next hi =>
      intro u hu
      rcases List.mem_cons.1 hu with rfl | hu
      · cases r with
        | none => exact ⟨ht.1, fun p hp hw => ht.2 p hp (List.mem_of_mem_filter hw)⟩
        | some p =>
          obtain rfl : p.idx = i := hr p rfl
          refine ⟨insertRecord_sorted ht.1 fun v hv he => ht.2 v hv (he ▸ hi), fun v hv hw => ?_⟩
          obtain ⟨hw, hne⟩ := List.mem_filter.1 hw
          rcases List.mem_cons.1 ((insertRecord_perm p _).mem_iff.1 hv) with rfl | hv
          · simp at hne
          · exact ht.2 v hv hw
      · exact hts u hu
    · intro u hu
      rcases List.mem_cons.1 hu with rfl | hu
      · exact ht
      · exact ih hts u hu

/-- Taking contexts out of reach of the ticks leaves every round in order. -/
theorem dropWaiting_ok (p : StreamIdx → Bool) {ts : List Tick} (h : ∀ t ∈ ts, t.Ok) : ∀ t ∈ dropWaiting p ts, t.Ok := by
  intro t ht
  obtain ⟨u, hu, rfl⟩ := List.mem_map.1 ht
  exact ⟨(h u hu).1, fun r hr hw => (h u hu).2 r hr (List.mem_of_mem_filter hw)⟩

/-- A record's own round is in order. -/
theorem ownRound_ok (r : Option PlayRecord) {ts : List Tick} (h : ∀ t ∈ ts, t.Ok) : ∀ t ∈ ownRound r ts, t.Ok := by
  cases r with
  | none => exact h
  | some p =>
    intro t ht
    rcases List.mem_append.1 ht with ht | ht
    · exact h t ht
    · obtain rfl := List.mem_singleton.1 ht
      exact ⟨List.pairwise_singleton _ _, fun _ _ hw => (List.not_mem_nil hw).elim⟩

/-- A tick produced opens an empty round. -/
theorem produceTick_roundsOk {s : State} (h : s.RoundsOk) : s.produceTick.RoundsOk := by
  intro t ht
  rcases List.mem_append.1 ht with ht | ht
  · exact h t ht
  · obtain rfl := List.mem_singleton.1 ht
    exact ⟨List.Pairwise.nil, fun _ hr => (List.not_mem_nil hr).elim⟩

/-- What precedes a playout event of a draining stream leaves the ticks under way. -/
theorem beforePlayout_ticks (s : State) (i : StreamIdx) : (s.beforePlayout i).ticks = s.ticks := by
  have key : ∀ (l : List Delivery) (t : State), (l.foldl State.takeDelivery t).ticks = t.ticks := by
    intro l
    induction l with
    | nil => exact fun _ => rfl
    | cons d l ih =>
      intro t
      rw [List.foldl_cons, ih]
      exact State.takeOffers_ticks t _
  unfold State.beforePlayout
  split
  · exact key _ _
  · rfl

/-- An event at a context that may offer a record leaves every round in order. -/
theorem playStream_roundsOk {s : State} (h : s.RoundsOk) (i : StreamIdx) {f : Ctx → Ctx}
    (hf : ∀ c : Ctx, c.Names i → (f c).Names i) {g : Option PlayRecord → List Tick → List Tick}
    (hg : ∀ (r : Option PlayRecord) (ts : List Tick), (∀ p ∈ r, p.idx = i) → (∀ t ∈ ts, t.Ok) → ∀ t ∈ g r ts, t.Ok) :
    (s.playStream i f g).RoundsOk := by
  have hn : (f ((s.beforePlayout i).ctx i)).Names i := hf _ ⟨rfl, by simp [State.ctx]⟩
  have h1 := hg (f ((s.beforePlayout i).ctx i)).record (s.beforePlayout i).ticks hn.2 (by rw [beforePlayout_ticks]; exact h)
  unfold State.playStream State.endDrain
  simp only
  split
  · exact dropWaiting_ok _ h1
  · exact h1

end Sys2Proof.Machine
end

