-- ==== Sys2Proof/Laws/Tags.lean ====
section
/-! SUPPORT. The Tag Map's agreement with the streams (State.TagMapOk) is kept: by events that keep each stream's class, by the END of a drain, by a commit and by a RESTART. -/

namespace Sys2Proof.Machine

/-- Each stream's class, the active set and the Tag Map stay. -/
structure State.SameTags (s t : State) : Prop where
  same : s.SameClass t
  map : t.tagMap = s.tagMap

theorem State.SameTags.refl (s : State) : s.SameTags s := ⟨State.SameClass.refl s, rfl⟩

theorem State.SameTags.trans {a b c : State} (h : a.SameTags b) (k : b.SameTags c) : a.SameTags c :=
  ⟨h.same.trans k.same, k.map.trans h.map⟩

theorem State.SameMerge.tags {s t : State} (h : s.SameMerge t) (hm : t.tagMap = s.tagMap) : s.SameTags t := ⟨h.sameClass, hm⟩

theorem State.SameTags.ok {s t : State} (k : s.SameTags t) (h : s.TagMapOk) : t.TagMapOk := by
  obtain ⟨h1, h2, h3, h4⟩ := h
  refine ⟨by rw [k.map]; exact h1, by rw [k.map]; exact h2, fun p hp => ?_, fun i hi => ?_⟩
  · rw [k.map] at hp
    rw [Ne, k.same.off, k.same.inForce]; exact h3 p hp
  · rw [Ne, k.same.off] at hi
    rw [k.map]; exact h4 i hi

/-! ## Events at one context -/

/-- An event that keeps a draining context draining. -/
def Ctx.Stays (c c' : Ctx) : Prop := c.s.state = .draining → c'.s.state = .draining ∧ c'.s.drain = c.s.drain

theorem put_tags {s : State} {i : StreamIdx} {c : Ctx} (b : Block) (k : (s.ctx i).Kept c) (hs : (s.ctx i).Stays c) :
    s.SameTags (s.put c b) := by
  have hst : (s.put c b).stream i = c.s := put_stream_of s b k.idx
  have hne : ∀ j, j ≠ i → (s.put c b).stream j = s.stream j := fun j hj => (put_other k.idx hj).1
  refine ⟨⟨rfl, fun j => ?_, fun j => ?_, fun j hj => ?_⟩, rfl⟩
  all_goals
    by_cases hji : j = i
    · subst hji
      rw [hst]
      first
      | exact k.live
      | exact ⟨fun h => (k.drain h).1, fun h => (hs h).1⟩
      | exact (hs hj).2
    · rw [hne j hji]

theorem Ctx.arrive_stays (c : Ctx) (x : Path) (f : Frame) : c.Stays (c.arrive x f) := by
  intro h; simp [arrive, h]

theorem Ctx.count_stays (c : Ctx) (k : Fin 24) : c.Stays (c.count k) := by intro h; simp [h]

theorem Ctx.departed_stays (c : Ctx) (x : Path) : c.Stays (c.departed x) := by
  intro h; unfold departed; split
  · exact ⟨h, rfl⟩
  · exact ⟨h, rfl⟩
  · cases x <;> simp [Stream.setPresence, h]

theorem Ctx.silencePath_stays (c : Ctx) (x : Path) : c.Stays (c.silencePath x) := by
  intro h; unfold silencePath; split
  · exact ⟨h, rfl⟩
  · exact ⟨h, rfl⟩
  · split <;> cases x <;> simp [Stream.setPresence, h]

theorem Ctx.force_stays (c : Ctx) : c.Stays c.force := by intro h; simp [force, h]

theorem settleDeliveries_tags {s : State} (h : s.MergeOk) (p : Delivery → Bool) : s.SameTags (s.settleDeliveries p) := by
  refine ⟨settleDeliveries_class h p, ?_⟩
  have key : ∀ (l : List Delivery) (t : State), (l.foldl State.takeDelivery t).tagMap = t.tagMap := by
    intro l
    induction l with
    | nil => intro t; rfl
    | cons d l ih => intro t; exact (ih _).trans (by simp [State.takeDelivery])
  exact key _ _

theorem takeOffers_tags (s : State) (p : Block → Bool) : s.SameTags (s.takeOffers p) := (takeOffers_same s p).tags (by simp)

theorem arrival_tags {s : State} (h : s.MergeOk) (x : Path) (i : StreamIdx) : s.SameTags (arrival x i s) := by
  unfold arrival
  split
  · exact State.SameTags.refl s
  · next d rest _ =>
    have h0 : s.SameMerge { s with deliveries := rest } := State.sameMerge_of rfl rfl rfl rfl
    exact (h0.tags rfl).trans ⟨takeDelivery_class (h0.ok h) d, by simp [State.takeDelivery]⟩

theorem takeReport_tags {s : State} (h : s.MergeOk) (x : Path) (i : StreamIdx) : s.SameTags (s.takeReport x i) :=
  (put_tags (.stream i) (ctx_kept h (Ctx.departed_keepsAll x) i) (Ctx.departed_stays _ x)).trans
    ((State.sameMerge_of (s := s.onStream i fun c => c.departed x) (t := s.takeReport x i) rfl rfl rfl rfl).tags rfl)

theorem linkDepartureReport_tags {s : State} (h : s.MergeOk) (x : Path) (i : StreamIdx) :
    s.SameTags (linkDepartureReport x i s) := by
  unfold linkDepartureReport
  split
  · have h0 : s.SameMerge { s with reports := s.reports.erase (x, i) } := State.sameMerge_of rfl rfl rfl rfl
    have h1 := (takeOffers_same _ (isLink x)).ok (h0.ok h)
    exact ((h0.tags rfl).trans (takeOffers_tags _ (isLink x))).trans (takeReport_tags h1 x i)
  · exact State.SameTags.refl s

theorem pathAbsent_tags {s : State} (h : s.MergeOk) (i : StreamIdx) (x : Path) : s.SameTags (pathAbsent i x s) := by
  unfold pathAbsent
  split
  · exact State.SameTags.refl s
  · exact State.SameTags.refl s
  · split
    · exact put_tags _ (ctx_kept h (Ctx.silencePath_keepsAll x) i) (Ctx.silencePath_stays _ x)
    · exact State.SameTags.refl s

theorem gapTimerExpiry_tags {s : State} (h : s.MergeOk) (i : StreamIdx) : s.SameTags (gapTimerExpiry i s) := by
  unfold gapTimerExpiry
  split
  · exact State.SameTags.refl s
  · next n hn =>
    split
    · have hp := playing_of_timer (h.1 i).1 hn
      have hs : (s.stream i).state ≠ .off := by intro h0; rw [h0] at hp; simp [StreamState.playing] at hp
      refine put_tags _ (Ctx.expireTimer_kept (ctx_good h i hs) hn) fun h0 => ?_
      rw [show (s.stream i).state = .draining from h0] at hp; simp [StreamState.playing] at hp
    · exact State.SameTags.refl s

theorem forceResync_tags {s : State} (h : s.MergeOk) (body : List Byte) : s.SameTags (forceResync body s).1 := by
  unfold forceResync
  split
  · exact State.SameTags.refl s
  · split
    · exact State.SameTags.refl s
    · exact State.SameTags.refl s
    all_goals exact put_tags _ (ctx_kept h Ctx.force_keepsAll _) (Ctx.force_stays _)

theorem playoutRound_tags {s : State} (h : s.MergeOk) : s.SameTags (playoutRound s) := by
  have key : ∀ (l : List PlayRecord) (t : State), t.MergeOk → t.SameTags (l.foldl State.placeRecord t) := by
    intro l
    induction l with
    | nil => intro t _; exact State.SameTags.refl t
    | cons r l ih =>
      intro t ht
      refine State.SameTags.trans ?_ (ih _ (placeRecord_mergeOk ht r))
      unfold State.placeRecord
      split
      · exact State.SameMerge.tags (State.sameMerge_of rfl rfl rfl rfl) rfl
      · exact put_tags _ (ctx_kept ht (Ctx.count_keepsAll _) _) (Ctx.count_stays _ _)
  unfold playoutRound
  split
  · exact State.SameTags.refl s
  · next t ts _ =>
    split
    · have h0 : s.SameMerge { s with ticks := ts } := State.sameMerge_of rfl rfl rfl rfl
      exact ((h0.tags rfl).trans (takeOffers_tags _ _)).trans (key _ _ ((takeOffers_same _ _).ok (h0.ok h)))
    · exact State.SameTags.refl s

/-! ## The END of a drain -/

/-- An event that may end a drain: the Tag Map entry leaves with it. -/
theorem playStream_tagMapOk {s : State} (h : s.MergeOk) (ht : s.TagMapOk) {f : Ctx → Ctx} (hf : Ctx.KeepsAll f) (i : StreamIdx)
    (g : Option PlayRecord → List Tick → List Tick) : (s.playStream i f g).TagMapOk := by
  have h1 : (s.beforePlayout i).MergeOk ∧ (s.beforePlayout i).TagMapOk := by
    unfold State.beforePlayout
    split
    · exact ⟨settleDeliveries_mergeOk h _, (settleDeliveries_tags h _).ok ht⟩
    · exact ⟨h, ht⟩
  generalize hs1 : s.beforePlayout i = s1 at h1
  obtain ⟨hm, t1, t2, t3, t4⟩ := h1
  have k := ctx_kept hm hf i
  generalize hc : f (s1.ctx i) = c at k
  let u : State := { s1.put c (.stream i) with ticks := g c.record s1.ticks }
  have hdef : s.playStream i f g = u.endDrain i := by simp only [State.playStream, hs1, hc, u]
  have hu : u.MergeOk := (State.sameMerge_of (s := s1.put c (.stream i)) rfl rfl rfl rfl).ok (put_mergeOk hm k)
  have hst : u.stream i = c.s := put_stream_of s1 (.stream i) k.idx
  have hne : ∀ j, j ≠ i → u.stream j = s1.stream j ∧ u.inForce j = s1.inForce j :=
    fun j hj => put_other (s := s1) (c := c) (b := .stream i) k.idx hj
  have hmap : u.tagMap = s1.tagMap := rfl
  rw [hdef]
  unfold State.endDrain
  split
  · next hoff =>
    rw [hst] at hoff
    have hsub : (s1.tagMap.filter fun p => !decide (p.2 = i)).Sublist s1.tagMap := List.filter_sublist
    refine ⟨t1.sublist (hsub.map _), t2.sublist (hsub.map _), fun p hp => ?_, fun j hj => ?_⟩
    · have hp' := List.mem_filter.mp hp
      have hpi : p.2 ≠ i := by simpa using hp'.2
      have := t3 p hp'.1
      show (u.stream p.2).state ≠ .off ∧ p.1 = (u.inForce p.2).tag
      rw [(hne _ hpi).1, (hne _ hpi).2]; exact this
    · have hji : j ≠ i := by
        rintro rfl
        exact hj (by show (u.stream j).state = .off; rw [hst]; exact hoff)
      have hj' : (u.stream j).state ≠ .off := hj
      rw [(hne j hji).1] at hj'
      obtain ⟨p, hp, hpj⟩ := List.mem_map.mp (t4 j hj')
      exact List.mem_map.mpr ⟨p, List.mem_filter.mpr ⟨hp, by simp [hpj, hji]⟩, hpj⟩
  · next hoff =>
    rw [hst] at hoff
    have hin : u.inForce i = s1.inForce i := inForce_put (b := .stream i) k (hm.1 i).2 hoff
    have hoff' : (s1.stream i).state ≠ .off := by
      intro h0
      have hl : c.s.state.live = (s1.stream i).state.live := k.live
      rw [h0] at hl
      have : c.s.state = .draining := by
        cases hcs : c.s.state <;> simp_all [StreamState.live]
      have := (k.drain this).1
      rw [show (s1.stream i).state = .draining from this] at h0; simp at h0
    refine ⟨t1, t2, fun p hp => ?_, fun j hj => ?_⟩
    · have := t3 p hp
      by_cases hpi : p.2 = i
      · rw [hpi] at this ⊢
        rw [hst, hin]; exact ⟨hoff, this.2⟩
      · rw [(hne _ hpi).1, (hne _ hpi).2]; exact this
    · by_cases hji : j = i
      · subst hji; exact t4 j hoff'
      · rw [(hne j hji).1] at hj; exact t4 j hj

theorem streamTick_tagMapOk {s : State} (h : s.MergeOk) (ht : s.TagMapOk) (i : StreamIdx) : (streamTick i s).TagMapOk := by
  unfold streamTick
  split
  · exact playStream_tagMapOk ((takeOffers_same _ _).ok h) ((takeOffers_tags _ _).ok ht) Ctx.tick_keepsAll i _
  · exact ht

theorem playoutEvent_tagMapOk {s : State} (h : s.MergeOk) (ht : s.TagMapOk) (i : StreamIdx) : (playoutEvent i s).TagMapOk := by
  unfold playoutEvent
  split
  · exact playStream_tagMapOk h ht Ctx.phaseStep_keepsAll i _
  · exact ht

theorem stall_tagMapOk {s : State} (h : s.MergeOk) (ht : s.TagMapOk) (i : StreamIdx) : (stall i s).TagMapOk := by
  unfold stall
  split
  · exact playStream_tagMapOk h ht Ctx.phaseStep_keepsAll i _
  · exact ht

theorem guardExpiry_tagMapOk {s : State} (h : s.MergeOk) (ht : s.TagMapOk) (i : StreamIdx) : (guardExpiry i s).TagMapOk := by
  unfold guardExpiry
  split
  · exact playStream_tagMapOk h ht Ctx.phaseStep_keepsAll i _
  · exact ht

/-! ## The commit -/

theorem firstDuplicate_none {l : List (StreamIdx × Byte)} {seen : List Byte} (h : firstDuplicate l seen = none) :
    (l.map Prod.snd).Nodup ∧ ∀ t ∈ l.map Prod.snd, t ∉ seen := by
  induction l generalizing seen with
  | nil => simp
  | cons a l ih =>
    obtain ⟨i, t⟩ := a
    simp only [firstDuplicate] at h
    split at h
    · simp at h
    · next hns =>
      obtain ⟨h1, h2⟩ := ih h
      simp only [List.map_cons, List.nodup_cons, List.forall_mem_cons]
      refine ⟨⟨fun hm => h2 t hm (by simp), h1⟩, hns, fun t' ht' hs => h2 t' ht' (by simp [hs])⟩

/-- With the cross-record checks passed, two different streams that will not be OFF never have one tag. -/
theorem tags_distinct {s : State} (ht : s.TagMapOk) (hm : s.MergeOk) {new : ConfigSet} (h : s.crossCheck new = none)
    {i j : StreamIdx} (hij : i ≠ j) (hi : s.offAfter new i = false) (hj : s.offAfter new j = false) :
    (s.recordAfter new i).tag ≠ (s.recordAfter new j).tag := by
  have hdup : s.tagDuplicate new = none := by
    unfold State.crossCheck at h; split at h
    · simp at h
    · assumption
  have hbusy : s.tagBusy new = none := by
    unfold State.crossCheck at h; split at h
    · simp at h
    · split at h
      · simp at h
      · assumption
  -- two streams whose records in force stand now
  have hold : ∀ a b : StreamIdx, a ≠ b → (s.stream a).state ≠ .off → (s.stream b).state ≠ .off →
      (s.inForce a).tag ≠ (s.inForce b).tag := by
    intro a b hab ha hb heq
    obtain ⟨t1, t2, t3, t4⟩ := ht
    obtain ⟨p, hp, rfl⟩ := List.mem_map.mp (t4 a ha)
    obtain ⟨q, hq, rfl⟩ := List.mem_map.mp (t4 b hb)
    have hpq : p.1 = q.1 := by rw [(t3 p hp).2, (t3 q hq).2, heq]
    have : p = q := List.inj_on_of_nodup_map t1 hp hq hpq
    exact hab (by rw [this])
  -- what a stream that stays DRAINING, or enters it, has
  have hstays : ∀ a, s.staysDraining new a = true →
      (s.stream a).state = .draining ∧ s.recordAfter new a = s.inForce a ∧ (new.record a).enable = false := by
    intro a ha
    simp only [State.staysDraining, decide_eq_true_eq] at ha
    refine ⟨ha.2, by simp [State.recordAfter, ha.1, ha.2], ?_⟩
    have := ha.1
    simp only [State.change, ha.2, changeOf] at this
    cases he : (new.record a).enable
    · rfl
    · rw [he] at this; simp at this
  have hnot : ∀ a, s.staysDraining new a = false → s.offAfter new a = false →
      (new.record a).enable = true ∧ s.recordAfter new a = new.record a ∨
      (s.stream a).state.live = true ∧ s.recordAfter new a = s.inForce a := by
    intro a ha hoff
    have C := apply_changed hm.1 hm.2.1 (new := new) (i := a) 0
    cases hc : s.change new a with
    | keep =>
      left
      refine ⟨?_, by simp [State.recordAfter, hc]⟩
      simp only [State.change] at hc
      cases hs : (s.stream a).state <;> simp only [hs, changeOf, liveChange] at hc <;>
        (cases he : (new.record a).enable <;> simp [he] at hc ⊢) <;> (split at hc <;> simp at hc)
    | store =>
      exfalso
      simp only [State.staysDraining, hc, true_and, decide_eq_false_iff_not] at ha
      simp only [State.offAfter, hc, decide_eq_false_iff_not] at hoff
      exact hoff ha
    | renew cause =>
      left
      refine ⟨?_, by simp [State.recordAfter, hc]⟩
      simp only [State.change] at hc
      cases hs : (s.stream a).state <;> simp only [hs, changeOf, liveChange] at hc <;>
        (cases he : (new.record a).enable <;> simp [he] at hc ⊢) <;> (split at hc <;> simp at hc)
    | inPlace =>
      left
      refine ⟨?_, by simp [State.recordAfter, hc]⟩
      simp only [State.change] at hc
      cases hs : (s.stream a).state <;> simp only [hs, changeOf, liveChange] at hc <;>
        (cases he : (new.record a).enable <;> simp [he] at hc ⊢) <;> (split at hc <;> simp at hc)
    | drainEntry =>
      right
      have hl : (s.stream a).state.live = true := by
        apply live_of_ne
        · intro hs; simp only [State.change, hs, changeOf] at hc; split at hc <;> simp at hc
        · intro hs
          simp only [State.change, hs, changeOf] at hc
          split at hc
          · simp at hc
          · split at hc <;> simp at hc
      refine ⟨hl, ?_⟩
      simp [State.recordAfter, hc, State.inForce, (live_ne hl).2]
    | cut => simp [State.offAfter, hc] at hoff
  have hbusy' : ∀ a b, s.staysDraining new b = true → (new.record a).enable = true →
      (new.record a).tag ≠ (s.recordAfter new b).tag := by
    intro a b hb ha heq
    unfold State.tagBusy at hbusy
    have := List.find?_eq_none.mp hbusy a (List.mem_finRange a)
    simp only [ha, Bool.true_and, decide_eq_true_eq] at this
    exact this (List.mem_map.mpr ⟨b, List.mem_filter.mpr ⟨List.mem_finRange b, hb⟩, heq.symm⟩)
  cases hsi : s.staysDraining new i with
  | true =>
    obtain ⟨a1, a2, a3⟩ := hstays i hsi
    cases hsj : s.staysDraining new j with
    | true =>
      obtain ⟨b1, b2, b3⟩ := hstays j hsj
      rw [a2, b2]; exact hold i j hij (by rw [a1]; simp) (by rw [b1]; simp)
    | false =>
      rcases hnot j hsj hj with ⟨c1, c2⟩ | ⟨c1, c2⟩
      · rw [c2]; exact fun e => hbusy' j i hsi c1 e.symm
      · rw [a2, c2]; exact hold i j hij (by rw [a1]; simp) (live_ne c1).1
  | false =>
    cases hsj : s.staysDraining new j with
    | true =>
      obtain ⟨b1, b2, b3⟩ := hstays j hsj
      rcases hnot i hsi hi with ⟨c1, c2⟩ | ⟨c1, c2⟩
      · rw [c2]; exact hbusy' i j hsj c1
      · rw [b2, c2]; exact hold i j hij (live_ne c1).1 (by rw [b1]; simp)
    | false =>
      have hn := (firstDuplicate_none hdup).1
      rw [List.map_map] at hn
      intro heq
      exact hij (List.inj_on_of_nodup_map hn
        (List.mem_filter.mpr ⟨List.mem_finRange i, by simp [hi, hsi]⟩)
        (List.mem_filter.mpr ⟨List.mem_finRange j, by simp [hj, hsj]⟩) heq)

/-- A Tag Map built in index order from streams with distinct tags. -/
theorem rebuild_ok {p : StreamIdx → Bool} {t : StreamIdx → Byte} (h : ∀ i j, i ≠ j → p i = true → p j = true → t i ≠ t j)
    (l : List StreamIdx) (hl : l.Nodup) :
    ((l.filterMap fun i => if p i then some (t i, i) else none).map Prod.fst).Nodup ∧
    ((l.filterMap fun i => if p i then some (t i, i) else none).map Prod.snd).Nodup := by
  have e : (l.filterMap fun i => if p i then some (t i, i) else none) = (l.filter p).map fun i => (t i, i) := by
    clear hl
    induction l with
    | nil => rfl
    | cons a l ih => by_cases ha : p a <;> simp [ha, ih]
  rw [e, List.map_map, List.map_map]
  have hf : (l.filter p).Nodup := hl.filter _
  refine ⟨?_, by rw [show (Prod.snd ∘ fun i => (t i, i)) = id from rfl, List.map_id]; exact hf⟩
  refine List.Nodup.map_on ?_ hf
  intro i hi j hj hij
  by_contra hne
  exact h i j hne (by simpa using (List.mem_filter.mp hi).2) (by simpa using (List.mem_filter.mp hj).2) hij

theorem applyCommit_tagMapOk {s : State} (h : s.MergeOk) (ht : s.TagMapOk) {new : ConfigSet}
    (hn : ∀ i, (new.record i).wf = true) (hb : s.crossCheck new = none) (key : Byte) :
    (s.applyCommit new key).TagMapOk := by
  have k := applyStreams h.1 h.2.1 hn (List.finRange 32) (List.nodup_finRange 32) (t := s)
    ⟨rfl, rfl, fun _ _ => rfl, fun i hi => absurd (List.mem_finRange i) hi, h.2.2.1⟩
  generalize hs1 : (List.finRange 32).foldl (State.applyStream new) s = s1 at k
  have hstreams : (s.applyCommit new key).streams = s1.streams := by
    simp only [State.applyCommit, hs1, State.offer_streams, State.dropOffWaiting, State.rebuildTagMap]
  have hstream : ∀ i, (s.applyCommit new key).stream i = s1.stream i := fun i => by
    simp only [State.stream, hstreams]
  have hactive : (s.applyCommit new key).active = new := by
    simp only [State.applyCommit, State.offer_active, State.dropOffWaiting, State.rebuildTagMap]
  have hrec : ∀ i, (s1.stream i).state ≠ .off →
      (s.applyCommit new key).inForce i = s.recordAfter new i ∧ s.offAfter new i = false := by
    intro i hi
    obtain ⟨free, c', hC, he⟩ := k.done i (by simp)
    simp only [State.inForce, hstream, hactive, he]
    rw [he] at hi
    refine ⟨?_, hC.off hi⟩
    split
    · next hdr => simp [hC.drain hdr]
    · next hdr => exact (hC.record hi hdr).symm
  have hmap : (s.applyCommit new key).tagMap = (List.finRange 32).filterMap fun i =>
      if !decide ((s1.stream i).state = .off) then some (((s.applyCommit new key).inForce i).tag, i) else none := by
    have hin : ∀ i, ({ s1 with active := new } : State).inForce i = (s.applyCommit new key).inForce i := fun i => by
      simp only [State.inForce, hactive, hstream]; rfl
    have hraw : (s.applyCommit new key).tagMap = (List.finRange 32).filterMap fun i =>
        if (s1.stream i).state = .off then none else some ((({ s1 with active := new } : State).inForce i).tag, i) := by
      simp only [State.applyCommit, hs1, State.offer_tagMap, State.dropOffWaiting, State.rebuildTagMap]
      rfl
    rw [hraw]
    congr 1
    funext i
    rw [hin]
    by_cases hoff : (s1.stream i).state = .off
    · rw [if_pos hoff, if_neg (by simpa using hoff)]
    · rw [if_neg hoff, if_pos (by simpa using hoff)]
  have hd : ∀ i j, i ≠ j → (!decide ((s1.stream i).state = .off)) = true → (!decide ((s1.stream j).state = .off)) = true →
      ((s.applyCommit new key).inForce i).tag ≠ ((s.applyCommit new key).inForce j).tag := by
    intro i j hij hi hj
    have hi' := hrec i (by simpa using hi)
    have hj' := hrec j (by simpa using hj)
    rw [hi'.1, hj'.1]
    exact tags_distinct ht h hb hij hi'.2 hj'.2
  obtain ⟨r1, r2⟩ := rebuild_ok hd (List.finRange 32) (List.nodup_finRange 32)
  refine ⟨by rw [hmap]; exact r1, by rw [hmap]; exact r2, fun p hp => ?_, fun i hi => ?_⟩
  · rw [hmap, List.mem_filterMap] at hp
    obtain ⟨i, _, hi⟩ := hp
    split at hi
    · next hoff =>
      obtain rfl := Option.some.inj hi
      rw [hstream]; exact ⟨by simpa using hoff, rfl⟩
    · simp at hi
  · rw [hstream] at hi
    rw [hmap]
    exact List.mem_map.mpr ⟨_, List.mem_filterMap.mpr ⟨i, List.mem_finRange i, by rw [if_pos (by simpa using hi)]⟩, rfl⟩

theorem commitEdit_tagMapOk {s : State} (h : s.MergeOk) (ht : s.TagMapOk) (body : List Byte) : (commitEdit body s).1.TagMapOk := by
  unfold commitEdit
  split
  · exact ht
  · next e he =>
    split
    · split
      · exact ht
      · next hcc =>
        obtain ⟨hn, _⟩ := h.2.1.2.2.2 e he
        have hb : s.SameTags s.beforeCommit := (settleDeliveries_tags h _).trans (takeOffers_tags _ _)
        refine applyCommit_tagMapOk (beforeCommit_mergeOk h) (hb.ok ht) hn ?_ _
        rw [(beforeCommit_class h).crossCheck]; exact hcc
    · exact (((closeSession_same s).tags rfl).trans ((countMgmt_same _ _).tags rfl)).ok ht

/-! ## RESTART -/

theorem restartNow_tagMapOk {s : State} (ht : s.TagMapOk) : s.restartNow.TagMapOk := by
  obtain ⟨t1, t2, t3, t4⟩ := ht
  have hmap : s.restartNow.tagMap = s.tagMap.filter fun p => !decide ((s.stream p.2).state = .draining) := by
    simp only [State.restartNow]
  have hsub : s.restartNow.tagMap.Sublist s.tagMap := by rw [hmap]; exact List.filter_sublist
  have hlive : ∀ i, (s.stream i).state ≠ .off → (s.stream i).state ≠ .draining →
      (s.restartNow.stream i).state = .acquire ∧ s.restartNow.inForce i = s.inForce i := by
    intro i a b
    have h1 : s.restartNow.stream i = (s.stream i).renewed (s.inForce i).paths := by
      rw [restartNow_stream, restarted_live (live_of_ne a b)]
    refine ⟨by rw [h1]; rfl, ?_⟩
    have h2 : (s.restartNow.stream i).state ≠ .draining := by rw [h1]; simp [Stream.renewed]
    rw [State.inForce, if_neg h2, restartNow_active, State.inForce, if_neg b]
  refine ⟨t1.sublist (hsub.map _), t2.sublist (hsub.map _), fun p hp => ?_, fun i hi => ?_⟩
  · rw [hmap] at hp
    obtain ⟨hp1, hp2⟩ := List.mem_filter.mp hp
    have hh := hlive p.2 (t3 p hp1).1 (by simpa using hp2)
    rw [hh.1, hh.2]; exact ⟨by simp, (t3 p hp1).2⟩
  · have a : (s.stream i).state ≠ .off := by
      intro a; apply hi; rw [restartNow_stream]; unfold Stream.restarted; simp only [a]
    have b : (s.stream i).state ≠ .draining := by
      intro b; apply hi; rw [restartNow_stream]; unfold Stream.restarted; simp only [b]; rfl
    obtain ⟨p, hp, rfl⟩ := List.mem_map.mp (t4 i a)
    rw [hmap]
    exact List.mem_map.mpr ⟨p, List.mem_filter.mpr ⟨hp, by simpa using b⟩, rfl⟩

/-! ## Time -/

/-- The expiries keep the Tag Map's invariant, and so does settling what is due. -/
theorem dues_tagMapOk : State.DuesKeep State.TagMapOk := by
  refine State.duesKeep (fun s x => ((putLink_same s _).tags ?_).ok) (fun s => ((loseCadence_same s).tags ?_).ok)
    (fun s => ((State.sameMerge_of rfl rfl rfl rfl).tags rfl).ok) (fun s => ((State.sameMerge_of rfl rfl rfl rfl).tags rfl).ok)
    (fun s => ((editExpired_same s).tags ?_).ok) (fun s => ((retryExpired_same s).tags ?_).ok)
  · simp [State.putLink]
  · unfold State.loseCadence; split <;> simp [State.produceTick]
  · simp [State.editExpired, State.closeSession]
  · unfold State.retryExpired; split <;> simp

theorem pass_tagMapOk {s : State} (h : s.TagMapOk) (us : Nat) : (s.pass us).TagMapOk :=
  State.pass_keeps dues_tagMapOk.settle (fun s us => ((elapse_same s us).tags rfl).ok) us h

end Sys2Proof.Machine
end

