-- ==== Sys2Proof/Tests/Slice0.lean ====
section
/-! SUPPORT. Tests: the record checks with an ill-formed record each, the check sequence and the layouts, small single steps, and for each statement of Certificates/Slice0/Obligations.lean states and operands that meet its hypotheses. -/

open Sys2Proof Sys2Proof.Machine

namespace Sys2Proof.Tests

set_option linter.unusedSimpArgs false
set_option Elab.async false

/-! ## Small states -/

/-- s with stream 0 in context st under the active record r, and every slot that st does not hold free. -/
def withStream (st : Sys2Proof.Machine.Stream) (r : StreamRecord) (s : State) : State :=
  { s with
    streams := s.streams.set 0 st
    active := { s.active with streams := s.active.streams.set 0 r }
    tagMap := [(r.tag, 0)]
    free := 512 - st.held }

/-- A sum with one term that is not 0. -/
theorem sum_one (a : Nat) (f : StreamIdx → Nat) (h0 : f 0 = a) (h : ∀ i, i ≠ 0 → f i = 0) :
    ((List.finRange 32).map f).sum = a := by
  rw [sum_finRange, Finset.sum_eq_single 0]
  · exact h0
  · intro b _ hb; exact h b hb
  · intro hb; exact absurd (Finset.mem_univ _) hb

/-- The record in force for a context st whose active record is r. -/
def force (st : Sys2Proof.Machine.Stream) (r : StreamRecord) : StreamRecord := if st.state = .draining then st.drain.getD r else r

/-- A context of the shape of its state, under a legal record within the budget, gives a state that meets MergeOk. -/
theorem withStream_mergeOk {st : Sys2Proof.Machine.Stream} {r : StreamRecord} (h : st.ShapeOk (force st r)) (hr : r.wf = true)
    (hd : ∀ d ∈ st.drain, d.wf = true) (he : r.enable = st.state.live) (hh : st.held ≤ 512)
    (hb : st.state ≠ .off → (force st r).window + (force st r).trim ≤ 512) : (withStream st r State.reset).MergeOk := by
  have s0 : (withStream st r State.reset).stream 0 = st := State.setStream_stream State.reset 0 st
  have r0 : (withStream st r State.reset).active.record 0 = r := ConfigSet.setRecord_record State.reset.active 0 r
  have s1 : ∀ i, i ≠ 0 → (withStream st r State.reset).stream i = Sys2Proof.Machine.Stream.reset := fun i hi => by
    rw [← State.fresh_stream .powerOn .baud115200 i]; exact State.setStream_stream_ne State.reset st hi
  have r1 : ∀ i, i ≠ 0 → (withStream st r State.reset).active.record i = StreamRecord.default i := fun i hi => by
    rw [← ConfigSet.default_record i]; exact ConfigSet.setRecord_record_ne State.reset.active r hi
  have f0 : (withStream st r State.reset).inForce 0 = force st r := by unfold State.inForce force; rw [s0, r0]
  have f1 : ∀ i, i ≠ 0 → (withStream st r State.reset).inForce i = StreamRecord.default i := fun i hi => by
    unfold State.inForce; rw [s1 i hi, r1 i hi]; rfl
  have base : State.reset.MergeOk := fresh_mergeOk _ _
  have hdef : ∀ i, (StreamRecord.default i).wf = true := fun i => by simpa [State.reset, State.fresh] using base.2.1.1 i
  refine ⟨?_, ⟨?_, base.2.1.2.1, ?_, ?_⟩, ?_, ?_⟩
  · intro i; by_cases hi : i = 0
    · subst hi; rw [s0, f0, r0]; exact ⟨h, he⟩
    · rw [s1 i hi, f1 i hi, r1 i hi]
      have := base.1 i
      rw [show State.reset.stream i = Sys2Proof.Machine.Stream.reset from State.fresh_stream _ _ i,
        show State.reset.inForce i = StreamRecord.default i by
          unfold State.inForce; rw [show State.reset.stream i = Sys2Proof.Machine.Stream.reset from State.fresh_stream _ _ i]; simp [Sys2Proof.Machine.Stream.reset, State.reset, State.fresh],
        show State.reset.active.record i = StreamRecord.default i from ConfigSet.default_record i] at this
      exact this
  · intro i; by_cases hi : i = 0
    · subst hi; rw [r0]; exact hr
    · rw [r1 i hi]; exact hdef i
  · intro i; by_cases hi : i = 0
    · subst hi; rw [s0]; exact hd
    · rw [s1 i hi]; intro d hd; cases hd
  · intro e he; cases he
  · unfold State.heldSlots
    rw [sum_one st.held _ (by simp only [s0]) (fun i hi => by simp only [s1 i hi]; rfl)]
    show 512 - st.held + st.held = 512
    omega
  · rw [sum_one ((withStream st r State.reset).slotBound 0) _ rfl (fun i hi => by unfold State.slotBound; rw [s1 i hi]; rfl)]
    unfold State.slotBound; rw [s0, f0]; split
    · exact Nat.zero_le _
    · next h => exact hb h

/-- The state a step answers with; the reset state where it answers none. -/
def after (o : Host.Outcome State Fault Refusal) : State :=
  match o with
  | .next s => s
  | .fault _ => State.reset
  | .refused _ => State.reset

/-- The default record of stream 0, enabled: MERGE, N 1, W 8, T 8, H 4, k 1, G2 4, G1 1, P 64, S 8. -/
def rec0 : StreamRecord := { StreamRecord.default 0 with enable := true }
/-- A context in ACQUIRE. -/
def acq0 : Sys2Proof.Machine.Stream := Stream.reset.renewed .merge
/-- A context in RUNNING at base 100 with one REAL entry queued. -/
def run0 : Sys2Proof.Machine.Stream :=
  { acq0 with state := .running, base := some 100, queue := [.real 99 false [7]], last := some [6] }
/-- A context in PRIMING at base 100 with an empty queue. -/
def prim0 : Sys2Proof.Machine.Stream := { run0 with state := .priming, queue := [] }
/-- A context in STALLED at base 100. -/
def stall0 : Sys2Proof.Machine.Stream := { run0 with state := .stalled, queue := [], run := 8 }
/-- A context in DRAINING with one REAL entry queued. -/
def drain0 : Sys2Proof.Machine.Stream := { run0 with state := .draining, drain := some rec0 }
/-- The frame with number n and one word. -/
def fr (n : Seq) : Frame := ⟨n, false, false, [5]⟩
/-- The same with its RESTART flag set. -/
def frR (n : Seq) : Frame := ⟨n, false, true, [5]⟩
/-- Stream 0 in context st under rec0. -/
def one (st : Sys2Proof.Machine.Stream) : State := withStream st rec0 State.reset
/-- The same for a DRAINING stream: its active ENABLE is 0. -/
def oneOff (st : Sys2Proof.Machine.Stream) : State := withStream st (StreamRecord.default 0) State.reset
/-- Frame f, delivered by Link A, waits for stream 0. -/
def waiting (s : State) (f : Frame) : State := { s with deliveries := [⟨.a, 0, f⟩] }

/-- The hypotheses on a waiting frame, read off the parts of the small state. -/
theorem waiting_waits (s : State) (f : Frame) : (waiting s f).Waits .a 0 f [] = True := by
  simp [waiting, State.Waits, takeFirstDelivery]
theorem waiting_stream (st : Sys2Proof.Machine.Stream) (r : StreamRecord) (s : State) (f : Frame) :
    (waiting (withStream st r s) f).stream 0 = st := State.setStream_stream s 0 st
theorem withStream_stream (st : Sys2Proof.Machine.Stream) (r : StreamRecord) (s : State) :
    (withStream st r s).stream 0 = st := State.setStream_stream s 0 st
theorem withStream_inForce (st : Sys2Proof.Machine.Stream) (r : StreamRecord) (s : State) :
    (withStream st r s).inForce 0 = force st r := by
  unfold State.inForce force
  rw [withStream_stream, show (withStream st r s).active.record 0 = r from ConfigSet.setRecord_record s.active 0 r]
theorem waiting_inForce (st : Sys2Proof.Machine.Stream) (r : StreamRecord) (s : State) (f : Frame) :
    (waiting (withStream st r s) f).inForce 0 = force st r := withStream_inForce st r s
theorem waiting_guard {st : Sys2Proof.Machine.Stream} (h : st.guard = none) (r : StreamRecord) (s : State) (f : Frame) (n : Seq) :
    ((waiting (withStream st r s) f).refreshed .a 0 []).guardDrops n = false := by
  have : ((waiting (withStream st r s) f).atArrival .a []).stream 0 = st :=
    (by simp [State.atArrival, State.stream] :
      ((waiting (withStream st r s) f).atArrival .a []).stream 0 = (waiting (withStream st r s) f).stream 0).trans
      (waiting_stream st r s f)
  unfold State.refreshed Ctx.refresh
  split <;> simp [Ctx.guardDrops, Ctx.notePath, Sys2Proof.Machine.Stream.setPresence, this, h]
theorem waiting_mergeOk {s : State} (f : Frame) (h : s.MergeOk) : (waiting s f).MergeOk :=
  State.SameMerge.ok (State.sameMerge_of (s := s) (t := waiting s f) rfl rfl rfl rfl) h
/-- A context whose record in force is its active record rec0. -/
theorem one_ok {st : Sys2Proof.Machine.Stream} (h : st.ShapeOk rec0) (hs : st.state.live = true) (hd : st.drain = none)
    (hh : st.held ≤ 512) : (one st).MergeOk := by
  have hn : force st rec0 = rec0 := by
    unfold force; split
    · next hx => rw [hx] at hs; cases hs
    · rfl
  refine withStream_mergeOk (by rw [hn]; exact h) rfl (by rw [hd]; simp) hs.symm hh (fun _ => ?_)
  rw [hn]; decide

/-! ## Contexts of stream 0 -/

/-- ACQUIRE with the candidate 100. -/
def cand0 : Sys2Proof.Machine.Stream := { acq0 with acq := some ⟨100, false, [9]⟩ }
/-- RUNNING at base 100 with a full queue of T entries. -/
def full0 : Sys2Proof.Machine.Stream := { run0 with queue := List.replicate 8 (.subst 99) }
/-- RUNNING at base 100 with 101 held in the window and its gap timer at 1. -/
def gap0 : Sys2Proof.Machine.Stream := { run0 with window := [⟨101, false, [8]⟩], timer := some 1 }
/-- RUNNING at base 100 with a guard for the prior base 2000. -/
def guard0 : Sys2Proof.Machine.Stream := { run0 with guard := some ⟨2000, 64⟩ }
/-- RUNNING at base 100 with the jump candidate 500 of path A. -/
def jump0 : Sys2Proof.Machine.Stream := { run0 with jump := some ⟨500, .a, false, [4]⟩ }

theorem force_eq : force run0 rec0 = rec0 ∧ force acq0 rec0 = rec0 ∧ force cand0 rec0 = rec0 ∧ force full0 rec0 = rec0 ∧
    force prim0 rec0 = rec0 ∧ force stall0 rec0 = rec0 ∧ force gap0 rec0 = rec0 ∧ force guard0 rec0 = rec0 ∧
    force jump0 rec0 = rec0 := by decide +kernel
theorem rec0_eq : rec0.window = 8 ∧ rec0.words = 1 ∧ rec0.paths = .merge ∧ rec0.trim = 8 := by decide

/-! ## The record checks (01 R2, 08 R143) -/

theorem test_wf_default : rec0.wf = true ∧ DeviceRecord.default.wf = true := by decide
theorem test_ill_words : { rec0 with words := 0 }.wf = false ∧ { rec0 with words := 17 }.wf = false := by decide
theorem test_ill_window : { rec0 with window := 1 }.wf = false ∧ { rec0 with window := 65 }.wf = false := by decide
theorem test_ill_trim : { rec0 with trim := 1, hold := 1 }.wf = false ∧ { rec0 with trim := 65 }.wf = false := by decide
theorem test_ill_hold : { rec0 with hold := 0 }.wf = false ∧ { rec0 with hold := 64, trim := 64 }.wf = false := by decide
theorem test_ill_hold_trim : { rec0 with hold := 8, trim := 8 }.wf = false := by decide
theorem test_ill_divisor : { rec0 with divisor := 0 }.wf = false ∧ { rec0 with divisor := 65 }.wf = false := by decide
theorem test_ill_gap_wait : { rec0 with gapWait2 := 256 }.wf = false ∧ { rec0 with gapWait1 := 256 }.wf = false := by decide
theorem test_ill_path_silence :
    { rec0 with pathSilence := 0 }.wf = false ∧ { rec0 with pathSilence := 4096 }.wf = false := by decide
theorem test_ill_stall_limit :
    { rec0 with stallLimit := 0 }.wf = false ∧ { rec0 with stallLimit := 256 }.wf = false := by decide
theorem test_ill_interval : { DeviceRecord.default with nominalInterval := 49 }.wf = false ∧
    { DeviceRecord.default with nominalInterval := 10001 }.wf = false := by decide
theorem test_ill_edit_window : { DeviceRecord.default with editWindow := 99 }.wf = false ∧
    { DeviceRecord.default with editWindow := 60001 }.wf = false := by decide

/-! ## Layouts (11) -/

/-- 11 R187: the check value of the CRC over the nine bytes "123456789" is 29B1h. -/
theorem test_crc_check_value : crc16 [0x31, 0x32, 0x33, 0x34, 0x35, 0x36, 0x37, 0x38, 0x39] = 0x29B1 := by decide +kernel
/-- 11 R199: the example header words. -/
theorem test_header_words : headerWord 0 false 3 2 = 0x0302 ∧ headerWord 0 true 31 16 = 0x3F10 ∧
    headerWord 1 false 20 0 = 0x5400 ∧ headerWord 2 false 5 0 = 0x8500 ∧ headerWord 3 false 30 0 = 0xDE00 := by decide
/-- 11 R189: the fields of a sequence word with all flag bits set. -/
theorem test_frame_items :
    frameItems [9, 0xF0, 0xCD, 1, 0x12, 0x34, 0, 0] = ⟨0x0CD, true, true, [0x1234]⟩ := by decide
/-- 11 R193: the default record of stream 3 as its body. -/
theorem test_record_body : streamRecordBody (StreamRecord.default 3) =
    [0, 0, 3, 1, 8, 8, 4, 1, 0, 4, 1, 0, 64, 8, 1, 0x0F] := by decide
theorem test_device_body : deviceRecordBody DeviceRecord.default = [0, 0, 250, 0x27, 0x10, 0x0F] := by decide

/-! ## Steps and resets -/

theorem test_front_command : ({ State.reset with pending := [.wordTransfer] } : State).pending = .wordTransfer :: [] ∧
    State.reset.pending = [] := ⟨rfl, rfl⟩
theorem test_reset_commands (r1 r0 : Bool) :
    (Instr.powerOn r1 r0 = .powerOn r1 r0 ∧ ResetCause.powerOn = .powerOn ∨
      Instr.powerOn r1 r0 = .hardReset r1 r0 ∧ ResetCause.powerOn = .hard) ∧
    (Instr.hardReset r1 r0 = .powerOn r1 r0 ∧ ResetCause.hard = .powerOn ∨
      Instr.hardReset r1 r0 = .hardReset r1 r0 ∧ ResetCause.hard = .hard) := by simp
theorem test_merge_premises : State.reset.MergeOk ∧ step State.reset = .next (idle State.reset) := ⟨fresh_mergeOk _ _, rfl⟩
theorem test_tag_premises : State.reset.MergeOk ∧ State.reset.TagMapOk ∧ step State.reset = .next (idle State.reset) := by
  refine ⟨fresh_mergeOk _ _, ⟨by decide, by decide, fun p hp => (List.not_mem_nil hp).elim, fun i hi => ?_⟩, rfl⟩
  rw [show State.reset.stream i = Sys2Proof.Machine.Stream.reset from State.fresh_stream _ _ i] at hi
  exact absurd rfl hi
theorem test_counter_premises : State.reset.CountersOk ∧ step State.reset = .next (idle State.reset) := by
  refine ⟨⟨fun i k => ?_, by decide +kernel⟩, rfl⟩
  rw [show State.reset.stream i = Sys2Proof.Machine.Stream.reset from State.fresh_stream .powerOn .baud115200 i]
  decide +revert +kernel
theorem test_round_premises : State.reset.RoundsOk ∧ step State.reset = .next (idle State.reset) := ⟨by decide, rfl⟩
theorem test_queue_premises : State.reset.QueuesOk ∧ step State.reset = .next (idle State.reset) := ⟨by decide, rfl⟩

/-! ## Counters -/

theorem test_counter_boundaries : Counter.bump ⟨0xFFFF, true⟩ = ⟨0xFFFF, true⟩ ∧ Counter.bump ⟨0xFFFE, false⟩ = ⟨0xFFFF, true⟩ ∧
    Counter.bump ⟨0xFFFD, false⟩ = ⟨0xFFFE, false⟩ ∧ Counter.bump ⟨0, false⟩ = ⟨1, false⟩ := by decide

/-! ## Arrivals -/

theorem test_hyps_refused :
    ((waiting (oneOff drain0) (fr 100)).Waits .a 0 (fr 100) [] ∧
      ((waiting (oneOff drain0) (fr 100)).stream 0).state = .draining) ∧
    ((waiting (withStream run0 { rec0 with paths := .bOnly } State.reset) (fr 100)).Waits .a 0 (fr 100) [] ∧
      ((waiting (withStream run0 { rec0 with paths := .bOnly } State.reset) (fr 100)).stream 0).state = .running ∧
      admits ((waiting (withStream run0 { rec0 with paths := .bOnly } State.reset) (fr 100)).inForce 0).paths .a = false) := by
  decide
theorem test_refused : ((after (exec (.arrival .a 0) (waiting (oneOff drain0) (fr 100)))).stream 0).counters[8].value = 1 := by
  decide +kernel
theorem test_hyps_malformed :
    (waiting (one run0) ⟨100, false, false, [5, 6]⟩).Waits .a 0 ⟨100, false, false, [5, 6]⟩ [] ∧
    ((waiting (one run0) ⟨100, false, false, [5, 6]⟩).stream 0).state = .running ∧
    admits ((waiting (one run0) ⟨100, false, false, [5, 6]⟩).inForce 0).paths .a = true ∧
    [(5 : Word), 6].length ≠ ((waiting (one run0) ⟨100, false, false, [5, 6]⟩).inForce 0).words := by
  simp only [one, oneOff, waiting_waits, State.Passes, waiting_stream, waiting_inForce, withStream_stream, withStream_inForce,
    State.ctx_s, State.ctx_cfg, force_eq, rec0_eq,
    List.forall_mem_cons, List.not_mem_nil, false_implies, implies_true, and_true]
  decide +kernel

theorem test_hyps_acquire :
    ((waiting (one acq0) (fr 7)).Waits .a 0 (fr 7) [] ∧ (waiting (one acq0) (fr 7)).Passes .a 0 (fr 7) ∧
      ((waiting (one acq0) (fr 7)).stream 0).state = .acquire ∧ ((waiting (one acq0) (fr 7)).stream 0).acq = none) ∧
    (∀ n ∈ [(100 : Seq), 108, 99], (waiting (one cand0) (fr n)).Waits .a 0 (fr n) [] ∧
      (waiting (one cand0) (fr n)).Passes .a 0 (fr n) ∧ ((waiting (one cand0) (fr n)).stream 0).state = .acquire ∧
      ((waiting (one cand0) (fr n)).stream 0).acq = some ⟨100, false, [9]⟩) ∧
    ((waiting (one cand0) (fr 108)).inForce 0).window ≤ Machine.dist 108 100 ∧
    ((waiting (one cand0) (fr 99)).inForce 0).window ≤ Machine.dist 99 100 := by
  simp only [one, oneOff, waiting_waits, State.Passes, waiting_stream, waiting_inForce, withStream_stream, withStream_inForce,
    State.ctx_s, State.ctx_cfg, force_eq, rec0_eq,
    List.forall_mem_cons, List.not_mem_nil, false_implies, implies_true, and_true]
  decide +kernel
theorem test_hyps_lock : (∀ n, (waiting (one cand0) (fr n)).MergeOk) ∧
    (∀ n ∈ [(101 : Seq), 102, 107], (waiting (one cand0) (fr n)).Waits .a 0 (fr n) [] ∧
      (waiting (one cand0) (fr n)).Passes .a 0 (fr n) ∧ ((waiting (one cand0) (fr n)).stream 0).state = .acquire ∧
      ((waiting (one cand0) (fr n)).stream 0).acq = some ⟨100, false, [9]⟩) ∧
    (101 : Seq) = 100 + 1 ∧ 2 ≤ Machine.dist 102 100 ∧ 2 ≤ Machine.dist 107 100 ∧
    Machine.dist 102 100 < ((waiting (one cand0) (fr 102)).inForce 0).window ∧
    Machine.dist 107 100 < ((waiting (one cand0) (fr 107)).inForce 0).window :=
  ⟨fun n => waiting_mergeOk _ (one_ok (by decide +kernel) rfl rfl (by decide)), by
    simp only [one, waiting_waits, State.Passes, waiting_stream, waiting_inForce, withStream_stream, withStream_inForce,
    State.ctx_s, State.ctx_cfg, force_eq, rec0_eq,
    List.forall_mem_cons, List.not_mem_nil, false_implies, implies_true, and_true]
    decide +kernel⟩
theorem test_lock : ((after (exec (.arrival .a 0) (waiting (one cand0) (fr 101)))).stream 0).base = some 102 ∧
    ((after (exec (.arrival .a 0) (waiting (one cand0) (fr 101)))).stream 0).state = .priming := by decide +kernel

theorem test_hyps_base : (∀ st ∈ [run0, prim0, full0, jump0], (waiting (one st) (fr 100)).MergeOk) ∧
    (∀ st ∈ [run0, prim0, full0, jump0], (waiting (one st) (fr 100)).Waits .a 0 (fr 100) [] ∧
      (waiting (one st) (fr 100)).Passes .a 0 (fr 100) ∧ ((waiting (one st) (fr 100)).stream 0).state.playing = true ∧
      ((waiting (one st) (fr 100)).stream 0).base = some (fr 100).seq ∧
      ((waiting (one st) (fr 100)).stream 0).window = []) ∧
    ((waiting (one full0) (fr 100)).inForce 0).trim ≤ ((waiting (one full0) (fr 100)).stream 0).queue.length ∧
    ((waiting (one jump0) (fr 100)).stream 0).jump.map JumpCandidate.path = some .a := by
  refine ⟨fun st h => ?_, ?_⟩
  · have key : ∀ st ∈ [run0, prim0, full0, jump0], st.ShapeOk rec0 ∧ st.state.live = true ∧ st.drain = none ∧ st.held ≤ 512 := by
      decide +kernel
    obtain ⟨h1, h2, h3, h4⟩ := key st h
    exact waiting_mergeOk _ (one_ok h1 h2 h3 h4)
  · simp only [one, oneOff, waiting_waits, State.Passes, waiting_stream, waiting_inForce, withStream_stream, withStream_inForce,
      State.ctx_s, State.ctx_cfg, force_eq, rec0_eq,
      List.forall_mem_cons, List.not_mem_nil, false_implies, implies_true, and_true]
    decide +kernel
theorem test_hyps_window : ∀ st ∈ [run0, jump0], ∀ n ∈ [(101 : Seq), 107], (waiting (one st) (fr n)).Waits .a 0 (fr n) [] ∧
    (waiting (one st) (fr n)).Passes .a 0 (fr n) ∧ ((waiting (one st) (fr n)).stream 0).state.playing = true ∧
    ((waiting (one st) (fr n)).stream 0).base = some 100 ∧ n ≠ 100 ∧
    Machine.dist n 100 < ((waiting (one st) (fr n)).inForce 0).window ∧
    (∀ v ∈ ((waiting (one st) (fr n)).stream 0).window, v.seq ≠ n) := by
  simp only [one, oneOff, waiting_waits, State.Passes, waiting_stream, waiting_inForce, withStream_stream, withStream_inForce,
    State.ctx_s, State.ctx_cfg, force_eq, rec0_eq,
    List.forall_mem_cons, List.not_mem_nil, false_implies, implies_true, and_true]
  decide +kernel
/-- 05 R82: an in-window arrival discards the jump candidate of its path. -/
theorem test_window_discards : ((after (exec (.arrival .a 0) (waiting (one jump0) (fr 101)))).stream 0).jump = none ∧
    ((after (exec (.arrival .a 0) (waiting (one jump0) (fr 101)))).stream 0).counters[ctrStraySeq].value = 1 ∧
    (after (exec (.arrival .a 0) (waiting (one jump0) (fr 101)))).free = (one jump0).free := by decide +kernel

theorem test_hyps_duplicate : (waiting (one gap0) (fr 101)).Waits .a 0 (fr 101) [] ∧
    (waiting (one gap0) (fr 101)).Passes .a 0 (fr 101) ∧ ((waiting (one gap0) (fr 101)).stream 0).state.playing = true ∧
    ((waiting (one gap0) (fr 101)).stream 0).base = some 100 ∧ (101 : Seq) ≠ 100 ∧
    Machine.dist 101 100 < ((waiting (one gap0) (fr 101)).inForce 0).window ∧
    (∃ v ∈ ((waiting (one gap0) (fr 101)).stream 0).window, v.seq = 101) := by
  simp only [one, oneOff, waiting_waits, State.Passes, waiting_stream, waiting_inForce, withStream_stream, withStream_inForce,
    State.ctx_s, State.ctx_cfg, force_eq, rec0_eq,
    List.forall_mem_cons, List.not_mem_nil, false_implies, implies_true, and_true]
  decide +kernel
theorem test_hyps_push : (∀ n, (waiting (one gap0) (fr n)).MergeOk) ∧
    (∀ n ∈ [(108 : Seq), 115], (waiting (one gap0) (fr n)).Waits .a 0 (fr n) [] ∧ (waiting (one gap0) (fr n)).Passes .a 0 (fr n) ∧
      ((waiting (one gap0) (fr n)).stream 0).state.playing = true ∧ ((waiting (one gap0) (fr n)).stream 0).base = some 100 ∧
      ((waiting (one gap0) (fr n)).inForce 0).window ≤ Machine.dist n 100 ∧
      Machine.dist n 100 < 2 * ((waiting (one gap0) (fr n)).inForce 0).window) :=
  ⟨fun n => waiting_mergeOk _ (one_ok (by decide +kernel) rfl rfl (by decide)), by
    simp only [one, waiting_waits, State.Passes, waiting_stream, waiting_inForce, withStream_stream, withStream_inForce,
    State.ctx_s, State.ctx_cfg, force_eq, rec0_eq,
    List.forall_mem_cons, List.not_mem_nil, false_implies, implies_true, and_true]
    decide +kernel⟩
/-- RUNNING at base 100 with 101 held, the jump candidate 500 of path A, and a queue of T - 1 entries. -/
def crowded0 : Sys2Proof.Machine.Stream :=
  { gap0 with jump := some ⟨500, .a, false, [4]⟩, queue := List.replicate 7 (.real 93 false [1]) }
/-- 114 pushes seven positions through a queue with one free place, and discards the candidate. -/
theorem test_push_trims : ((after (exec (.arrival .a 0) (waiting (one crowded0) (fr 114)))).stream 0).base = some 107 ∧
    ((after (exec (.arrival .a 0) (waiting (one crowded0) (fr 114)))).stream 0).queue =
      (crowded0.queue ++ crowded0.entriesFrom (some (fr 114)) 100 7).drop 6 ∧
    CountsBy crowded0.counters ((after (exec (.arrival .a 0) (waiting (one crowded0) (fr 114)))).stream 0).counters
      [(ctrAccepted .a, 1), (ctrReleased, 1), (ctrSubstPush, 6), (ctrTrimmed, 6), (ctrStraySeq, 1)] := by decide +kernel
/-- 03 R46: 108 leaves 107 held: the running timer keeps its count. 114 empties the window: its store starts the G1 wait. -/
theorem test_push_timer :
    ((after (exec (.arrival .a 0) (waiting (one { gap0 with window := [⟨107, false, [8]⟩], timer := some 3 }) (fr 108)))).stream 0).timer =
      some 3 ∧
    ((after (exec (.arrival .a 0) (waiting (one { gap0 with timer := some 3 }) (fr 114)))).stream 0).timer = some 1 := by
  decide +kernel
theorem test_push : ((after (exec (.arrival .a 0) (waiting (one gap0) (fr 108)))).stream 0).base = some 102 ∧
    ((after (exec (.arrival .a 0) (waiting (one gap0) (fr 108)))).stream 0).counters[12].value = 1 := by decide +kernel

theorem test_hyps_behind : ∀ st ∈ [run0, stall0], ∀ n ∈ [(99 : Seq), 36],
      (waiting (one st) (fr n)).Waits .a 0 (fr n) [] ∧ (waiting (one st) (fr n)).Passes .a 0 (fr n) ∧
      ((waiting (one st) (fr n)).stream 0).base = some 100 ∧ 4032 ≤ Machine.dist n 100 ∧
      ((waiting (one st) (fr n)).inForce 0).window ≤ 64 ∧
      (((waiting (one st) (fr n)).stream 0).state.playing = true ∧ (fr n).restart = false ∧
        ((waiting (one st) (fr n)).refreshed .a 0 []).guardDrops n = false ∨
        ((waiting (one st) (fr n)).stream 0).state = .stalled) := by
  simp only [one, oneOff, waiting_waits, State.Passes, waiting_stream, waiting_inForce, withStream_stream, withStream_inForce,
    State.ctx_s, State.ctx_cfg, force_eq, rec0_eq,
    List.forall_mem_cons, List.not_mem_nil, false_implies, implies_true, and_true]
  decide +kernel
theorem test_hyps_straggler : ∀ n ∈ [(2015 : Seq), 1936], (waiting (one guard0) (fr n)).Waits .a 0 (fr n) [] ∧
    (waiting (one guard0) (fr n)).Passes .a 0 (fr n) ∧ ((waiting (one guard0) (fr n)).stream 0).state.playing = true ∧
    ((waiting (one guard0) (fr n)).stream 0).base = some 100 ∧
    2 * ((waiting (one guard0) (fr n)).inForce 0).window ≤ Machine.dist n 100 ∧
    ((waiting (one guard0) (fr n)).stream 0).guard = some ⟨2000, 64⟩ ∧
    (4032 ≤ Machine.dist n 2000 ∨ Machine.dist n 2000 < 2 * ((waiting (one guard0) (fr n)).inForce 0).window) := by
  simp only [one, oneOff, waiting_waits, State.Passes, waiting_stream, waiting_inForce, withStream_stream, withStream_inForce,
    State.ctx_s, State.ctx_cfg, force_eq, rec0_eq,
    List.forall_mem_cons, List.not_mem_nil, false_implies, implies_true, and_true]
  decide +kernel

theorem test_hyps_jump : (∀ n, (waiting (one jump0) (fr n)).MergeOk) ∧
    (∀ n ∈ [(116 : Seq), 35], (waiting (one run0) (fr n)).Waits .a 0 (fr n) [] ∧
      (waiting (one run0) (fr n)).Passes .a 0 (fr n) ∧ ((waiting (one run0) (fr n)).stream 0).state.playing = true ∧
      ((waiting (one run0) (fr n)).stream 0).base = some 100 ∧
      2 * ((waiting (one run0) (fr n)).inForce 0).window ≤ Machine.dist n 100 ∧ Machine.dist n 100 < 4032 ∧
      (fr n).restart = false ∧ ((waiting (one run0) (fr n)).refreshed .a 0 []).guardDrops n = false ∧
      ((waiting (one run0) (fr n)).stream 0).jump = none) ∧
    (∀ n ∈ [(116 : Seq), 35, 500, 501], (waiting (one jump0) (fr n)).Waits .a 0 (fr n) [] ∧
      (waiting (one jump0) (fr n)).Passes .a 0 (fr n) ∧ ((waiting (one jump0) (fr n)).stream 0).state.playing = true ∧
      ((waiting (one jump0) (fr n)).stream 0).base = some 100 ∧
      2 * ((waiting (one jump0) (fr n)).inForce 0).window ≤ Machine.dist n 100 ∧ Machine.dist n 100 < 4032 ∧
      (fr n).restart = false ∧ ((waiting (one jump0) (fr n)).refreshed .a 0 []).guardDrops n = false ∧
      ((waiting (one jump0) (fr n)).stream 0).jump = some ⟨500, .a, false, [4]⟩) :=
  ⟨fun n => waiting_mergeOk _ (one_ok (by decide +kernel) rfl rfl (by decide)), by
    simp only [one, waiting_waits, State.Passes, waiting_stream, waiting_inForce, withStream_stream, withStream_inForce,
    State.ctx_s, State.ctx_cfg, force_eq, rec0_eq,
    List.forall_mem_cons, List.not_mem_nil, false_implies, implies_true, and_true]
    and_intros <;> decide +kernel⟩
theorem test_confirm : ((after (exec (.arrival .a 0) (waiting (one jump0) (fr 501)))).stream 0).base = some 502 ∧
    ((after (exec (.arrival .a 0) (waiting (one jump0) (fr 501)))).stream 0).guard = some ⟨100, 64⟩ := by decide +kernel
theorem test_hyps_restart_flag : (∀ n, (waiting (one run0) (frR n)).MergeOk) ∧
    (∀ n ∈ [(116 : Seq), 35, 36, 99], (waiting (one run0) (frR n)).Waits .a 0 (frR n) [] ∧
      (waiting (one run0) (frR n)).Passes .a 0 (frR n) ∧ ((waiting (one run0) (frR n)).stream 0).state.playing = true ∧
      ((waiting (one run0) (frR n)).stream 0).base = some 100 ∧
      2 * ((waiting (one run0) (frR n)).inForce 0).window ≤ Machine.dist n 100 ∧ (frR n).restart = true ∧
      ((waiting (one run0) (frR n)).refreshed .a 0 []).guardDrops n = false ∧
      (4032 ≤ Machine.dist n 100 → ((waiting (one run0) (frR n)).stream 0).passedAt (Machine.dist n 100) = .none)) :=
  ⟨fun n => waiting_mergeOk _ (one_ok (by decide +kernel) rfl rfl (by decide)), by
    simp only [one, waiting_waits, State.Passes, waiting_stream, waiting_inForce, withStream_stream, withStream_inForce,
    State.ctx_s, State.ctx_cfg, force_eq, rec0_eq,
    List.forall_mem_cons, List.not_mem_nil, false_implies, implies_true, and_true]
    decide +kernel⟩
theorem test_hyps_stalled : (∀ n, (waiting (one stall0) (fr n)).MergeOk) ∧
    (∀ n ∈ [(100 : Seq), 101, 107, 108, 35], (waiting (one stall0) (fr n)).Waits .a 0 (fr n) [] ∧
      (waiting (one stall0) (fr n)).Passes .a 0 (fr n) ∧ ((waiting (one stall0) (fr n)).stream 0).state = .stalled ∧
      ((waiting (one stall0) (fr n)).stream 0).base = some 100) ∧
    Machine.dist 101 100 < ((one stall0).inForce 0).window ∧ Machine.dist 107 100 < ((one stall0).inForce 0).window ∧
    ((one stall0).inForce 0).window ≤ Machine.dist 108 100 ∧ Machine.dist 108 100 < 4032 ∧ Machine.dist 35 100 < 4032 :=
  ⟨fun n => waiting_mergeOk _ (one_ok (by decide +kernel) rfl rfl (by decide)), by
    simp only [one, waiting_waits, State.Passes, waiting_stream, waiting_inForce, withStream_stream, withStream_inForce,
    State.ctx_s, State.ctx_cfg, force_eq, rec0_eq,
    List.forall_mem_cons, List.not_mem_nil, false_implies, implies_true, and_true]
    decide +kernel⟩

/-! ## Release, substitution and the chain -/

theorem test_hyps_release : (∀ st ∈ [run0, full0], ((one st).ctx 0).s.base = some 100 ∧ 1 ≤ ((one st).ctx 0).cfg.trim ∧
      ((one st).ctx 0).s.queue.length ≤ ((one st).ctx 0).cfg.trim) ∧
    ((one full0).ctx 0).cfg.trim ≤ ((one full0).ctx 0).s.queue.length ∧
    ((one run0).ctx 0).s.queue.length < ((one run0).ctx 0).cfg.trim ∧
    ((one gap0).ctx 0).s.base = some 100 ∧ (((one gap0).ctx 0).s.window.map WindowEntry.seq).Nodup := by
  simp only [one, oneOff, waiting_waits, State.Passes, waiting_stream, waiting_inForce, withStream_stream, withStream_inForce,
    State.ctx_s, State.ctx_cfg, force_eq, rec0_eq,
    List.forall_mem_cons, List.not_mem_nil, false_implies, implies_true, and_true]
  decide +kernel

/-! ## Ticks, gaps and path presence -/

/-- A tick waits for stream 0. -/
def ticking (s : State) : State := { s with ticks := [⟨[0], []⟩] }

theorem test_hyps_tick : (tickWaits 0 (ticking (one gap0)).ticks = true ∧ ((ticking (one gap0)).stream 0).state ≠ .off) ∧
    (tickWaits 0 (ticking (withStream run0 { rec0 with divisor := 2 } State.reset)).ticks = true ∧
      ((ticking (withStream run0 { rec0 with divisor := 2 } State.reset)).stream 0).state ≠ .off ∧
      ((ticking (withStream run0 { rec0 with divisor := 2 } State.reset)).stream 0).state ≠ .draining ∧
      ((ticking (withStream run0 { rec0 with divisor := 2 } State.reset)).stream 0).phase = some 0 ∧
      0 + 1 < ((ticking (withStream run0 { rec0 with divisor := 2 } State.reset)).inForce 0).divisor ∧
      ((ticking (withStream run0 { rec0 with divisor := 2 } State.reset)).stream 0).timer = none ∧
      ((ticking (withStream run0 { rec0 with divisor := 2 } State.reset)).stream 0).pathA.isPresent = false ∧
      ((ticking (withStream run0 { rec0 with divisor := 2 } State.reset)).stream 0).pathB.isPresent = false ∧
      (ticking (withStream run0 { rec0 with divisor := 2 } State.reset)).offers.filter (fun o => isCadence o.block) = []) := by
  decide +kernel
/-- A tick on an expiring gap timer: the timer step comes before the playout event (04 R63). -/
theorem test_tick : ((after (exec (.streamTick 0) (ticking (one gap0)))).stream 0).base = some 102 ∧
    ((after (exec (.streamTick 0) (ticking (one gap0)))).stream 0).queue = [.subst 100, .real 101 false [8]] ∧
    (after (exec (.streamTick 0) (ticking (one gap0)))).ticks = [⟨[], [.real 0 99 false [7]]⟩] := by decide +kernel
theorem test_hyps_presence :
    (State.reset.ctx 0).s.presence .a = .unused ∧ ((one run0).ctx 0).s.presence .a = .absent ∧
    (((one { run0 with pathA := .present 62 }).ctx 0).s.presence .a = .present 62 ∧
      62 + 1 < ((one { run0 with pathA := .present 62 }).ctx 0).cfg.pathSilence) ∧
    (((one { run0 with pathA := .present 63 }).stream 0).presence .a = .present 63 ∧
      ((one { run0 with pathA := .present 63 }).inForce 0).pathSilence ≤ 63 + 1) ∧
    (.a, 0) ∈ ({ one run0 with reports := [(.a, 0)] } : State).reports ∧
    (({ one run0 with reports := [(.a, 0)] } : State).stream 0).presence .a = .absent ∧
    (.a, 0) ∈ ({ one { run0 with pathA := .present 0 } with reports := [(.a, 0)] } : State).reports ∧
    (({ one { run0 with pathA := .present 0 } with reports := [(.a, 0)] } : State).stream 0).presence .a = .present 0 := by
  decide +kernel
theorem test_path_absent :
    ((after (exec (.pathAbsent 0 .a) (one { run0 with pathA := .present 63 }))).stream 0).pathA = .absent := by decide +kernel
theorem test_hyps_gap_timer :
    (((one run0).ctx 0).s.window = [] ∧ ((one run0).ctx 0).s.timer = none) ∧
    (((one { gap0 with timer := none }).ctx 0).s.window ≠ [] ∧ ((one { gap0 with timer := none }).ctx 0).s.timer = none ∧
      ((one { gap0 with timer := none }).ctx 0).waitValue ≠ 0) ∧
    (((one { gap0 with timer := some 2 }).ctx 0).s.timer = some 2 ∧ 2 ≤ 2) ∧ ((one gap0).stream 0).timer = some 1 := by
  decide +kernel

/-! ## Playout events -/

theorem test_hyps_playout_quiet :
    (((one acq0).ctx 0).phaseWraps = true ∧ ((one acq0).stream 0).state = .acquire) ∧
    (((one stall0).ctx 0).phaseWraps = true ∧ ((one stall0).stream 0).state = .stalled) ∧
    (((one { prim0 with queue := List.replicate 3 (.subst 99) }).ctx 0).phaseWraps = true ∧
      ((one { prim0 with queue := List.replicate 3 (.subst 99) }).stream 0).state = .priming ∧
      ((one { prim0 with queue := List.replicate 3 (.subst 99) }).stream 0).queue.length <
        ((one { prim0 with queue := List.replicate 3 (.subst 99) }).inForce 0).hold) ∧
    (((one { prim0 with queue := List.replicate 4 (.subst 99) }).ctx 0).phaseWraps = true ∧
      ((one { prim0 with queue := List.replicate 4 (.subst 99) }).stream 0).state = .priming ∧
      ((one { prim0 with queue := List.replicate 4 (.subst 99) }).inForce 0).hold ≤
        ((one { prim0 with queue := List.replicate 4 (.subst 99) }).stream 0).queue.length ∧
      ((one { prim0 with queue := List.replicate 4 (.subst 99) }).stream 0).queue = .subst 99 :: List.replicate 3 (.subst 99)) := by
  decide +kernel
theorem test_hyps_running : ((one run0).ctx 0).phaseWraps = true ∧ ((one run0).stream 0).state = .running ∧
    ((one run0).stream 0).queue = .real 99 false [7] :: [] := by decide +kernel
theorem test_hyps_running_empty :
    (((one run0).ctx 0).cfg.subst = .repeatLast ∧ ((one run0).ctx 0).s.last = some [6]) ∧
    (((one acq0).ctx 0).cfg.subst = .repeatLast ∧ ((one acq0).ctx 0).s.last = none) ∧
    ((withStream run0 { rec0 with subst := .zero } State.reset).ctx 0).cfg.subst = .zero ∧
    ((withStream run0 { rec0 with subst := .mark } State.reset).ctx 0).cfg.subst = .mark ∧
    (((one { gap0 with queue := [] }).ctx 0).phaseWraps = true ∧ ((one { gap0 with queue := [] }).stream 0).state = .running ∧
      ((one { gap0 with queue := [] }).stream 0).queue = [] ∧ ((one { gap0 with queue := [] }).stream 0).window ≠ [] ∧
      ((one { gap0 with queue := [] }).stream 0).base = some 100) ∧
    (((one { run0 with queue := [], run := 6 }).ctx 0).phaseWraps = true ∧
      ((one { run0 with queue := [], run := 6 }).stream 0).state = .running ∧
      ((one { run0 with queue := [], run := 6 }).stream 0).queue = [] ∧
      ((one { run0 with queue := [], run := 6 }).stream 0).window = [] ∧
      ((one { run0 with queue := [], run := 6 }).stream 0).base = some 100 ∧
      ((one { run0 with queue := [], run := 6 }).stream 0).run + 1 <
        ((one { run0 with queue := [], run := 6 }).inForce 0).stallLimit) ∧
    ((one { run0 with queue := [], run := 7 }).inForce 0).stallLimit ≤
      ((one { run0 with queue := [], run := 7 }).stream 0).run + 1 := by and_intros <;> decide +kernel
theorem test_demand : (after (exec (.playoutEvent 0) (one { gap0 with queue := [] }))).ticks = [⟨[], [.subst 0 100 [6]]⟩] ∧
    ((after (exec (.playoutEvent 0) (one { gap0 with queue := [] }))).stream 0).queue = [.real 101 false [8]] := by
  decide +kernel
theorem test_stall : ((after (exec (.stall 0) (one { run0 with queue := [], run := 7 }))).stream 0).state = .stalled := by
  decide +kernel
theorem test_hyps_draining :
    (((oneOff drain0).ctx 0).phaseWraps = true ∧ ((oneOff drain0).stream 0).state = .draining ∧
      (((oneOff drain0).beforePlayout 0).stream 0).queue = .real 99 false [7] :: []) ∧
    ((oneOff { drain0 with queue := [] }).MergeOk ∧ ((oneOff { drain0 with queue := [] }).ctx 0).phaseWraps = true ∧
      ((oneOff { drain0 with queue := [] }).stream 0).state = .draining ∧
      (((oneOff { drain0 with queue := [] }).beforePlayout 0).stream 0).queue = []) := by
  refine ⟨by decide +kernel, withStream_mergeOk (by decide +kernel) rfl (by decide) rfl (by decide) (by decide), ?_⟩
  decide +kernel
theorem test_end : ((after (exec (.playoutEvent 0) (oneOff { drain0 with queue := [] }))).stream 0).state = .off ∧
    (after (exec (.playoutEvent 0) (oneOff { drain0 with queue := [] }))).tagMap = [] := by decide +kernel
theorem test_hyps_guard : (((one guard0).ctx 0).s.guard = some ⟨2000, 64⟩ ∧ 2 ≤ 64) ∧
    (((one { run0 with guard := some ⟨2000, 1⟩ }).stream 0).state.playing = true ∧
      ((one { run0 with guard := some ⟨2000, 1⟩ }).stream 0).guard = some ⟨2000, 1⟩ ∧
      ((one { run0 with guard := some ⟨2000, 1⟩ }).ctx 0).phaseWraps = true) ∧
    ((withStream { run0 with guard := some ⟨2000, 1⟩ } { rec0 with divisor := 2 } State.reset).ctx 0).phaseWraps = false := by
  decide +kernel
/-- 05 R89: the guard is removed by the playout event that brings it to 0, which also plays. -/
theorem test_guard : ((after (exec (.guardExpiry 0) (one { run0 with guard := some ⟨2000, 1⟩ }))).stream 0).guard = none ∧
    ((after (exec (.guardExpiry 0) (one { run0 with guard := some ⟨2000, 1⟩ }))).stream 0).queue = [] := by decide +kernel

/-! ## The Playout Port -/

/-- A round of two IDLE records under way, the FIFO holding n records. -/
def round0 (n : Nat) : State :=
  { State.reset with ticks := [⟨[], [.idle 0, .idle 1]⟩], port := ⟨List.replicate n (.idle 2), 0⟩ }

theorem test_hyps_round : ((round0 15).ticks = ⟨[], [.idle 0, .idle 1]⟩ :: [] ∧
      ([PlayRecord.idle 0, .idle 1].map PlayRecord.idx).Nodup) ∧
    ((ticking State.reset).ticks = ⟨[0], []⟩ :: [] ∧ ([0] : List StreamIdx) ≠ []) := by decide
theorem test_round : (after (exec .playoutRound (round0 15))).port.fifo.length = 16 ∧
    ((after (exec .playoutRound (round0 15))).stream 0).counters[23].value = 0 ∧
    ((after (exec .playoutRound (round0 15))).stream 1).counters[23].value = 1 := by decide +kernel
/-- Two contexts whose PORT_DROP stands one below 65535, their records offered to a full FIFO. -/
def brinkRound : State :=
  [(0 : StreamIdx), 1].foldl (fun s i => s.setStream i
    { s.stream i with counters := (s.stream i).counters.set ctrPortDrop ⟨0xFFFE, false⟩ }) (round0 16)

theorem test_hyps_round_notices : brinkRound.ticks = ⟨[], [.idle 0, .idle 1]⟩ :: [] ∧
    (brinkRound.stream 1).counters[ctrPortDrop].value = 0xFFFE ∧ (brinkRound.inForce 1).noticeMask.saturated = true := by
  decide +kernel
/-- 06 R120, 10 R177: the notices of one round are those of the port, in ascending index. -/
theorem test_round_notices : (after (exec .playoutRound brinkRound)).offers =
    [⟨.port, .counterSaturated (.stream 0) 23, none⟩, ⟨.port, .counterSaturated (.stream 1) 23, none⟩] ∧
    (after (exec (.noticeOffer .port) (after (exec .playoutRound brinkRound)))).offers =
      [⟨.port, .counterSaturated (.stream 1) 23, none⟩] := by decide +kernel
theorem test_hyps_take_tick : (2 : StreamIdx) ∈ (⟨[2, 5], [.idle 1, .idle 3]⟩ : Tick).waiting ∧
    (4 : StreamIdx) ∉ (⟨[2, 5], [.idle 1, .idle 3]⟩ : Tick).waiting ∧
    (∀ p ∈ [PlayRecord.idle 1, .idle 3], p.idx ≠ (PlayRecord.idle 2).idx) ∧
    [PlayRecord.idle 1, .idle 3].Pairwise (fun a b => a.idx < b.idx) ∧
    takeTick 2 (some (.idle 2)) [⟨[2, 5], [.idle 1, .idle 3]⟩] = [⟨[5], [.idle 1, .idle 2, .idle 3]⟩] := by decide
theorem test_hyps_transfer : State.reset.port.fifo = [] ∧
    (({ State.reset with port := ⟨[.real 0 7 false [5]], 1⟩ } : State).port.fifo = .real 0 7 false [5] :: [] ∧
      1 + 1 < (PlayRecord.real 0 7 false [5]).words.length) ∧ (PlayRecord.real 0 7 false [5]).words.length ≤ 2 + 1 := by decide
theorem test_hyps_record_words : ([] : List Word).length ≤ 16 ∧ (List.replicate 16 (5 : Word)).length ≤ 16 := by decide

/-! ## The Cadence Controller -/

/-- The Cadence Controller in a state with a restore count, the previous edge just taken, and these timers. -/
def cadenceIn (st : CadenceState) (restore : Nat) (generator loss : Option Nat) : State :=
  { State.reset with cadence := { State.reset.cadence with
      state := st, restore := restore, edgeAge := some 0, generator := generator, loss := loss } }

/-- The timers right after reset: the generator alone runs. -/
theorem reset_timersLeft : State.reset.timersLeft = [none, none, none, some 250, none, none, none] := by decide +kernel
theorem test_hyps_cadence : (State.reset.pass 250).cadence.state = .internal ∧
    ((cadenceIn .extOk 0 none (some 0)).pass 250).cadence.state = .extOk ∧
    (((cadenceIn .extLost 2 (some 250) none).pass 500).cadence.state = .extLost ∧
      ((cadenceIn .extLost 2 (some 250) none).pass 500).cadence.edgeAge = some 500 ∧
      ((cadenceIn .extLost 2 (some 250) none).pass 500).cadence.restore + 1 = 3) ∧
    ((cadenceIn .extLost 3 (some 250) none).pass 500).cadence.restore + 1 = 4 ∧
    ((cadenceIn .extLost 3 (some 250) none).pass 501).cadence.edgeAge = some 501 ∧
    ((cadenceIn .extOk 0 none (some 500)).cadence.state = .extOk ∧
      (cadenceIn .extOk 0 none (some 500)).cadence.loss = some (2 * (cadenceIn .extOk 0 none (some 500)).cadence.interval)) ∧
    State.reset.cadence.loss = none ∧ (cadenceIn .extOk 0 none (some 0)).cadence.generator = none ∧
    (cadenceIn .internal 0 (some 0) none).cadence.generator = some 0 ∧ State.reset.cadence.generator = some 250 := by decide +kernel
theorem test_edge : (after (exec (.cadenceEdge 500) (cadenceIn .extLost 3 (some 250) none))).cadence.state = .extOk ∧
    (after (exec (.cadenceEdge 501) (cadenceIn .extLost 3 (some 250) none))).cadence.restore = 1 := by decide +kernel
/-- 06 R101: the generator's tick comes when its time is there, and the next I µs after it. -/
theorem test_generator_tick : (after (exec .generatorTick State.reset)).cadence.generator = some 250 ∧
    (after (exec .generatorTick State.reset)).ticks.length = 1 ∧
    (after (exec (.cadenceEdge 250) State.reset)).ticks = [] ∧
    (after (exec (.cadenceEdge 751) State.reset)).ticks.length = 3 := by decide +kernel
/-- 06 R102, R104: an edge at 2I taken first keeps the cadence, and the loss then comes 2I later; 1 µs past 2I the loss has come. -/
theorem test_loss : (after (exec (.cadenceEdge 500) (cadenceIn .extOk 0 none (some 0)))).cadence.state = .extOk ∧
    (after (exec (.cadenceEdge 501) (cadenceIn .extOk 0 none (some 0)))).cadence.state = .extLost ∧
    (after (exec .cadenceLoss (cadenceIn .extOk 0 none (some 0)))).cadence.edgeAge = some 500 ∧
    (after (exec .cadenceLoss (cadenceIn .extOk 0 none (some 0)))).cadence.state = .extLost := by decide +kernel

/-- The clauses on how time passes: us at the end of the first timer, and each timer with 10 µs left. -/
theorem test_hyps_time_passes : (1 ≤ 250 ∧ ∀ n, some n ∈ State.reset.timersLeft → 250 ≤ n) ∧
    (∀ n, some n ∈ State.reset.timersLeft → 249 ≤ n) ∧
    (({ State.reset with linkA := { LinkRx.reset with state := .up, silence := some 990 } } : State).pass 10).linkA.silence =
      some 1000 ∧
    ((cadenceIn .extOk 0 none (some 490)).pass 10).cadence.loss = some 500 ∧
    (State.reset.pass 250).cadence.generator = some 0 ∧
    (({ State.reset with mgmt := { State.reset.mgmt with rx := some [], byteGap := some 4990 } } : State).pass 10).mgmt.byteGap =
      some 5000 ∧
    (({ State.reset with session := some ⟨State.reset.active, 10⟩ } : State).pass 10).session.map Session.timer = some 0 ∧
    (({ State.reset with notices := { State.reset.notices with retryTimer := some 10 } } : State).pass 10).notices.retryTimer =
      some 0 := by
  rw [reset_timersLeft]
  refine ⟨⟨by decide, fun n hn => ?_⟩, fun n hn => ?_, ?_⟩
  · simp at hn; omega
  · simp at hn; omega
  · decide +kernel

/-! ## The input links -/

/-- Link A in a state at a framing position, with its runs; stream 0 has tag 0. -/
def linkIn (st : LinkState) (pos : LinkPos) (good bad : Nat) : State :=
  { one run0 with linkA := { LinkRx.reset with state := st, pos := pos, goodRun := good, badRun := bad } }
/-- The bytes after the sync of a good frame with the tag, less its last. -/
def gotOf (tag : Byte) : List Byte := ((linkFrameBytes tag 0 (fr 100)).drop 2).dropLast
/-- The last byte of that frame. -/
def lastOf (tag : Byte) : Byte := (linkFrameBytes tag 0 (fr 100)).getLastD 0

theorem test_hyps_link_states : (State.reset.link .a).state = .down ∧ State.reset.active.device.noticeMask.linkState = true ∧
    (State.reset.link .a).counters[lctrHuntEntries].value ≠ 0xFFFE ∧
    ({ DeviceRecord.default with noticeMask := ⟨false, true, true, true⟩ } : DeviceRecord).noticeMask.linkState = false ∧
    (((linkIn .hunt (.seeking true) 0 0).link .a).state ≠ .down ∧
      ((linkIn .hunt (.seeking true) 0 0).link .a).pos = .seeking true) ∧
    (({ State.reset with linkA := { LinkRx.reset with state := .up, silence := some 1000 } } : State).link .a).state ≠ .down ∧
    (({ State.reset with linkA := { LinkRx.reset with state := .up, silence := some 1000 } } : State).link .a).silence =
      some 1000 := by decide +kernel
/-- Link A's counters one below 65535. -/
def linkBrink (s : State) : State := { s with linkA := { s.linkA with counters := Vector.replicate 6 ⟨0xFFFE, false⟩ } }
/-- Link A's COUNTER_SATURATED notice of counter k, and its LINK_STATE notice. -/
def saturated (k : Nat) : Offer := ⟨.link .a, .counterSaturated (.link .a) k, none⟩
def linkNow (st : LinkState) : Offer := ⟨.link .a, .linkState .a st, none⟩

/-- 07 R134, R135: the notices of a byte stand in the order of its changes. -/
theorem test_link_notices :
    (after (exec (.linkByte .a 0) (linkBrink State.reset))).offers = [saturated 5, linkNow .hunt] ∧
    (after (exec (.linkByte .a (lastOf 9)) (linkBrink (linkIn .hunt (.inFrame (gotOf 9)) 1 0)))).offers =
      [saturated 0, linkNow .up, saturated 3] ∧
    (after (exec (.linkByte .a (lastOf 0 + 1)) (linkBrink (linkIn .up (.inFrame (gotOf 0)) 0 3)))).offers =
      [saturated 1, saturated 5, linkNow .hunt] ∧
    (after (exec (.linkByte .a 17) (linkBrink (linkIn .up (.inFrame [1, 2, 3]) 0 3)))).offers =
      [saturated 2, saturated 5, linkNow .hunt] ∧
    (linkBrink (linkIn .hunt (.inFrame (gotOf 9)) 1 0)).linkSaturation .a lctrStrayTag = [saturated 3] ∧
    State.reset.linkSaturation .a lctrGood = [] := by decide +kernel
theorem test_sync : ((after (exec (.linkByte .a 0x6E) (linkIn .up (.seeking true) 0 0))).link .a).pos = .inFrame [] := by
  decide +kernel
theorem test_hyps_good_frame :
    (((linkIn .hunt (.inFrame (gotOf 0)) 0 0).link .a).state ≠ .down ∧
      ((linkIn .hunt (.inFrame (gotOf 0)) 0 0).link .a).pos = .inFrame (gotOf 0) ∧ 4 ≤ (gotOf 0 ++ [lastOf 0]).length ∧
      FrameComplete (gotOf 0 ++ [lastOf 0]) ∧ frameCrcGood (gotOf 0 ++ [lastOf 0]) = true ∧
      ((linkIn .hunt (.inFrame (gotOf 0)) 0 0).link .a).goodRun = 0) ∧
    ((linkIn .hunt (.inFrame (gotOf 0)) 1 0).lookup (frameTag (gotOf 0 ++ [lastOf 0])) = some 0 ∧
      1 ≤ ((linkIn .hunt (.inFrame (gotOf 0)) 1 0).link .a).goodRun) ∧
    (FrameComplete (gotOf 9 ++ [lastOf 9]) ∧ frameCrcGood (gotOf 9 ++ [lastOf 9]) = true ∧
      ((linkIn .up (.inFrame (gotOf 9)) 0 3).link .a).state = .up ∧
      (linkIn .up (.inFrame (gotOf 9)) 0 3).lookup (frameTag (gotOf 9 ++ [lastOf 9])) = none) := by and_intros <;> decide +kernel
theorem test_good_frame : (after (exec (.linkByte .a (lastOf 0)) (linkIn .hunt (.inFrame (gotOf 0)) 1 0))).deliveries =
    [⟨.a, 0, fr 100⟩] := by decide +kernel
theorem test_hyps_bad_frame :
    (FrameComplete (gotOf 0 ++ [lastOf 0 + 1]) ∧ frameCrcGood (gotOf 0 ++ [lastOf 0 + 1]) = false ∧
      4 ≤ (gotOf 0 ++ [lastOf 0 + 1]).length ∧ ((linkIn .hunt (.inFrame (gotOf 0)) 1 0).link .a).state = .hunt) ∧
    (((linkIn .up (.inFrame (gotOf 0)) 0 2).link .a).state = .up ∧ ((linkIn .up (.inFrame (gotOf 0)) 0 2).link .a).badRun < 3) ∧
    (((linkIn .up (.inFrame (gotOf 0)) 0 3).link .a).state = .up ∧ 3 ≤ ((linkIn .up (.inFrame (gotOf 0)) 0 3).link .a).badRun) ∧
    (((linkIn .hunt (.inFrame [1, 2, 3]) 0 0).link .a).pos = .inFrame [1, 2, 3] ∧ (0 : Byte).toNat = 0 ∧
      16 < (17 : Byte).toNat) ∧
    (((linkIn .up (.inFrame [1, 2, 3]) 0 2).link .a).pos = .inFrame [1, 2, 3] ∧
      ((linkIn .up (.inFrame [1, 2, 3]) 0 2).link .a).badRun < 3 ∧ 3 ≤ ((linkIn .up (.inFrame [1, 2, 3]) 0 3).link .a).badRun) := by and_intros <;> decide +kernel
theorem test_format_error_up : ((after (exec (.linkByte .a 17) (linkIn .up (.inFrame [1, 2, 3]) 0 2))).link .a).badRun = 3 ∧
    ((after (exec (.linkByte .a 17) (linkIn .up (.inFrame [1, 2, 3]) 0 3))).link .a).state = .hunt ∧
    (after (exec (.linkByte .a 17) (linkIn .up (.inFrame [1, 2, 3]) 0 3))).reports.length = 32 := by decide +kernel
theorem test_hyps_frame_delivered : ((linkIn .up (.seeking false) 0 0).link .a).state = .up ∧
    ((linkIn .up (.seeking false) 0 0).link .a).pos = .seeking false ∧ 1 ≤ (fr 100).words.length ∧
    (List.replicate 16 (5 : Word)).length ≤ 16 ∧ (linkIn .up (.seeking false) 0 0).lookup 0 = some 0 := by decide +kernel
theorem test_frame_delivered : (takeLinkBytes .a (linkFrameBytes 0 3 (fr 100)) (linkIn .up (.seeking false) 0 0)).deliveries =
    [⟨.a, 0, fr 100⟩] := by decide +kernel

/-! ## The management line -/

/-- The Management Receiver with these bytes after SYNC, its byte-gap timer at 5 ms. -/
def receiving (rx : Option (List Byte)) : State := { State.reset with mgmt := { State.reset.mgmt with rx := rx, byteGap := some 5000 } }

theorem test_hyps_mgmt_byte : State.reset.mgmt.rx = none ∧
    ((receiving (some [])).mgmt.rx = some [] ∧ RxIncomplete ([] ++ [(3 : Byte)]) ∧ RxIncomplete ([] ++ [(250 : Byte)])) ∧
    ((receiving (some [3, 1, 2, 3])).mgmt.rx = some [3, 1, 2, 3] ∧ RxIncomplete ([3, 1, 2, 3] ++ [(4 : Byte)])) ∧
    ((2 : Byte).toNat < 3 ∧ 250 < (251 : Byte).toNat) ∧
    ((receiving (some (3 :: [1, 2, 3, 4]))).mgmt.rx = some (3 :: [1, 2, 3, 4]) ∧ [(1 : Byte), 2, 3, 4].length + 1 = (3 : Byte).toNat + 2 ∧
      mgmtCrcGood (3 :: ([1, 2, 3, 4] ++ [5])) = false) := by and_intros <;> decide +kernel
/-- 09 R161: after a CRC mismatch the A7h among the bytes begins the next frame. -/
theorem test_reexamined : mgmtCrcGood (3 :: ([1, 0xA7, 3, 4] ++ [5])) = false ∧
    (after (exec (.mgmtByte 5 true) (receiving (some [3, 1, 0xA7, 3, 4])))).mgmt.rx = some [3, 4, 5] ∧
    (after (exec (.mgmtByte 5 true) (receiving (some [3, 1, 0xA7, 3, 4])))).mgmt.counters[mctrBadFrame].value = 1 := by
  decide +kernel
theorem test_hyps_mgmt_frame : State.reset.mgmt.rx = none ∧ 1 ≤ [(0 : Byte)].length ∧
    (List.replicate 248 (0 : Byte)).length ≤ 248 ∧ State.reset.mgmt.requests.length < 4 ∧
    4 ≤ (List.replicate 4 (⟨1, 1, [0]⟩ : MgmtFrame)).length := by
  decide +kernel
theorem test_mgmt_frame : (takeMgmtBytes (mgmtFrameBytes 1 7 [0]) State.reset).mgmt.requests = [⟨1, 7, [0]⟩] := by decide +kernel
theorem test_hyps_byte_gap : (receiving (some [3])).mgmt.rx = some [3] ∧ (receiving (some [3])).mgmt.byteGap = some 5000 ∧
    RxIncomplete ([3] ++ [(7 : Byte)]) := by and_intros <;> decide +kernel
theorem test_byte_gap : (after (exec .byteGapExpiry (receiving (some [3])))).mgmt.counters[1].value = 1 := by decide +kernel

/-! ## Requests and replies -/

/-- A request of this kind and body waits at the head of the request buffer. -/
def ask (s : State) (kind : Byte) (body : List Byte) : State :=
  { s with mgmt := { s.mgmt with requests := [⟨kind, 1, body⟩] } }
/-- An open session whose staged set is `new`, with its timer at 10 s. -/
def openSession (s : State) (new : ConfigSet) : State := { s with session := some ⟨new, 10000000⟩ }

theorem test_hyps_requests :
    State.reset.goodReports = 0 ∧ State.reset.mgmt.tx = none ∧ State.reset.mgmt.replies = [] ∧
    ((ask State.reset 0 [0]).mgmt.mayTake = true ∧ (ask State.reset 0 [0]).mgmt.requests.head? = some ⟨0, 1, [0]⟩ ∧
      (0 : Byte).toNat = 0) ∧
    ((ask State.reset 15 [0]).mgmt.requests.head? = some ⟨15, 1, [0]⟩ ∧ 14 < (15 : Byte).toNat) ∧
    ((ask State.reset 1 [0, 0]).mgmt.requests.head? = some ⟨1, 1, [0, 0]⟩ ∧ [(0 : Byte), 0].length ≠ 1) := by decide
theorem test_hyps_takes :
    (ask State.reset 0x01 [0]).Takes ⟨1, 1, [0]⟩ 0x01 1 ∧ (ask State.reset 0x02 [31, 1]).Takes ⟨2, 1, [31, 1]⟩ 0x02 2 ∧
    (ask State.reset 0x03 [32, 1]).Takes ⟨3, 1, [32, 1]⟩ 0x03 2 ∧ (ask State.reset 0x04 [1, 2]).Takes ⟨4, 1, [1, 2]⟩ 0x04 2 ∧
    (ask State.reset 0x05 [1]).Takes ⟨5, 1, [1]⟩ 0x05 1 ∧ (ask State.reset 0x06 [1]).Takes ⟨6, 1, [1]⟩ 0x06 1 ∧
    (ask State.reset 0x07 [0, 0, 0]).Takes ⟨7, 1, [0, 0, 0]⟩ 0x07 3 ∧
    (ask State.reset 0x08 (31 :: streamRecordBody rec0)).Takes ⟨8, 1, 31 :: streamRecordBody rec0⟩ 0x08 17 ∧
    (ask State.reset 0x09 (deviceRecordBody DeviceRecord.default)).Takes ⟨9, 1, deviceRecordBody DeviceRecord.default⟩ 0x09 6 ∧
    (ask State.reset 0x0A [0, 0, 0, 9]).Takes ⟨10, 1, [0, 0, 0, 9]⟩ 0x0A 4 ∧
    (ask State.reset 0x0B [0]).Takes ⟨11, 1, [0]⟩ 0x0B 1 ∧ (ask State.reset 0x0C [0]).Takes ⟨12, 1, [0]⟩ 0x0C 1 ∧
    (ask State.reset 0x0D [0]).Takes ⟨13, 1, [0]⟩ 0x0D 1 ∧ (ask State.reset 0x0E [0, 0, 0]).Takes ⟨14, 1, [0, 0, 0]⟩ 0x0E 3 := by
  and_intros <;> decide +kernel
/-- The values at which the clauses of the read requests meet: the last index, the first beyond it, the flags 1 and 2. -/
theorem test_hyps_read_clauses : 32 ≤ (32 : Byte).toNat ∧ (31 : Byte).toNat = (31 : StreamIdx).val ∧ 1 < (2 : Byte).toNat ∧
    State.reset.session = none ∧ (openSession State.reset State.reset.active).session = some ⟨State.reset.active, 10000000⟩ ∧
    (1 : Byte) = (match Sys2Proof.Path.b with | .a => 0 | .b => 1) ∧ State.reset.goodReports = 0 ∧
    ((oneOff drain0).stream 0).state = .draining := by and_intros <;> first | rfl | decide +kernel
/-- 11 R195: the status body of gap0 and a counter block with the marks of counters 0, 9 and 23. -/
theorem test_layouts : statusBody 64 { gap0 with pathA := .present 3, phase := some 2 } =
      [3, 0x71, 0, 100, 1, 1, 0, 0, 0, 0, 0, 0, 0, 1, 2, 0, 3, 1, 0, 64, 0, 2] ∧
    (streamCounterBlock (((Vector.replicate 24 ⟨0, false⟩ : Vector Counter 24).set 0 ⟨0xFFFF, true⟩).set 9 ⟨0x0102, true⟩
      |>.set 23 ⟨0, true⟩)).drop 48 = [1, 2, 0x80] ∧
    linkResult { LinkRx.reset with state := .up, goodRun := 2, badRun := 3 } = [2, 0, 3] ++ List.replicate 13 0 := by
  decide +kernel
theorem test_identify : (after (exec .identify (ask State.reset 0x01 [0]))).mgmt.tx =
    some (.reply ⟨0x81, 1, .ok, [0x06, 0x32, 0x01, 0, 0, 0, 0, 0x02, 0x00, 0], false⟩) := by decide +kernel

/-! ## Edit sessions -/

theorem test_hyps_session : State.reset.session = none ∧ (0 : Byte) ++ (0 : Byte) = State.reset.generation ∧
    (0 : Byte) = State.reset.key ∧ (0 : Byte) ++ (1 : Byte) ≠ State.reset.generation ∧ (1 : Byte) ≠ State.reset.key ∧
    (openSession State.reset State.reset.active).session ≠ none ∧
    ({ State.reset with session := some ⟨State.reset.active, 0⟩ } : State).session.map Session.timer = some 0 := by decide +kernel
theorem test_hyps_staging :
    firstFailing (streamRecordChecks (streamRecordBody rec0)) = none ∧
    firstFailing (streamRecordChecks (streamRecordBody { rec0 with hold := 8 })) = some 5 ∧
    firstFailing (streamRecordChecks (streamRecordBody { rec0 with pathSilence := 4096 })) = some 11 ∧
    firstFailing (streamRecordChecks ((streamRecordBody rec0).take 15 ++ [16])) = some 14 ∧
    firstFailing (deviceRecordChecks (deviceRecordBody DeviceRecord.default)) = none ∧
    firstFailing (deviceRecordChecks (deviceRecordBody { DeviceRecord.default with editWindow := 99 })) = some 2 := by decide
/-- The default set with the record r for stream 0. -/
def newSet (r : StreamRecord) : ConfigSet := ConfigSet.default.setRecord 0 r

theorem test_hyps_commit : State.reset.crossCheck (newSet rec0) = none ∧
    State.reset.crossCheck ((newSet rec0).setRecord 1 rec0) = some (.tagDuplicate, 1) := by decide +kernel
theorem newSet_wf {r : StreamRecord} (h : r.wf = true) (j : StreamIdx) : ((newSet r).record j).wf = true := by
  by_cases hj : j = 0
  · subst hj; rw [newSet, ConfigSet.setRecord_record]; exact h
  · rw [newSet, ConfigSet.setRecord_record_ne _ _ hj, ConfigSet.default_record]
    simpa [State.reset, State.fresh] using (fresh_mergeOk .powerOn .baud115200).2.1.1 j
theorem test_hyps_commit_sets :
    (newSet rec0).device.cadenceSource = State.reset.active.device.cadenceSource ∧
    (newSet rec0).device.nominalInterval = State.reset.active.device.nominalInterval ∧
    ({ DeviceRecord.default with cadenceSource := .external } : DeviceRecord).cadenceSource ≠
      State.reset.active.device.cadenceSource ∧ (newSet rec0).device.noticeMask.committed = true := by decide +kernel
theorem test_hyps_commit_streams : (one run0).MergeOk ∧ (oneOff drain0).MergeOk ∧ State.reset.MergeOk ∧
    (∀ j, ((newSet rec0).record j).wf = true) ∧ (∀ j, ((newSet { rec0 with hold := 5 }).record j).wf = true) ∧
    (∀ j, ((newSet { rec0 with window := 9 }).record j).wf = true) ∧
    (∀ j, ((newSet (StreamRecord.default 0)).record j).wf = true) ∧
    (∀ j, ((newSet { StreamRecord.default 0 with stopMode := .cut }).record j).wf = true) :=
  ⟨one_ok (by decide +kernel) rfl rfl (by decide),
    withStream_mergeOk (by decide +kernel) rfl (by decide) rfl (by decide) (by decide), fresh_mergeOk _ _,
    newSet_wf rfl, newSet_wf rfl, newSet_wf rfl, newSet_wf rfl, newSet_wf rfl⟩
theorem test_hyps_commit_clauses :
    ((State.reset.stream 0).state = .off ∧ ((newSet (StreamRecord.default 0)).record 0).enable = false) ∧
    (((oneOff drain0).stream 0).state = .draining ∧ ((newSet (StreamRecord.default 0)).record 0).stopMode = .drain) ∧
    (((one run0).stream 0).state.live = true ∧ (newSet rec0).record 0 = (one run0).active.record 0) ∧
    (((newSet { rec0 with hold := 5 }).record 0).enable = true ∧
      restartClassDiffers ((one run0).active.record 0) ((newSet { rec0 with hold := 5 }).record 0) = false) ∧
    (((newSet { rec0 with window := 9 }).record 0).enable = true ∧
      restartClassDiffers ((one run0).active.record 0) ((newSet { rec0 with window := 9 }).record 0) = true) ∧
    (((one run0).stream 0).state ≠ .off ∧
      ((newSet { StreamRecord.default 0 with stopMode := .cut }).record 0).enable = false ∧
      ((newSet { StreamRecord.default 0 with stopMode := .cut }).record 0).stopMode = .cut) := by and_intros <;> decide +kernel
theorem test_drain_entry : (((one gap0).applyCommit (newSet (StreamRecord.default 0)) 1).stream 0).state = .draining ∧
    (((one gap0).applyCommit (newSet (StreamRecord.default 0)) 1).stream 0).queue =
      [.real 99 false [7], .subst 100, .real 101 false [8]] := by decide +kernel

/-- Five streams of 128 slots each: the total passes 512 at stream 4. -/
def bigSet : ConfigSet :=
  [0, 1, 2, 3, 4].foldl (fun c (i : StreamIdx) =>
    c.setRecord i { StreamRecord.default i with enable := true, window := 64, trim := 64 }) ConfigSet.default

theorem test_hyps_cross_checks : State.reset.overBudget bigSet = some 4 ∧ State.reset.overBudget (newSet rec0) = none ∧
    State.reset.crossCheck ((newSet rec0).setRecord 1 { rec0 with tag := 1 }) = none ∧
    State.reset.offAfter ((newSet rec0).setRecord 1 { rec0 with tag := 1 }) 0 = false ∧
    State.reset.offAfter ((newSet rec0).setRecord 1 { rec0 with tag := 1 }) 1 = false ∧ (0 : StreamIdx) ≠ 1 := by decide +kernel
/-- 08 R147: the stream that each failing check names. -/
theorem test_cross_check_order :
    State.reset.crossCheck (((newSet rec0).setRecord 1 rec0).setRecord 2 rec0) = some (.tagDuplicate, 1) ∧
    (oneOff drain0).crossCheck ((newSet (StreamRecord.default 0)).setRecord 3 rec0) = some (.tagBusy, 3) ∧
    State.reset.crossCheck bigSet = some (.budget, 4) := by decide +kernel
theorem test_commit : (after (exec .commitEdit (ask (openSession State.reset (newSet rec0)) 0x0A [0, 0, 0, 9]))).generation = 1 ∧
    ((after (exec .commitEdit (ask (openSession State.reset (newSet rec0)) 0x0A [0, 0, 0, 9]))).stream 0).state = .acquire ∧
    (after (exec .commitEdit (ask (openSession State.reset (newSet rec0)) 0x0A [0, 0, 0, 9]))).tagMap = [(0, 0)] := by
  decide +kernel

/-! ## FORCE_RESYNC -/

theorem test_hyps_force : (ask (one prim0) 0x0C [0]).Takes ⟨12, 1, [0]⟩ 0x0C 1 ∧ (0 : Byte).toNat = (0 : StreamIdx).val ∧
    ((ask (one prim0) 0x0C [0]).stream 0).state = .priming ∧ ((ask (one run0) 0x0C [0]).stream 0).state = .running ∧
    ((ask (one stall0) 0x0C [0]).stream 0).state = .stalled ∧ ((ask (one cand0) 0x0C [0]).stream 0).state = .acquire ∧
    ((ask State.reset 0x0C [0]).stream 0).state = .off ∧ ((ask (oneOff drain0) 0x0C [0]).stream 0).state = .draining ∧
    (ask State.reset 0x0C [32]).Takes ⟨12, 1, [32]⟩ 0x0C 1 ∧ 32 ≤ (32 : Byte).toNat := by
  decide +kernel
theorem test_force : ((after (exec .forceResync (ask (one gap0) 0x0C [0]))).stream 0).state = .acquire ∧
    ((after (exec .forceResync (ask (one gap0) 0x0C [0]))).stream 0).counters[16].value = 2 ∧
    (after (exec .forceResync (ask (one gap0) 0x0C [0]))).free = 512 := by decide +kernel

/-! ## Notices and the Transmitter -/

/-- The Notice Unit after n joinings, i of them in flight, the send pointer at p, beside a QUIET flag. -/
def noticed (n i : Nat) (p : Option Nat) (quiet : Bool) : State :=
  { State.reset with
    notices := { State.reset.notices with
      queue := (List.range n).map fun j => ⟨BitVec.ofNat 8 j, .editExpired⟩
      nextNumber := BitVec.ofNat 8 n, inFlight := i, pointer := p, quiet := quiet }
    offers := [⟨.config, .editExpired, none⟩] }

theorem test_hyps_notice : takeFirstOffer .config (noticed 31 0 none false).offers = some (⟨.config, .editExpired, none⟩, []) ∧
    (noticed 31 0 none false).notices.queue.length < 32 ∧ 32 ≤ (noticed 32 0 none false).notices.queue.length := by decide
/-- A commit's notice about stream 0, one of its context, and the departure of Link A reported to the contexts 1 and 2. -/
def offering : State :=
  { State.reset with offers :=
      [⟨.config, .streamState 0 .acquire .enabled, none⟩, ⟨.stream 0, .pathState 0 .a true, none⟩,
       ⟨.stream 1, .pathState 1 .a false, some .a⟩, ⟨.stream 2, .pathState 2 .a false, some .a⟩] }

theorem test_hyps_notice_order :
    takeFirstOffer (.stream 0) offering.offers = some (⟨.stream 0, .pathState 0 .a true, none⟩,
      [⟨.config, .streamState 0 .acquire .enabled, none⟩, ⟨.stream 1, .pathState 1 .a false, some .a⟩,
       ⟨.stream 2, .pathState 2 .a false, some .a⟩]) ∧
    (∃ e ∈ offering.offers.takeWhile (fun e => !decide (e.block = .stream 0)),
      e.before ⟨.stream 0, .pathState 0 .a true, none⟩ = true) ∧
    (∃ e ∈ offering.offers.takeWhile (fun e => !decide (e.block = .stream 2)),
      e.before ⟨.stream 2, .pathState 2 .a false, some .a⟩ = true) ∧
    (∀ e ∈ offering.offers.takeWhile (fun e => !decide (e.block = .stream 1)),
      e.before ⟨.stream 1, .pathState 1 .a false, some .a⟩ = false) := by decide
/-- 04 R77, 10 R177: the notices of a departure join in the order in which the contexts took the report; a commit's joins
before a later one of its context. -/
theorem test_notice_order : (after (exec (.noticeOffer (.stream 2)) offering)).offers = offering.offers ∧
    (after (exec (.noticeOffer (.stream 0)) offering)).offers = offering.offers ∧
    (after (exec (.noticeOffer (.stream 1)) offering)).offers.length = 3 := by decide +kernel
theorem test_hyps_transmitter : (noticed 6 4 (some 3) false).mgmt.tx = none ∧ (noticed 6 4 (some 3) false).mgmt.replies = [] ∧
    (noticed 6 4 (some 3) false).notices.quiet = false ∧ (noticed 6 4 (some 3) false).notices.pointer = some 3 ∧
    (noticed 6 4 (some 3) false).notices.queue[3]? = some ⟨3, .editExpired⟩ ∧
    (noticed 6 3 (some 3) false).notices.inFlight ≤ 3 ∧ (noticed 6 3 (some 3) false).notices.inFlight < 4 ∧
    (noticed 6 4 (some 4) false).notices.queue[4]? = some ⟨4, .editExpired⟩ ∧
    4 ≤ (noticed 6 4 (some 4) false).notices.inFlight ∧ (noticed 6 4 none true).notices.quiet = true := by decide
/-- The Transmitter at work on a frame. -/
def sending (f : TxFrame) (s : State) : State := { s with mgmt := { s.mgmt with tx := some f } }

theorem test_hyps_completion :
    ((sending (.notice ⟨0, .editExpired⟩ true) (noticed 2 2 none false)).mgmt.tx = some (.notice ⟨0, .editExpired⟩ true) ∧
      (sending (.notice ⟨0, .editExpired⟩ true) (noticed 2 2 none false)).notices.queue =
        ⟨0, .editExpired⟩ :: [⟨1, .editExpired⟩] ∧ 1 ≤ (noticed 2 2 none false).notices.inFlight ∧
      (noticed 2 2 none false).notices.quiet = false) ∧
    ((sending (.reply ⟨0x81, 1, .ok, [], false⟩) State.reset).mgmt.tx = some (.reply ⟨0x81, 1, .ok, [], false⟩)) ∧
    ((sending (.reply ⟨0x8E, 1, .ok, [], true⟩) (one run0)).mgmt.tx = some (.reply ⟨0x8E, 1, .ok, [], true⟩)) := by
  and_intros <;> first | rfl | decide +kernel
/-- The retry timer stands at 0, at this retry count. -/
def retrying (count : Nat) : State :=
  { noticed 2 2 none false with
    notices := { (noticed 2 2 none false).notices with retryTimer := some 0, retryCount := count } }

theorem test_hyps_retry : (retrying 2).notices.retryTimer = some 0 ∧ (retrying 2).notices.queue ≠ [] ∧
    (retrying 2).notices.retryCount < 3 ∧ 3 ≤ (retrying 3).notices.retryCount ∧
    ({ noticed 2 2 none true with goodReports := 1 } : State).goodReports = 0 + 1 ∧
    (noticed 2 2 none true).notices.quiet = true ∧ (noticed 2 2 none true).notices.queue ≠ [] := by decide
theorem test_retry : (after (exec .retryExpiry (retrying 3))).notices.quiet = true ∧
    (after (exec .retryExpiry (retrying 2))).mgmt.tx = some (.notice ⟨0, .editExpired⟩ false) := by decide +kernel
theorem test_hyps_ack : (ask (noticed 6 4 (some 3) false) 0x0D [2]).Takes ⟨13, 1, [2]⟩ 0x0D 1 ∧
    (noticed 6 4 (some 3) false).notices.queue[2].number = 2 ∧ 2 < (noticed 6 4 (some 3) false).notices.inFlight ∧
    ((noticed 6 4 (some 3) false).notices.queue.take 2).map NoticeEntry.number = [0, 1] ∧
    (noticed 6 4 (some 3) false).notices.pointer = some 3 ∧
    (∀ e ∈ (noticed 6 4 (some 3) false).notices.queue.take 4, e.number ≠ 4) := by and_intros <;> decide +kernel
/-- The Notice Unit an acknowledgement of number n leaves. -/
def ackedUnit (s : State) (n : Byte) : NoticeUnit := (after (exec .ackNotice (ask s 0x0D [n]))).notices

/-- 10 R182: the retry timer where the oldest entry left is in its first transmission, beside a reply in transmission, and where
none is in flight; the send pointer where no entry is left and where a NOTICES_LOST joins. -/
theorem test_ack_retry_pointer :
    (ackedUnit (sending (.notice ⟨3, .editExpired⟩ true) (noticed 6 4 (some 4) false)) 2).retryTimer = none ∧
    (ackedUnit (sending (.notice ⟨3, .editExpired⟩ false) (noticed 6 4 (some 4) false)) 2).retryTimer = some 250000 ∧
    (ackedUnit (sending (.reply ⟨0x81, 1, .ok, [], false⟩) (noticed 6 4 (some 1) false)) 2).retryTimer = some 250000 ∧
    (ackedUnit (sending (.reply ⟨0x81, 1, .ok, [], false⟩) (noticed 6 4 (some 1) false)) 2).pointer = some 0 ∧
    (ackedUnit (sending (.reply ⟨0x81, 1, .ok, [], false⟩) (noticed 2 2 (some 1) false)) 1).pointer = none ∧
    (ackedUnit (sending (.reply ⟨0x81, 1, .ok, [], false⟩) (noticed 2 2 (some 1) false)) 1).retryTimer = none := by decide +kernel
theorem test_ack_lost : let s := sending (.reply ⟨0x81, 1, .ok, [], false⟩) (noticed 2 2 none false)
    let lost := { s with notices := { s.notices with lost := 7 } }
    (ackedUnit lost 0).pointer = some 1 ∧ (ackedUnit lost 1).pointer = some 0 ∧ (ackedUnit s 1).pointer = none ∧
    (ackedUnit lost 1).queue = [⟨2, .noticesLost 7⟩] ∧ (ackedUnit lost 1).lost = 0 := by decide +kernel
theorem test_ack : ((after (exec .ackNotice (ask (noticed 6 4 (some 3) false) 0x0D [2]))).notices.queue.map NoticeEntry.number) =
    [3, 4, 5] := by decide +kernel

/-! ## RESTART -/

theorem test_restart :
    ((after (exec .transmissionComplete (sending (.reply ⟨0x8E, 1, .ok, [], true⟩) (one run0)))).stream 0).state = .acquire ∧
    (after (exec .transmissionComplete (sending (.reply ⟨0x8E, 1, .ok, [], true⟩) (one run0)))).mgmt.tx =
      some (.notice ⟨0, .started .restart⟩ true) ∧
    (after (exec .transmissionComplete (sending (.reply ⟨0x8E, 1, .ok, [], true⟩) (one run0)))).linkA.state = .hunt := by
  decide +kernel

/-! ## Formats -/

theorem test_hyps_frames_sent : State.reset.mgmt.rx = none ∧ State.reset.mgmt.requests = [] ∧
    (statusBytes .ok ++ List.replicate 247 (0 : Byte)).length ≤ 248 ∧ (noticeBody (.started .restart)).length ≤ 248 := by decide +kernel
theorem test_frames_sent : (TxFrame.notice ⟨5, .started .restart⟩ true).bytes =
      [0xA7, 3, 0x40, 5, 2] ++ bytes16 (crc16 [3, 0x40, 5, 2]) ∧
    (TxFrame.reply ⟨0x81, 7, .badLength 1, [], false⟩).bytes = [0xA7, 4, 0x81, 7, 2, 1] ++ bytes16 (crc16 [4, 0x81, 7, 2, 1]) := by
  decide +kernel
theorem test_hyps_bodies : (streamRecordBody rec0).length = 16 ∧ (deviceRecordBody DeviceRecord.default).length = 6 ∧
    rec0.wf = true ∧ DeviceRecord.default.wf = true := by decide

end Sys2Proof.Tests
end

/-! # What every step keeps, and what a reset leaves -/

namespace Sys2Proof.Machine

/-! ## One induction step for every invariant -/

/-- What idling and every command keep, whatever the queue of commands holds, every step keeps. -/
theorem step_keeps {P : State → Prop} (hpending : ∀ (s : State) (l : List Instr), P s → P { s with pending := l })
    (hidle : ∀ s, P s → P (idle s)) (hexec : ∀ (c : Instr) (s : State), P s → ∃ t, exec c s = .next t ∧ P t)
    {s t : State} (h : P s) (hst : step s = .next t) : P t := by
  unfold step at hst
  split at hst
  · exact Host.Outcome.next.inj hst ▸ hidle s h
  · next c rest _ =>
    obtain ⟨u, hu, hP⟩ := hexec c _ (hpending s rest h)
    exact Host.Outcome.next.inj (hu.symm.trans hst) ▸ hP

/-- What the taking and the answering of a request keep, and its effect at its block, the request keeps. -/
theorem serve_keeps {P : State → Prop} (hbegin : ∀ (s : State) (f : MgmtFrame), P s → P (s.beginRequest f))
    (hend : ∀ (s : State) (f : MgmtFrame) (a : Answer), P s → P (s.endRequest f a))
    {g : List Byte → State → State × Answer} (hg : ∀ body s, P s → P (g body s).1) (kind : Byte) (len : Nat) {s : State}
    (h : P s) : P (s.serve kind len g) := by
  unfold State.serve
  split
  · exact h
  · next f _ =>
    dsimp only
    split
    · exact hend _ f _ (hg _ _ (hbegin s f h))
    · exact hend _ f _ (hbegin s f h)

/-- What the taking and the answering of a request keep, UNKNOWN_KIND keeps. -/
theorem unknownKind_keeps {P : State → Prop} (hbegin : ∀ (s : State) (f : MgmtFrame), P s → P (s.beginRequest f))
    (hend : ∀ (s : State) (f : MgmtFrame) (a : Answer), P s → P (s.endRequest f a)) {s : State} (h : P s) :
    P (unknownKind s) := by
  unfold unknownKind
  split
  · exact h
  · next f _ => exact hend _ f _ (hbegin s f h)

/-! ## The invariant of the merging machinery -/

theorem identify_mergeOk {s : State} (h : s.MergeOk) (body : List Byte) : (identify body s).1.MergeOk := h

/-- Every command keeps the invariant of the merging machinery. -/
theorem exec_mergeOk (c : Instr) (s : State) (h : s.MergeOk) : ∃ t, exec c s = .next t ∧ t.MergeOk := by
  cases c with
  | powerOn r1 r0 => exact ⟨_, rfl, powerOn_mergeOk r1 r0 s⟩
  | hardReset r1 r0 => exact ⟨_, rfl, hardReset_mergeOk r1 r0 s⟩
  | linkByte x b => exact ⟨_, rfl, linkByte_mergeOk h x b⟩
  | linkSilence x => exact ⟨_, rfl, linkSilence_mergeOk h x⟩
  | linkDepartureReport x i => exact ⟨_, rfl, linkDepartureReport_mergeOk h x i⟩
  | arrival x i => exact ⟨_, rfl, arrival_mergeOk h x i⟩
  | cadenceEdge us => exact ⟨_, rfl, cadenceEdge_mergeOk h us⟩
  | cadenceLoss => exact ⟨_, rfl, cadenceLoss_mergeOk h⟩
  | generatorTick => exact ⟨_, rfl, generatorTick_mergeOk h⟩
  | streamTick i => exact ⟨_, rfl, streamTick_mergeOk h i⟩
  | pathAbsent i x => exact ⟨_, rfl, pathAbsent_mergeOk h i x⟩
  | gapTimerExpiry i => exact ⟨_, rfl, gapTimerExpiry_mergeOk h i⟩
  | playoutEvent i => exact ⟨_, rfl, playoutEvent_mergeOk h i⟩
  | stall i => exact ⟨_, rfl, stall_mergeOk h i⟩
  | guardExpiry i => exact ⟨_, rfl, guardExpiry_mergeOk h i⟩
  | playoutRound => exact ⟨_, rfl, playoutRound_mergeOk h⟩
  | wordTransfer => exact ⟨_, rfl, wordTransfer_mergeOk h⟩
  | mgmtByte b stop => exact ⟨_, rfl, mgmtByte_mergeOk h b stop⟩
  | byteGapExpiry => exact ⟨_, rfl, byteGapExpiry_mergeOk h⟩
  | goodFrameReport => exact ⟨_, rfl, goodFrameReport_mergeOk h⟩
  | identify => exact ⟨_, rfl, serve_mergeOk h _ _ fun body _ ht _ => identify_mergeOk ht body⟩
  | readStream => exact ⟨_, rfl, serve_mergeOk h _ _ fun body _ ht _ => readStream_mergeOk ht body⟩
  | readCounters => exact ⟨_, rfl, serve_mergeOk h _ _ fun body _ ht _ => readCounters_mergeOk ht body⟩
  | readLink => exact ⟨_, rfl, serve_mergeOk h _ _ fun body _ ht _ => readLink_mergeOk ht body⟩
  | readDevice => exact ⟨_, rfl, serve_mergeOk h _ _ fun body _ ht _ => readDevice_mergeOk ht body⟩
  | readMgmt => exact ⟨_, rfl, serve_mergeOk h _ _ fun body _ ht _ => readMgmt_mergeOk ht body⟩
  | openEdit => exact ⟨_, rfl, serve_mergeOk h _ _ fun body _ ht _ => openEdit_mergeOk ht body⟩
  | stageStream => exact ⟨_, rfl, serve_mergeOk h _ _ fun body _ ht _ => stageStream_mergeOk ht body⟩
  | stageDevice => exact ⟨_, rfl, serve_mergeOk h _ _ fun body _ ht _ => stageDevice_mergeOk ht body⟩
  | commitEdit => exact ⟨_, rfl, serve_mergeOk h _ _ fun body _ ht _ => commitEdit_mergeOk ht body⟩
  | discardEdit => exact ⟨_, rfl, serve_mergeOk h _ _ fun body _ ht _ => discardEdit_mergeOk ht body⟩
  | editExpiry => exact ⟨_, rfl, editExpiry_mergeOk h⟩
  | forceResync => exact ⟨_, rfl, serve_mergeOk h _ _ fun body _ ht _ => forceResync_mergeOk ht body⟩
  | ackNotice => exact ⟨_, rfl, serve_mergeOk h _ _ fun body _ ht _ => ackNotice_mergeOk ht body⟩
  | restart => exact ⟨_, rfl, serve_mergeOk h _ _ fun body _ ht _ => restartRequest_mergeOk ht body⟩
  | unknownKind => exact ⟨_, rfl, unknownKind_mergeOk h⟩
  | transmissionComplete => exact ⟨_, rfl, transmissionComplete_mergeOk h⟩
  | retryExpiry => exact ⟨_, rfl, retryExpiry_mergeOk h⟩
  | noticeOffer b => exact ⟨_, rfl, noticeOffer_mergeOk h b⟩

/-- Settles O4: idling and each command keep the invariant. -/
theorem mergeInvariantKept : Obligations.MergeInvariantKept :=
  fun _ _ h hst => step_keeps (fun _ _ h => h) (fun _ h => idle_mergeOk h) exec_mergeOk h hst

/-! ## The Tag Map -/

/-- An event that leaves the merging machinery's fields and the Tag Map alone keeps the Tag Map's invariant. -/
theorem tagMapOk_of_same {s t : State} (h : s.TagMapOk) (hs : s.SameMerge t) (hm : t.tagMap = s.tagMap) : t.TagMapOk :=
  (hs.tags hm).ok h

theorem fresh_tagMapOk (c : ResetCause) (r : LineRate) : (State.fresh c r).TagMapOk := by
  refine ⟨List.nodup_nil, List.nodup_nil, fun p hp => absurd hp List.not_mem_nil, fun i hi => ?_⟩
  rw [State.fresh_stream] at hi
  exact absurd rfl hi

theorem putLink_tagMap (s : State) (c : LinkCtx) : (s.putLink c).tagMap = s.tagMap := by simp [State.putLink]

theorem edge_tagMap (s : State) : s.edge.tagMap = s.tagMap := by
  unfold State.edge
  split
  · rfl
  · rfl
  · split
    · simp
    · rfl

theorem atEnd_tagMapOk {s : State} (h : s.TagMapOk) {f : State → State} (hf : ∀ s : State, s.TagMapOk → (f s).TagMapOk)
    (left : Option Nat) : (s.atEnd left f).TagMapOk := State.atEnd_keeps (fun _ us h => pass_tagMapOk h us) hf left h

theorem mgmtByte_tagMapOk {s : State} (h : s.TagMapOk) (b : Byte) (stop : Bool) : (mgmtByte b stop s).TagMapOk := by
  unfold mgmtByte
  split
  · refine tagMapOk_of_same h (State.sameMerge_of ?_ ?_ ?_ ?_) ?_ <;> simp [State.takeMgmtByte]
  · exact h

theorem goodFrameReport_tagMapOk {s : State} (h : s.TagMapOk) : (goodFrameReport s).TagMapOk := by
  unfold goodFrameReport
  split
  · exact h
  · exact tagMapOk_of_same h (State.sameMerge_of (by simp) (by simp) (by simp) (by simp)) (by simp)

theorem noticeOffer_tagMapOk {s : State} (h : s.TagMapOk) (b : Block) : (noticeOffer b s).TagMapOk := by
  unfold noticeOffer
  split
  · exact h
  · split
    · exact tagMapOk_of_same h (State.sameMerge_of (by simp) (by simp) (by simp) (by simp)) (by simp)
    · exact h

theorem choose_tagMapOk {s : State} (h : s.TagMapOk) : s.choose.TagMapOk := tagMapOk_of_same h (choose_same s) (by simp)

/-- The completion of a transmission keeps the Tag Map: only a RESTART's reply touches it. -/
theorem transmissionComplete_tagMapOk {s : State} (hm : s.MergeOk) (h : s.TagMapOk) :
    (transmissionComplete s).TagMapOk := by
  have hbefore : s.SameTags s.beforeRestart := (settleDeliveries_tags hm _).trans (takeOffers_tags _ _)
  unfold transmissionComplete
  split
  · exact choose_tagMapOk h
  · split
    · exact choose_tagMapOk (restartNow_tagMapOk (hbefore.ok h))
    · exact choose_tagMapOk (s := s.idleTx) h
  · next e _ _ => exact choose_tagMapOk (s := { s with notices := s.notices.completed e }.idleTx) h

theorem beginRequest_tagMapOk {s : State} (h : s.TagMapOk) (f : MgmtFrame) : (s.beginRequest f).TagMapOk :=
  tagMapOk_of_same h (beginRequest_same s f) (by simp)

theorem endRequest_tagMapOk {s : State} (h : s.TagMapOk) (f : MgmtFrame) (a : Answer) : (s.endRequest f a).TagMapOk :=
  tagMapOk_of_same h (endRequest_same s f a) (by simp)

theorem beginRequest_keepsBoth (s : State) (f : MgmtFrame) (h : s.MergeOk ∧ s.TagMapOk) :
    (s.beginRequest f).MergeOk ∧ (s.beginRequest f).TagMapOk :=
  ⟨(beginRequest_same s f).ok h.1, beginRequest_tagMapOk h.2 f⟩

theorem endRequest_keepsBoth (s : State) (f : MgmtFrame) (a : Answer) (h : s.MergeOk ∧ s.TagMapOk) :
    (s.endRequest f a).MergeOk ∧ (s.endRequest f a).TagMapOk :=
  ⟨(endRequest_same s f a).ok h.1, endRequest_tagMapOk h.2 f a⟩

/-- A request keeps the Tag Map if its effect at its block does. -/
theorem serve_tagMapOk {s : State} (hm : s.MergeOk) (h : s.TagMapOk) (kind : Byte) (len : Nat)
    {g : List Byte → State → State × Answer} (hg1 : ∀ body t, t.MergeOk → (g body t).1.MergeOk)
    (hg2 : ∀ body t, t.MergeOk → t.TagMapOk → (g body t).1.TagMapOk) : (s.serve kind len g).TagMapOk :=
  (serve_keeps (P := fun t => t.MergeOk ∧ t.TagMapOk) beginRequest_keepsBoth endRequest_keepsBoth
    (fun body t ht => ⟨hg1 body t ht.1, hg2 body t ht.1 ht.2⟩) kind len ⟨hm, h⟩).2

theorem readStream_state (body : List Byte) (s : State) : (readStream body s).1 = s := by
  unfold readStream
  split
  · rfl
  · dsimp only
    split
    · rfl
    · rfl
    · split <;> rfl

theorem readDevice_state (body : List Byte) (s : State) : (readDevice body s).1 = s := by
  unfold readDevice
  split
  · rfl
  · rfl
  · split <;> rfl

theorem clearStreamCounters_tags {s : State} (h : s.MergeOk) (i : StreamIdx) : s.SameTags (s.clearStreamCounters i) := by
  have k : (s.ctx i).Kept { s.ctx i with s := { s.stream i with counters := Vector.replicate 24 Counter.zero } } :=
    Ctx.kept_of_parts (h.1 i).1 rfl rfl rfl ⟨_, rfl⟩
  refine (put_tags (.stream i) k fun hd => ⟨hd, rfl⟩).trans (State.SameMerge.tags ?_ rfl)
  exact State.sameMerge_of rfl rfl rfl rfl

theorem readCounters_tagMapOk {s : State} (hm : s.MergeOk) (h : s.TagMapOk) (body : List Byte) :
    (readCounters body s).1.TagMapOk := by
  unfold readCounters
  split
  · exact h
  · split
    · exact h
    · next i _ _ clear _ =>
      cases clear
      · exact h
      · exact (clearStreamCounters_tags hm i).ok h

theorem readLink_tagMapOk {s : State} (h : s.TagMapOk) (body : List Byte) : (readLink body s).1.TagMapOk := by
  unfold readLink
  split
  · exact h
  · split
    · exact h
    · next clear _ =>
      cases clear
      · exact h
      · exact tagMapOk_of_same h (State.sameMerge_of (by simp) (by simp) (by simp) (by simp)) (by simp)

theorem readMgmt_tagMapOk {s : State} (h : s.TagMapOk) (body : List Byte) : (readMgmt body s).1.TagMapOk := by
  unfold readMgmt
  split
  · exact h
  · next clear _ => cases clear <;> exact h

theorem openEdit_tagMapOk {s : State} (h : s.TagMapOk) (body : List Byte) : (openEdit body s).1.TagMapOk := by
  unfold openEdit
  split
  · exact h
  · split <;> exact h

theorem stageStream_tagMapOk {s : State} (h : s.TagMapOk) (body : List Byte) : (stageStream body s).1.TagMapOk := by
  unfold stageStream
  split
  · exact h
  · split
    · exact h
    · split <;> exact h

theorem stageDevice_tagMapOk {s : State} (h : s.TagMapOk) (body : List Byte) : (stageDevice body s).1.TagMapOk := by
  unfold stageDevice
  split
  · exact h
  · split <;> exact h

theorem discardEdit_tagMapOk {s : State} (h : s.TagMapOk) (body : List Byte) : (discardEdit body s).1.TagMapOk := by
  unfold discardEdit
  split <;> exact h

theorem ackNotice_tagMapOk {s : State} (h : s.TagMapOk) (body : List Byte) : (ackNotice body s).1.TagMapOk := by
  unfold ackNotice
  split <;> exact h

theorem restartRequest_tagMapOk {s : State} (h : s.TagMapOk) (body : List Byte) : (restartRequest body s).1.TagMapOk := by
  unfold restartRequest
  split <;> exact h

/-- Every command keeps the Tag Map's agreement with the streams. -/
theorem exec_tagMapOk (c : Instr) (s : State) (hm : s.MergeOk) (h : s.TagMapOk) : ∃ t, exec c s = .next t ∧ t.TagMapOk := by
  cases c with
  | powerOn r1 r0 => exact ⟨_, rfl, fresh_tagMapOk .powerOn (rateOfStraps r1 r0)⟩
  | hardReset r1 r0 => exact ⟨_, rfl, fresh_tagMapOk .hard (rateOfStraps r1 r0)⟩
  | linkByte x b => exact ⟨_, rfl, tagMapOk_of_same h (putLink_same s _) (putLink_tagMap s _)⟩
  | linkSilence x => exact ⟨_, rfl, atEnd_tagMapOk h (fun t => dues_tagMapOk.silence t x) _⟩
  | linkDepartureReport x i => exact ⟨_, rfl, (linkDepartureReport_tags hm x i).ok h⟩
  | arrival x i => exact ⟨_, rfl, (arrival_tags hm x i).ok h⟩
  | cadenceEdge us => exact ⟨_, rfl, tagMapOk_of_same (pass_tagMapOk h us) (edge_same _) (edge_tagMap _)⟩
  | cadenceLoss => exact ⟨_, rfl, atEnd_tagMapOk h dues_tagMapOk.loss _⟩
  | generatorTick => exact ⟨_, rfl, atEnd_tagMapOk h dues_tagMapOk.generator _⟩
  | streamTick i => exact ⟨_, rfl, streamTick_tagMapOk hm h i⟩
  | pathAbsent i x => exact ⟨_, rfl, (pathAbsent_tags hm i x).ok h⟩
  | gapTimerExpiry i => exact ⟨_, rfl, (gapTimerExpiry_tags hm i).ok h⟩
  | playoutEvent i => exact ⟨_, rfl, playoutEvent_tagMapOk hm h i⟩
  | stall i => exact ⟨_, rfl, stall_tagMapOk hm h i⟩
  | guardExpiry i => exact ⟨_, rfl, guardExpiry_tagMapOk hm h i⟩
  | playoutRound => exact ⟨_, rfl, (playoutRound_tags hm).ok h⟩
  | wordTransfer => exact ⟨_, rfl, h⟩
  | mgmtByte b stop => exact ⟨_, rfl, mgmtByte_tagMapOk h b stop⟩
  | byteGapExpiry => exact ⟨_, rfl, atEnd_tagMapOk h dues_tagMapOk.gap _⟩
  | goodFrameReport => exact ⟨_, rfl, goodFrameReport_tagMapOk h⟩
  | identify => exact ⟨_, rfl, serve_tagMapOk hm h _ _ (fun _ _ hm => hm) fun _ _ _ ht => ht⟩
  | readStream =>
    exact ⟨_, rfl, serve_tagMapOk hm h _ _ (fun body _ hm => readStream_mergeOk hm body) fun body t _ ht => by
      rw [readStream_state]; exact ht⟩
  | readCounters =>
    exact ⟨_, rfl, serve_tagMapOk hm h _ _ (fun body _ hm => readCounters_mergeOk hm body) fun body _ hm ht =>
      readCounters_tagMapOk hm ht body⟩
  | readLink =>
    exact ⟨_, rfl, serve_tagMapOk hm h _ _ (fun body _ hm => readLink_mergeOk hm body) fun body _ _ ht =>
      readLink_tagMapOk ht body⟩
  | readDevice =>
    exact ⟨_, rfl, serve_tagMapOk hm h _ _ (fun body _ hm => readDevice_mergeOk hm body) fun body t _ ht => by
      rw [readDevice_state]; exact ht⟩
  | readMgmt =>
    exact ⟨_, rfl, serve_tagMapOk hm h _ _ (fun body _ hm => readMgmt_mergeOk hm body) fun body _ _ ht =>
      readMgmt_tagMapOk ht body⟩
  | openEdit =>
    exact ⟨_, rfl, serve_tagMapOk hm h _ _ (fun body _ hm => openEdit_mergeOk hm body) fun body _ _ ht =>
      openEdit_tagMapOk ht body⟩
  | stageStream =>
    exact ⟨_, rfl, serve_tagMapOk hm h _ _ (fun body _ hm => stageStream_mergeOk hm body) fun body _ _ ht =>
      stageStream_tagMapOk ht body⟩
  | stageDevice =>
    exact ⟨_, rfl, serve_tagMapOk hm h _ _ (fun body _ hm => stageDevice_mergeOk hm body) fun body _ _ ht =>
      stageDevice_tagMapOk ht body⟩
  | commitEdit =>
    exact ⟨_, rfl, serve_tagMapOk hm h _ _ (fun body _ hm => commitEdit_mergeOk hm body) fun body _ hm ht =>
      commitEdit_tagMapOk hm ht body⟩
  | discardEdit =>
    exact ⟨_, rfl, serve_tagMapOk hm h _ _ (fun body _ hm => discardEdit_mergeOk hm body) fun body _ _ ht =>
      discardEdit_tagMapOk ht body⟩
  | editExpiry => exact ⟨_, rfl, atEnd_tagMapOk h dues_tagMapOk.edit _⟩
  | forceResync =>
    exact ⟨_, rfl, serve_tagMapOk hm h _ _ (fun body _ hm => forceResync_mergeOk hm body) fun body _ hm ht =>
      (forceResync_tags hm body).ok ht⟩
  | ackNotice =>
    exact ⟨_, rfl, serve_tagMapOk hm h _ _ (fun body _ hm => ackNotice_mergeOk hm body) fun body _ _ ht =>
      ackNotice_tagMapOk ht body⟩
  | restart =>
    exact ⟨_, rfl, serve_tagMapOk hm h _ _ (fun body _ hm => restartRequest_mergeOk hm body) fun body _ _ ht =>
      restartRequest_tagMapOk ht body⟩
  | unknownKind =>
    exact ⟨_, rfl, unknownKind_keeps (P := State.TagMapOk) (fun _ f ht => beginRequest_tagMapOk ht f) (fun _ f a ht => endRequest_tagMapOk ht f a) h⟩
  | transmissionComplete => exact ⟨_, rfl, transmissionComplete_tagMapOk hm h⟩
  | retryExpiry => exact ⟨_, rfl, atEnd_tagMapOk h dues_tagMapOk.retry _⟩
  | noticeOffer b => exact ⟨_, rfl, noticeOffer_tagMapOk h b⟩

theorem idle_tagMapOk {s : State} (h : s.TagMapOk) : (idle s).TagMapOk := pass_tagMapOk (choose_tagMapOk h) 1

/-- Every command keeps the two invariants together. -/
theorem exec_keepsBoth (c : Instr) (s : State) (h : s.MergeOk ∧ s.TagMapOk) :
    ∃ t, exec c s = .next t ∧ t.MergeOk ∧ t.TagMapOk := by
  obtain ⟨t, ht, hm⟩ := exec_mergeOk c s h.1
  obtain ⟨u, hu, htag⟩ := exec_tagMapOk c s h.1 h.2
  obtain rfl := Host.Outcome.next.inj (ht.symm.trans hu)
  exact ⟨t, ht, hm, htag⟩

/-- Settles O5: idling and each command keep the Tag Map, in a state whose contexts have their shapes. -/
theorem tagMapInvariantKept : Obligations.TagMapInvariantKept := fun _ _ hm ht hst =>
  (step_keeps (P := fun s => s.MergeOk ∧ s.TagMapOk) (fun _ _ h => h) (fun _ h => ⟨idle_mergeOk h.1, idle_tagMapOk h.2⟩)
    exec_keepsBoth ⟨hm, ht⟩ hst).2

end Sys2Proof.Machine

/-! # The counters' marks -/

namespace Sys2Proof.Machine

/-! ## The management side and the Notice Unit -/

theorem fresh_countersOk (c : ResetCause) (r : LineRate) : (State.fresh c r).CountersOk := by
  refine (countersOk_iff _).2 ⟨fun i => ?_, marked_zero 6, marked_zero 6, marked_zero 6⟩
  show Marked ((State.fresh c r).stream i).counters
  rw [State.fresh_stream]
  exact marked_zero 24

theorem takeReport_countersOk {s : State} (h : s.CountersOk) (x : Path) (i : StreamIdx) : (s.takeReport x i).CountersOk :=
  State.CountersOk.of_eq (h.onStream i fun _ hc => hc.departed x) rfl rfl rfl rfl

theorem linkDepartureReport_countersOk {s : State} (h : s.CountersOk) (x : Path) (i : StreamIdx) :
    (linkDepartureReport x i s).CountersOk := by
  unfold linkDepartureReport
  split
  · exact takeReport_countersOk (State.CountersOk.takeOffers (s := { s with reports := s.reports.erase (x, i) }) h _) x i
  · exact h

theorem arrival_countersOk {s : State} (h : s.CountersOk) (x : Path) (i : StreamIdx) : (arrival x i s).CountersOk := by
  unfold arrival
  split
  · exact h
  · next d rest _ =>
    exact (State.CountersOk.takeOffers (s := { s with deliveries := rest }) h _).onStream _ fun _ hc => hc.arrive _ _

theorem offer_countersOk {s : State} (h : s.CountersOk) (b : Block) (a : Bool) (n : Notice) : (s.offer b a n).CountersOk := by
  unfold State.offer
  split <;> exact h

theorem edge_countersOk {s : State} (h : s.CountersOk) : s.edge.CountersOk := by
  unfold State.edge
  split
  · exact h
  · exact h
  · split
    · exact offer_countersOk (s := { s with cadence := s.cadence.edgeOk }.produceTick) h _ _ _
    · exact h

theorem atEnd_countersOk {s : State} (h : s.CountersOk) {f : State → State} (hf : ∀ s : State, s.CountersOk → (f s).CountersOk)
    (left : Option Nat) : (s.atEnd left f).CountersOk := State.atEnd_keeps (fun _ us h => h.pass us) hf left h

theorem goodRequest_countersOk {s : State} (h : s.CountersOk) (f : MgmtFrame) : (s.goodRequest f).CountersOk := by
  unfold State.goodRequest
  dsimp only
  split
  · exact h
  · exact State.CountersOk.countMgmt (s := { s with goodReports := s.goodReports + 1 }) h _

/-- The bytes examined count good frames' overruns and bad frames; both keep the marks. -/
theorem examine_countersOk (n : Nat) (l : List Byte) {s : State} (h : s.CountersOk) : (State.examine n l s).CountersOk := by
  induction n generalizing l s with
  | zero => exact h
  | succ n ih =>
    cases l with
    | nil => exact h
    | cons b rest =>
      unfold State.examine
      split
      · split
        · exact h
        · split
          · exact ih _ h
          · split
            · exact h
            · split
              · exact ih _ (goodRequest_countersOk h _)
              · exact ih _ (h.countMgmt _)
      · exact ih _ h

theorem mgmtByte_countersOk {s : State} (h : s.CountersOk) (b : Byte) (stop : Bool) : (mgmtByte b stop s).CountersOk := by
  unfold mgmtByte
  split
  · exact examine_countersOk _ _ (s := { s with mgmt := { s.mgmt with rx := none } }) h
  · exact h

theorem goodFrame_countersOk {s : State} (h : s.CountersOk) : s.goodFrame.CountersOk := by
  unfold State.goodFrame
  split
  · exact State.CountersOk.choose (State.CountersOk.countMgmt (s := { s with notices := _ }) h _)
  · exact h

theorem goodFrameReport_countersOk {s : State} (h : s.CountersOk) : (goodFrameReport s).CountersOk := by
  unfold goodFrameReport
  split
  · exact h
  · exact goodFrame_countersOk (s := { s with goodReports := s.goodReports - 1 }) h

theorem takeNotice_countersOk {s : State} (h : s.CountersOk) (n : Notice) : (s.takeNotice n).CountersOk := by
  unfold State.takeNotice
  split
  · exact State.CountersOk.choose (s := { s with notices := s.notices.join n }) h
  · exact State.CountersOk.countMgmt (s := { s with notices := { s.notices with lost := lostBump s.notices.lost } }) h _

theorem noticeOffer_countersOk {s : State} (h : s.CountersOk) (b : Block) : (noticeOffer b s).CountersOk := by
  unfold noticeOffer
  split
  · exact h
  · next o rest _ =>
    split
    · exact takeNotice_countersOk (s := { s with offers := rest }) h _
    · exact h

/-! ## Ticks and the Playout Port -/

theorem streamTick_countersOk {s : State} (h : s.CountersOk) (i : StreamIdx) : (streamTick i s).CountersOk := by
  unfold streamTick
  split
  · exact (h.takeOffers _).playStream i (fun _ hc => hc.tick) _
  · exact h

theorem pathAbsent_countersOk {s : State} (h : s.CountersOk) (i : StreamIdx) (x : Path) : (pathAbsent i x s).CountersOk := by
  unfold pathAbsent
  split
  · exact h
  · exact h
  · split
    · exact h.onStream i fun _ hc => hc.silencePath x
    · exact h

theorem gapTimerExpiry_countersOk {s : State} (h : s.CountersOk) (i : StreamIdx) : (gapTimerExpiry i s).CountersOk := by
  unfold gapTimerExpiry
  split
  · exact h
  · split
    · exact h.onStream i fun _ hc => hc.expireTimer
    · exact h

/-- A playout event, where it is due, keeps the marks. -/
theorem phaseStep_countersOk {s : State} (h : s.CountersOk) (i : StreamIdx) :
    (s.playStream i Ctx.phaseStep ownRound).CountersOk := h.playStream i (fun _ hc => hc.phaseStep) _

theorem playoutEvent_countersOk {s : State} (h : s.CountersOk) (i : StreamIdx) : (playoutEvent i s).CountersOk := by
  unfold playoutEvent
  split
  · exact phaseStep_countersOk h i
  · exact h

theorem stall_countersOk {s : State} (h : s.CountersOk) (i : StreamIdx) : (stall i s).CountersOk := by
  unfold stall
  split
  · exact phaseStep_countersOk h i
  · exact h

theorem guardExpiry_countersOk {s : State} (h : s.CountersOk) (i : StreamIdx) : (guardExpiry i s).CountersOk := by
  unfold guardExpiry
  split
  · exact phaseStep_countersOk h i
  · exact h

theorem placeRecord_countersOk {s : State} (h : s.CountersOk) (r : PlayRecord) : (s.placeRecord r).CountersOk := by
  unfold State.placeRecord
  split
  · exact h
  · exact h.put (Ctx.Marks.count (c := s.ctx r.idx) (h.1 r.idx) ctrPortDrop) .port

theorem placeRecords_countersOk (l : List PlayRecord) {s : State} (h : s.CountersOk) :
    (l.foldl State.placeRecord s).CountersOk := by
  induction l generalizing s with
  | nil => exact h
  | cons r l ih => exact ih (placeRecord_countersOk h r)

theorem playoutRound_countersOk {s : State} (h : s.CountersOk) : (playoutRound s).CountersOk := by
  unfold playoutRound
  split
  · exact h
  · next t ts _ =>
    split
    · exact placeRecords_countersOk _ (State.CountersOk.takeOffers (s := { s with ticks := ts }) h _)
    · exact h

/-! ## Requests -/

theorem beginRequest_countersOk {s : State} (h : s.CountersOk) (f : MgmtFrame) : (s.beginRequest f).CountersOk := by
  unfold State.beginRequest State.settleReports
  split
  · exact h
  · exact goodFrame_countersOk
      (s := { s with mgmt := { s.mgmt with requests := s.mgmt.requests.tail, inProgress := some f }, goodReports := 0 }) h

theorem endRequest_countersOk {s : State} (h : s.CountersOk) (f : MgmtFrame) (a : Answer) : (s.endRequest f a).CountersOk :=
  State.CountersOk.choose (s := { s with mgmt := { s.mgmt with
    inProgress := none
    replies := s.mgmt.replies ++ [Reply.mk (replyKind f.kind) f.reqid a.status a.result a.restart] } }) h

theorem serve_countersOk {s : State} (h : s.CountersOk) (kind : Byte) (len : Nat) {g : List Byte → State → State × Answer}
    (hg : ∀ body t, t.CountersOk → (g body t).1.CountersOk) : (s.serve kind len g).CountersOk :=
  serve_keeps (P := State.CountersOk) (fun _ f h => beginRequest_countersOk h f) (fun _ f a h => endRequest_countersOk h f a)
    hg kind len h

theorem clearStreamCounters_countersOk {s : State} (h : s.CountersOk) (i : StreamIdx) : (s.clearStreamCounters i).CountersOk := by
  refine ⟨fun j => ?_, h.2⟩
  by_cases hj : j = i
  · subst hj
    rw [show (s.clearStreamCounters j).stream j = _ from State.setStream_stream s j _]
    exact marked_zero 24
  · rw [show (s.clearStreamCounters i).stream j = s.stream j from State.setStream_stream_ne s _ hj]
    exact h.1 j

theorem readCounters_countersOk {s : State} (h : s.CountersOk) (body : List Byte) : (readCounters body s).1.CountersOk := by
  unfold readCounters
  split
  · exact h
  · split
    · exact h
    · next i _ _ clear _ =>
      cases clear
      · exact h
      · exact clearStreamCounters_countersOk h i

theorem clearLink_countersOk {s : State} (h : s.CountersOk) (x : Path) :
    (s.setLink x (s.link x).clearCounters).CountersOk := by
  obtain ⟨hs, ha, hb, hm⟩ := (countersOk_iff s).1 h
  cases x
  · exact (countersOk_iff _).2 ⟨hs, marked_zero 6, hb, hm⟩
  · exact (countersOk_iff _).2 ⟨hs, ha, marked_zero 6, hm⟩

theorem readLink_countersOk {s : State} (h : s.CountersOk) (body : List Byte) : (readLink body s).1.CountersOk := by
  unfold readLink
  split
  · exact h
  · split
    · exact h
    · next x _ _ clear _ =>
      cases clear
      · exact h
      · exact clearLink_countersOk h x

theorem readMgmt_countersOk {s : State} (h : s.CountersOk) (body : List Byte) : (readMgmt body s).1.CountersOk := by
  unfold readMgmt
  split
  · exact h
  · next clear _ =>
    cases clear
    · exact h
    · obtain ⟨hs, ha, hb, _⟩ := (countersOk_iff s).1 h
      exact (countersOk_iff _).2 ⟨hs, ha, hb, marked_zero 6⟩

theorem openEdit_countersOk {s : State} (h : s.CountersOk) (body : List Byte) : (openEdit body s).1.CountersOk := by
  unfold openEdit
  split
  · exact h
  · split
    · exact h
    · exact h.countMgmt _

theorem stageStream_countersOk {s : State} (h : s.CountersOk) (body : List Byte) : (stageStream body s).1.CountersOk := by
  unfold stageStream
  split
  · exact h
  · split
    · exact h
    · split <;> exact h

theorem stageDevice_countersOk {s : State} (h : s.CountersOk) (body : List Byte) : (stageDevice body s).1.CountersOk := by
  unfold stageDevice
  split
  · exact h
  · split <;> exact h

theorem discardEdit_countersOk {s : State} (h : s.CountersOk) (body : List Byte) : (discardEdit body s).1.CountersOk := by
  unfold discardEdit
  split <;> exact h

theorem beforeCommit_countersOk {s : State} (h : s.CountersOk) : s.beforeCommit.CountersOk :=
  (h.settleDeliveries _).takeOffers _

theorem commitEdit_countersOk {s : State} (h : s.CountersOk) (body : List Byte) : (commitEdit body s).1.CountersOk := by
  unfold commitEdit
  split
  · exact h
  · split
    · split
      · exact h
      · exact (beforeCommit_countersOk h).applyCommit _ _
    · exact State.CountersOk.countMgmt (s := s.closeSession) h _

theorem forceResync_countersOk {s : State} (h : s.CountersOk) (body : List Byte) : (forceResync body s).1.CountersOk := by
  unfold forceResync
  split
  · exact h
  · split
    · exact h
    · exact h
    all_goals exact h.onStream _ fun _ hc => hc.force

theorem ackNotice_countersOk {s : State} (h : s.CountersOk) (body : List Byte) : (ackNotice body s).1.CountersOk := by
  unfold ackNotice
  split <;> exact h

theorem restartRequest_countersOk {s : State} (h : s.CountersOk) (body : List Byte) :
    (restartRequest body s).1.CountersOk := by
  unfold restartRequest
  split
  · exact h
  · exact State.CountersOk.countMgmt (s := s.closeSession) h _

theorem beforeRestart_countersOk {s : State} (h : s.CountersOk) : s.beforeRestart.CountersOk :=
  (h.settleDeliveries _).takeOffers _

theorem transmissionComplete_countersOk {s : State} (h : s.CountersOk) : (transmissionComplete s).CountersOk := by
  unfold transmissionComplete
  split
  · exact h.choose
  · split
    · exact (beforeRestart_countersOk h).restartNow.choose
    · exact State.CountersOk.choose (s := s.idleTx) h
  · next e _ _ => exact State.CountersOk.choose (s := { s with notices := s.notices.completed e }.idleTx) h

/-- Every command keeps the marks. -/
theorem exec_countersOk (c : Instr) (s : State) (h : s.CountersOk) : ∃ t, exec c s = .next t ∧ t.CountersOk := by
  cases c with
  | powerOn r1 r0 => exact ⟨_, rfl, fresh_countersOk .powerOn (rateOfStraps r1 r0)⟩
  | hardReset r1 r0 => exact ⟨_, rfl, fresh_countersOk .hard (rateOfStraps r1 r0)⟩
  | linkByte x b =>
    refine ⟨_, rfl, h.putLink (linkByte_marked ?_ b)⟩
    obtain ⟨_, ha, hb, _⟩ := (countersOk_iff s).1 h
    cases x
    · exact ha
    · exact hb
  | linkSilence x => exact ⟨_, rfl, atEnd_countersOk h (fun t => dues_countersOk.silence t x) _⟩
  | linkDepartureReport x i => exact ⟨_, rfl, linkDepartureReport_countersOk h x i⟩
  | arrival x i => exact ⟨_, rfl, arrival_countersOk h x i⟩
  | cadenceEdge us => exact ⟨_, rfl, edge_countersOk (h.pass us)⟩
  | cadenceLoss => exact ⟨_, rfl, atEnd_countersOk h dues_countersOk.loss _⟩
  | generatorTick => exact ⟨_, rfl, atEnd_countersOk h dues_countersOk.generator _⟩
  | streamTick i => exact ⟨_, rfl, streamTick_countersOk h i⟩
  | pathAbsent i x => exact ⟨_, rfl, pathAbsent_countersOk h i x⟩
  | gapTimerExpiry i => exact ⟨_, rfl, gapTimerExpiry_countersOk h i⟩
  | playoutEvent i => exact ⟨_, rfl, playoutEvent_countersOk h i⟩
  | stall i => exact ⟨_, rfl, stall_countersOk h i⟩
  | guardExpiry i => exact ⟨_, rfl, guardExpiry_countersOk h i⟩
  | playoutRound => exact ⟨_, rfl, playoutRound_countersOk h⟩
  | wordTransfer => exact ⟨_, rfl, h⟩
  | mgmtByte b stop => exact ⟨_, rfl, mgmtByte_countersOk h b stop⟩
  | byteGapExpiry => exact ⟨_, rfl, atEnd_countersOk h dues_countersOk.gap _⟩
  | goodFrameReport => exact ⟨_, rfl, goodFrameReport_countersOk h⟩
  | identify => exact ⟨_, rfl, serve_countersOk h _ _ fun _ _ ht => ht⟩
  | readStream => exact ⟨_, rfl, serve_countersOk h _ _ fun body t ht => by rw [readStream_state]; exact ht⟩
  | readCounters => exact ⟨_, rfl, serve_countersOk h _ _ fun body _ ht => readCounters_countersOk ht body⟩
  | readLink => exact ⟨_, rfl, serve_countersOk h _ _ fun body _ ht => readLink_countersOk ht body⟩
  | readDevice => exact ⟨_, rfl, serve_countersOk h _ _ fun body t ht => by rw [readDevice_state]; exact ht⟩
  | readMgmt => exact ⟨_, rfl, serve_countersOk h _ _ fun body _ ht => readMgmt_countersOk ht body⟩
  | openEdit => exact ⟨_, rfl, serve_countersOk h _ _ fun body _ ht => openEdit_countersOk ht body⟩
  | stageStream => exact ⟨_, rfl, serve_countersOk h _ _ fun body _ ht => stageStream_countersOk ht body⟩
  | stageDevice => exact ⟨_, rfl, serve_countersOk h _ _ fun body _ ht => stageDevice_countersOk ht body⟩
  | commitEdit => exact ⟨_, rfl, serve_countersOk h _ _ fun body _ ht => commitEdit_countersOk ht body⟩
  | discardEdit => exact ⟨_, rfl, serve_countersOk h _ _ fun body _ ht => discardEdit_countersOk ht body⟩
  | editExpiry => exact ⟨_, rfl, atEnd_countersOk h dues_countersOk.edit _⟩
  | forceResync => exact ⟨_, rfl, serve_countersOk h _ _ fun body _ ht => forceResync_countersOk ht body⟩
  | ackNotice => exact ⟨_, rfl, serve_countersOk h _ _ fun body _ ht => ackNotice_countersOk ht body⟩
  | restart => exact ⟨_, rfl, serve_countersOk h _ _ fun body _ ht => restartRequest_countersOk ht body⟩
  | unknownKind =>
    exact ⟨_, rfl, unknownKind_keeps (P := State.CountersOk) (fun _ f h => beginRequest_countersOk h f)
      (fun _ f a h => endRequest_countersOk h f a) h⟩
  | transmissionComplete => exact ⟨_, rfl, transmissionComplete_countersOk h⟩
  | retryExpiry => exact ⟨_, rfl, atEnd_countersOk h dues_countersOk.retry _⟩
  | noticeOffer b => exact ⟨_, rfl, noticeOffer_countersOk h b⟩

/-- Settles O9: idling and each command keep the marks. -/
theorem counterMarksKept : Obligations.CounterMarksKept := fun _ _ h hst =>
  step_keeps (P := State.CountersOk) (fun _ _ h => h) (fun _ h => h.choose.pass 1) exec_countersOk h hst

/-! ## One counter's advance -/

/-- Settles O10: the three cases of a counter's value, and the context that `count` gives. -/
theorem counterAdvance : Obligations.CounterAdvance := by
  refine ⟨fun c => ⟨fun h => if_pos h, fun h => by simp [Counter.bump, h], fun hmax hbrink => ?_⟩, fun c k => ?_⟩
  · have hnext : c.value + 1 ≠ 0xFFFF := fun h => hbrink (by bv_omega)
    rw [Counter.bump, if_neg hmax, decide_eq_false hnext, Bool.or_false]
  · rw [Ctx.count_eq]
    simp only [Counter.atBrink, Bool.and_eq_true, decide_eq_true_eq, and_comm]
    split <;> simp

/-! ## The invariants at reset -/

theorem fresh_queuesOk (c : ResetCause) (r : LineRate) : (State.fresh c r).QueuesOk := by
  refine ⟨Nat.zero_le _, Nat.zero_le _, Nat.zero_le _, ?_⟩
  simp [State.fresh, NoticeUnit.reset, NoticeUnit.Ok, Config.noticeDepth]

/-- Settles O7: each invariant holds of the state a reset leaves. -/
theorem invariantsAtReset : Obligations.InvariantsAtReset :=
  ⟨fresh_mergeOk _ _, fresh_tagMapOk _ _, fresh_queuesOk _ _, fun _ ht => absurd ht List.not_mem_nil, fresh_countersOk _ _⟩

/-- Settles O3: the two resets give `State.fresh`, whose every field is the tables' value. -/
theorem resetsGiveTheTables : Obligations.ResetsGiveTheTables := by
  have hrate : ∀ r1 r0, rateOfStraps r1 r0 =
      if r1 = false ∧ r0 = true then .baud460800 else if r1 = true ∧ r0 = false then .baud921600 else .baud115200 := by decide
  refine ⟨fun r1 r0 s c cause hc => ⟨{ State.fresh cause (rateOfStraps r1 r0) with pending := s.pending }, ?_, rfl,
    fun i => ?_, fun i => ConfigSet.default_record i, rfl, rfl, rfl, rfl, rfl, rfl, rfl, rfl, rfl, fun x => ?_, hrate r1 r0,
    rfl, rfl, rfl, rfl, rfl, rfl, rfl, rfl, rfl, rfl, rfl, rfl, rfl, rfl, rfl, rfl, rfl, rfl, rfl, rfl, rfl, rfl⟩,
    fun i => ⟨rfl, rfl⟩, rfl, rfl⟩
  · obtain ⟨rfl, rfl⟩ | ⟨rfl, rfl⟩ := hc <;> rfl
  · have hreset : ({ State.fresh cause (rateOfStraps r1 r0) with pending := s.pending } : State).stream i = Stream.reset :=
      State.fresh_stream cause (rateOfStraps r1 r0) i
    rw [hreset]
    exact ⟨rfl, rfl, rfl, rfl⟩
  · cases x <;> exact ⟨rfl, rfl, rfl, rfl, rfl, rfl⟩

/-! ## A cadence tick at a context -/

/-- A silence step leaves a context that has no PRESENT path. -/
theorem Ctx.silencePath_of_not_present {c : Ctx} {x : Path} (h : (c.s.presence x).isPresent = false) : c.silencePath x = c := by
  unfold Ctx.silencePath
  split
  · rfl
  · rfl
  · next n hn => rw [hn] at h; cases h

/-- Between playout events, with no timer and no PRESENT path, a tick raises the phase alone. -/
theorem Ctx.tick_quiet {c : Ctx} {p : Nat} (hphase : c.s.phase = some p) (hp : p + 1 < c.cfg.divisor)
    (htimer : c.s.timer = none) (ha : c.s.pathA.isPresent = false) (hb : c.s.pathB.isPresent = false) :
    c.tick = { c with s := { c.s with phase := some (p + 1) } } := by
  have hsilence : c.silenceStep = c := by
    rw [Ctx.silenceStep, Ctx.silencePath_of_not_present (x := .a) ha, Ctx.silencePath_of_not_present (x := .b) hb]
  have htimerStep : c.timerStep = c := by unfold Ctx.timerStep; rw [htimer]
  rw [Ctx.tick, hsilence, htimerStep, Ctx.phaseStep]
  simp [hphase, Nat.not_le.mpr hp]

theorem State.endDrain_of_not_off {s : State} {i : StreamIdx} (h : (s.stream i).state ≠ .off) : s.endDrain i = s := if_neg h

/-- Settles O23: STREAM_TICK is the three steps on the state its context finds; the quiet tick takes nothing first. -/
theorem streamTickSteps : Obligations.StreamTickSteps := by
  intro s i hwaits hoff
  have hexec : exec (.streamTick i) s = .next ((s.takeOffers isCadence).playStream i Ctx.tick (takeTick i)) := by
    show Host.Outcome.next (streamTick i s) = _
    rw [streamTick, if_pos ⟨hwaits, hoff⟩]
  refine ⟨⟨_, _, rfl, rfl, hexec⟩, fun p hdrain hphase hp htimer ha hb hoffers => ?_⟩
  have htake : s.takeOffers isCadence = s := State.takeOffers_none fun o ho => by
    simpa using List.filter_eq_nil_iff.mp hoffers o ho
  have hbefore : s.beforePlayout i = s := by rw [State.beforePlayout, if_neg hdrain]
  have htick := Ctx.tick_quiet (c := s.ctx i) hphase hp htimer ha hb
  rw [hexec, htake, State.playStream, hbefore, htick]
  refine congrArg Host.Outcome.next ((State.endDrain_of_not_off ?_).trans ?_)
  · show ((s.put _ (.stream i)).stream i).state ≠ .off
    rw [put_stream_of s (i := i) (.stream i) rfl]
    exact hoff
  · simp [State.put, State.setStream]

end Sys2Proof.Machine

/-! # The RESTART at the completion of its reply -/

namespace Sys2Proof.Machine

/-! ## What the taking of deliveries and of notices leaves unchanged -/

/-- What the taking of one delivery leaves, the taking of all the deliveries that `p` picks leaves. -/
theorem State.settleDeliveries_frame {α : Type} (g : State → α) (hlist : ∀ (t : State) (l : List Delivery), g { t with deliveries := l } = g t)
    (htake : ∀ (t : State) (d : Delivery), g (t.takeDelivery d) = g t) (s : State) (p : Delivery → Bool) :
    g (s.settleDeliveries p) = g s := by
  have hfold : ∀ (l : List Delivery) (t : State), g (l.foldl State.takeDelivery t) = g t := by
    intro l
    induction l with
    | nil => exact fun _ => rfl
    | cons d l ih => exact fun t => (ih _).trans (htake t d)
  exact (hfold _ _).trans (hlist s _)

theorem State.choose_rate (s : State) : s.choose.mgmt.rate = s.mgmt.rate := by
  unfold State.choose
  split
  · rfl
  · split
    · rfl
    · split <;> rfl

theorem State.takeNotice_rate (s : State) (n : Notice) : (s.takeNotice n).mgmt.rate = s.mgmt.rate := by
  unfold State.takeNotice
  split
  · exact State.choose_rate _
  · rfl

theorem State.takeOffers_rate (s : State) (p : Block → Bool) : (s.takeOffers p).mgmt.rate = s.mgmt.rate := by
  unfold State.takeOffers
  rw [State.foldNotices_frame _ _ (fun t => t.mgmt.rate) State.takeNotice_rate]

/-- What the taking of deliveries and of notices leaves, all that precedes a RESTART leaves. -/
theorem State.beforeRestart_frame {α : Type} (g : State → α) (hlist : ∀ (t : State) (l : List Delivery), g { t with deliveries := l } = g t)
    (htake : ∀ (t : State) (d : Delivery), g (t.takeDelivery d) = g t)
    (hoffers : ∀ (t : State) (p : Block → Bool), g (t.takeOffers p) = g t) (s : State) : g s.beforeRestart = g s :=
  (hoffers _ _).trans (State.settleDeliveries_frame g hlist htake s _)

@[simp] theorem State.beforeRestart_pending (s : State) : s.beforeRestart.pending = s.pending :=
  State.beforeRestart_frame State.pending (fun _ _ => rfl) (by simp [State.takeDelivery]) (by simp) s
@[simp] theorem State.beforeRestart_active (s : State) : s.beforeRestart.active = s.active :=
  State.beforeRestart_frame State.active (fun _ _ => rfl) (by simp [State.takeDelivery]) (by simp) s
@[simp] theorem State.beforeRestart_generation (s : State) : s.beforeRestart.generation = s.generation :=
  State.beforeRestart_frame State.generation (fun _ _ => rfl) (by simp [State.takeDelivery]) (by simp) s
@[simp] theorem State.beforeRestart_key (s : State) : s.beforeRestart.key = s.key :=
  State.beforeRestart_frame State.key (fun _ _ => rfl) (by simp [State.takeDelivery]) (by simp) s
@[simp] theorem State.beforeRestart_tagMap (s : State) : s.beforeRestart.tagMap = s.tagMap :=
  State.beforeRestart_frame State.tagMap (fun _ _ => rfl) (by simp [State.takeDelivery]) (by simp) s
@[simp] theorem State.beforeRestart_linkA (s : State) : s.beforeRestart.linkA = s.linkA :=
  State.beforeRestart_frame State.linkA (fun _ _ => rfl) (by simp [State.takeDelivery]) (by simp) s
@[simp] theorem State.beforeRestart_linkB (s : State) : s.beforeRestart.linkB = s.linkB :=
  State.beforeRestart_frame State.linkB (fun _ _ => rfl) (by simp [State.takeDelivery]) (by simp) s
@[simp] theorem State.beforeRestart_rate (s : State) : s.beforeRestart.mgmt.rate = s.mgmt.rate :=
  State.beforeRestart_frame (fun t => t.mgmt.rate) (fun _ _ => rfl)
    (fun t d => State.takeOffers_rate t (isLink d.path)) State.takeOffers_rate s

/-! ## The blocks a RESTART resets -/

/-- The Cadence Controller starts as its source says (06 R100). -/
theorem Cadence.start_eq (d : DeviceRecord) : Cadence.start d =
    { state := if d.cadenceSource = .internal then .internal else .extOk
      interval := d.nominalInterval
      generator := if d.cadenceSource = .internal then some d.nominalInterval else none
      loss := if d.cadenceSource = .internal then none else some 0
      edgeAge := none, restore := 0 } := by
  unfold Cadence.start
  cases d.cadenceSource <;> rfl

/-- After a RESTART the Transmitter is idle with no reply, and the one notice queued is eligible: STARTED 0 is sent. -/
theorem State.choose_restartNow (u : State) : u.restartNow.choose = { u.restartNow with
    mgmt := { u.restartNow.mgmt with tx := some (.notice ⟨0, .started .restart⟩ true) }
    notices := (NoticeUnit.reset .restart).begin true } := rfl

/-- The completion of the reply that authorises a RESTART makes it take effect. -/
theorem exec_transmissionComplete_restart {s : State} {r : Reply} (htx : s.mgmt.tx = some (.reply r)) (hr : r.restart = true) :
    exec .transmissionComplete s = .next s.beforeRestart.restartNow.choose := by
  show Host.Outcome.next (transmissionComplete s) = _
  simp only [transmissionComplete, htx, hr, if_true]

/-- Settles O58: the completion makes the RESTART take effect on what precedes it, and an idle Transmitter then chooses. -/
theorem restartTakesEffect : Obligations.RestartTakesEffect := by
  rintro s u r htx hr rfl
  have hstream : ∀ i, s.beforeRestart.restartNow.choose.stream i =
      (s.beforeRestart.stream i).restarted (s.beforeRestart.inForce i) := fun i => by
    rw [State.choose_stream, restartNow_stream]
  refine ⟨_, exec_transmissionComplete_restart htx hr, ?_, fun i hi => ?_, fun i hi => ?_, fun i hi => ?_, ?_, ?_, ?_, ?_, ?_,
    ?_, ?_, ?_, fun x => ?_, ?_, ?_⟩
  · simp [State.restartNow]
  · rw [hstream, Stream.restarted, hi]
  · rw [hstream, Stream.restarted, hi]
  · rw [hstream, restarted_live hi]
  · simp [State.restartNow]
  · simp [State.restartNow]
  · simp [State.restartNow]
  · simp [State.restartNow]
  · simp [State.restartNow]
  · simp [State.restartNow, Config.slots]
  · rw [State.choose_cadence, ← State.beforeRestart_active s]
    exact Cadence.start_eq _
  · simp [State.restartNow]
  · cases x <;> simp [State.link, State.restartNow, LinkRx.restarted, LinkRx.reset]
  · rw [State.choose_restartNow]
    exact State.beforeRestart_rate s
  · rw [State.choose_restartNow]
    exact ⟨rfl, rfl, rfl, rfl, rfl, rfl, rfl, rfl, rfl, rfl, rfl, rfl, rfl, rfl⟩

end Sys2Proof.Machine

/-! # Requests: counters read and cleared, records staged -/

namespace Sys2Proof.Machine

/-! ## A request taken and answered -/

/-- A request that may be taken, of the required length, is answered with what its block's effect gives. -/
theorem answers_of_serve {s : State} {f : MgmtFrame} {cmd : Instr} {kind : Byte} {len : Nat}
    {g : List Byte → State → State × Answer} (hcmd : exec cmd s = .next (s.serve kind len g)) (ht : s.Takes f kind len)
    {t : State} {a : Answer} (hg : g f.body (s.beginRequest f) = (t, a)) : s.Answers cmd f t a := by
  obtain ⟨hmay, hhead, hkind, hlen⟩ := ht
  have hnext : s.nextRequest (fun k => decide (k = kind)) = some f := by
    rw [State.nextRequest, if_pos hmay, hhead]
    simp [Option.filter, hkind]
  rw [State.Answers, hcmd, State.serve, hnext]
  simp only [hlen, if_true, hg]

theorem State.beginRequest_link (s : State) (f : MgmtFrame) (x : Path) : (s.beginRequest f).link x = s.link x := by
  cases x <;> simp [State.link]

/-! ## Request parameters (11 R192) -/

theorem streamIdxOf_none {b : Byte} (h : 32 ≤ b.toNat) : streamIdxOf b = none := dif_neg (Nat.not_lt.mpr h)

theorem streamIdxOf_some {b : Byte} {i : StreamIdx} (h : b.toNat = i.val) : streamIdxOf b = some i := by
  have hlt : b.toNat < 32 := h ▸ i.isLt
  rw [streamIdxOf, dif_pos hlt]
  exact congrArg some (Fin.ext h)

/-- A byte above 1 is neither 00h nor 01h. -/
theorem byte_ne_of_one_lt {b : Byte} (h : 1 < b.toNat) : b ≠ 0 ∧ b ≠ 1 :=
  ⟨fun h0 => by rw [h0] at h; exact absurd h (by decide), fun h1 => by rw [h1] at h; exact absurd h (by decide)⟩

theorem flagOf_none {b : Byte} (h : 1 < b.toNat) : flagOf b = none := by
  rw [flagOf, if_neg (byte_ne_of_one_lt h).1, if_neg (byte_ne_of_one_lt h).2]

theorem linkOf_none {b : Byte} (h : 1 < b.toNat) : linkOf b = none := by
  rw [linkOf, if_neg (byte_ne_of_one_lt h).1, if_neg (byte_ne_of_one_lt h).2]

/-! ## Counter blocks (11 R195) -/

theorem bytes16_eq_twoBytes (w : Word) : bytes16 w = twoBytes w.toNat := by
  have hhi : hiByte w = BitVec.ofNat 8 (w.toNat / 256) := by
    apply BitVec.eq_of_toNat_eq
    simp [hiByte, BitVec.extractLsb'_toNat, Nat.shiftRight_eq_div_pow]
  have hlo : loByte w = BitVec.ofNat 8 w.toNat := by
    apply BitVec.eq_of_toNat_eq
    simp [loByte, BitVec.extractLsb'_toNat]
  rw [bytes16, hhi, hlo, twoBytes]

theorem length_bytes16 (w : Word) : (bytes16 w).length = 2 := rfl

theorem length_counterValues (cs : List Counter) : (counterValues cs).length = 2 * cs.length := by
  induction cs with
  | nil => rfl
  | cons c cs ih =>
    rw [counterValues, List.flatMap_cons, List.length_append, length_bytes16, ← counterValues, ih, List.length_cons]
    omega

/-- Counter k stands at the bytes 2k and 2k + 1 of the values, whatever follows them. -/
theorem counterValues_at (cs : List Counter) (k : Nat) (hk : k < cs.length) (rest : List Byte) :
    ((counterValues cs ++ rest).drop (2 * k)).take 2 = twoBytes cs[k].value.toNat := by
  induction cs generalizing k with
  | nil => exact absurd hk (Nat.not_lt_zero k)
  | cons c cs ih =>
    have hcons : counterValues (c :: cs) = bytes16 c.value ++ counterValues cs := rfl
    rw [hcons, List.append_assoc]
    cases k with
    | zero => rw [bytes16_eq_twoBytes]; rfl
    | succ k =>
      have hdrop : (bytes16 c.value ++ (counterValues cs ++ rest)).drop (2 * (k + 1)) =
          (counterValues cs ++ rest).drop (2 * k) := by
        rw [show 2 * (k + 1) = (bytes16 c.value).length + 2 * k from by rw [length_bytes16]; omega, List.drop_append,
          Nat.add_sub_cancel_left, List.drop_eq_nil_of_le (Nat.le_add_right _ _), List.nil_append]
      rw [hdrop]
      exact ih k (Nat.lt_of_succ_lt_succ hk)

/-- Bit j of a mark byte is the j-th mark; the bits beyond the marks are 0. -/
theorem markByte_getLsbD (ms : List Bool) (j : Nat) : (markByte ms).getLsbD j = (decide (j < 8) && ms.getD j false) := by
  induction ms generalizing j with
  | nil => simp [markByte]
  | cons m ms ih =>
    rw [markByte, BitVec.getLsbD_or, BitVec.getLsbD_shiftLeft]
    cases j with
    | zero => cases m <;> rfl
    | succ j =>
      have hcode : (boolCode m).getLsbD (j + 1) = false := by cases m <;> simp [boolCode]
      rw [hcode, Nat.add_sub_cancel, ih, Bool.or_false, List.getD_cons_succ]
      by_cases hj : j + 1 < 8
      · simp [hj, show j < 8 by omega]
      · simp [hj]

/-- The mark of counter k of a set. -/
theorem marks_getD {n : Nat} (cs : Vector Counter n) (k : Fin n) :
    (cs.toList.map Counter.mark).getD k.val false = cs[k].mark := by
  simp [List.getD_eq_getElem?_getD]

theorem length_streamCounterBlock (cs : Vector Counter 24) : (streamCounterBlock cs).length = 51 := by
  simp [streamCounterBlock, length_counterValues]

theorem streamCounterBlock_value (cs : Vector Counter 24) (k : Fin 24) :
    ((streamCounterBlock cs).drop (2 * k.val)).take 2 = twoBytes cs[k].value.toNat := by
  rw [streamCounterBlock, counterValues_at cs.toList k.val (by simp)]
  simp

/-- Eight of the marks from the 8q-th on: the one at k, which lies among them. -/
theorem marks_group_getD (ms : List Bool) {k q : Nat} (hq : k / 8 = q) :
    ((ms.drop (8 * q)).take 8).getD (k % 8) false = ms.getD k false := by
  have hk : 8 * q + k % 8 = k := by omega
  simp [List.getD_eq_getElem?_getD, Nat.mod_lt, hk]

theorem streamCounterBlock_mark (cs : Vector Counter 24) (k : Fin 24) :
    ∃ m, (streamCounterBlock cs)[48 + k.val / 8]? = some m ∧ m.getLsbD (k.val % 8) = cs[k].mark := by
  have hlen : (counterValues cs.toList).length = 48 := by simp [length_counterValues]
  have hlast : ((cs.toList.map Counter.mark).drop 16) = ((cs.toList.map Counter.mark).drop (8 * 2)).take 8 := by
    rw [List.take_of_length_le (by simp)]
  have hbit : ∀ q, k.val / 8 = q →
      (markByte (((cs.toList.map Counter.mark).drop (8 * q)).take 8)).getLsbD (k.val % 8) = cs[k].mark := fun q hq => by
    rw [markByte_getLsbD, marks_group_getD _ hq, marks_getD, decide_eq_true (Nat.mod_lt _ (by decide)), Bool.true_and]
  rw [streamCounterBlock, hlast, ← hlen, List.getElem?_append_right (Nat.le_add_right _ _), Nat.add_sub_cancel_left]
  have hq : k.val / 8 = 0 ∨ k.val / 8 = 1 ∨ k.val / 8 = 2 := by omega
  obtain hq | hq | hq := hq
  · exact ⟨_, by rw [hq]; rfl, hbit 0 hq⟩
  · exact ⟨_, by rw [hq]; rfl, hbit 1 hq⟩
  · exact ⟨_, by rw [hq]; rfl, hbit 2 hq⟩

theorem sixCounterBlock_spec (cs : Vector Counter 6) :
    ∃ m, (sixCounterBlock cs)[12]? = some m ∧ m.getLsbD 6 = false ∧ m.getLsbD 7 = false ∧
      (sixCounterBlock cs).length = 13 ∧ ∀ k : Fin 6,
        ((sixCounterBlock cs).drop (2 * k.val)).take 2 = twoBytes cs[k].value.toNat ∧ m.getLsbD k.val = cs[k].mark := by
  have hlen : (counterValues cs.toList).length = 12 := by simp [length_counterValues]
  have hbeyond : ∀ j, 6 ≤ j → (markByte (cs.toList.map Counter.mark)).getLsbD j = false := fun j hj => by
    rw [markByte_getLsbD, List.getD_eq_default _ _ (by simpa using hj), Bool.and_false]
  refine ⟨markByte (cs.toList.map Counter.mark), ?_, hbeyond 6 (by decide), hbeyond 7 (by decide), ?_, fun k => ⟨?_, ?_⟩⟩
  · rw [sixCounterBlock, List.getElem?_append_right (by rw [hlen]), hlen]; rfl
  · rw [sixCounterBlock, List.length_append, hlen]; rfl
  · rw [sixCounterBlock, counterValues_at cs.toList k.val (by simp)]
    simp
  · rw [markByte_getLsbD, marks_getD, decide_eq_true (by omega), Bool.true_and]

/-! ## The two requests -/

/-- READ_COUNTERS in its order of judgement. -/
theorem readCounters_answers {s : State} {f : MgmtFrame} {b0 b1 : Byte} (ht : s.Takes f 0x03 2) (hbody : f.body = [b0, b1]) :
    (32 ≤ b0.toNat → s.Answers .readCounters f (s.beginRequest f) ⟨.badIndex, [], false⟩) ∧
    (∀ i : StreamIdx, b0.toNat = i.val →
      (1 < b1.toNat → s.Answers .readCounters f (s.beginRequest f) ⟨.badValue 1, [], false⟩) ∧
      (b1 = 0 → s.Answers .readCounters f (s.beginRequest f) ⟨.ok, streamCounterBlock (s.stream i).counters, false⟩) ∧
      (b1 = 1 → s.Answers .readCounters f
        ((s.beginRequest f).setStream i { s.stream i with counters := Vector.replicate 24 ⟨0, false⟩ })
        ⟨.ok, streamCounterBlock (s.stream i).counters, false⟩)) := by
  have hanswer : ∀ {t a}, readCounters [b0, b1] (s.beginRequest f) = (t, a) → s.Answers .readCounters f t a :=
    fun hg => answers_of_serve rfl ht (by rw [hbody]; exact hg)
  have hindex : byteAt [b0, b1] 0 = b0 := rfl
  have hflag : byteAt [b0, b1] 1 = b1 := rfl
  refine ⟨fun h => hanswer ?_, fun i hi => ⟨fun h => hanswer ?_, fun h => hanswer ?_, fun h => hanswer ?_⟩⟩
  · rw [readCounters, hindex, streamIdxOf_none h]; rfl
  all_goals
    rw [readCounters, hindex, streamIdxOf_some hi]
    simp only [hflag]
  · rw [flagOf_none h]; rfl
  · rw [h, ← State.beginRequest_stream s f i]; rfl
  · rw [h, ← State.beginRequest_stream s f i]; rfl

/-- READ_LINK in its order of judgement. -/
theorem readLink_answers {s : State} {f : MgmtFrame} {b0 b1 : Byte} (ht : s.Takes f 0x04 2) (hbody : f.body = [b0, b1]) :
    (1 < b0.toNat → s.Answers .readLink f (s.beginRequest f) ⟨.badIndex, [], false⟩) ∧
    (∀ x : Path, linkOf b0 = some x →
      (1 < b1.toNat → s.Answers .readLink f (s.beginRequest f) ⟨.badValue 1, [], false⟩) ∧
      (b1 = 0 → s.Answers .readLink f (s.beginRequest f) ⟨.ok, linkResult (s.link x), false⟩) ∧
      (b1 = 1 → s.Answers .readLink f
        ((s.beginRequest f).setLink x { s.link x with counters := Vector.replicate 6 ⟨0, false⟩ })
        ⟨.ok, linkResult (s.link x), false⟩)) := by
  have hanswer : ∀ {t a}, readLink [b0, b1] (s.beginRequest f) = (t, a) → s.Answers .readLink f t a :=
    fun hg => answers_of_serve rfl ht (by rw [hbody]; exact hg)
  have hindex : byteAt [b0, b1] 0 = b0 := rfl
  have hflag : byteAt [b0, b1] 1 = b1 := rfl
  refine ⟨fun h => hanswer ?_, fun x hx => ⟨fun h => hanswer ?_, fun h => hanswer ?_, fun h => hanswer ?_⟩⟩
  · rw [readLink, hindex, linkOf_none h]; rfl
  all_goals
    rw [readLink, hindex, hx]
    simp only [hflag]
  · rw [flagOf_none h]; rfl
  · rw [h, ← State.beginRequest_link s f x]; rfl
  · rw [h, ← State.beginRequest_link s f x]; rfl

/-- Settles O45: the two requests by their parameters, and the layouts of the counter blocks and of the READ_LINK result. -/
theorem countersReadAndCleared : Obligations.CountersReadAndCleared := by
  refine ⟨fun s f b0 b1 => ⟨readCounters_answers, fun ht hbody => ?_⟩, fun cs => ⟨length_streamCounterBlock cs,
    fun k => ⟨streamCounterBlock_value cs k, streamCounterBlock_mark cs k⟩⟩, sixCounterBlock_spec, fun l => ?_⟩
  · obtain ⟨hindex, hlink⟩ := readLink_answers ht hbody
    exact ⟨hindex, fun x hx => hlink x (by rw [hx]; cases x <;> rfl)⟩
  · rw [linkResult]
    cases l.state <;> rfl

/-! ## Record checks by field number (01 R2, 08 R143, 11 R193) -/

/-- The checks stand in field-number order from 0 on, and the n-th passes exactly if `P n` holds. -/
def Judges (checks : List (Nat × Bool)) (P : Nat → Prop) : Prop :=
  ∀ (n : Nat) (h : n < checks.length), checks[n].1 = n ∧ (checks[n].2 = true ↔ P n)

theorem firstFailing_eq_some {checks : List (Nat × Bool)} {P : Nat → Prop} (hc : Judges checks P) (n : Nat) :
    firstFailing checks = some n ↔ n < checks.length ∧ ¬ P n ∧ ∀ m, m < n → P m := by
  rw [firstFailing, Option.map_eq_some_iff]
  constructor
  · rintro ⟨p, hp, rfl⟩
    obtain ⟨hfail, i, hi, rfl, hbefore⟩ := List.find?_eq_some_iff_getElem.mp hp
    rw [(hc i hi).1]
    refine ⟨hi, fun hP => ?_, fun m hm => ?_⟩
    · rw [(hc i hi).2.mpr hP] at hfail; cases hfail
    · exact (hc m (hm.trans hi)).2.mp (by simpa using hbefore m hm)
  · rintro ⟨hn, hfail, hbefore⟩
    refine ⟨checks[n], List.find?_eq_some_iff_getElem.mpr ⟨?_, n, hn, rfl, fun m hm => ?_⟩, (hc n hn).1⟩
    · simpa using fun h => hfail ((hc n hn).2.mp h)
    · simpa using (hc m (hm.trans hn)).2.mpr (hbefore m hm)

theorem firstFailing_eq_none {checks : List (Nat × Bool)} {P : Nat → Prop} (hc : Judges checks P) :
    firstFailing checks = none ↔ ∀ m, m < checks.length → P m := by
  rw [firstFailing, Option.map_eq_none_iff, List.find?_eq_none]
  constructor
  · exact fun h m hm => (hc m hm).2.mp (by simpa using h _ (List.getElem_mem hm))
  · intro h p hp
    obtain ⟨m, hm, rfl⟩ := List.getElem_of_mem hp
    simpa using (hc m hm).2.mpr (h m hm)

theorem toNat_word16 (hi lo : Byte) : (word16 hi lo).toNat = hi.toNat * 256 + lo.toNat := by
  rw [word16, BitVec.toNat_append, ← Nat.shiftLeft_add_eq_or_of_lt lo.isLt, Nat.shiftLeft_eq]

theorem toNat_wordAt (b : List Byte) (n : Nat) : (wordAt b n).toNat = (byteAt b n).toNat * 256 + (byteAt b (n + 1)).toNat :=
  toNat_word16 _ _

/-- Each check of a stream record body judges its field by the range 01 R2 gives. -/
theorem streamRecordChecks_judge (b : List Byte) : Judges (streamRecordChecks b) (streamFieldOk b) := by
  intro n h
  have hn : n < 15 := h
  interval_cases n <;> simp [streamRecordChecks, streamFieldOk, inRange, maskByteOk, toNat_wordAt, byteAt, and_assoc]

/-- Each check of a device record body judges its field by the range 08 R143 gives. -/
theorem deviceRecordChecks_judge (b : List Byte) : Judges (deviceRecordChecks b) (deviceFieldOk b) := by
  intro n h
  have hn : n < 4 := h
  interval_cases n <;> simp [deviceRecordChecks, deviceFieldOk, inRange, maskByteOk, toNat_wordAt, byteAt]

/-! ## STAGE_STREAM and STAGE_DEVICE -/

/-- STAGE_STREAM in its order of judgement. -/
theorem stageStream_answers {s : State} {f : MgmtFrame} {b0 : Byte} {body : List Byte} (ht : s.Takes f 0x08 17)
    (hbody : f.body = b0 :: body) :
    (s.session = none → s.Answers .stageStream f (s.beginRequest f) ⟨.noSession, [], false⟩) ∧
    (∀ e, s.session = some e →
      (32 ≤ b0.toNat → s.Answers .stageStream f (s.beginRequest f) ⟨.badIndex, [], false⟩) ∧
      (∀ i : StreamIdx, b0.toNat = i.val →
        (∀ n, firstFailing (streamRecordChecks body) = some n →
          s.Answers .stageStream f (s.beginRequest f) ⟨.badValue n, [], false⟩) ∧
        (firstFailing (streamRecordChecks body) = none →
          (streamRecordOf body).wf = true ∧
          s.Answers .stageStream f
            { s.beginRequest f with session := some ⟨e.staged.setRecord i (streamRecordOf body), e.timer⟩ }
            ⟨.ok, [], false⟩))) := by
  have hanswer : ∀ {t a}, stageStream (b0 :: body) (s.beginRequest f) = (t, a) → s.Answers .stageStream f t a :=
    fun hg => answers_of_serve rfl ht (by rw [hbody]; exact hg)
  have hsession := State.beginRequest_session s f
  have hindex : byteAt (b0 :: body) 0 = b0 := rfl
  refine ⟨fun h => hanswer ?_, fun e he => ⟨fun h => hanswer ?_, fun i hi =>
    ⟨fun n hn => hanswer ?_, fun hpass => ⟨streamRecordOf_wf hpass, hanswer ?_⟩⟩⟩⟩
  · rw [stageStream, hsession, h]; rfl
  · rw [stageStream, hsession, he, hindex, streamIdxOf_none h]; rfl
  · rw [stageStream, hsession, he, hindex, streamIdxOf_some hi]
    simp only [List.drop_succ_cons, List.drop_zero, hn]; rfl
  · rw [stageStream, hsession, he, hindex, streamIdxOf_some hi]
    simp only [List.drop_succ_cons, List.drop_zero, hpass]; rfl

/-- STAGE_DEVICE in its order of judgement. -/
theorem stageDevice_answers {s : State} {f : MgmtFrame} (ht : s.Takes f 0x09 6) :
    (s.session = none → s.Answers .stageDevice f (s.beginRequest f) ⟨.noSession, [], false⟩) ∧
    (∀ e, s.session = some e →
      (∀ n, firstFailing (deviceRecordChecks f.body) = some n →
        s.Answers .stageDevice f (s.beginRequest f) ⟨.badValue n, [], false⟩) ∧
      (firstFailing (deviceRecordChecks f.body) = none →
        (deviceRecordOf f.body).wf = true ∧
        s.Answers .stageDevice f
          { s.beginRequest f with session := some ⟨⟨e.staged.streams, deviceRecordOf f.body⟩, e.timer⟩ }
          ⟨.ok, [], false⟩)) := by
  have hanswer : ∀ {t a}, stageDevice f.body (s.beginRequest f) = (t, a) → s.Answers .stageDevice f t a :=
    fun hg => answers_of_serve rfl ht hg
  have hsession := State.beginRequest_session s f
  refine ⟨fun h => hanswer ?_, fun e he => ⟨fun n hn => hanswer ?_, fun hpass => ⟨deviceRecordOf_wf hpass, hanswer ?_⟩⟩⟩
  · rw [stageDevice, hsession, h]; rfl
  · rw [stageDevice, hsession, he]
    simp only [hn]; rfl
  · rw [stageDevice, hsession, he]
    simp only [hpass]; rfl

/-- Settles O47: the two requests in their orders of judgement, and what number the checks in field-number order answer. -/
theorem stagingAnswered : Obligations.StagingAnswered :=
  ⟨fun _ _ _ _ => stageStream_answers, fun _ _ => stageDevice_answers,
    fun b n => ⟨firstFailing_eq_some (streamRecordChecks_judge b) n, firstFailing_eq_some (deviceRecordChecks_judge b) n⟩,
    fun b => ⟨firstFailing_eq_none (streamRecordChecks_judge b), firstFailing_eq_none (deviceRecordChecks_judge b)⟩⟩

end Sys2Proof.Machine

/-! # The cross-record checks of a commit -/

namespace Sys2Proof.Machine

/-! ## A stream's class after a commit -/

/-- Whether a stream would be OFF, or would stay DRAINING, and the record it would have, by its state before. -/
theorem classAfter_off {s : State} {new : ConfigSet} {i : StreamIdx} (hs : (s.stream i).state = .off) :
    s.offAfter new i = !(new.record i).enable ∧ s.staysDraining new i = false ∧ s.recordAfter new i = new.record i := by
  cases he : (new.record i).enable <;>
    simp [State.offAfter, State.staysDraining, State.recordAfter, State.change, hs, changeOf, he]

theorem classAfter_draining {s : State} {new : ConfigSet} {i : StreamIdx} (hs : (s.stream i).state = .draining) :
    s.offAfter new i = (!(new.record i).enable && decide ((new.record i).stopMode = .cut)) ∧
    s.staysDraining new i = (!(new.record i).enable && decide ((new.record i).stopMode = .drain)) ∧
    (s.offAfter new i = false → s.recordAfter new i = if (new.record i).enable then new.record i else s.inForce i) := by
  cases he : (new.record i).enable <;> cases hm : (new.record i).stopMode <;>
    simp [State.offAfter, State.staysDraining, State.recordAfter, State.change, hs, changeOf, he, hm]

theorem classAfter_live {s : State} {new : ConfigSet} {i : StreamIdx} (hs : (s.stream i).state.live = true) :
    s.offAfter new i = (!(new.record i).enable && decide ((new.record i).stopMode = .cut)) ∧
    s.staysDraining new i = false ∧
    (s.offAfter new i = false → s.recordAfter new i = if (new.record i).enable then new.record i else s.active.record i) := by
  have hchange : s.change new i = liveChange (s.active.record i) (new.record i) := changeOf_live hs _ _
  cases he : (new.record i).enable with
  | false =>
    cases hm : (new.record i).stopMode <;>
      simp [State.offAfter, State.staysDraining, State.recordAfter, hchange, liveChange, he, hm]
  | true =>
    have hkinds : s.change new i = .keep ∨ s.change new i = .inPlace ∨ s.change new i = .renew .reconfigured := by
      rw [hchange, liveChange, if_pos he]
      split
      · exact .inr (.inr rfl)
      · split
        · exact .inl rfl
        · exact .inr (.inl rfl)
    obtain h | h | h := hkinds <;> simp [State.offAfter, State.staysDraining, State.recordAfter, h]

/-- A state is OFF, DRAINING or live. -/
theorem StreamState.off_draining_or_live (st : StreamState) : st = .off ∨ st = .draining ∨ st.live = true := by
  cases st <;> simp [StreamState.live]

/-- A stream would stay DRAINING exactly as 08 R149 says. -/
theorem staysDraining_iff (s : State) (new : ConfigSet) (i : StreamIdx) :
    s.staysDraining new i = true ↔ s.staysInDrain new i := by
  obtain hs | hs | hs := (s.stream i).state.off_draining_or_live
  · simp [State.staysInDrain, (classAfter_off (new := new) hs).2.1, hs]
  · simp [State.staysInDrain, (classAfter_draining (new := new) hs).2.1, hs]
  · simp [State.staysInDrain, (classAfter_live (new := new) hs).2.1, (live_ne hs).2]

/-- A stream would be OFF exactly if its staged ENABLE is 0 and it neither enters DRAINING nor stays there. -/
theorem offAfter_iff (s : State) (new : ConfigSet) (i : StreamIdx) :
    s.offAfter new i = true ↔ (new.record i).enable = false ∧ ¬ s.entersDrain new i ∧ ¬ s.staysInDrain new i := by
  have hmode : (new.record i).stopMode = .cut ↔ ¬ (new.record i).stopMode = .drain := by
    cases (new.record i).stopMode <;> simp
  obtain hs | hs | hs := (s.stream i).state.off_draining_or_live
  · simp [State.entersDrain, State.staysInDrain, (classAfter_off (new := new) hs).1, hs, StreamState.live]
  · rw [(classAfter_draining hs).1]
    cases he : (new.record i).enable <;> simp [State.entersDrain, State.staysInDrain, hs, StreamState.live, he, hmode]
  · rw [(classAfter_live hs).1]
    cases he : (new.record i).enable <;> simp [State.entersDrain, State.staysInDrain, hs, (live_ne hs).2, he, hmode]

/-- A stream that would not be OFF has, for the checks, the record that judges it. -/
theorem recordAfter_eq_judged {s : State} {new : ConfigSet} {i : StreamIdx} (h : s.offAfter new i = false) :
    s.recordAfter new i = s.judgedRecord new i := by
  obtain hs | hs | hs := (s.stream i).state.off_draining_or_live
  · obtain ⟨hoff, _, hrec⟩ := classAfter_off (new := new) hs
    have he : (new.record i).enable = true := by simpa [h] using hoff
    rw [hrec, State.judgedRecord, if_pos he]
  · rw [(classAfter_draining hs).2.2 h]
    simp only [State.judgedRecord, State.inForce, hs, if_true]
  · rw [(classAfter_live hs).2.2 h]
    simp only [State.judgedRecord, (live_ne hs).2, if_false]

/-- The streams TAG_DUPLICATE judges: those with staged ENABLE 1 or entering DRAINING. -/
theorem judged_iff (s : State) (new : ConfigSet) (i : StreamIdx) :
    (!s.offAfter new i && !s.staysDraining new i) = true ↔ (new.record i).enable = true ∨ s.entersDrain new i := by
  have hoff := offAfter_iff s new i
  have hstays := staysDraining_iff s new i
  have hclash : s.staysInDrain new i → ¬ s.entersDrain new i := fun ⟨hdrain, _⟩ ⟨hlive, _⟩ => (live_ne hlive).2 hdrain
  have henable : s.staysInDrain new i → (new.record i).enable = false := fun ⟨_, he, _⟩ => he
  rw [Bool.and_eq_true, Bool.not_eq_true', Bool.not_eq_true', ← Bool.not_eq_true, ← Bool.not_eq_true, hoff, hstays]
  generalize s.staysInDrain new i = stays at *
  generalize s.entersDrain new i = enters at *
  generalize (new.record i).enable = on at *
  cases on <;> simp at * <;> tauto

/-! ## TAG_DUPLICATE -/

/-- The stream that the duplicate check names is the first whose tag was seen or stands earlier in the list. -/
theorem firstDuplicate_eq_some {l : List StreamIdx} {t : StreamIdx → Byte} (hl : l.Pairwise (· < ·)) (seen : List Byte)
    (i : StreamIdx) :
    firstDuplicate (l.map fun j => (j, t j)) seen = some i ↔
      (i ∈ l ∧ (t i ∈ seen ∨ ∃ j ∈ l, j < i ∧ t j = t i)) ∧
      ∀ k ∈ l, k < i → ¬ (t k ∈ seen ∨ ∃ j ∈ l, j < k ∧ t j = t k) := by
  induction l generalizing seen with
  | nil => simp [firstDuplicate]
  | cons a l ih =>
    obtain ⟨ha, hl'⟩ := List.pairwise_cons.mp hl
    rw [List.map_cons, firstDuplicate]
    split
    · next hseen =>
      constructor
      · rintro h
        obtain rfl := Option.some.inj h
        refine ⟨⟨List.mem_cons_self, .inl hseen⟩, fun k hk hka => ?_⟩
        obtain rfl | hk := List.mem_cons.mp hk
        · exact absurd hka (lt_irrefl _)
        · exact absurd hka (ha k hk).not_gt
      · rintro ⟨⟨hi, _⟩, hfirst⟩
        obtain rfl | hi := List.mem_cons.mp hi
        · rfl
        · exact absurd (.inl hseen) (hfirst a List.mem_cons_self (ha i hi))
    · next hseen =>
      rw [ih hl']
      have hmove : ∀ k ∈ l, (t k ∈ t a :: seen ∨ ∃ j ∈ l, j < k ∧ t j = t k) ↔
          (t k ∈ seen ∨ ∃ j ∈ a :: l, j < k ∧ t j = t k) := fun k hk => by
        have hak := ha k hk
        simp only [List.mem_cons, exists_eq_or_imp, hak, true_and, eq_comm (a := t a)]
        tauto
      have hnot : ¬ (t a ∈ seen ∨ ∃ j ∈ a :: l, j < a ∧ t j = t a) := by
        rintro (h | ⟨j, hj, hja, _⟩)
        · exact hseen h
        · obtain rfl | hj := List.mem_cons.mp hj
          · exact lt_irrefl _ hja
          · exact hja.not_gt (ha j hj)
      constructor
      · rintro ⟨⟨hi, hdup⟩, hfirst⟩
        refine ⟨⟨List.mem_cons_of_mem a hi, (hmove i hi).mp hdup⟩, fun k hk hki => ?_⟩
        obtain rfl | hk := List.mem_cons.mp hk
        · exact hnot
        · exact fun h => hfirst k hk hki ((hmove k hk).mpr h)
      · rintro ⟨⟨hi, hdup⟩, hfirst⟩
        obtain rfl | hi := List.mem_cons.mp hi
        · exact absurd hdup hnot
        · exact ⟨⟨hi, (hmove i hi).mpr hdup⟩, fun k hk hki h =>
            hfirst k (List.mem_cons_of_mem a hk) hki ((hmove k hk).mp h)⟩

theorem tagDuplicate_eq_some (s : State) (new : ConfigSet) (i : StreamIdx) :
    s.tagDuplicate new = some i ↔ s.duplicates new i ∧ ∀ j, j < i → ¬ s.duplicates new j := by
  let judged := (List.finRange 32).filter fun j => !s.offAfter new j && !s.staysDraining new j
  have hmem : ∀ j, j ∈ judged ↔ (new.record j).enable = true ∨ s.entersDrain new j := fun j => by
    rw [List.mem_filter, judged_iff]; simp
  have htag : ∀ j ∈ judged, (s.recordAfter new j).tag = (s.judgedRecord new j).tag := fun j hj => by
    rw [recordAfter_eq_judged]
    have := (List.mem_filter.mp hj).2
    simp only [Bool.and_eq_true, Bool.not_eq_true'] at this
    exact this.1
  have hdup : ∀ k, s.duplicates new k ↔ k ∈ judged ∧ ∃ j ∈ judged, j < k ∧
      (s.recordAfter new j).tag = (s.recordAfter new k).tag := fun k => by
    rw [State.duplicates, ← hmem]
    refine and_congr_right fun hk => exists_congr fun j => ?_
    rw [← hmem, and_left_comm]
    refine and_congr_right fun hj => ?_
    rw [htag j hj, htag k hk]
  have hsorted : judged.Pairwise (· < ·) := (List.pairwise_lt_finRange 32).sublist List.filter_sublist
  rw [State.tagDuplicate, firstDuplicate_eq_some hsorted []]
  simp only [List.not_mem_nil, false_or, hdup]
  exact and_congr_right fun _ => forall_congr' fun k =>
    ⟨fun h hki ⟨hk, hd⟩ => h hk hki hd, fun h hk hki hd => h hki ⟨hk, hd⟩⟩

/-! ## TAG_BUSY -/

theorem tagBusy_eq_some (s : State) (new : ConfigSet) (i : StreamIdx) :
    s.tagBusy new = some i ↔ s.findsBusy new i ∧ ∀ j, j < i → ¬ s.findsBusy new j := by
  have hbusy : ∀ k, ((new.record k).enable && decide ((new.record k).tag ∈
      ((List.finRange 32).filter fun j => s.staysDraining new j).map fun j => (s.recordAfter new j).tag)) = true ↔
      s.findsBusy new k := fun k => by
    rw [Bool.and_eq_true, decide_eq_true_eq, List.mem_map, State.findsBusy]
    refine and_congr_right fun _ => exists_congr fun j => ?_
    rw [List.mem_filter, staysDraining_iff]
    simp only [List.mem_finRange, true_and]
    refine and_congr_right fun hstays => ?_
    have hoff : s.offAfter new j = false := Bool.eq_false_iff.mpr fun h => ((offAfter_iff s new j).mp h).2.2 hstays
    rw [recordAfter_eq_judged hoff]
  rw [State.tagBusy, ← Fin.find?_eq_find?_finRange, Fin.find?_eq_some_iff]
  simp only [← hbusy, Bool.not_eq_true]

/-! ## The order of the checks -/

/-- A check that names the first stream of a kind names none exactly if there is none. -/
theorem first_eq_none {o : Option StreamIdx} {P : StreamIdx → Prop} (h : ∀ i, o = some i ↔ P i ∧ ∀ j, j < i → ¬ P j) :
    o = none ↔ ∀ j, ¬ P j := by
  constructor
  · intro hnone j hj
    obtain ⟨i, hi, hmin⟩ := WellFounded.has_min (wellFounded_lt (α := StreamIdx)) {k | P k} ⟨j, hj⟩
    have hsome := (h i).mpr ⟨hi, fun k hk hP => hmin k hP hk⟩
    rw [hnone] at hsome
    cases hsome
  · intro hno
    cases ho : o with
    | none => rfl
    | some i => exact absurd ((h i).mp ho).1 (hno i)

theorem crossCheck_eq_tagDuplicate (s : State) (new : ConfigSet) (i : StreamIdx) :
    s.crossCheck new = some (.tagDuplicate, i) ↔ s.tagDuplicate new = some i := by
  unfold State.crossCheck
  cases s.tagDuplicate new with
  | some j => simp
  | none => cases s.tagBusy new <;> simp

theorem crossCheck_eq_tagBusy (s : State) (new : ConfigSet) (i : StreamIdx) :
    s.crossCheck new = some (.tagBusy, i) ↔ s.tagDuplicate new = none ∧ s.tagBusy new = some i := by
  unfold State.crossCheck
  cases s.tagDuplicate new with
  | some j => simp
  | none => cases s.tagBusy new <;> simp

theorem crossCheck_eq_budget (s : State) (new : ConfigSet) (i : StreamIdx) :
    s.crossCheck new = some (.budget, i) ↔ s.tagDuplicate new = none ∧ s.tagBusy new = none ∧ s.overBudget new = some i := by
  unfold State.crossCheck
  cases s.tagDuplicate new with
  | some j => simp
  | none => cases s.tagBusy new <;> simp

/-! ## BUDGET -/

/-- No stream is named exactly if the whole total stays within the store. -/
theorem firstOver_eq_none {l : List (StreamIdx × Nat)} {n : Nat} (hn : n ≤ Config.slots) :
    firstOver l n = none ↔ n + (l.map Prod.snd).sum ≤ Config.slots := by
  induction l generalizing n with
  | nil => simpa [firstOver] using hn
  | cons p l ih =>
    obtain ⟨i, m⟩ := p
    rw [firstOver, List.map_cons, List.sum_cons]
    split
    · next hover => exact iff_of_false (Option.some_ne_none i) (by omega)
    · next hfits => rw [ih (Nat.not_lt.mp hfits), Nat.add_assoc]

/-- The stream named is the one at which the running total, in ascending index, first exceeds the store. -/
theorem firstOver_eq_some {l : List StreamIdx} {f : StreamIdx → Nat} (hl : l.Pairwise (· < ·)) {n : Nat} (hn : n ≤ Config.slots)
    {i : StreamIdx} (h : firstOver (l.map fun j => (j, f j)) n = some i) :
    n + ((l.filter fun j => decide (j < i)).map f).sum ≤ Config.slots ∧
    Config.slots < n + ((l.filter fun j => decide (j ≤ i)).map f).sum := by
  induction l generalizing n with
  | nil => cases h
  | cons a l ih =>
    obtain ⟨ha, hl'⟩ := List.pairwise_cons.mp hl
    rw [List.map_cons, firstOver] at h
    split at h
    · next hover =>
      obtain rfl := Option.some.inj h
      have hnone : (l.filter fun j => decide (j < a)) = [] := by
        simpa using fun j hj => (ha j hj).le
      refine ⟨?_, ?_⟩
      · simpa [hnone] using hn
      · simp only [List.filter_cons, le_refl, decide_true, if_true, List.map_cons, List.sum_cons]
        omega
    · next hfits =>
      obtain ⟨hbelow, hover⟩ := ih hl' (Nat.not_lt.mp hfits) h
      have hai : a < i := by
        by_contra hia
        have hnone : (l.filter fun j => decide (j ≤ i)) = [] := by
          simpa using fun j hj => (not_lt.mp hia).trans_lt (ha j hj)
        rw [hnone] at hover
        exact hfits (by simpa using hover)
      simp only [List.filter_cons, hai, hai.le, decide_true, if_true, List.map_cons, List.sum_cons]
      omega

/-- The needs of the streams that would not be OFF, summed over a list, are the needs of all its streams. -/
theorem sum_need {s : State} {new : ConfigSet} {need : StreamIdx → Nat}
    (h : ∀ j, need j = if s.offAfter new j = true then 0 else (s.recordAfter new j).window + (s.recordAfter new j).trim)
    (l : List StreamIdx) :
    ((l.filter fun j => !s.offAfter new j).map fun j => (s.recordAfter new j).window + (s.recordAfter new j).trim).sum =
      (l.map need).sum := by
  rw [sum_filter]
  refine congrArg List.sum (List.map_congr_left fun j _ => ?_)
  rw [h]
  cases s.offAfter new j <;> rfl

theorem overBudget_eq_none {s : State} {new : ConfigSet} {need : StreamIdx → Nat}
    (h : ∀ j, need j = if s.offAfter new j = true then 0 else (s.recordAfter new j).window + (s.recordAfter new j).trim) :
    s.overBudget new = none ↔ ((List.finRange 32).map need).sum ≤ 512 := by
  rw [State.overBudget, firstOver_eq_none (Nat.zero_le _), List.map_map, Nat.zero_add, ← sum_need h]
  rfl

theorem overBudget_eq_some {s : State} {new : ConfigSet} {need : StreamIdx → Nat}
    (h : ∀ j, need j = if s.offAfter new j = true then 0 else (s.recordAfter new j).window + (s.recordAfter new j).trim)
    {i : StreamIdx} (hi : s.overBudget new = some i) :
    (((List.finRange 32).filter fun j => decide (j < i)).map need).sum ≤ 512 ∧
    512 < (((List.finRange 32).filter fun j => decide (j ≤ i)).map need).sum := by
  have hsorted := (List.pairwise_lt_finRange 32).sublist (List.filter_sublist (p := fun j => !s.offAfter new j))
  have hover := firstOver_eq_some hsorted (Nat.zero_le _) hi
  rw [List.filter_comm, List.filter_comm (fun j => decide (j ≤ i)), sum_need h, sum_need h, Nat.zero_add, Nat.zero_add] at hover
  exact hover

/-- Settles O51: each check by its own lemma, in the order of 08 R147; distinct tags by `tags_distinct`. -/
theorem crossChecks : Obligations.CrossChecks := by
  refine ⟨fun s new i => ⟨?_, ?_, ?_, offAfter_iff s new i, recordAfter_eq_judged⟩,
    fun s new need hneed => ⟨overBudget_eq_none hneed, fun i => overBudget_eq_some hneed⟩,
    fun s new i j hm ht hcheck hij => tags_distinct ht hm hcheck hij⟩
  · rw [crossCheck_eq_tagDuplicate, tagDuplicate_eq_some]
  · rw [crossCheck_eq_tagBusy, first_eq_none (tagDuplicate_eq_some s new), tagBusy_eq_some]
  · rw [crossCheck_eq_budget, first_eq_none (tagDuplicate_eq_some s new), first_eq_none (tagBusy_eq_some s new)]

end Sys2Proof.Machine

/-! # What a commit does to each stream -/

namespace Sys2Proof.Machine

/-! ## How often each counter advances -/

/-- From a to b, counter k has advanced n k times. -/
def Tally (a b : Vector Counter 24) (n : Fin 24 → Nat) : Prop := ∀ k : Fin 24, b[k] = Counter.bump^[n k] a[k]

theorem Tally.refl (a : Vector Counter 24) : Tally a a 0 := fun _ => rfl

theorem Tally.trans {a b c : Vector Counter 24} {m n : Fin 24 → Nat} (h : Tally a b m) (h' : Tally b c n) :
    Tally a c (m + n) := fun k => by
  rw [h' k, h k, Pi.add_apply, Nat.add_comm, Function.iterate_add_apply]

theorem Tally.congr {a b : Vector Counter 24} {m n : Fin 24 → Nat} (h : Tally a b m) (hn : m = n) : Tally a b n := hn ▸ h

/-- The advances of a tally, listed counter by counter. -/
theorem Tally.countsBy {a b : Vector Counter 24} {n : Fin 24 → Nat} (h : Tally a b n) {ks : List (Fin 24 × Nat)}
    (hks : ∀ p ∈ ks, n p.1 = p.2) (hrest : ∀ k, k ∉ ks.map Prod.fst → n k = 0) : CountsBy a b ks :=
  ⟨fun p hp => by rw [h p.1, hks p hp], fun k hk => by rw [h k, hrest k hk]; rfl⟩

/-- One counter alone advances. -/
theorem Tally.countsBy_single {a b : Vector Counter 24} {k : Fin 24} {n : Nat} (h : Tally a b (Pi.single k n)) :
    CountsBy a b [(k, n)] := by
  refine h.countsBy (by simp) fun j hj => ?_
  rw [Pi.single_eq_of_ne]
  simpa using hj

namespace Ctx

theorem count_tally (c : Ctx) (k : Fin 24) : Tally c.s.counters (c.count k).s.counters (Pi.single k 1) := fun j => by
  rw [count_s_counters]
  by_cases hj : j = k
  · subst hj; simp
  · have hne : k.val ≠ j.val := fun h => hj (Fin.ext h.symm)
    simp [Pi.single_eq_of_ne hj, Vector.getElem_set_ne _ _ hne]

theorem countN_tally (c : Ctx) (k : Fin 24) (n : Nat) : Tally c.s.counters (c.countN k n).s.counters (Pi.single k n) := by
  induction n generalizing c with
  | zero => exact (Tally.refl _).congr (Pi.single_zero k).symm
  | succ n ih => exact ((c.count_tally k).trans (ih (c.count k))).congr (by rw [← Pi.single_add, Nat.add_comm])

/-- A dropped head counts TRIMMED. -/
theorem dropHead_tally {c : Ctx} (h : c.s.queue ≠ []) :
    Tally c.s.counters c.dropHead.s.counters (Pi.single ctrTrimmed 1) := by
  unfold dropHead
  split
  · next hq => exact absurd hq h
  · next e rest _ => exact count_tally ({ c with s := { c.s with queue := rest } }.giveSlots e.slots) ctrTrimmed

theorem dropHeads_tally (n : Nat) {c : Ctx} (h : n ≤ c.s.queue.length) :
    Tally c.s.counters (c.dropHeads n).s.counters (Pi.single ctrTrimmed n) := by
  induction n generalizing c with
  | zero => exact (Tally.refl _).congr (Pi.single_zero _).symm
  | succ n ih =>
    have hq : c.s.queue ≠ [] := fun h0 => by rw [h0] at h; simp at h
    have hrest : n ≤ c.dropHead.s.queue.length := by rw [dropHead_queue, List.length_tail]; omega
    exact ((dropHead_tally hq).trans (ih hrest)).congr (by rw [← Pi.single_add, Nat.add_comm])

/-- The flush of a context counts FLUSHED for each window entry and each queue entry. -/
theorem flush_tally (c : Ctx) : Tally c.s.counters c.flushWindow.flushQueue.freeAcq.freeJump.s.counters
    (Pi.single ctrFlushed (c.s.window.length + c.s.queue.length)) := by
  have hqueue : c.flushWindow.s.queue = c.s.queue := by simp [flushWindow]
  have hw : Tally c.s.counters c.flushWindow.s.counters (Pi.single ctrFlushed c.s.window.length) := countN_tally _ _ _
  have hq : Tally c.flushWindow.s.counters c.flushWindow.flushQueue.s.counters (Pi.single ctrFlushed c.s.queue.length) := by
    rw [← hqueue]; exact countN_tally _ _ _
  rw [freeJump_s_counters, freeAcq_s_counters]
  exact (hw.trans hq).congr (Pi.single_add _ _ _).symm

end Ctx

/-! ## STREAM_STATE notices -/

/-- Whether a notice is a STREAM_STATE notice about stream i. -/
def Notice.isState (i : StreamIdx) : Notice → Bool
  | .streamState j _ _ => decide (j = i)
  | _ => false

/-- The STREAM_STATE notices about stream i that a context has created. -/
def Ctx.stateNotes (c : Ctx) (i : StreamIdx) : List Notice := c.notes.filter (Notice.isState i)

namespace Ctx

theorem stateNotes_of_notes {c d : Ctx} (h : d.notes = c.notes) (i : StreamIdx) : d.stateNotes i = c.stateNotes i := by
  unfold stateNotes; rw [h]

@[simp] theorem count_stateNotes (c : Ctx) (k : Fin 24) (i : StreamIdx) : (c.count k).stateNotes i = c.stateNotes i := by
  unfold stateNotes
  rw [count_eq, List.filter_append]
  split <;> simp [Notice.isState]

@[simp] theorem countN_stateNotes (c : Ctx) (k : Fin 24) (n : Nat) (i : StreamIdx) :
    (c.countN k n).stateNotes i = c.stateNotes i := by
  induction n generalizing c with
  | zero => rfl
  | succ n ih => exact (ih _).trans (count_stateNotes c k i)

@[simp] theorem dropHead_stateNotes (c : Ctx) (i : StreamIdx) : c.dropHead.stateNotes i = c.stateNotes i := by
  unfold dropHead
  split
  · rfl
  · rw [count_stateNotes]; rfl

theorem dropHeads_stateNotes (n : Nat) (c : Ctx) (i : StreamIdx) : (c.dropHeads n).stateNotes i = c.stateNotes i := by
  induction n generalizing c with
  | zero => rfl
  | succ n ih => exact (ih _).trans (dropHead_stateNotes c i)

theorem flush_stateNotes (c : Ctx) (i : StreamIdx) :
    c.flushWindow.flushQueue.freeAcq.freeJump.stateNotes i = c.stateNotes i := by
  have hq : c.flushWindow.flushQueue.stateNotes i = c.flushWindow.stateNotes i := countN_stateNotes _ _ _ i
  have hw : c.flushWindow.stateNotes i = c.stateNotes i := countN_stateNotes _ _ _ i
  rw [stateNotes_of_notes (freeJump_notes _), stateNotes_of_notes (freeAcq_notes _), hq, hw]

theorem forwardOne_stateNotes (c : Ctx) (i : StreamIdx) : c.forwardOne.stateNotes i = c.stateNotes i := by
  unfold forwardOne
  split
  · rfl
  · split <;> (rw [count_stateNotes]; rfl)

theorem forward_stateNotes (n : Nat) (c : Ctx) (i : StreamIdx) : (c.forward n).stateNotes i = c.stateNotes i := by
  induction n generalizing c with
  | zero => rfl
  | succ n ih => exact (ih _).trans (forwardOne_stateNotes c i)

/-- A STREAM_STATE notice is created under the mask, about the context's own stream. -/
theorem noteState_stateNotes (c : Ctx) (cause : Cause) (i : StreamIdx) : (c.noteState cause).stateNotes i =
    c.stateNotes i ++
      if c.idx = i ∧ c.cfg.noticeMask.streamState = true then [.streamState i c.s.state cause] else [] := by
  unfold stateNotes noteState
  rw [note_eq, List.filter_append]
  by_cases hi : c.idx = i
  · subst hi; cases c.cfg.noticeMask.streamState <;> simp [Notice.isState]
  · cases c.cfg.noticeMask.streamState <;> simp [Notice.isState, hi]

end Ctx

/-! ## The drain entry -/

theorem take_append_take {α : Type} (l m : List α) (n : Nat) : (l ++ m.take n).take n = (l ++ m).take n := by
  simp [List.take_append, List.take_take]

/-- The entries of a stream are those of its window. -/
theorem Stream.entryAt_congr {a b : Stream} {p : Seq} (h : b.heldAt p = a.heldAt p) : b.entryAt none p = a.entryAt none p := by
  unfold Stream.entryAt; rw [h]

theorem Stream.entriesFrom_congr {a b : Stream} (h : b.window = a.window) (e : Seq) (n : Nat) :
    b.entriesFrom none e n = a.entriesFrom none e n :=
  List.map_congr_left fun _ _ => Stream.entryAt_congr (by unfold Stream.heldAt; rw [h])

theorem Stream.length_entriesFrom (a : Stream) (f : Option Frame) (e : Seq) (n : Nat) : (a.entriesFrom f e n).length = n := by
  simp [Stream.entriesFrom]

theorem seq_add_succ (e : Seq) (m : Nat) : e + BitVec.ofNat 12 (m + 1) = e + 1 + BitVec.ofNat 12 m := by
  rw [Nat.add_comm m 1, BitVec.ofNat_add, ← BitVec.add_assoc]; rfl

/-- The 4095 positions after e are not e. -/
theorem seq_add_succ_ne (e : Seq) {m : Nat} (hm : m < 4095) : e + 1 + BitVec.ofNat 12 m ≠ e := by
  rw [← seq_add_succ]
  intro h
  have hval := congrArg BitVec.toNat h
  have he := e.isLt
  simp only [BitVec.toNat_add, BitVec.toNat_ofNat] at hval
  omega

/-- The entries from e: the one at e, then those from e + 1. -/
theorem Stream.entriesFrom_succ (a : Stream) (e : Seq) (n : Nat) :
    a.entriesFrom none e (n + 1) = a.entryAt none e :: a.entriesFrom none (e + 1) n := by
  simp only [Stream.entriesFrom, List.range_succ_eq_map, List.map_cons, List.map_map, Function.comp_def, Nat.succ_eq_add_one,
    seq_add_succ]
  simp

/-- A position's frame leaving the window leaves the other positions' frames. -/
theorem heldAt_removeHeld {c : Ctx} {e p : Seq} (h : p ≠ e) : (c.removeHeld e).s.heldAt p = c.s.heldAt p := by
  unfold Stream.heldAt
  rw [Ctx.removeHeld_s_window, List.find?_filter]
  refine congrArg (fun q => List.find? q c.s.window) (funext fun w => ?_)
  by_cases hw : w.seq = p
  · simp [hw, h]
  · simp [hw]

/-- The entries of fewer than 4096 positions after e are the same without e's frame. -/
theorem entriesFrom_removeHeld (c : Ctx) (e : Seq) {n : Nat} (hn : n < 4096) :
    (c.removeHeld e).s.entriesFrom none (e + 1) n = c.s.entriesFrom none (e + 1) n := by
  refine List.map_congr_left fun m hm => Stream.entryAt_congr (heldAt_removeHeld (seq_add_succ_ne e ?_))
  have := List.mem_range.mp hm
  omega

/-- One position of drain forwarding: its entry joins the queue, and E passes it. -/
theorem Ctx.forwardOne_s {c : Ctx} {e : Seq} (hb : c.s.base = some e) : c.forwardOne.s = { c.s with
    base := some (e + 1), window := c.forwardOne.s.window, history := ((c.s.entryAt none e).passed :: c.s.history).take 64
    queue := c.s.queue ++ [c.s.entryAt none e], counters := c.forwardOne.s.counters } := by
  unfold Ctx.forwardOne Stream.entryAt
  simp only [hb, Option.filter_none]
  cases c.s.heldAt e with
  | none => simp only [count_eq]; simp [Ctx.advance, Ctx.append, QueueEntry.passed, hb, Config.historyDepth]
  | some w => simp only [count_eq]; simp [Ctx.advance, Ctx.append, Ctx.removeHeld, QueueEntry.passed, hb, Config.historyDepth]

/-- A held position counts RELEASED, a missing one SUBST_PUSH. -/
theorem Ctx.forwardOne_tally {c : Ctx} {e : Seq} (hb : c.s.base = some e) :
    Tally c.s.counters c.forwardOne.s.counters
      (Pi.single ctrReleased (c.s.entryAt none e).slots + Pi.single ctrSubstPush (1 - (c.s.entryAt none e).slots)) := by
  unfold Ctx.forwardOne Stream.entryAt
  simp only [hb, Option.filter_none]
  cases c.s.heldAt e with
  | none => exact (count_tally ((c.append (.subst e)).advance .substituted) _).congr (by simp)
  | some w => exact (count_tally (((c.removeHeld e).append (.real e w.q w.words)).advance .real) _).congr (by simp)

/-- The entries that the positions after e give are the same once e is forwarded. -/
theorem Ctx.entriesFrom_forwardOne {c : Ctx} {e : Seq} (hb : c.s.base = some e) {n : Nat} (hn : n < 4096) :
    c.forwardOne.s.entriesFrom none (e + 1) n = c.s.entriesFrom none (e + 1) n := by
  unfold Ctx.forwardOne
  simp only [hb]
  cases c.s.heldAt e with
  | none => exact Stream.entriesFrom_congr (by simp) _ _
  | some w => exact (Stream.entriesFrom_congr (a := (c.removeHeld e).s) (by simp) _ _).trans (entriesFrom_removeHeld c e hn)

theorem Ctx.forward_s (n : Nat) {c : Ctx} {e : Seq} (hb : c.s.base = some e) (hn : n ≤ 4096) (hh : c.s.history.length ≤ 64) :
    (c.forward n).s = { c.s with
      base := some (e + BitVec.ofNat 12 n), window := (c.forward n).s.window
      history := (((c.s.entriesFrom none e n).map QueueEntry.passed).reverse ++ c.s.history).take 64
      queue := c.s.queue ++ c.s.entriesFrom none e n, counters := (c.forward n).s.counters } := by
  induction n generalizing c e with
  | zero =>
    simp only [Ctx.forward, Stream.entriesFrom, List.range_zero, List.map_nil, List.reverse_nil, List.nil_append,
      List.append_nil, List.take_of_length_le hh]
    rw [show e + BitVec.ofNat 12 0 = e by simp, ← hb]
  | succ n ih =>
    have hone := c.forwardOne_s hb
    have hbase : c.forwardOne.s.base = some (e + 1) := by rw [hone]
    have hhist : c.forwardOne.s.history.length ≤ 64 := by rw [hone]; exact List.length_take_le _ _
    have hrest := ih hbase (by omega) hhist
    rw [c.entriesFrom_forwardOne hb (by omega)] at hrest
    rw [Ctx.forward, hrest, hone, ← seq_add_succ]
    simp only [Stream.entriesFrom_succ, List.map_cons, List.reverse_cons, List.append_assoc, List.singleton_append,
      take_append_take]

theorem Ctx.forward_tally (n : Nat) {c : Ctx} {e : Seq} (hb : c.s.base = some e) (hn : n ≤ 4096) :
    Tally c.s.counters (c.forward n).s.counters
      (Pi.single ctrReleased (queueSlots (c.s.entriesFrom none e n)) +
        Pi.single ctrSubstPush (n - queueSlots (c.s.entriesFrom none e n))) := by
  induction n generalizing c e with
  | zero => exact (Tally.refl _).congr (by simp [Stream.entriesFrom])
  | succ n ih =>
    have hbase : c.forwardOne.s.base = some (e + 1) := by rw [c.forwardOne_s hb]
    have hrest := ih hbase (by omega)
    rw [c.entriesFrom_forwardOne hb (by omega)] at hrest
    refine ((c.forwardOne_tally hb).trans hrest).congr ?_
    rw [Stream.entriesFrom_succ, queueSlots_cons]
    have hle : queueSlots (c.s.entriesFrom none (e + 1) n) ≤ n :=
      (queueSlots_le _).trans_eq (Stream.length_entriesFrom _ _ _ _)
    have hslots : (c.s.entryAt none e).slots ≤ 1 := by cases c.s.entryAt none e <;> simp
    rw [add_add_add_comm, ← Pi.single_add, ← Pi.single_add]
    congr 2
    omega

/-! ## The start of a drain -/

/-- The base from which a stream is drained: its own, or its candidate's sequence number, or 0 (08 R151). -/
def Stream.drainStart (a : Stream) : Seq :=
  match a.base with
  | some e => e
  | none => (a.acq.map AcqCandidate.seq).getD 0

/-- A live stream holds at most TRIM entries in its queue, and frames at distances below W from its drain's start. -/
theorem live_bounds {a : Stream} {cfg : StreamRecord} (h : a.ShapeOk cfg) (hl : a.state.live = true) :
    a.queue.length ≤ cfg.trim ∧ (∀ v ∈ a.window, dist v.seq a.drainStart < cfg.window) ∧ a.history.length = 64 ∧
    (a.state = .acquire ↔ a.base = none) := by
  obtain ⟨-, -, hbase, hwindow, hplaying, hqueue, -, -, -, -, -, hhistory, -⟩ := h
  refine ⟨hqueue.trans ?_, fun v hv => ?_, hhistory, ?_⟩
  · cases hs : a.state <;> simp [StreamState.depth, StreamState.live, hs] at hl ⊢
  · cases hb : a.base with
    | none =>
      have hp := hplaying (List.ne_nil_of_mem hv)
      rw [hb] at hbase
      cases hs : a.state <;> simp [StreamState.playing, StreamState.based, hs] at hp hbase
    | some e =>
      rw [Stream.drainStart, hb]
      exact ((hwindow e hb).1 v hv).2
  · cases hs : a.state <;> cases hb : a.base <;> simp [StreamState.live, StreamState.based, hs, hb] at hl hbase ⊢

theorem Ctx.freeAcq_s (c : Ctx) : c.freeAcq.s = { c.s with acq := none } := by
  unfold Ctx.freeAcq
  split
  · next h => rw [← h]
  · rfl

theorem Ctx.freeJump_s (c : Ctx) : c.freeJump.s = { c.s with jump := none } := by
  unfold Ctx.freeJump
  split
  · next h => rw [← h]
  · rfl

theorem Ctx.drainBase_s {c : Ctx} (h : c.s.state = .acquire ↔ c.s.base = none) :
    c.drainBase.s = { c.s with base := some c.s.drainStart } := by
  unfold Ctx.drainBase Stream.drainStart
  split
  · next hs => rw [h.mp hs]
  · next hs =>
    cases hb : c.s.base with
    | none => exact absurd (h.mpr hb) hs
    | some e => rw [← hb]

theorem Ctx.drainBase_cfg (c : Ctx) : c.drainBase.cfg = c.cfg := by unfold Ctx.drainBase; split <;> rfl

theorem Ctx.drainBase_idx (c : Ctx) : c.drainBase.idx = c.idx := by unfold Ctx.drainBase; split <;> rfl

theorem Ctx.drainBase_notes (c : Ctx) : c.drainBase.notes = c.notes := by unfold Ctx.drainBase; split <;> rfl

/-- A context ready to be forwarded: its base set, its candidates freed, the record in force its drain record. -/
def Ctx.drainReady (c : Ctx) : Ctx :=
  let c1 := c.drainBase.freeAcq.freeJump
  { c1 with s := { c1.s with drain := some c1.cfg, guard := none, timer := none } }

/-- One head is dropped if n positions would pass T + W - 1. -/
def Ctx.drainTrim (c : Ctx) (n : Nat) : Ctx :=
  if c.cfg.trim + c.cfg.window - 1 < c.s.queue.length + n then c.dropHead else c

/-- The drain entry is those two parts, the forwarding and the notice. -/
theorem Ctx.enterDrain_eq (c : Ctx) : c.enterDrain =
    { (c.drainReady.drainTrim c.drainReady.s.forwardSpan).forward c.drainReady.s.forwardSpan with
      s := { ((c.drainReady.drainTrim c.drainReady.s.forwardSpan).forward c.drainReady.s.forwardSpan).s with
        state := .draining } }.noteState .disabled := rfl

theorem Ctx.drainReady_s {c : Ctx} (h : c.s.state = .acquire ↔ c.s.base = none) : c.drainReady.s = { c.s with
    base := some c.s.drainStart, drain := some c.cfg, acq := none, jump := none, guard := none, timer := none } := by
  have hcfg : c.drainBase.freeAcq.freeJump.cfg = c.cfg := by simp [drainBase_cfg]
  simp only [Ctx.drainReady, hcfg, Ctx.freeJump_s, Ctx.freeAcq_s, Ctx.drainBase_s h]

theorem Ctx.drainReady_cfg (c : Ctx) : c.drainReady.cfg = c.cfg := by simp [Ctx.drainReady, drainBase_cfg]

theorem Ctx.drainReady_idx (c : Ctx) : c.drainReady.idx = c.idx := by simp [Ctx.drainReady, drainBase_idx]

theorem Ctx.dropHead_s (c : Ctx) : c.dropHead.s = { c.s with queue := c.s.queue.tail, counters := c.dropHead.s.counters } := by
  unfold Ctx.dropHead
  split
  · next h => rw [h, List.tail_nil, ← h]
  · next e rest h => rw [h]; simp only [Ctx.count_eq, Ctx.giveSlots, List.tail_cons]

theorem Ctx.drainTrim_s (c : Ctx) (n : Nat) : (c.drainTrim n).s = { c.s with
    queue := if c.cfg.trim + c.cfg.window - 1 < c.s.queue.length + n then c.s.queue.tail else c.s.queue
    counters := (c.drainTrim n).s.counters } := by
  unfold Ctx.drainTrim
  split
  · exact c.dropHead_s
  · rfl

/-- The drop counts TRIMMED once, if the queue holds an entry to drop. -/
theorem Ctx.drainTrim_tally {c : Ctx} {n : Nat}
    (h : c.cfg.trim + c.cfg.window - 1 < c.s.queue.length + n → c.s.queue ≠ []) :
    Tally c.s.counters (c.drainTrim n).s.counters
      (Pi.single ctrTrimmed (if c.cfg.trim + c.cfg.window - 1 < c.s.queue.length + n then 1 else 0)) := by
  unfold Ctx.drainTrim
  split
  · next hover => exact dropHead_tally (h hover)
  · exact (Tally.refl _).congr (Pi.single_zero _).symm

/-! ## The span of a drain -/

theorem foldl_max_attained (e : Seq) (l : List WindowEntry) (n : Nat) :
    l.foldl (fun n w => max n (dist w.seq e + 1)) n = n ∨
    ∃ v ∈ l, l.foldl (fun n w => max n (dist w.seq e + 1)) n = dist v.seq e + 1 := by
  induction l generalizing n with
  | nil => exact .inl rfl
  | cons w l ih =>
    rw [List.foldl_cons]
    obtain h | ⟨v, hv, h⟩ := ih (max n (dist w.seq e + 1))
    · rw [h]
      obtain hle | hle := le_total n (dist w.seq e + 1)
      · exact .inr ⟨w, List.mem_cons_self, max_eq_right hle⟩
      · exact .inl (max_eq_left hle)
    · exact .inr ⟨v, List.mem_cons_of_mem w hv, h⟩

/-- The span reaches exactly to the held entry at the greatest distance. -/
theorem Stream.forwardSpan_spec {a : Stream} {e : Seq} (hb : a.base = some e) :
    (a.window = [] → a.forwardSpan = 0) ∧ (a.window ≠ [] → ∃ v ∈ a.window, a.forwardSpan = dist v.seq e + 1) ∧
    (∀ v ∈ a.window, dist v.seq e + 1 ≤ a.forwardSpan) := by
  have hspan : a.forwardSpan = a.window.foldl (fun n w => max n (dist w.seq e + 1)) 0 := by
    simp only [Stream.forwardSpan, hb]
  have hle := (le_foldl_max (e := e) a.window 0).2
  rw [← hspan] at hle
  refine ⟨fun h => by rw [hspan, h]; rfl, fun h => ?_, hle⟩
  obtain ⟨w, hw⟩ := List.exists_mem_of_ne_nil _ h
  obtain h0 | hv := foldl_max_attained e a.window 0
  · have := hle w hw
    omega
  · rw [hspan]; exact hv

/-! ## The drain entry as a whole -/

/-- What the entry to DRAINING leaves at a live context: n positions from e are forwarded. -/
theorem Ctx.enterDrain_whole {c : Ctx} (h : c.s.ShapeOk c.cfg) (hwf : c.cfg.wf = true) (hl : c.s.state.live = true) :
    ∃ (n : Nat) (fwd : List QueueEntry), fwd = c.s.entriesFrom none c.s.drainStart n ∧
      (c.s.window = [] → n = 0) ∧ (c.s.window ≠ [] → ∃ v ∈ c.s.window, n = dist v.seq c.s.drainStart + 1) ∧
      (∀ v ∈ c.s.window, dist v.seq c.s.drainStart + 1 ≤ n) ∧
      c.enterDrain.s = { c.s with
        state := .draining, drain := some c.cfg, base := some (c.s.drainStart + BitVec.ofNat 12 n), window := []
        history := ((fwd.map QueueEntry.passed).reverse ++ c.s.history).take 64
        acq := none, jump := none, guard := none, timer := none
        queue := (if c.cfg.trim + c.cfg.window - 1 < c.s.queue.length + n then c.s.queue.tail else c.s.queue) ++ fwd
        counters := c.enterDrain.s.counters } ∧
      c.enterDrain.s.queue.length ≤ c.cfg.trim + c.cfg.window - 1 ∧
      Tally c.s.counters c.enterDrain.s.counters
        (Pi.single ctrTrimmed (if c.cfg.trim + c.cfg.window - 1 < c.s.queue.length + n then 1 else 0) +
          (Pi.single ctrReleased (queueSlots fwd) + Pi.single ctrSubstPush (n - queueSlots fwd))) := by
  obtain ⟨hqueue, hdist, hhistory, hacquire⟩ := live_bounds h hl
  obtain ⟨_, _, hstate, _, hshape⟩ := c.enterDrain_spec h hwf hl
  obtain ⟨_, _, hwindow, hlength, _⟩ := (shape_draining hstate).mp hshape
  obtain ⟨-, htwo, htrim, -⟩ := (wf_iff _).mp hwf
  have hready := c.drainReady_s hacquire
  have hspan := c.drainReady.s.forwardSpan_spec (e := c.s.drainStart) (by rw [hready])
  generalize hn : c.drainReady.s.forwardSpan = n at hspan
  rw [show c.drainReady.s.window = c.s.window by rw [hready]] at hspan
  obtain ⟨hempty, hmost, hall⟩ := hspan
  have hnW : n ≤ c.cfg.window := by
    by_cases hw : c.s.window = []
    · rw [hempty hw]; exact Nat.zero_le _
    · obtain ⟨v, hv, hnv⟩ := hmost hw
      rw [hnv]; exact hdist v hv
  have hn4096 : n ≤ 4096 := by omega
  have htrimmed := c.drainReady.drainTrim_s n
  rw [hready, c.drainReady_cfg] at htrimmed
  have hbase : (c.drainReady.drainTrim n).s.base = some c.s.drainStart := by rw [htrimmed]
  have hforward := Ctx.forward_s n hbase hn4096 (by rw [htrimmed]; exact hhistory.le)
  have hentries : (c.drainReady.drainTrim n).s.entriesFrom none c.s.drainStart n = c.s.entriesFrom none c.s.drainStart n :=
    Stream.entriesFrom_congr (by rw [htrimmed]) _ _
  have hcounters : c.enterDrain.s.counters = ((c.drainReady.drainTrim n).forward n).s.counters := by
    rw [c.enterDrain_eq, Ctx.noteState_s, hn]
  refine ⟨n, _, rfl, hempty, hmost, hall, ?_, hlength, ?_⟩
  · have hw : c.enterDrain.s.window = [] := hwindow
    rw [c.enterDrain_eq, Ctx.noteState_s, hn] at hw ⊢
    simp only at hw ⊢
    rw [hforward] at hw ⊢
    simp only at hw ⊢
    rw [hw, hentries, htrimmed]
  · rw [hcounters, ← hentries]
    refine Tally.trans ?_ (Ctx.forward_tally n hbase hn4096)
    have htally := Ctx.drainTrim_tally (c := c.drainReady) (n := n) (fun hover hnil => ?_)
    · rw [hready, c.drainReady_cfg] at htally
      exact htally
    · rw [hnil, c.drainReady_cfg, List.length_nil] at hover
      omega

/-! ## Each stream's change within the commit -/

/-- Stream i's context after its change, `free` slots being free before it. -/
def State.changed (s : State) (new : ConfigSet) (i : StreamIdx) (free : Nat) : Ctx :=
  (s.change new i).apply (s.ctxAfter new i free)

/-- While a commit is being applied, the next stream's change is the one its state before the commit gives. -/
theorem applyStream_eq {s : State} {new : ConfigSet} {i : StreamIdx} {l : List StreamIdx} {t : State}
    (k : Applying s new (i :: l) t) : t.applyStream new i = t.put (s.changed new i t.free) .config := by
  have hstream := k.same i List.mem_cons_self
  have hforce : t.inForce i = s.inForce i := by simp only [State.inForce, hstream, k.active]
  have hchange : t.change new i = s.change new i := by simp only [State.change, hstream, k.active]
  have hrecord : t.recordAfter new i = s.recordAfter new i := by
    simp only [State.recordAfter, hchange, hstream, k.active, hforce]
  simp only [State.applyStream, State.changed, State.ctxAfter, State.ctx, hchange, hrecord, hstream]

/-- The STREAM_STATE notice a change of stream i creates (08 R149). -/
def Change.stateNote (i : StreamIdx) : Change → List Notice
  | .keep => []
  | .store => []
  | .renew cause => [.streamState i .acquire cause]
  | .inPlace => []
  | .drainEntry => [.streamState i .draining .disabled]
  | .cut => [.streamState i .off .disabled]

namespace Ctx

theorem drainReady_stateNotes (c : Ctx) (i : StreamIdx) : c.drainReady.stateNotes i = c.stateNotes i :=
  stateNotes_of_notes (by simp [drainReady, drainBase_notes]) i

theorem drainTrim_stateNotes (c : Ctx) (n : Nat) (i : StreamIdx) : (c.drainTrim n).stateNotes i = c.stateNotes i := by
  unfold drainTrim
  split
  · exact dropHead_stateNotes c i
  · rfl

theorem drainTrim_idx (c : Ctx) (n : Nat) : (c.drainTrim n).idx = c.idx := by unfold drainTrim; split <;> simp

theorem drainTrim_cfg (c : Ctx) (n : Nat) : (c.drainTrim n).cfg = c.cfg := by unfold drainTrim; split <;> simp

theorem forward_idx_cfg (n : Nat) (c : Ctx) : (c.forward n).idx = c.idx ∧ (c.forward n).cfg = c.cfg := by
  induction n generalizing c with
  | zero => exact ⟨rfl, rfl⟩
  | succ n ih =>
    have hone : c.forwardOne.idx = c.idx ∧ c.forwardOne.cfg = c.cfg := by
      unfold forwardOne
      split
      · exact ⟨rfl, rfl⟩
      · split <;> simp
    exact ⟨(ih _).1.trans hone.1, (ih _).2.trans hone.2⟩

/-- The one STREAM_STATE notice of a change: under the mask of the record in force after the commit, about its own stream. -/
theorem apply_stateNotes (ch : Change) (c : Ctx) (i : StreamIdx) : (ch.apply c).stateNotes i =
    c.stateNotes i ++ if c.idx = i ∧ c.cfg.noticeMask.streamState = true then ch.stateNote i else [] := by
  have hquiet : ∀ l : List Notice, l = l ++ if c.idx = i ∧ c.cfg.noticeMask.streamState = true then [] else [] :=
    fun l => by rw [ite_self, List.append_nil]
  have hnote : ∀ (d : Ctx) (st : StreamState) (cause : Cause), d.idx = c.idx → d.cfg = c.cfg → d.s.state = st →
      d.stateNotes i = c.stateNotes i → (d.noteState cause).stateNotes i = c.stateNotes i ++
        if c.idx = i ∧ c.cfg.noticeMask.streamState = true then [.streamState i st cause] else [] := by
    intro d st cause hidx hcfg hst hd
    rw [noteState_stateNotes, hd, hidx, hcfg, hst]
  have hflush := flush_stateNotes c i
  cases ch with
  | keep => exact hquiet _
  | store => exact hquiet _
  | inPlace => exact (dropHeads_stateNotes _ c i).trans (hquiet _)
  | renew cause => exact hnote c.renew .acquire cause (renew_parts c).1 (renew_parts c).2.1 rfl hflush
  | cut =>
    exact hnote { c.flushWindow.flushQueue.freeAcq.freeJump with
      s := c.flushWindow.flushQueue.freeAcq.freeJump.s.toOff } .off .disabled (by simp) (by simp) rfl hflush
  | drainEntry =>
    have hparts := forward_idx_cfg c.drainReady.s.forwardSpan (c.drainReady.drainTrim c.drainReady.s.forwardSpan)
    rw [drainTrim_idx, drainReady_idx, drainTrim_cfg, drainReady_cfg] at hparts
    have hforwarded : ((c.drainReady.drainTrim c.drainReady.s.forwardSpan).forward c.drainReady.s.forwardSpan).stateNotes i =
        c.stateNotes i := by rw [forward_stateNotes, drainTrim_stateNotes, drainReady_stateNotes]
    show c.enterDrain.stateNotes i = _
    rw [enterDrain_eq]
    exact hnote { (c.drainReady.drainTrim c.drainReady.s.forwardSpan).forward c.drainReady.s.forwardSpan with
      s := _ } .draining .disabled hparts.1 hparts.2 rfl hforwarded

end Ctx

/-- The STREAM_STATE notices about stream i among offers. -/
def stateOffers (l : List Offer) (i : StreamIdx) : List Offer := l.filter fun o => o.notice.isState i

theorem stateNotices_eq (s t : State) (i : StreamIdx) :
    s.stateNotices t i = stateOffers (t.offers.drop s.offers.length) i := by
  refine List.filter_congr fun o _ => ?_
  cases o.notice <;> rfl

theorem stateOffers_own (b : Block) (l : List Notice) (i : StreamIdx) :
    stateOffers (l.map (Offer.own b)) i = (l.filter (Notice.isState i)).map (Offer.own b) := by
  rw [stateOffers, List.filter_map]; rfl

/-- While a commit is being applied: stream i as its change leaves it with the notices of that change once it has been
taken, and no notice about it before. -/
structure Noted (s : State) (new : ConfigSet) (i : StreamIdx) (l : List StreamIdx) (t : State) : Prop where
  applying : Applying s new l t
  before : i ∈ l → ∃ tail, t.offers = s.offers ++ tail ∧ stateOffers tail i = []
  after : i ∉ l → ∃ free tail, t.stream i = (s.changed new i free).s ∧ t.offers = s.offers ++ tail ∧
    stateOffers tail i = ((s.changed new i free).stateNotes i).map (Offer.own .config)

theorem applyStream_noted {s : State} (h1 : s.StreamsOk) (h2 : s.RecordsOk) {new : ConfigSet}
    (hn : ∀ i, (new.record i).wf = true) {i j : StreamIdx} {l : List StreamIdx} (hj : j ∉ l) {t : State}
    (k : Noted s new i (j :: l) t) : Noted s new i l (t.applyStream new j) := by
  have hstep := applyStream_eq k.applying
  have hidx : (s.changed new j t.free).idx = j := (apply_changed h1 h2 t.free (hn j)).idx
  have hoffers : (t.applyStream new j).offers = t.offers ++ (s.changed new j t.free).notes.map (Offer.own .config) := by
    rw [hstep, State.put_offers]
  have hsplit : ∀ tail, stateOffers (tail ++ (s.changed new j t.free).notes.map (Offer.own .config)) i =
      stateOffers tail i ++ ((s.changed new j t.free).stateNotes i).map (Offer.own .config) := fun tail => by
    rw [stateOffers, List.filter_append, ← stateOffers, ← stateOffers, stateOffers_own]; rfl
  by_cases hij : i = j
  · subst hij
    refine ⟨applyStream_step h1 h2 hn hj k.applying, fun hi => absurd hi hj, fun _ => ?_⟩
    obtain ⟨tail, htail, hnone⟩ := k.before List.mem_cons_self
    refine ⟨t.free, tail ++ (s.changed new i t.free).notes.map (Offer.own .config), ?_, ?_, ?_⟩
    · rw [hstep, put_stream_of t .config hidx]
    · rw [hoffers, htail, List.append_assoc]
    · rw [hsplit, hnone, List.nil_append]
  · have hother : ((s.changed new j t.free).stateNotes i) = [] :=
      (Ctx.apply_stateNotes _ _ i).trans (by rw [if_neg fun h => hij h.1.symm]; rfl)
    refine ⟨applyStream_step h1 h2 hn hj k.applying, fun hi => ?_, fun hi => ?_⟩
    · obtain ⟨tail, htail, hnone⟩ := k.before (List.mem_cons_of_mem j hi)
      exact ⟨_, by rw [hoffers, htail, List.append_assoc], by rw [hsplit, hnone, hother]; rfl⟩
    · obtain ⟨free, tail, hstream, htail, hnotes⟩ := k.after (by simp [hij, hi])
      refine ⟨free, tail ++ (s.changed new j t.free).notes.map (Offer.own .config), ?_, ?_, ?_⟩
      · rw [hstep, (put_other hidx hij).1, hstream]
      · rw [hoffers, htail, List.append_assoc]
      · rw [hsplit, hnotes, hother, List.map_nil, List.append_nil]

theorem applyStreams_noted {s : State} (h1 : s.StreamsOk) (h2 : s.RecordsOk) {new : ConfigSet}
    (hn : ∀ i, (new.record i).wf = true) {i : StreamIdx} (l : List StreamIdx) (hl : l.Nodup) {t : State}
    (k : Noted s new i l t) : Noted s new i [] (l.foldl (State.applyStream new) t) := by
  induction l generalizing t with
  | nil => exact k
  | cons j l ih =>
    obtain ⟨hj, hl'⟩ := List.nodup_cons.mp hl
    exact ih hl' (applyStream_noted h1 h2 hn hj k)

/-- What a commit's apply step leaves in the contexts, the store and the offers. -/
theorem applyCommit_parts (s : State) (new : ConfigSet) (key : Byte) :
    (s.applyCommit new key).streams = ((List.finRange 32).foldl (State.applyStream new) s).streams ∧
    (s.applyCommit new key).free = ((List.finRange 32).foldl (State.applyStream new) s).free ∧
    ∃ g, (s.applyCommit new key).offers = ((List.finRange 32).foldl (State.applyStream new) s).offers ++
      if new.device.noticeMask.committed = true then [.own .config (.committed g)] else [] := by
  refine ⟨?_, ?_, nextGeneration s.generation, ?_⟩
  · simp only [State.applyCommit, State.offer_streams, State.dropOffWaiting, State.rebuildTagMap]
  · simp only [State.applyCommit, State.offer_free, State.dropOffWaiting, State.rebuildTagMap]
  · unfold State.applyCommit State.offer
    split <;> simp [State.dropOffWaiting, State.rebuildTagMap]

/-- A commit leaves each stream as its change does, with that change's STREAM_STATE notices, and the slots balanced. -/
theorem applyCommit_changed {s : State} (h : s.MergeOk) {new : ConfigSet} (hn : ∀ i, (new.record i).wf = true) (key : Byte)
    (i : StreamIdx) :
    (∃ free, (s.applyCommit new key).stream i = (s.changed new i free).s ∧
      s.stateNotices (s.applyCommit new key) i = ((s.changed new i free).stateNotes i).map (Offer.own .config)) ∧
    (s.applyCommit new key).free + (s.applyCommit new key).heldSlots = Config.slots := by
  obtain ⟨h1, h2, h3, -⟩ := h
  obtain ⟨hstreams, hfree, g, hoffers⟩ := applyCommit_parts s new key
  have k : Noted s new i [] ((List.finRange 32).foldl (State.applyStream new) s) :=
    applyStreams_noted h1 h2 hn _ (List.nodup_finRange 32)
      ⟨⟨rfl, rfl, fun _ _ => rfl, fun j hj => absurd (List.mem_finRange j) hj, h3⟩,
        fun _ => ⟨[], by simp, rfl⟩, fun hi => absurd (List.mem_finRange i) hi⟩
  obtain ⟨free, tail, hstream, htail, hnotes⟩ := k.after List.not_mem_nil
  refine ⟨⟨free, ?_, ?_⟩, ?_⟩
  · rw [← hstream, State.stream, hstreams]; rfl
  · rw [stateNotices_eq, hoffers, htail, List.append_assoc, List.drop_left, ← hnotes, stateOffers, List.filter_append]
    split <;> simp [stateOffers, Offer.own, Notice.isState]
  · rw [hfree, State.heldSlots]
    simp only [State.stream, hstreams]
    exact k.applying.slots

/-- A stream's change, once known, gives its whole context and its STREAM_STATE notice. -/
theorem applyCommit_of_change {s : State} (h : s.MergeOk) {new : ConfigSet} (hn : ∀ i, (new.record i).wf = true) (key : Byte)
    {i : StreamIdx} {ch : Change} (hc : s.change new i = ch) :
    ∃ free, (s.applyCommit new key).stream i = (ch.apply (s.ctxAfter new i free)).s ∧
      s.stateNotices (s.applyCommit new key) i = if (s.recordAfter new i).noticeMask.streamState = true
        then (ch.stateNote i).map (Offer.own .config) else [] := by
  obtain ⟨⟨free, hstream, hnotes⟩, _⟩ := applyCommit_changed h hn key i
  rw [State.changed, hc] at hstream hnotes
  refine ⟨free, hstream, hnotes.trans ?_⟩
  rw [Ctx.apply_stateNotes]
  show List.map _ ([] ++ if i = i ∧ (s.recordAfter new i).noticeMask.streamState = true then _ else _) = _
  simp only [List.nil_append, true_and]
  split <;> rfl

/-! ## The changes of 08 R149 -/

/-- A stream that keeps its context: nothing about it changes, and no notice is created. -/
theorem applyCommit_kept {s : State} (h : s.MergeOk) {new : ConfigSet} (hn : ∀ i, (new.record i).wf = true) (key : Byte)
    {i : StreamIdx} (hc : s.change new i = .keep ∨ s.change new i = .store) :
    (s.applyCommit new key).stream i = s.stream i ∧ s.stateNotices (s.applyCommit new key) i = [] := by
  obtain hc | hc := hc
  all_goals
    obtain ⟨free, hstream, hnotes⟩ := applyCommit_of_change h hn key hc
    exact ⟨hstream, hnotes.trans (ite_self _)⟩

theorem applyCommit_renewed {s : State} (h : s.MergeOk) {new : ConfigSet} (hn : ∀ i, (new.record i).wf = true) (key : Byte)
    {i : StreamIdx} {cause : Cause} {a b : Stream} (ha : a = s.stream i) (hb : b = (s.applyCommit new key).stream i)
    (hc : s.change new i = .renew cause) :
    b = { state := .acquire, drain := none, base := none, window := [], history := historyNone, acq := none, jump := none,
          guard := none, timer := none, pathA := if admits (new.record i).paths .a = true then .absent else .unused,
          pathB := if admits (new.record i).paths .b = true then .absent else .unused, queue := [], run := 0, last := none,
          phase := some 0, counters := b.counters } ∧
    CountsBy a.counters b.counters [(ctrFlushed, a.window.length + a.queue.length)] ∧
    s.stateNotices (s.applyCommit new key) i = (if (new.record i).noticeMask.streamState = true
      then [⟨.config, .streamState i .acquire cause, none⟩] else []) := by
  obtain ⟨free, hstream, hnotes⟩ := applyCommit_of_change h hn key hc
  have hrecord : s.recordAfter new i = new.record i := by simp only [State.recordAfter, hc]
  have hwhole : b = (s.ctxAfter new i free).renew.s := by
    rw [hb, hstream]; exact Ctx.noteState_s _ _
  have htally : Tally a.counters b.counters (Pi.single ctrFlushed (a.window.length + a.queue.length)) := by
    rw [hwhole, ha]; exact (s.ctxAfter new i free).flush_tally
  refine ⟨?_, htally.countsBy_single, by rw [hnotes, hrecord]; rfl⟩
  have hpaths : ((s.ctxAfter new i free).flushWindow.flushQueue.freeAcq.freeJump).cfg.paths = (new.record i).paths := by
    rw [← hrecord]; simp [Ctx.flushWindow, Ctx.flushQueue]; rfl
  rw [hwhole, Ctx.renew]
  simp only [Stream.renewed, hpaths, freshPresence]

theorem applyCommit_cut {s : State} (h : s.MergeOk) {new : ConfigSet} (hn : ∀ i, (new.record i).wf = true) (key : Byte)
    {i : StreamIdx} {a b : Stream} (ha : a = s.stream i) (hb : b = (s.applyCommit new key).stream i)
    (hc : s.change new i = .cut) :
    b = { a.toOff with counters := b.counters } ∧
    CountsBy a.counters b.counters [(ctrFlushed, a.window.length + a.queue.length)] ∧
    s.stateNotices (s.applyCommit new key) i = (if (new.record i).noticeMask.streamState = true
      then [⟨.config, .streamState i .off .disabled, none⟩] else []) := by
  obtain ⟨free, hstream, hnotes⟩ := applyCommit_of_change h hn key hc
  have hrecord : s.recordAfter new i = new.record i := by simp only [State.recordAfter, hc]
  have hwhole : b = (s.ctxAfter new i free).flushWindow.flushQueue.freeAcq.freeJump.s.toOff := by
    rw [hb, hstream]; exact Ctx.noteState_s _ _
  have htally : Tally a.counters b.counters (Pi.single ctrFlushed (a.window.length + a.queue.length)) := by
    rw [hwhole, ha]; exact (s.ctxAfter new i free).flush_tally
  exact ⟨by rw [hwhole]; rfl, htally.countsBy_single, by rw [hnotes, hrecord]; rfl⟩

/-- A live stream whose record changes in no restart-class field keeps its context, its queue trimmed to the new TRIM. -/
theorem applyCommit_inPlace {s : State} (h : s.MergeOk) {new : ConfigSet} (hn : ∀ i, (new.record i).wf = true) (key : Byte)
    {i : StreamIdx} {a b : Stream} (ha : a = s.stream i) (hb : b = (s.applyCommit new key).stream i)
    (hl : a.state.live = true) (he : (new.record i).enable = true)
    (hd : restartClassDiffers (s.active.record i) (new.record i) = false) :
    b = { a with queue := a.queue.drop (a.queue.length - (new.record i).trim), counters := b.counters } ∧
    CountsBy a.counters b.counters [(ctrTrimmed, a.queue.length - (new.record i).trim)] ∧
    s.stateNotices (s.applyCommit new key) i = [] := by
  subst ha
  have hchange : s.change new i = liveChange (s.active.record i) (new.record i) := changeOf_live hl _ _
  rw [liveChange, if_pos he, if_neg (by rw [hd]; exact Bool.false_ne_true)] at hchange
  by_cases hsame : new.record i = s.active.record i
  · rw [if_pos hsame] at hchange
    obtain ⟨hstream, hnotes⟩ := applyCommit_kept h hn key (.inl hchange)
    have hforce : s.inForce i = s.active.record i := by rw [State.inForce, if_neg (live_ne hl).2]
    have htrim : (s.stream i).queue.length - (new.record i).trim = 0 := by
      rw [hsame, ← hforce]
      exact Nat.sub_eq_zero_of_le (live_bounds (h.1 i).1 hl).1
    rw [hb, hstream, htrim]
    exact ⟨rfl, ((Tally.refl _).congr (Pi.single_zero _).symm).countsBy_single, hnotes⟩
  · rw [if_neg hsame] at hchange
    obtain ⟨free, hstream, hnotes⟩ := applyCommit_of_change h hn key hchange
    have hrecord : s.recordAfter new i = new.record i := by simp only [State.recordAfter, hchange]
    have hwhole : b = ((s.ctxAfter new i free).dropHeads ((s.stream i).queue.length - (new.record i).trim)).s := by
      rw [hb, hstream, ← hrecord]; rfl
    have htally := Ctx.dropHeads_tally ((s.stream i).queue.length - (new.record i).trim) (c := s.ctxAfter new i free)
      (Nat.sub_le _ _)
    rw [← hwhole] at htally
    obtain ⟨_, _, _, k, hk⟩ := Ctx.dropHeads_spec ((s.stream i).queue.length - (new.record i).trim) (s.ctxAfter new i free)
    rw [← hwhole] at hk
    exact ⟨by rw [hk]; rfl, htally.countsBy_single, hnotes.trans (ite_self _)⟩

/-- The counters of a drain entry, listed. -/
theorem drain_countsBy {a b : Vector Counter 24} {x y z : Nat}
    (h : Tally a b (Pi.single ctrTrimmed x + (Pi.single ctrReleased y + Pi.single ctrSubstPush z))) :
    CountsBy a b [(ctrTrimmed, x), (ctrReleased, y), (ctrSubstPush, z)] := by
  have h1 : ctrTrimmed ≠ ctrReleased := by decide
  have h2 : ctrTrimmed ≠ ctrSubstPush := by decide
  have h3 : ctrReleased ≠ ctrSubstPush := by decide
  refine h.countsBy (fun p hp => ?_) fun k hk => ?_
  · simp only [List.mem_cons, List.not_mem_nil, or_false] at hp
    obtain rfl | rfl | rfl := hp <;> simp [h1, h2, h3, h1.symm, h2.symm, h3.symm]
  · simp only [List.map_cons, List.map_nil, List.mem_cons, List.not_mem_nil, or_false, not_or] at hk
    obtain ⟨hk1, hk2, hk3⟩ := hk
    simp [hk1, hk2, hk3]

/-- Settles O50: each clause is one change of 08 R149, known from the stream's state and its two records. -/
theorem commitChangesEachStream : Obligations.CommitChangesEachStream := by
  rintro s t new key i a b old staged h hn rfl ha hb rfl rfl
  have hstate : (s.stream i).state = a.state := by rw [ha]
  have hlive : a.state.live = true → s.change new i = liveChange (s.active.record i) (new.record i) := fun hl =>
    changeOf_live (by rw [hstate]; exact hl) _ _
  have hkept : ∀ {st : Change}, st = .keep ∨ st = .store → s.change new i = st →
      b = a ∧ s.stateNotices (s.applyCommit new key) i = [] := fun hst hc => by
    rw [ha, hb]; exact applyCommit_kept h hn key (by rw [hc]; exact hst)
  refine ⟨fun hoff he => ?_, fun hd he hm => ?_, fun hl hsame => ?_, fun hl he hdiff => ?_, fun he hcase => ?_,
    fun hl he hm => ?_, fun hoff he hm => ?_, (applyCommit_changed h hn key i).2⟩
  · exact hkept (.inr rfl) (by simp [State.change, hstate, hoff, changeOf, he])
  · exact hkept (.inr rfl) (by simp [State.change, hstate, hd, changeOf, he, hm])
  · have he : (new.record i).enable = true := by rw [hsame, (h.1 i).2, hstate, hl]
    exact hkept (.inl rfl) (by simp [hlive hl, liveChange, hsame, hsame ▸ he, restartClassDiffers])
  · exact applyCommit_inPlace h hn key ha hb hl he hdiff
  · have hc : s.change new i = .renew (if a.state.live = true then .reconfigured else .enabled) := by
      obtain hs | hs | hs := a.state.off_draining_or_live
      · simp [State.change, hstate, hs, changeOf, he, StreamState.live]
      · simp [State.change, hstate, hs, changeOf, he, StreamState.live]
      · have hdiff := (hcase.resolve_left (live_ne hs).1).resolve_left (live_ne hs).2
        simp [hlive hs, liveChange, he, hdiff, hs]
    exact applyCommit_renewed h hn key ha hb hc
  · have hc : s.change new i = .drainEntry := by simp [hlive hl, liveChange, he, hm]
    have hrecord : s.recordAfter new i = s.active.record i := by simp only [State.recordAfter, hc]
    have hforce : s.inForce i = s.active.record i := by rw [State.inForce, hstate, if_neg (live_ne hl).2]
    obtain ⟨free, hstream, hnotes⟩ := applyCommit_of_change h hn key hc
    have hshape : (s.ctxAfter new i free).s.ShapeOk (s.ctxAfter new i free).cfg := by
      show (s.stream i).ShapeOk (s.recordAfter new i)
      rw [hrecord, ← hforce]; exact (h.1 i).1
    have hwhole := Ctx.enterDrain_whole hshape (recordAfter_wf h.2.1 (hn i)) (by rw [← hl, ← hstate]; rfl)
    rw [show (s.ctxAfter new i free).enterDrain.s = b from (hb.trans hstream).symm,
      show (s.ctxAfter new i free).s = a from ha.symm,
      show (s.ctxAfter new i free).cfg = s.active.record i from hrecord] at hwhole
    obtain ⟨n, fwd, hfwd, hempty, hmost, hall, hb', hlength, htally⟩ := hwhole
    exact ⟨a.drainStart, n, fwd, hfwd, rfl, hempty, hmost, hall, hb', hlength, drain_countsBy htally,
      by rw [hnotes, hrecord]; rfl⟩
  · have hc : s.change new i = .cut := by
      obtain hs | hs | hs := a.state.off_draining_or_live
      · exact absurd hs hoff
      · simp [State.change, hstate, hs, changeOf, he, hm]
      · simp [hlive hs, liveChange, he, hm]
    exact applyCommit_cut h hn key ha hb hc

end Sys2Proof.Machine

/-! # Arrivals: admission, the word count and path presence -/

namespace Sys2Proof.Machine

/-! ## The state an arrival is taken on -/

@[simp] theorem State.atArrival_stream (s : State) (x : Path) (rest : List Delivery) (i : StreamIdx) :
    (s.atArrival x rest).stream i = s.stream i := State.takeOffers_stream _ _ _

@[simp] theorem State.atArrival_inForce (s : State) (x : Path) (rest : List Delivery) (i : StreamIdx) :
    (s.atArrival x rest).inForce i = s.inForce i := State.takeOffers_inForce _ _ _

@[simp] theorem State.atArrival_free (s : State) (x : Path) (rest : List Delivery) : (s.atArrival x rest).free = s.free :=
  State.takeOffers_free _ _

theorem State.atArrival_mergeOk {s : State} (h : s.MergeOk) (x : Path) (rest : List Delivery) : (s.atArrival x rest).MergeOk :=
  (takeOffers_same { s with deliveries := rest } _).ok
    ((State.sameMerge_of (s := s) (t := { s with deliveries := rest }) rfl rfl rfl rfl).ok h)

/-- An arrival answers with what its context makes of it. -/
theorem State.Waits.gives {s : State} {x : Path} {i : StreamIdx} {f : Frame} {rest : List Delivery} (h : s.Waits x i f rest) :
    s.ArrivalGives x i rest (((s.atArrival x rest).ctx i).arrive x f) := by
  show Host.Outcome.next (arrival x i s) = _
  unfold arrival
  rw [show takeFirstDelivery x i s.deliveries = some (⟨x, i, f⟩, rest) from h]
  rfl

/-! ## The four stages of an arrival -/

/-- An arrival that is not admitted is counted, in every state but OFF. -/
theorem Ctx.arrive_refused {c : Ctx} {x : Path} (f : Frame) (hoff : c.s.state ≠ .off)
    (h : c.s.state = .draining ∨ admits c.cfg.paths x = false) : c.arrive x f = c.count (ctrRefused x) := by
  unfold Ctx.arrive
  split
  · next hs => exact absurd hs hoff
  · rfl
  all_goals
    next hs => exact if_pos (h.resolve_left (by rw [hs]; simp))

/-- An admitted arrival refreshes its path's presence; its word count decides whether it is handled. -/
theorem Ctx.arrive_admitted {c : Ctx} {x : Path} (f : Frame) (hoff : c.s.state ≠ .off) (hdrain : c.s.state ≠ .draining)
    (h : admits c.cfg.paths x = true) : c.arrive x f =
      if f.words.length = c.cfg.words then (c.refresh x).handle x f else (c.refresh x).count ctrMalformed := by
  have hadmitted : ¬ admits c.cfg.paths x = false := by rw [h]; simp
  unfold Ctx.arrive
  split
  · next hs => exact absurd hs hoff
  · next hs => exact absurd hs hdrain
  all_goals exact if_neg hadmitted

/-- An arrival that passes the first three stages is handled by its context's state. -/
theorem State.Waits.gives_handled {s : State} {x : Path} {i : StreamIdx} {f : Frame} {rest : List Delivery}
    (h : s.Waits x i f rest) (hp : s.Passes x i f) (hoff : (s.stream i).state ≠ .off)
    (hdrain : (s.stream i).state ≠ .draining) : s.ArrivalGives x i rest ((s.refreshed x i rest).handle x f) := by
  obtain ⟨hadmits, hwords⟩ := hp
  have harrive := Ctx.arrive_admitted (c := (s.atArrival x rest).ctx i) (x := x) f (by simpa using hoff) (by simpa using hdrain)
    (by simpa using hadmits)
  rw [if_pos (by simpa using hwords)] at harrive
  rw [State.refreshed, ← harrive]
  exact h.gives

/-! ## The presence refresh -/

/-- The refresh sets its path's presence, unless the path is UNUSED, and tells of a path that was ABSENT. -/
theorem Ctx.refresh_eq (c : Ctx) (x : Path) : c.refresh x = { c with
    s := if c.s.presence x = .unused then c.s else c.s.setPresence x (.present 0)
    notes := if c.s.presence x = .absent ∧ c.cfg.noticeMask.pathState = true
      then c.notes ++ [.pathState c.idx x true] else c.notes } := by
  unfold Ctx.refresh
  cases h : c.s.presence x with
  | unused => simp
  | present n => simp
  | absent => cases hm : c.cfg.noticeMask.pathState <;> simp [Ctx.notePath, Ctx.note, hm]

/-- The refresh changes a path's presence and nothing else of the stream. -/
theorem Ctx.refresh_s (c : Ctx) (x : Path) :
    (c.refresh x).s = { c.s with pathA := (c.refresh x).s.pathA, pathB := (c.refresh x).s.pathB } := by
  rw [refresh_eq]
  dsimp only
  split
  · rfl
  · cases x <;> rfl

/-- The stream of a refreshed context is the one before the arrival but for its paths' presence. -/
theorem State.refreshed_s (s : State) (x : Path) (i : StreamIdx) (rest : List Delivery) :
    (s.refreshed x i rest).s =
      { s.stream i with pathA := (s.refreshed x i rest).s.pathA, pathB := (s.refreshed x i rest).s.pathB } := by
  have h := ((s.atArrival x rest).ctx i).refresh_s x
  rwa [State.ctx_s, State.atArrival_stream] at h

section
variable (s : State) (x : Path) (i : StreamIdx) (rest : List Delivery)

@[simp] theorem State.refreshed_idx : (s.refreshed x i rest).idx = i := by rw [State.refreshed, Ctx.refresh_eq]; rfl
@[simp] theorem State.refreshed_cfg : (s.refreshed x i rest).cfg = s.inForce i := by
  rw [State.refreshed, Ctx.refresh_eq]; simp
@[simp] theorem State.refreshed_free : (s.refreshed x i rest).free = s.free := by rw [State.refreshed, Ctx.refresh_eq]; simp
@[simp] theorem State.refreshed_record : (s.refreshed x i rest).record = none := by rw [State.refreshed, Ctx.refresh_eq]; rfl
@[simp] theorem State.refreshed_state : (s.refreshed x i rest).s.state = (s.stream i).state := by rw [State.refreshed_s]
@[simp] theorem State.refreshed_drain : (s.refreshed x i rest).s.drain = (s.stream i).drain := by rw [State.refreshed_s]
@[simp] theorem State.refreshed_base : (s.refreshed x i rest).s.base = (s.stream i).base := by rw [State.refreshed_s]
@[simp] theorem State.refreshed_window : (s.refreshed x i rest).s.window = (s.stream i).window := by rw [State.refreshed_s]
@[simp] theorem State.refreshed_history : (s.refreshed x i rest).s.history = (s.stream i).history := by rw [State.refreshed_s]
@[simp] theorem State.refreshed_acq : (s.refreshed x i rest).s.acq = (s.stream i).acq := by rw [State.refreshed_s]
@[simp] theorem State.refreshed_jump : (s.refreshed x i rest).s.jump = (s.stream i).jump := by rw [State.refreshed_s]
@[simp] theorem State.refreshed_guard : (s.refreshed x i rest).s.guard = (s.stream i).guard := by rw [State.refreshed_s]
@[simp] theorem State.refreshed_timer : (s.refreshed x i rest).s.timer = (s.stream i).timer := by rw [State.refreshed_s]
@[simp] theorem State.refreshed_queue : (s.refreshed x i rest).s.queue = (s.stream i).queue := by rw [State.refreshed_s]
@[simp] theorem State.refreshed_run : (s.refreshed x i rest).s.run = (s.stream i).run := by rw [State.refreshed_s]
@[simp] theorem State.refreshed_counters : (s.refreshed x i rest).s.counters = (s.stream i).counters := by
  rw [State.refreshed_s]

end

/-- A position is held after the refresh exactly if it was held before. -/
theorem State.refreshed_heldAt (s : State) (x : Path) (i : StreamIdx) (rest : List Delivery) (e : Seq) :
    (s.refreshed x i rest).s.heldAt e = (s.stream i).heldAt e := by simp only [Stream.heldAt, State.refreshed_window]

/-- The refresh keeps the shape and the store's room. -/
theorem State.refreshed_good {s : State} (h : s.MergeOk) (x : Path) {i : StreamIdx} (rest : List Delivery)
    (hoff : (s.stream i).state ≠ .off) : (s.refreshed x i rest).Good := by
  have hstate : ((s.atArrival x rest).stream i).state ≠ .off := by rwa [State.atArrival_stream]
  have hgood := ctx_good (State.atArrival_mergeOk h x rest) i hstate
  exact (Ctx.refresh_kept x hgood.shape hstate).good hgood

/-! ## Refused and malformed arrivals -/

/-- Settles O11: the first stage of an arrival. -/
theorem arrivalRefused : Obligations.ArrivalRefused := by
  intro s x i f rest hwaits hoff hrefused
  refine ⟨?_, by simp [Ctx.count_eq]⟩
  rw [← Ctx.arrive_refused (c := (s.atArrival x rest).ctx i) (x := x) f (by simpa using hoff) (by simpa using hrefused)]
  exact hwaits.gives

/-- Settles O12: the third stage, after the refresh of the second. -/
theorem arrivalMalformed : Obligations.ArrivalMalformed := by
  intro s x i f rest hwaits hoff hdrain hadmits hwords
  have harrive := Ctx.arrive_admitted (c := (s.atArrival x rest).ctx i) (x := x) f (by simpa using hoff) (by simpa using hdrain)
    (by simpa using hadmits)
  rw [if_neg (by simpa using hwords)] at harrive
  rw [State.refreshed, ← harrive]
  exact hwaits.gives

/-! ## Path presence -/

/-- A context whose path x goes ABSENT, with its notice under the mask. -/
def Ctx.lose (c : Ctx) (x : Path) : Ctx := { c with
  s := c.s.setPresence x .absent
  notes := if c.cfg.noticeMask.pathState = true then c.notes ++ [.pathState c.idx x false] else c.notes }

theorem Ctx.lose_eq (c : Ctx) (x : Path) : c.lose x = { c with s := c.s.setPresence x .absent }.notePath x false := by
  unfold Ctx.lose
  cases hm : c.cfg.noticeMask.pathState <;> simp [Ctx.notePath, Ctx.note, hm]

theorem Ctx.silencePath_rises {c : Ctx} {x : Path} {n : Nat} (h : c.s.presence x = .present n)
    (hn : n + 1 < c.cfg.pathSilence) : c.silencePath x = { c with s := c.s.setPresence x (.present (n + 1)) } := by
  unfold Ctx.silencePath
  rw [h]
  exact if_neg (Nat.not_le.mpr hn)

theorem Ctx.silencePath_expires {c : Ctx} {x : Path} {n : Nat} (h : c.s.presence x = .present n)
    (hn : c.cfg.pathSilence ≤ n + 1) : c.silencePath x = c.lose x := by
  unfold Ctx.silencePath
  rw [h, Ctx.lose_eq]
  exact if_pos hn

theorem Ctx.departed_present {c : Ctx} {x : Path} {n : Nat} (h : c.s.presence x = .present n) : c.departed x = c.lose x := by
  unfold Ctx.departed
  rw [h, Ctx.lose_eq]

theorem Ctx.departed_not_present {c : Ctx} {x : Path} (h : c.s.presence x = .unused ∨ c.s.presence x = .absent) :
    c.departed x = c := by
  unfold Ctx.departed
  obtain h | h := h <;> rw [h]

/-- A context put back as it was leaves the state as it was. -/
theorem State.put_ctx (s : State) (i : StreamIdx) (b : Block) : s.put (s.ctx i) b = s := by
  simp [State.put, State.setStream, State.stream, State.ctx]

/-- PATH_ABSENT where the path's silence reaches P. -/
theorem exec_pathAbsent_due {s : State} {i : StreamIdx} {x : Path} {n : Nat} (h : (s.stream i).presence x = .present n)
    (hn : (s.inForce i).pathSilence ≤ n + 1) : exec (.pathAbsent i x) s = .next (s.put ((s.ctx i).lose x) (.stream i)) := by
  rw [← Ctx.silencePath_expires (c := s.ctx i) h hn]
  show Host.Outcome.next (pathAbsent i x s) = _
  simp only [pathAbsent, h, if_pos hn]
  rfl

/-- LINK_DEPARTURE_REPORT where a report waits. -/
theorem exec_linkDepartureReport_waiting {s : State} {x : Path} {i : StreamIdx} (h : (x, i) ∈ s.reports) :
    exec (.linkDepartureReport x i) s =
      .next (({ s with reports := s.reports.erase (x, i) }.takeOffers (isLink x)).takeReport x i) := by
  show Host.Outcome.next (linkDepartureReport x i s) = _
  rw [linkDepartureReport, if_pos h]

/-- Settles O24: the refresh, the silence step and the departure report, presence by presence. -/
theorem pathPresence : Obligations.PathPresence := by
  refine ⟨fun c x => ⟨fun h => ?_, fun h => ?_⟩, ⟨fun c x n h hn => Ctx.silencePath_rises h hn,
    fun c x n h hn => Ctx.silencePath_expires h hn, fun c x h => ?_, fun s i x n h hn => ?_⟩, ?_⟩
  · rw [Ctx.refresh_eq]; simp [h]
  · rw [Ctx.refresh_eq, if_neg h]
  · exact Ctx.silencePath_of_not_present (by obtain h | h := h <;> rw [h] <;> rfl)
  · rw [exec_pathAbsent_due h hn]
    cases hm : (s.inForce i).noticeMask.pathState <;> simp [Ctx.lose, State.put, State.setStream, hm, Offer.own]
  · rintro s x i s1 hreport rfl
    rw [exec_linkDepartureReport_waiting hreport]
    generalize ht : { s with reports := s.reports.erase (x, i) }.takeOffers (isLink x) = t
    have hstream : t.stream i = s.stream i := by rw [← ht, State.takeOffers_stream]; rfl
    have hforce : t.inForce i = s.inForce i := by rw [← ht, State.takeOffers_inForce]; rfl
    refine ⟨fun h => ?_, fun n h => ?_⟩
    · rw [State.takeReport, Ctx.departed_not_present (c := t.ctx i) (by rwa [State.ctx_s, hstream]), State.put_ctx]
      simp
    · rw [State.takeReport, Ctx.departed_present (c := t.ctx i) (n := n) (by rwa [State.ctx_s, hstream])]
      cases hm : (s.inForce i).noticeMask.pathState <;> simp [Ctx.lose, State.put, State.setStream, hm, hforce, hstream]

end Sys2Proof.Machine

/-! # Arrivals: the handling by state, acquisition and the far side of the base -/

namespace Sys2Proof.Machine

/-! ## The handling by state -/

theorem StreamState.playing_iff {st : StreamState} : st.playing = true ↔ st = .priming ∨ st = .running := by
  cases st <;> simp [StreamState.playing]

section
variable {s : State} {x : Path} {i : StreamIdx} {f : Frame} {rest : List Delivery}

theorem State.Waits.gives_acquire (h : s.Waits x i f rest) (hp : s.Passes x i f) (hs : (s.stream i).state = .acquire) :
    s.ArrivalGives x i rest ((s.refreshed x i rest).acquireArrival x f) := by
  have hgives := h.gives_handled hp (by rw [hs]; simp) (by rw [hs]; simp)
  rwa [Ctx.handle, State.refreshed_state, hs] at hgives

theorem State.Waits.gives_stalled (h : s.Waits x i f rest) (hp : s.Passes x i f) (hs : (s.stream i).state = .stalled) :
    s.ArrivalGives x i rest ((s.refreshed x i rest).stalledArrival x f) := by
  have hgives := h.gives_handled hp (by rw [hs]; simp) (by rw [hs]; simp)
  rwa [Ctx.handle, State.refreshed_state, hs] at hgives

theorem State.Waits.gives_run (h : s.Waits x i f rest) (hp : s.Passes x i f) (hs : (s.stream i).state.playing = true) :
    s.ArrivalGives x i rest ((s.refreshed x i rest).runArrival x f) := by
  obtain hs | hs := StreamState.playing_iff.mp hs
  all_goals
    have hgives := h.gives_handled hp (by rw [hs]; simp) (by rw [hs]; simp)
    rwa [Ctx.handle, State.refreshed_state, hs] at hgives

end

/-- An arrival in PRIMING or RUNNING, by its distance from the base. -/
theorem Ctx.runArrival_of_base {c : Ctx} {e : Seq} (x : Path) (f : Frame) (hb : c.s.base = some e) : c.runArrival x f =
    if dist f.seq e < c.cfg.window then c.nearArrival x f
    else if dist f.seq e < 2 * c.cfg.window then c.pushArrival x (dist f.seq e) f
    else c.outerArrival x e (dist f.seq e) f := by
  simp only [Ctx.runArrival, hb]

theorem Ctx.runArrival_outer {c : Ctx} {e : Seq} {x : Path} {f : Frame} (hb : c.s.base = some e)
    (hd : 2 * c.cfg.window ≤ dist f.seq e) : c.runArrival x f = c.outerArrival x e (dist f.seq e) f := by
  rw [Ctx.runArrival_of_base x f hb, if_neg (by omega), if_neg (by omega)]

theorem Ctx.runArrival_near {c : Ctx} {e : Seq} {x : Path} {f : Frame} (hb : c.s.base = some e)
    (hd : dist f.seq e < c.cfg.window) : c.runArrival x f = c.nearArrival x f := by
  rw [Ctx.runArrival_of_base x f hb, if_pos hd]

theorem Ctx.nearArrival_base {c : Ctx} {x : Path} {f : Frame} (hb : c.s.base = some f.seq) :
    c.nearArrival x f = c.baseArrival x f := by
  simp only [Ctx.nearArrival, hb, if_true]

theorem Ctx.nearArrival_window {c : Ctx} {e : Seq} {x : Path} {f : Frame} (hb : c.s.base = some e) (hne : f.seq ≠ e) :
    c.nearArrival x f = c.windowArrival x e f := by
  simp only [Ctx.nearArrival, hb, if_neg hne]

/-! ## The acquisition candidate -/

theorem Ctx.freeAcq_some {c : Ctx} {a : AcqCandidate} (h : c.s.acq = some a) :
    c.freeAcq = { c with s := { c.s with acq := none }, free := c.free + 1 } := by
  simp only [Ctx.freeAcq, h, Ctx.giveSlots]

/-- Settles O13: the three branches of an arrival in ACQUIRE that do not lock. -/
theorem acquireCandidate : Obligations.AcquireCandidate := by
  rintro s x i f rest c0 hwaits hpass hs rfl
  have hgives := hwaits.gives_acquire hpass hs
  unfold Ctx.acquireArrival at hgives
  rw [State.refreshed_acq] at hgives
  refine ⟨fun hnone => ?_, fun a ha => ⟨fun hcopy => ?_, fun hfar hne => ?_⟩⟩
  · rw [← State.refreshed_free s x i rest]
    rw [hnone] at hgives
    exact hgives
  · rw [ha] at hgives
    simpa only [if_pos hcopy] using hgives
  · rw [ha] at hgives
    simp only [if_neg hne, State.refreshed_cfg, if_neg (Nat.not_lt.mpr hfar)] at hgives
    convert hgives using 1
    simp [Ctx.freeAcq_some (State.refreshed_acq s x i rest ▸ ha), Ctx.setAcq, Ctx.takeSlot, Ctx.count_eq]

/-! ## Far and behind arrivals -/

/-- A behind arrival that is no restart is judged by the release history. -/
theorem Ctx.outerArrival_behind {c : Ctx} {x : Path} {e : Seq} {d : Nat} {f : Frame} (hguard : c.guardDrops f.seq = false)
    (hd : 4032 ≤ d) (h : f.restart = false ∨ c.s.passedAt d ≠ .none) : c.outerArrival x e d f = c.behindArrival x d := by
  have hbehind : ¬ d < Config.behindFrom := Nat.not_lt.mpr hd
  rw [Ctx.outerArrival, if_neg (by rw [hguard]; simp), if_neg hbehind, if_neg]
  rintro ⟨hflag, hnone⟩
  obtain h | h := h
  · rw [h] at hflag; exact Bool.false_ne_true hflag
  · exact h hnone

theorem Ctx.outerArrival_dropped {c : Ctx} {x : Path} {e : Seq} {d : Nat} {f : Frame} (hguard : c.guardDrops f.seq = true) :
    c.outerArrival x e d f = c.count ctrStraggler := if_pos hguard

/-- The counter of a behind arrival, by what happened to its position. -/
def Passed.behindCtr (p : Passed) (x : Path) : Fin 24 :=
  match p with
  | .real => ctrTrailing x
  | .substituted => ctrLate x
  | .none => ctrStraySeq

theorem Ctx.behindArrival_eq (c : Ctx) (x : Path) (d : Nat) :
    c.behindArrival x d = c.count ((c.s.passedAt d).behindCtr x) := by
  unfold Ctx.behindArrival
  cases c.s.passedAt d <;> rfl

/-- An arrival in STALLED, by its distance from the frozen base. -/
theorem Ctx.stalledArrival_of_base {c : Ctx} {e : Seq} (x : Path) (f : Frame) (hb : c.s.base = some e) : c.stalledArrival x f =
    if dist f.seq e < c.cfg.window then
      ({ c with s := { c.s with state := .priming, run := 0 } }.nearArrival x f).noteState .resumed
    else if dist f.seq e < Config.behindFrom then
      ({ c with s := { c.s with history := historyNone, base := none, run := 0, state := .acquire } }.setAcq x f).noteState .reacquire
    else c.behindArrival x (dist f.seq e) := by
  simp only [Ctx.stalledArrival, hb]

theorem Ctx.stalledArrival_behind {c : Ctx} {x : Path} {e : Seq} {f : Frame} (hb : c.s.base = some e)
    (hw : c.cfg.window ≤ 64) (hd : 4032 ≤ dist f.seq e) : c.stalledArrival x f = c.behindArrival x (dist f.seq e) := by
  have hbehind : ¬ dist f.seq e < Config.behindFrom := Nat.not_lt.mpr hd
  rw [Ctx.stalledArrival_of_base x f hb, if_neg (by omega), if_neg hbehind]

/-- Settles O18: the history's judgement, in the states that play and in STALLED, and the straggler guard. -/
theorem behindArrivals : Obligations.BehindArrivals := by
  refine ⟨?_, fun s x i f rest e g hwaits hpass hplay hb hd hg hscreens => ?_⟩
  · rintro s x i f rest e c0 hwaits hpass hb hd hw rfl hcase
    have hbase : (s.refreshed x i rest).s.base = some e := by simpa using hb
    suffices hjudged : s.ArrivalGives x i rest ((s.refreshed x i rest).behindArrival x (dist f.seq e)) by
      rwa [Ctx.behindArrival_eq, Stream.passedAt, State.refreshed_history] at hjudged
    obtain ⟨hplay, hflag, hguard⟩ | hstalled := hcase
    · have hgives := hwaits.gives_run hpass hplay
      rw [Ctx.runArrival_outer hbase (by rw [State.refreshed_cfg]; omega), Ctx.outerArrival_behind hguard hd] at hgives
      · exact hgives
      · simpa only [Stream.passedAt, State.refreshed_history] using hflag
    · have hgives := hwaits.gives_stalled hpass hstalled
      rwa [Ctx.stalledArrival_behind hbase (by simpa using hw) hd] at hgives
  · have hgives := hwaits.gives_run hpass hplay
    rw [Ctx.runArrival_outer (e := e) (by simpa using hb) (by simpa using hd), Ctx.outerArrival_dropped] at hgives
    · exact hgives
    · simpa [Ctx.guardDrops, hg, Config.behindFrom] using hscreens

end Sys2Proof.Machine

/-! # Release, substitution and the release chain -/

namespace Sys2Proof.Machine

/-! ## Entries joining the queue -/

theorem Ctx.trimForInsert_queue (c : Ctx) :
    c.trimForInsert.s.queue = if c.cfg.trim ≤ c.s.queue.length then c.s.queue.tail else c.s.queue := by
  unfold Ctx.trimForInsert
  split
  · exact c.dropHead_queue
  · rfl

/-- What a full queue loses to the trim: its head, with the head's slot. -/
theorem Ctx.trimForInsert_of_full {c : Ctx} {h : QueueEntry} {t : List QueueEntry} (hqueue : c.s.queue = h :: t)
    (hfull : c.cfg.trim ≤ c.s.queue.length) :
    c.trimForInsert = ({ c with s := { c.s with queue := t } }.giveSlots h.slots).count ctrTrimmed := by
  rw [Ctx.trimForInsert, if_pos hfull]
  simp only [Ctx.dropHead, hqueue]

/-- A queue within T drops as many heads as one more entry would pass T. -/
theorem Ctx.trimForInsert_drop {c : Ctx} (hq : c.s.queue.length ≤ c.cfg.trim) :
    c.trimForInsert.s.queue = c.s.queue.drop (c.s.queue.length + 1 - c.cfg.trim) := by
  rw [c.trimForInsert_queue]
  split
  · next hfull => rw [show c.s.queue.length + 1 - c.cfg.trim = 1 by omega, List.drop_one]
  · next hroom => rw [show c.s.queue.length + 1 - c.cfg.trim = 0 by omega, List.drop_zero]

theorem Ctx.trimForInsert_tally {c : Ctx} (ht : 1 ≤ c.cfg.trim) (hq : c.s.queue.length ≤ c.cfg.trim) :
    Tally c.s.counters c.trimForInsert.s.counters (Pi.single ctrTrimmed (c.s.queue.length + 1 - c.cfg.trim)) := by
  unfold Ctx.trimForInsert
  split
  · next hfull =>
    rw [show c.s.queue.length + 1 - c.cfg.trim = 1 by omega]
    exact dropHead_tally fun hnil => by rw [hnil, List.length_nil] at hfull; omega
  · next hroom =>
    rw [show c.s.queue.length + 1 - c.cfg.trim = 0 by omega]
    exact (Tally.refl _).congr (Pi.single_zero _).symm

/-- How often the joining of `es` advances each counter, at a queue of `len` entries and the trim point T. -/
def joinCounts (trim len : Nat) (es : List QueueEntry) : Fin 24 → Nat :=
  Pi.single ctrReleased (queueSlots es) + Pi.single ctrSubstPush (es.length - queueSlots es) +
    Pi.single ctrTrimmed (len + es.length - trim)

/-- From c to c' the entries `es` have joined the queue, the heads beyond T trimmed, as E passed their positions. It does
not speak of the window and the timer. -/
structure Ctx.Joined (c : Ctx) (es : List QueueEntry) (c' : Ctx) : Prop where
  same : c.SamePlay c'
  base : c'.s.base = c.s.base.map (· + BitVec.ofNat 12 es.length)
  queue : c'.s.queue = (c.s.queue ++ es).drop (c.s.queue.length + es.length - c.cfg.trim)
  history : c'.s.history = ((es.map QueueEntry.passed).reverse ++ c.s.history).take 64
  tally : Tally c.s.counters c'.s.counters (joinCounts c.cfg.trim c.s.queue.length es)

theorem Ctx.Joined.nil {c : Ctx} (hq : c.s.queue.length ≤ c.cfg.trim) (hh : c.s.history.length ≤ 64) : c.Joined [] c where
  same := SamePlay.refl c
  base := by simp
  queue := by simp [Nat.sub_eq_zero_of_le hq]
  history := by simp [List.take_of_length_le hh]
  tally := (Tally.refl _).congr (by simp [joinCounts, Nat.sub_eq_zero_of_le hq])

theorem Ctx.Joined.length_le {c c' : Ctx} {es : List QueueEntry} (h : c.Joined es c') : c'.s.queue.length ≤ c.cfg.trim := by
  rw [h.queue, List.length_drop, List.length_append]
  omega

/-- The heads trimmed by two joinings are those trimmed by the joining of both lists. -/
theorem trimmed_add {q es trim es' : Nat} (h : q ≤ trim) :
    (q + es - trim) + (q + es - (q + es - trim) + es' - trim) = q + (es + es') - trim := by omega

theorem Ctx.Joined.trans {a b c : Ctx} {es es' : List QueueEntry} (h : a.Joined es b) (h' : b.Joined es' c)
    (hq : a.s.queue.length ≤ a.cfg.trim) : a.Joined (es ++ es') c := by
  have hcfg : b.cfg = a.cfg := h.same.2.1
  have hlen : b.s.queue.length = a.s.queue.length + es.length - (a.s.queue.length + es.length - a.cfg.trim) := by
    rw [h.queue, List.length_drop, List.length_append]
  have htrimmed := trimmed_add (es := es.length) (es' := es'.length) hq
  refine ⟨h.same.trans h'.same, ?_, ?_, ?_, (h.tally.trans h'.tally).congr ?_⟩
  · rw [h'.base, h.base, Option.map_map, List.length_append, BitVec.ofNat_add]
    exact congrArg (fun g => Option.map g a.s.base) (funext fun e => BitVec.add_assoc ..)
  · rw [h'.queue, hcfg, hlen, h.queue, ← List.drop_append_of_le_length (by rw [List.length_append]; omega), List.drop_drop,
      List.append_assoc, htrimmed, List.length_append]
  · rw [h'.history, h.history, take_append_take, List.map_append, List.reverse_append, List.append_assoc]
  · have hslots := queueSlots_le es
    have hslots' := queueSlots_le es'
    rw [hcfg, hlen, joinCounts, joinCounts, joinCounts, add_add_add_comm, add_add_add_comm (Pi.single ctrReleased _),
      ← Pi.single_add, ← Pi.single_add, ← Pi.single_add, htrimmed, queueSlots_append, List.length_append]
    congr 3
    omega

/-- A frame's entry has joined the queue. -/
theorem Ctx.joined_real {c c1 c' : Ctx} {e : Seq} {q : Bool} {ws : List Word} (ht : 1 ≤ c.cfg.trim)
    (hq : c.s.queue.length ≤ c.cfg.trim) (hs : c1.s = c.trimForInsert.s)
    (hc : c'.s = (((c1.append (.real e q ws)).advance .real).count ctrReleased).s) (hsame : c.SamePlay c') :
    c.Joined [.real e q ws] c' := by
  have hdrop := Ctx.trimForInsert_drop hq
  refine ⟨hsame, ?_, ?_, ?_, ?_⟩
  · simp [hc, hs]
  · simp [hc, hs, hdrop, List.drop_append_of_le_length (show c.s.queue.length + 1 - c.cfg.trim ≤ c.s.queue.length by omega)]
  · simp [hc, hs, QueueEntry.passed, Config.historyDepth]
  · have htrim := Ctx.trimForInsert_tally ht hq
    have hcount := ((c1.append (.real e q ws)).advance .real).count_tally ctrReleased
    rw [Ctx.advance_s_counters, Ctx.append_s_counters, hs, ← hc] at hcount
    exact (htrim.trans hcount).congr (by simp [joinCounts, add_comm])

theorem Ctx.releaseHeld_joined {c : Ctx} (e : Seq) (q : Bool) (ws : List Word) (ht : 1 ≤ c.cfg.trim)
    (hq : c.s.queue.length ≤ c.cfg.trim) : c.Joined [.real e q ws] (c.releaseHeld e q ws) :=
  Ctx.joined_real ht hq rfl rfl (c.releaseHeld_same e q ws)

theorem Ctx.releaseNew_joined {c : Ctx} (e : Seq) (q : Bool) (ws : List Word) (ht : 1 ≤ c.cfg.trim)
    (hq : c.s.queue.length ≤ c.cfg.trim) : c.Joined [.real e q ws] (c.releaseNew e q ws) :=
  Ctx.joined_real (c1 := c.trimForInsert.takeSlot) ht hq rfl rfl (c.releaseNew_same e q ws)

theorem Ctx.substitute_of_base {c : Ctx} {e : Seq} (hb : c.s.base = some e) :
    c.substitute = (c.trimForInsert.append (.subst e)).advance .substituted := by
  unfold Ctx.substitute
  rw [hb]

/-- A substitution that a push causes. -/
theorem Ctx.substitute_joined {c : Ctx} {e : Seq} (hb : c.s.base = some e) (ht : 1 ≤ c.cfg.trim)
    (hq : c.s.queue.length ≤ c.cfg.trim) : c.Joined [.subst e] (c.substitute.count ctrSubstPush) := by
  have hdrop := Ctx.trimForInsert_drop hq
  refine ⟨c.substitute_same.trans (by simp [SamePlay]), ?_, ?_, ?_, ?_⟩
  · simp
  · simp [substitute_of_base hb, hdrop,
      List.drop_append_of_le_length (show c.s.queue.length + 1 - c.cfg.trim ≤ c.s.queue.length by omega)]
  · simp [substitute_of_base hb, QueueEntry.passed, Config.historyDepth]
  · have htrim := Ctx.trimForInsert_tally ht hq
    have hcount := c.substitute.count_tally ctrSubstPush
    rw [substitute_of_base hb, Ctx.advance_s_counters, Ctx.append_s_counters, ← substitute_of_base hb] at hcount
    exact (htrim.trans hcount).congr (by simp [joinCounts, add_comm])

/-- The whole stream after a joining, but for window, timer and counters. -/
theorem Ctx.Joined.s {c c' : Ctx} {es : List QueueEntry} (h : c.Joined es c') : c'.s = { c.s with
    base := c.s.base.map (· + BitVec.ofNat 12 es.length)
    queue := (c.s.queue ++ es).drop (c.s.queue.length + es.length - c.cfg.trim)
    history := ((es.map QueueEntry.passed).reverse ++ c.s.history).take 64
    window := c'.s.window, timer := c'.s.timer, counters := c'.s.counters } := by
  obtain ⟨-, -, -, hstate, hdrain, hacq, hjump, hguard, hpathA, hpathB, hrun, hlast, hphase⟩ := h.same
  rw [← h.base, ← h.queue, ← h.history]
  dsimp only
  rw [← hstate, ← hdrain, ← hacq, ← hjump, ← hguard, ← hpathA, ← hpathB, ← hrun, ← hlast,
    ← hphase]

/-! ## The timer step -/

/-- The gap timer of c' is the one that a timer step leaves over its window: a timer of c keeps its count, else the wait value
of c starts one unless it is 0. -/
def Ctx.Settled (c c' : Ctx) : Prop := c'.s.timer = if c'.s.window = [] then none else if c.s.timer.isSome then c.s.timer
  else if c.waitValue = 0 then none else some c.waitValue

theorem Ctx.waitValue_congr {c d : Ctx} (hcfg : d.cfg = c.cfg) (ha : d.s.pathA = c.s.pathA) (hb : d.s.pathB = c.s.pathB) :
    d.waitValue = c.waitValue := by
  unfold Ctx.waitValue
  rw [hcfg, ha, hb]

theorem Ctx.SamePlay.waitValue {c d : Ctx} (h : c.SamePlay d) : d.waitValue = c.waitValue := by
  obtain ⟨-, hcfg, -, -, -, -, -, -, hpathA, hpathB, -⟩ := h
  exact waitValue_congr hcfg hpathA hpathB

theorem Ctx.settleTimer_settled {c d : Ctx} (htimer : d.s.timer = c.s.timer) (hwait : d.waitValue = c.waitValue) :
    c.Settled d.settleTimer := by
  unfold Ctx.Settled
  rw [d.settleTimer_timer, d.settleTimer_s_window, htimer, hwait]
  cases c.s.timer <;> rfl

/-- A later timer step leaves the first one's timer while held frames remain. -/
theorem Ctx.Settled.trans {a b c : Ctx} (h : a.Settled b) (h' : b.Settled c) (hwait : b.waitValue = a.waitValue)
    (hwindow : b.s.window = [] → c.s.window = []) : a.Settled c := by
  unfold Ctx.Settled at *
  rw [h', hwait]
  by_cases hc : c.s.window = []
  · rw [if_pos hc, if_pos hc]
  · rw [if_neg hc, if_neg hc, h, if_neg fun hb => hc (hwindow hb)]
    by_cases ha : a.s.timer.isSome = true
    · simp [ha]
    · by_cases hw : a.waitValue = 0 <;> simp [ha, hw]

/-! ## The release chain -/

/-- The frame held for a position, where every position is held once. -/
theorem heldAt_eq_some_iff {s : Stream} (hnodup : (s.window.map WindowEntry.seq).Nodup) {p : Seq} {w : WindowEntry} :
    s.heldAt p = some w ↔ w ∈ s.window ∧ w.seq = p := by
  refine ⟨heldAt_some, fun ⟨hw, hp⟩ => ?_⟩
  cases h : s.heldAt p with
  | none => exact absurd hp (heldAt_none_iff.mp h w hw)
  | some v =>
    obtain ⟨hv, hvp⟩ := heldAt_some h
    rw [List.inj_on_of_nodup_map hnodup hv hw (hvp.trans hp.symm)]

/-- Either the base is not held, or a frame is held for it. -/
theorem Ctx.base_held_or_not (c : Ctx) :
    (∀ e, c.s.base = some e → c.s.heldAt e = none) ∨ ∃ e w, c.s.base = some e ∧ c.s.heldAt e = some w := by
  cases hb : c.s.base with
  | none => exact .inl fun e he => by cases he
  | some e =>
    cases hw : c.s.heldAt e with
    | none => exact .inl fun e' he => by cases he; exact hw
    | some w => exact .inr ⟨e, w, rfl, hw⟩

theorem Ctx.chainReleases_stop {c : Ctx} (h : ∀ e, c.s.base = some e → c.s.heldAt e = none) (n : Nat) :
    Ctx.chainReleases n c = c := by
  cases n with
  | zero => rfl
  | succ n =>
    cases hb : c.s.base with
    | none => simp only [chainReleases, hb]
    | some e => simp only [chainReleases, hb, h e hb]

theorem Ctx.chainReleases_go {c : Ctx} {e : Seq} {w : WindowEntry} (hb : c.s.base = some e) (hw : c.s.heldAt e = some w)
    (n : Nat) : Ctx.chainReleases (n + 1) c = Ctx.chainReleases n ((c.removeHeld e).releaseHeld e w.q w.words) := by
  simp only [chainReleases, hb, hw]

/-- What every release of a held position keeps, the chain's releases keep: k counts the positions passed. They end at a
position that is not held, each having taken one frame from the window. -/
theorem Ctx.chainReleases_keeps {P : Nat → Ctx → Prop}
    (hstep : ∀ {k : Nat} {c : Ctx} {e : Seq} {w : WindowEntry}, P k c → c.s.base = some e → c.s.heldAt e = some w →
      P (k + 1) ((c.removeHeld e).releaseHeld e w.q w.words))
    (n : Nat) {k : Nat} {c : Ctx} (h : P k c) (hnodup : (c.s.window.map WindowEntry.seq).Nodup)
    (hn : c.s.window.length ≤ n) :
    ∃ k', P k' (Ctx.chainReleases n c) ∧ (Ctx.chainReleases n c).s.window.length + k' = c.s.window.length + k ∧
      ∀ e, (Ctx.chainReleases n c).s.base = some e → (Ctx.chainReleases n c).s.heldAt e = none := by
  induction n generalizing k c with
  | zero =>
    have hnil : c.s.window = [] := List.length_eq_zero_iff.mp (by omega)
    exact ⟨k, h, rfl, fun e _ => heldAt_none_iff.mpr (by simp [chainReleases, hnil])⟩
  | succ n ih =>
    obtain hstop | ⟨e, w, hb, hw⟩ := c.base_held_or_not
    · rw [chainReleases_stop hstop]
      exact ⟨k, h, rfl, hstop⟩
    · obtain ⟨hmem, rfl⟩ := heldAt_some hw
      have hlength := removed_length hnodup hmem
      have hwindow : ((c.removeHeld w.seq).releaseHeld w.seq w.q w.words).s.window =
          c.s.window.filter fun v => !decide (v.seq = w.seq) := by simp
      obtain ⟨k', hk', hlength', hend⟩ := ih (hstep h hb hw)
        (by rw [hwindow]; exact hnodup.sublist (List.Sublist.map _ List.filter_sublist)) (by rw [hwindow]; omega)
      rw [hwindow] at hlength'
      rw [chainReleases_go hb hw]
      exact ⟨k', hk', by omega, hend⟩

/-- The releases of a chain leave the timer and all that release leaves. -/
theorem Ctx.chainReleases_same (n : Nat) (c : Ctx) :
    c.SamePlay (Ctx.chainReleases n c) ∧ (Ctx.chainReleases n c).s.timer = c.s.timer := by
  induction n generalizing c with
  | zero => exact ⟨SamePlay.refl c, rfl⟩
  | succ n ih =>
    obtain hstop | ⟨e, w, hb, hw⟩ := c.base_held_or_not
    · rw [chainReleases_stop hstop]
      exact ⟨SamePlay.refl c, rfl⟩
    · rw [chainReleases_go hb hw]
      obtain ⟨hsame, htimer⟩ := ih ((c.removeHeld e).releaseHeld e w.q w.words)
      have hremoved : c.SamePlay (c.removeHeld e) := by simp [SamePlay]
      exact ⟨(hremoved.trans (releaseHeld_same _ e w.q w.words)).trans hsame, by rw [htimer]; simp⟩

/-- The timer step that ends a chain. -/
theorem Ctx.chain_settled (c : Ctx) : c.Settled c.chain :=
  settleTimer_settled (chainReleases_same _ c).2 (chainReleases_same _ c).1.waitValue

/-- What a chain has passed: k positions from e, each of them held. -/
structure Ctx.Chained (c : Ctx) (e : Seq) (k : Nat) (c' : Ctx) : Prop where
  base : c'.s.base = some (e + BitVec.ofNat 12 k)
  subset : ∀ v ∈ c'.s.window, v ∈ c.s.window
  passed : ∀ m < k, ∃ v ∈ c.s.window, v.seq = e + BitVec.ofNat 12 m

theorem Ctx.Chained.release {c c' : Ctx} {e p : Seq} {k : Nat} {w : WindowEntry} (h : c.Chained e k c')
    (hb : c'.s.base = some p) (hw : c'.s.heldAt p = some w) :
    c.Chained e (k + 1) ((c'.removeHeld p).releaseHeld p w.q w.words) := by
  obtain ⟨hmem, hseq⟩ := heldAt_some hw
  have hp : p = e + BitVec.ofNat 12 k := Option.some.inj (hb.symm.trans h.base)
  refine ⟨?_, fun v hv => h.subset v ?_, fun m hm => ?_⟩
  · rw [releaseHeld_s_base, removeHeld_s_base, h.base, BitVec.ofNat_add, ← BitVec.add_assoc]; rfl
  · rw [releaseHeld_s_window, removeHeld_s_window] at hv
    exact List.mem_of_mem_filter hv
  · obtain hlt | rfl := Nat.lt_succ_iff_lt_or_eq.mp hm
    · exact h.passed m hlt
    · exact ⟨w, h.subset w hmem, hseq.trans hp⟩

/-- Where a release chain ends. -/
theorem Ctx.chain_chained {c : Ctx} {e : Seq} (hb : c.s.base = some e) (hnodup : (c.s.window.map WindowEntry.seq).Nodup) :
    ∃ k, c.Chained e k c.chain ∧ c.chain.s.heldAt (e + BitVec.ofNat 12 k) = none ∧
      c.chain.s.window.length + k = c.s.window.length := by
  have hstart : c.Chained e 0 c := ⟨by simp [hb], fun v hv => hv, fun m hm => absurd hm (Nat.not_lt_zero m)⟩
  obtain ⟨k, hk, hlength, hend⟩ := Ctx.chainReleases_keeps (P := fun k c' => c.Chained e k c')
    (fun h hb' hw => h.release hb' hw) c.s.window.length hstart hnodup (Nat.le_refl _)
  refine ⟨k, ⟨?_, ?_, hk.passed⟩, ?_, ?_⟩
  · rw [chain, settleTimer_s_base]; exact hk.base
  · rw [chain, settleTimer_s_window]; exact hk.subset
  · rw [heldAt_none_iff, chain, settleTimer_s_window]; exact heldAt_none_iff.mp (hend _ hk.base)
  · rw [chain, settleTimer_s_window]; exact hlength

/-- A chain over an empty window releases nothing and removes the timer. -/
theorem Ctx.chain_of_empty {c : Ctx} (h : c.s.window = []) : c.chain = { c with s := { c.s with timer := none } } := by
  unfold Ctx.chain Ctx.settleTimer
  rw [h, List.length_nil, Ctx.chainReleases, if_pos h]

/-- Settles O22: each operation is the trim with the entry joined; the chain ends as `chain_chained` and `chain_settled` say. -/
theorem releaseSubstituteAndChain : Obligations.ReleaseSubstituteAndChain := by
  refine ⟨fun c e hb ht hq => ⟨c.trimForInsert, rfl, c.trimForInsert_queue, fun h t hqueue hfull => ?_,
    fun hroom => c.trimForInsert_of_room hroom, fun q ws => ?_, ?_, ?_⟩, fun c e hb hnodup => ?_⟩
  · rw [Ctx.trimForInsert_of_full hqueue hfull]
    cases h <;> simp
  · have hbase : c.trimForInsert.s.base = some e := by rw [Ctx.trimForInsert_s_base, hb]
    constructor
    · simp only [Ctx.releaseHeld, Ctx.advance, Ctx.append, hbase, Option.map_some, Config.historyDepth]
    · simp only [Ctx.releaseNew, Ctx.takeSlot, Ctx.advance, Ctx.append, hbase, Option.map_some, Config.historyDepth]
  · have hbase : c.trimForInsert.s.base = some e := by rw [Ctx.trimForInsert_s_base, hb]
    simp only [Ctx.substitute_of_base hb, Ctx.advance, Ctx.append, hbase, Option.map_some, Config.historyDepth]
  · simpa only [Ctx.count_s_queue] using (Ctx.substitute_joined hb ht hq).length_le
  · obtain ⟨k, hchained, hnotHeld, hlength⟩ := Ctx.chain_chained hb hnodup
    exact ⟨k, _, hchained.base, rfl, hnotHeld, hlength, hchained.subset, hchained.passed, c.chain_settled⟩

end Sys2Proof.Machine

/-! # Arrivals near the base -/

namespace Sys2Proof.Machine

/-! ## The counters of an arrival -/

theorem ctrAccepted_ne (x : Path) : ctrAccepted x ≠ ctrReleased ∧ ctrAccepted x ≠ ctrSubstPush ∧ ctrAccepted x ≠ ctrTrimmed ∧
    ctrAccepted x ≠ ctrStraySeq := by cases x <;> decide

theorem passing_ctrs_ne : ctrReleased ≠ ctrSubstPush ∧ ctrReleased ≠ ctrTrimmed ∧ ctrReleased ≠ ctrStraySeq ∧
    ctrSubstPush ≠ ctrTrimmed ∧ ctrSubstPush ≠ ctrStraySeq ∧ ctrTrimmed ≠ ctrStraySeq := by decide

/-- How often an accepted arrival on path x advances each counter: `stray` jump candidates discarded, the entries `es` joining
a queue of `len` entries, ACCEPTED_X once. -/
def arrivalCounts (x : Path) (stray trim len : Nat) (es : List QueueEntry) : Fin 24 → Nat :=
  Pi.single ctrStraySeq stray + joinCounts trim len es + Pi.single (ctrAccepted x) 1

/-- The counters that an accepted arrival advances, each with its number. -/
theorem arrivalCounts_at (x : Path) (stray trim len : Nat) (es : List QueueEntry) :
    arrivalCounts x stray trim len es (ctrAccepted x) = 1 ∧
    arrivalCounts x stray trim len es ctrReleased = queueSlots es ∧
    arrivalCounts x stray trim len es ctrSubstPush = es.length - queueSlots es ∧
    arrivalCounts x stray trim len es ctrTrimmed = len + es.length - trim ∧
    arrivalCounts x stray trim len es ctrStraySeq = stray := by
  obtain ⟨h1, h2, h3, h4⟩ := ctrAccepted_ne x
  obtain ⟨h5, h6, h7, h8, h9, h10⟩ := passing_ctrs_ne
  simp [arrivalCounts, joinCounts, h1, h2, h3, h4, h5, h6, h7, h8, h9, h10, h1.symm, h2.symm, h3.symm, h4.symm, h5.symm,
    h6.symm, h7.symm, h8.symm, h9.symm, h10.symm]

/-- The counters after an accepted arrival. -/
theorem Tally.arrival {a b : Vector Counter 24} {x : Path} {stray trim len : Nat} {es : List QueueEntry}
    (h : Tally a b (arrivalCounts x stray trim len es)) :
    b[ctrAccepted x] = a[ctrAccepted x].bump ∧ b[ctrReleased] = Counter.bump^[queueSlots es] a[ctrReleased] ∧
    b[ctrTrimmed] = Counter.bump^[len + es.length - trim] a[ctrTrimmed] ∧
    b[ctrStraySeq] = Counter.bump^[stray] a[ctrStraySeq] := by
  obtain ⟨hA, hR, -, hT, hS⟩ := arrivalCounts_at x stray trim len es
  exact ⟨by rw [h, hA]; rfl, by rw [h, hR], by rw [h, hT], by rw [h, hS]⟩

/-- No counter outside `ks` advances, if `ks` names those that do. -/
theorem arrivalCounts_of_not_mem {x : Path} {stray trim len : Nat} {es : List QueueEntry} {ks : List (Fin 24)} {k : Fin 24}
    (hk : k ∉ ks) (hA : ctrAccepted x ∈ ks) (hR : ctrReleased ∈ ks ∨ queueSlots es = 0)
    (hP : ctrSubstPush ∈ ks ∨ es.length = queueSlots es) (hT : ctrTrimmed ∈ ks ∨ len + es.length ≤ trim)
    (hS : ctrStraySeq ∈ ks ∨ stray = 0) : arrivalCounts x stray trim len es k = 0 := by
  have hne : ∀ {j : Fin 24}, j ∈ ks → k ≠ j := fun hj he => hk (he ▸ hj)
  have hsingle : ∀ {j : Fin 24} {n : Nat}, j ∈ ks ∨ n = 0 → (Pi.single j n : Fin 24 → Nat) k = 0 := fun h => by
    obtain h | rfl := h
    · exact Pi.single_eq_of_ne (hne h) _
    · rw [Pi.single_zero]; rfl
  simp only [arrivalCounts, joinCounts, Pi.add_apply]
  rw [hsingle hS, hsingle hR, hsingle (hP.imp_right fun h => Nat.sub_eq_zero_of_le h.le), hsingle (hT.imp_right Nat.sub_eq_zero_of_le),
    hsingle (.inl hA)]

/-- Index, record in force, presence, last payload, phase, drain record and offered record are those of c0. -/
abbrev Ctx.SameSide (c0 c : Ctx) : Prop :=
  c.idx = c0.idx ∧ c.cfg = c0.cfg ∧ c.s.pathA = c0.s.pathA ∧ c.s.pathB = c0.s.pathB ∧ c.s.last = c0.s.last ∧
  c.s.phase = c0.s.phase ∧ c.s.drain = c0.s.drain ∧ c.record = c0.record

theorem Ctx.SameSide.trans {a b c : Ctx} (h : a.SameSide b) (h' : b.SameSide c) : a.SameSide c := by
  obtain ⟨h1, h2, h3, h4, h5, h6, h7, h8⟩ := h
  obtain ⟨k1, k2, k3, k4, k5, k6, k7, k8⟩ := h'
  exact ⟨k1.trans h1, k2.trans h2, k3.trans h3, k4.trans h4, k5.trans h5, k6.trans h6, k7.trans h7, k8.trans h8⟩

theorem Ctx.SameSide.waitValue {c d : Ctx} (h : c.SameSide d) : d.waitValue = c.waitValue := by
  obtain ⟨-, hcfg, hA, hB, -⟩ := h
  exact waitValue_congr hcfg hA hB

/-- A context that keeps its parts and advances none but the counters `ks`. -/
theorem Tally.keeps {c0 c : Ctx} {n : Fin 24 → Nat} (h : Tally c0.s.counters c.s.counters n) (hside : c0.SameSide c)
    (hrecord : c0.record = none) {ks : List (Fin 24)} (hks : ∀ k, k ∉ ks → n k = 0) : c0.Keeps c ks := by
  obtain ⟨hidx, hcfg, hA, hB, hlast, hphase, hdrain, hrec⟩ := hside
  exact ⟨hidx, hcfg, hA, hB, hlast, hphase, hdrain, hrec.trans hrecord, fun k hk => by rw [h k, hks k hk]; rfl⟩

/-! ## The jump candidate of the arrival's path -/

/-- How many jump candidates of path x a stream holds: one or none. -/
def Stream.strays (a : Stream) (x : Path) : Nat := (a.jump.filter fun j => decide (j.path = x)).toList.length

theorem Stream.strays_of_none {a : Stream} {x : Path} (h : ∀ j ∈ a.jump, j.path ≠ x) : a.strays x = 0 := by
  unfold Stream.strays
  cases hj : a.jump with
  | none => rfl
  | some j => simp [Option.filter, h j hj]

theorem Stream.strays_of_some {a : Stream} {x : Path} {j : JumpCandidate} (hj : a.jump = some j) (h : j.path = x) :
    a.strays x = 1 := by simp [Stream.strays, hj, Option.filter, h]

theorem Ctx.discardJumpOn_of_none {c : Ctx} {x : Path} (h : ∀ j ∈ c.s.jump, j.path ≠ x) : c.discardJumpOn x = c := by
  unfold Ctx.discardJumpOn
  split
  · rfl
  · next j hj => exact if_neg (h j hj)

theorem Ctx.discardJumpOn_of_some {c : Ctx} {x : Path} {j : JumpCandidate} (hj : c.s.jump = some j) (h : j.path = x) :
    c.discardJumpOn x = ({ c with s := { c.s with jump := none } }.giveSlots 1).count ctrStraySeq := by
  simp only [Ctx.discardJumpOn, hj, if_pos h, Ctx.strayJump]

/-- A stream holds no jump candidate of path x, or holds one. -/
theorem Stream.jump_on (a : Stream) (x : Path) : (∀ j ∈ a.jump, j.path ≠ x) ∨ ∃ j, a.jump = some j ∧ j.path = x := by
  cases hj : a.jump with
  | none => exact .inl fun j h => by cases h
  | some j =>
    by_cases h : j.path = x
    · exact .inr ⟨j, rfl, h⟩
    · exact .inl fun k hk => by cases hk; exact h

@[simp] theorem Ctx.discardJumpOn_s_jump (c : Ctx) (x : Path) :
    (c.discardJumpOn x).s.jump = c.s.jump.filter fun j => !decide (j.path = x) := by
  obtain h | ⟨j, hj, h⟩ := c.s.jump_on x
  · rw [discardJumpOn_of_none h]
    cases hj : c.s.jump with
    | none => rfl
    | some j => simp [Option.filter, h j hj]
  · rw [discardJumpOn_of_some hj h, hj]
    simp [Option.filter, h]

theorem Ctx.discardJumpOn_free (c : Ctx) (x : Path) : (c.discardJumpOn x).free = c.free + c.s.strays x := by
  obtain h | ⟨j, hj, h⟩ := c.s.jump_on x
  · rw [discardJumpOn_of_none h, Stream.strays_of_none h, Nat.add_zero]
  · rw [discardJumpOn_of_some hj h, Stream.strays_of_some hj h]
    simp

theorem Ctx.discardJumpOn_tally (c : Ctx) (x : Path) :
    Tally c.s.counters (c.discardJumpOn x).s.counters (Pi.single ctrStraySeq (c.s.strays x)) := by
  obtain h | ⟨j, hj, h⟩ := c.s.jump_on x
  · rw [discardJumpOn_of_none h, Stream.strays_of_none h]
    exact (Tally.refl _).congr (Pi.single_zero _).symm
  · rw [discardJumpOn_of_some hj h, Stream.strays_of_some hj h]
    exact count_tally ({ c with s := { c.s with jump := none } }.giveSlots 1) ctrStraySeq

/-- The stream without its jump candidate of path x. -/
theorem Ctx.discardJumpOn_s (c : Ctx) (x : Path) : (c.discardJumpOn x).s = { c.s with
    jump := c.s.jump.filter fun j => !decide (j.path = x), counters := (c.discardJumpOn x).s.counters } := by
  rw [← c.discardJumpOn_s_jump x]
  obtain h | ⟨j, hj, h⟩ := c.s.jump_on x
  · rw [discardJumpOn_of_none h]
  · rw [discardJumpOn_of_some hj h]
    simp [Ctx.count_eq]

/-- The discard is done once: a second one finds no candidate of the path. -/
theorem Ctx.discardJumpOn_of_filtered {c d : Ctx} {x : Path} (h : d.s.jump = c.s.jump.filter fun j => !decide (j.path = x)) :
    d.discardJumpOn x = d := by
  refine discardJumpOn_of_none fun j hj => ?_
  rw [h] at hj
  simpa using (Option.mem_filter_iff.mp hj).2

/-! ## A base arrival over an empty window -/

section
variable {c : Ctx} {x : Path} {f : Frame}

/-- The entries that join at a base arrival over an empty window: the frame's alone. -/
theorem Ctx.baseArrival_of_empty (hw : c.s.window = []) : c.baseArrival x f =
    { ((c.discardJumpOn x).releaseNew f.seq f.q f.words).count (ctrAccepted x) with
      s := { (((c.discardJumpOn x).releaseNew f.seq f.q f.words).count (ctrAccepted x)).s with timer := none } } :=
  Ctx.chain_of_empty (by simp [hw])

theorem Ctx.baseArrival_s (hw : c.s.window = []) (ht : 1 ≤ c.cfg.trim) (hq : c.s.queue.length ≤ c.cfg.trim) :
    (c.baseArrival x f).s = { c.s with
      base := c.s.base.map (· + 1)
      queue := (c.s.queue ++ [QueueEntry.real f.seq f.q f.words]).drop (c.s.queue.length + 1 - c.cfg.trim)
      history := (Passed.real :: c.s.history).take 64, jump := c.s.jump.filter fun j => !decide (j.path = x)
      timer := none, counters := (c.baseArrival x f).s.counters } := by
  have hjoin := Ctx.releaseNew_joined (c := c.discardJumpOn x) f.seq f.q f.words (by simpa using ht) (by simpa using hq)
  have hs := hjoin.s
  rw [c.discardJumpOn_s x] at hs
  rw [baseArrival_of_empty hw]
  simp only [Ctx.count_eq]
  rw [hs]
  simp [QueueEntry.passed]

theorem Ctx.baseArrival_tally (hw : c.s.window = []) (ht : 1 ≤ c.cfg.trim) (hq : c.s.queue.length ≤ c.cfg.trim) :
    Tally c.s.counters (c.baseArrival x f).s.counters
      (arrivalCounts x (c.s.strays x) c.cfg.trim c.s.queue.length [.real f.seq f.q f.words]) := by
  have hjoin := Ctx.releaseNew_joined (c := c.discardJumpOn x) f.seq f.q f.words (by simpa using ht) (by simpa using hq)
  have htally := hjoin.tally
  rw [discardJumpOn_cfg, discardJumpOn_s_queue] at htally
  rw [baseArrival_of_empty hw]
  exact ((c.discardJumpOn_tally x).trans htally).trans (Ctx.count_tally _ _)

theorem Ctx.baseArrival_side (hw : c.s.window = []) : c.SameSide (c.baseArrival x f) := by
  obtain ⟨hidx, hcfg, hrecord, -, hdrain, -, -, -, hA, hB, -, hlast, hphase⟩ :=
    (c.discardJumpOn x).releaseNew_same f.seq f.q f.words
  rw [baseArrival_of_empty hw]
  simp [Ctx.SameSide, hidx, hcfg, hrecord, hdrain, hA, hB, hlast, hphase]

/-- With room in the queue, a base arrival takes one slot beside the one a discarded candidate returns. -/
theorem Ctx.baseArrival_free (hw : c.s.window = []) (hq : c.s.queue.length < c.cfg.trim) :
    (c.baseArrival x f).free = c.free + c.s.strays x - 1 := by
  have hroom : (c.discardJumpOn x).trimForInsert = c.discardJumpOn x := trimForInsert_of_room _ (by simpa using hq)
  rw [baseArrival_of_empty hw]
  simp [Ctx.releaseNew, hroom, Ctx.discardJumpOn_free]

end

/-- The trimmed queue as `tail`: a queue within T drops its head exactly when it is full. -/
theorem drop_one_over {q : List QueueEntry} {trim : Nat} (ht : 1 ≤ trim) (hq : q.length ≤ trim) (e : QueueEntry) :
    (q ++ [e]).drop (q.length + 1 - trim) = (if trim ≤ q.length then q.tail else q) ++ [e] := by
  rw [List.drop_append_of_le_length (by omega)]
  split
  · next hfull => rw [show q.length + 1 - trim = 1 by omega, List.drop_one]
  · next hroom => rw [show q.length + 1 - trim = 0 by omega, List.drop_zero]

/-- The heads trimmed for one entry, counted. -/
theorem bump_one_over {len trim : Nat} (h : len ≤ trim) (a : Counter) :
    Counter.bump^[len + 1 - trim] a = if trim ≤ len then a.bump else a := by
  split
  · next hfull => rw [show len + 1 - trim = 1 by omega]; rfl
  · next hroom => rw [show len + 1 - trim = 0 by omega]; rfl

theorem State.refreshed_held (s : State) (x : Path) (i : StreamIdx) (rest : List Delivery) :
    (s.refreshed x i rest).s.held = (s.stream i).held := by simp [Stream.held]

theorem State.refreshed_strays (s : State) (x : Path) (i : StreamIdx) (rest : List Delivery) :
    (s.refreshed x i rest).s.strays x = (s.stream i).strays x := by simp [Stream.strays]

/-- A context in PRIMING or RUNNING: its queue within T, its window within W of its base. -/
theorem State.refreshed_play {s : State} (h : s.MergeOk) (x : Path) {i : StreamIdx} (rest : List Delivery) {e : Seq}
    (hplay : (s.stream i).state.playing = true) (hb : (s.stream i).base = some e) :
    (s.refreshed x i rest).PlayOk ∧ (s.refreshed x i rest).Play 1 e := by
  have hoff : (s.stream i).state ≠ .off := fun hs => by rw [hs] at hplay; cases hplay
  have hok := (State.refreshed_good h x rest hoff).playOk (by rwa [State.refreshed_state])
  obtain ⟨e', hp⟩ := hok.play
  have he : e' = e := Option.some.inj (hp.1.symm.trans (by rw [State.refreshed_base, hb]))
  exact ⟨hok, he ▸ hp⟩

theorem inForce_trim {s : State} (h : s.MergeOk) (i : StreamIdx) : 2 ≤ (s.inForce i).trim := by
  have := (wf_iff _).mp (inForce_wf h.2.1 i); omega

theorem inForce_window {s : State} (h : s.MergeOk) (i : StreamIdx) : 2 ≤ (s.inForce i).window ∧ (s.inForce i).window ≤ 64 := by
  have := (wf_iff _).mp (inForce_wf h.2.1 i); omega

/-- Settles O15: the base branch of an arrival near the base; over an empty window its chain releases nothing more. -/
theorem baseArrivalReleased : Obligations.BaseArrivalReleased := by
  have hnear : ∀ (s : State) (x : Path) (i : StreamIdx) (f : Frame) (rest : List Delivery), s.MergeOk → s.Waits x i f rest →
      s.Passes x i f → (s.stream i).state.playing = true → (s.stream i).base = some f.seq →
      s.ArrivalGives x i rest ((s.refreshed x i rest).baseArrival x f) := by
    intro s x i f rest h hwaits hpass hplay hb
    have hbase : (s.refreshed x i rest).s.base = some f.seq := by rw [State.refreshed_base, hb]
    have hgives := hwaits.gives_run hpass hplay
    have hnear : dist f.seq f.seq < (s.refreshed x i rest).cfg.window := by
      have := inForce_window h i
      rw [dist_self, State.refreshed_cfg]
      omega
    rwa [Ctx.runArrival_near hbase hnear, Ctx.nearArrival_base hbase] at hgives
  refine ⟨hnear, fun s x i f rest h hwaits hpass hplay hb hw => ⟨_, hnear s x i f rest h hwaits hpass hplay hb, ?_⟩⟩
  obtain ⟨hok, hp⟩ := State.refreshed_play h x rest hplay hb
  have htrim := inForce_trim h i
  have hqueue : (s.stream i).queue.length ≤ (s.inForce i).trim := by simpa using hp.2.2.2.1
  have hw' : (s.refreshed x i rest).s.window = [] := by rw [State.refreshed_window, hw]
  have hs := Ctx.baseArrival_s (x := x) (f := f) hw' (by rw [State.refreshed_cfg]; omega) hp.2.2.2.1
  have htally := Ctx.baseArrival_tally (x := x) (f := f) hw' (by rw [State.refreshed_cfg]; omega) hp.2.2.2.1
  have hside := Ctx.baseArrival_side (x := x) (f := f) hw'
  have htotal : _ + _ = _ + _ := (Ctx.baseArrival_fine x f hok hp).2.total
  have hkeeps := htally.keeps hside (State.refreshed_record s x i rest)
    (ks := [ctrAccepted x, ctrReleased, ctrTrimmed, ctrStraySeq])
    fun k hk => arrivalCounts_of_not_mem hk (by simp) (by simp) (by simp) (by simp) (by simp)
  obtain ⟨haccepted, hreleased, htrimmed, hstray⟩ := htally.arrival
  rw [State.refreshed_queue, State.refreshed_cfg, State.refreshed_counters] at htrimmed
  rw [State.refreshed_strays, State.refreshed_counters] at hstray
  refine ⟨by rw [hs]; simp [hb], by rw [hs]; simp [hw], by rw [hs], ?_, by rw [hs]; simp, by rw [hs]; simp, by rw [hs]; simp,
    by rw [hs]; simp, by rw [hs]; simp, hkeeps, by rw [hs]; simp, ?_, ?_, fun hnone => ?_, fun j hj hpath => ?_, ?_, ?_⟩
  · rw [hs, ← drop_one_over (by omega) hqueue]; simp
  · rw [htotal, State.refreshed_free, State.refreshed_held]
  · rw [htrimmed]; exact bump_one_over hqueue _
  · rw [hstray, Stream.strays_of_none hnone]; rfl
  · rw [hstray, Stream.strays_of_some hj hpath]; rfl
  · rw [haccepted, State.refreshed_counters]
  · rw [hreleased, State.refreshed_counters]; rfl

/-! ## A frame stored in the window -/

section
variable {c : Ctx} {x : Path} {e : Seq} {f : Frame}

/-- The context into which a frame is stored: the candidate of its path discarded, its slot taken. -/
theorem Ctx.storeHeld_eq (c : Ctx) (x : Path) (e : Seq) (f : Frame) : ∃ d : Ctx, d = { (c.discardJumpOn x).takeSlot with
      s := { (c.discardJumpOn x).s with window := insertHeld e ⟨f.seq, f.q, f.words⟩ c.s.window } } ∧
    c.storeHeld x e f =
      if c.s.window = [] then (d.count (ctrAccepted x)).startTimer else d.count (ctrAccepted x) := by
  refine ⟨_, rfl, ?_⟩
  unfold Ctx.storeHeld
  simp only [takeSlot_s, discardJumpOn_s_window]

theorem insertHeld_ne_nil (e : Seq) (w : WindowEntry) (l : List WindowEntry) : insertHeld e w l ≠ [] := fun h => by
  have := (insertHeld_perm e w l).length_eq
  rw [h] at this
  cases this

/-- The gap timer starts where none runs. -/
theorem Ctx.startTimer_timer {c : Ctx} (h : c.s.window ≠ []) :
    c.startTimer.s.timer = if c.s.timer = none ∧ c.waitValue ≠ 0 then some c.waitValue else c.s.timer := by
  unfold Ctx.startTimer
  rw [if_neg h]
  cases ht : c.s.timer with
  | some n => simp [ht]
  | none => by_cases hw : c.waitValue = 0 <;> simp [ht, hw]

theorem Ctx.startTimer_s (c : Ctx) : c.startTimer.s = { c.s with timer := c.startTimer.s.timer } := by
  unfold Ctx.startTimer
  split
  · rfl
  · split
    · rfl
    · split <;> rfl

theorem Ctx.storeHeld_s : (c.storeHeld x e f).s = { c.s with
    window := insertHeld e ⟨f.seq, f.q, f.words⟩ c.s.window, jump := c.s.jump.filter fun j => !decide (j.path = x)
    timer := if c.s.window = [] ∧ c.s.timer = none ∧ c.waitValue ≠ 0 then some c.waitValue else c.s.timer
    counters := (c.storeHeld x e f).s.counters } := by
  obtain ⟨d, hd, hstore⟩ := c.storeHeld_eq x e f
  have hs := c.discardJumpOn_s x
  have hds : (d.count (ctrAccepted x)).s = { c.s with
      window := insertHeld e ⟨f.seq, f.q, f.words⟩ c.s.window, jump := c.s.jump.filter fun j => !decide (j.path = x)
      counters := (d.count (ctrAccepted x)).s.counters } := by
    subst hd
    simp only [Ctx.count_eq]
    rw [hs]
  have hwait : (d.count (ctrAccepted x)).waitValue = c.waitValue :=
    waitValue_congr (by subst hd; simp) (by rw [hds]) (by rw [hds])
  rw [hstore]
  split
  · next hw =>
    have hne : (d.count (ctrAccepted x)).s.window ≠ [] := by rw [hds]; exact insertHeld_ne_nil _ _ _
    rw [startTimer_s, startTimer_timer hne, hwait, hds]
    simp [hw]
  · next hw =>
    rw [hds]
    simp [hw]

theorem Ctx.storeHeld_side : c.SameSide (c.storeHeld x e f) := by
  obtain ⟨d, hd, hstore⟩ := c.storeHeld_eq x e f
  subst hd
  rw [hstore]
  split <;> simp [Ctx.SameSide]

theorem Ctx.storeHeld_free : (c.storeHeld x e f).free = c.free + c.s.strays x - 1 := by
  obtain ⟨d, hd, hstore⟩ := c.storeHeld_eq x e f
  subst hd
  rw [hstore]
  split <;> simp [Ctx.discardJumpOn_free]

/-- A store joins no entry to the queue. -/
theorem Ctx.storeHeld_tally :
    Tally c.s.counters (c.storeHeld x e f).s.counters (arrivalCounts x (c.s.strays x) 0 0 []) := by
  obtain ⟨d, hd, hstore⟩ := c.storeHeld_eq x e f
  have hcounters : (c.storeHeld x e f).s.counters = (d.count (ctrAccepted x)).s.counters := by
    rw [hstore]
    split <;> simp
  have hdiscard := c.discardJumpOn_tally x
  rw [show (c.discardJumpOn x).s.counters = d.s.counters by subst hd; rfl] at hdiscard
  rw [hcounters]
  exact (hdiscard.trans (d.count_tally _)).congr (by simp [arrivalCounts, joinCounts])

end

/-- Settles O16: the two branches of an in-window arrival. -/
theorem windowArrivals : Obligations.WindowArrivals := by
  have hnear : ∀ (s : State) (x : Path) (i : StreamIdx) (f : Frame) (rest : List Delivery) (e : Seq), s.Waits x i f rest →
      s.Passes x i f → (s.stream i).state.playing = true → (s.stream i).base = some e → f.seq ≠ e →
      dist f.seq e < (s.inForce i).window →
      s.ArrivalGives x i rest ((s.refreshed x i rest).windowArrival x e f) := by
    intro s x i f rest e hwaits hpass hplay hb hne hd
    have hbase : (s.refreshed x i rest).s.base = some e := by rw [State.refreshed_base, hb]
    have hgives := hwaits.gives_run hpass hplay
    rwa [Ctx.runArrival_near hbase (by rwa [State.refreshed_cfg]), Ctx.nearArrival_window hbase hne] at hgives
  refine ⟨fun s x i f rest e hwaits hpass hplay hb hne hd hfree => ?_,
    fun s x i f rest e hwaits hpass hplay hb hne hd hheld => ?_⟩
  · have hgives := hnear s x i f rest e hwaits hpass hplay hb hne hd
    have hnone : (s.refreshed x i rest).s.heldAt f.seq = none := by
      rw [State.refreshed_heldAt]; exact heldAt_none_iff.mpr hfree
    simp only [Ctx.windowArrival, hnone] at hgives
    have hs := Ctx.storeHeld_s (c := s.refreshed x i rest) (x := x) (e := e) (f := f)
    have hslot := Ctx.storeHeld_free (c := s.refreshed x i rest) (x := x) (e := e) (f := f)
    have htally := Ctx.storeHeld_tally (c := s.refreshed x i rest) (x := x) (e := e) (f := f)
    have hkeeps := htally.keeps Ctx.storeHeld_side (State.refreshed_record s x i rest) (ks := [ctrAccepted x, ctrStraySeq])
      fun k hk => arrivalCounts_of_not_mem hk (by simp) (by simp) (by simp) (by simp) (by simp)
    obtain ⟨haccepted, -, -, hstray⟩ := htally.arrival
    rw [State.refreshed_strays, State.refreshed_counters] at hstray
    rw [State.refreshed_free, State.refreshed_strays] at hslot
    refine ⟨_, hgives, by rw [hs]; simp [hb], ?_, by rw [hs]; simp, by rw [hs]; simp, by rw [hs]; simp, by rw [hs]; simp,
      by rw [hs]; simp, by rw [hs]; simp, hkeeps, by rw [hs]; simp, fun hnone => ?_, fun j hj hpath => ?_, ?_, ?_⟩
    · rw [hs, State.refreshed_window]; exact insertHeld_perm _ _ _
    · rw [hslot, hstray, Stream.strays_of_none hnone]; exact ⟨rfl, rfl⟩
    · rw [hslot, hstray, Stream.strays_of_some hj hpath]; exact ⟨rfl, rfl⟩
    · rw [hs, State.refreshed_window, State.refreshed_timer]
    · rw [haccepted, State.refreshed_counters]
  · have hgives := hnear s x i f rest e hwaits hpass hplay hb hne hd
    refine ⟨?_, by simp, by simp⟩
    cases hw : (s.refreshed x i rest).s.heldAt f.seq with
    | none =>
      obtain ⟨v, hv, hseq⟩ := hheld
      exact absurd hseq (heldAt_none_iff.mp hw v (by rwa [State.refreshed_window]))
    | some w =>
      simp only [Ctx.windowArrival, hw] at hgives
      exact hgives

end Sys2Proof.Machine

/-! # The lock and the return from STALLED -/

namespace Sys2Proof.Machine

/-! ## The notice of a change of state -/

theorem Ctx.noteState_getLast {c : Ctx} (cause : Cause) (h : c.cfg.noticeMask.streamState = true) :
    (c.noteState cause).notes.getLast? = some (.streamState c.idx c.s.state cause) := by
  simp [Ctx.noteState, Ctx.note_eq, h]

/-- A STREAM_STATE notice changes none of the parts an arrival keeps. -/
theorem Ctx.SameSide.noteState {c d : Ctx} (h : c.SameSide d) (cause : Cause) : c.SameSide (d.noteState cause) := by
  simpa [Ctx.SameSide] using h

/-! ## An arrival near the base of an idle context -/

/-- A context with base e whose window holds nothing, with no candidate, no guard and no timer, and room in its queue. -/
structure Ctx.Clear (c : Ctx) (e : Seq) : Prop where
  base : c.s.base = some e
  window : c.s.window = []
  jump : c.s.jump = none
  timer : c.s.timer = none
  room : c.s.queue.length < c.cfg.trim

section
variable {c : Ctx} {x : Path} {e : Seq} {f : Frame}

theorem Ctx.Clear.strays (h : c.Clear e) : c.s.strays x = 0 :=
  Stream.strays_of_none fun j hj => by rw [h.jump] at hj; cases hj

/-- The frame that has the base's number is released. -/
theorem Ctx.Clear.base_s (h : c.Clear e) (he : f.seq = e) : (c.nearArrival x f).s = { c.s with
    base := some (e + 1), queue := c.s.queue ++ [.real f.seq f.q f.words], history := (.real :: c.s.history).take 64
    counters := (c.nearArrival x f).s.counters } := by
  have hroom := h.room
  have hdrop : c.s.queue.length + 1 - c.cfg.trim = 0 := by omega
  have hs := Ctx.baseArrival_s (x := x) (f := f) h.window (by omega) hroom.le
  rw [Ctx.nearArrival_base (by rw [h.base, he]), hs, hdrop, h.base]
  simp [h.timer, h.jump]

theorem Ctx.Clear.base_rest (h : c.Clear e) (he : f.seq = e) : c.SameSide (c.nearArrival x f) ∧
    (c.nearArrival x f).free = c.free - 1 ∧ Tally c.s.counters (c.nearArrival x f).s.counters
      (arrivalCounts x 0 c.cfg.trim c.s.queue.length [.real f.seq f.q f.words]) := by
  have hroom := h.room
  have htally := Ctx.baseArrival_tally (x := x) (f := f) h.window (by omega) hroom.le
  have hfree := Ctx.baseArrival_free (x := x) (f := f) h.window hroom
  rw [h.strays] at htally hfree
  rw [Ctx.nearArrival_base (by rw [h.base, he])]
  exact ⟨Ctx.baseArrival_side h.window, hfree, htally⟩

theorem Ctx.Clear.nearArrival_store (h : c.Clear e) (hne : f.seq ≠ e) : c.nearArrival x f = c.storeHeld x e f := by
  have hnone : c.s.heldAt f.seq = none := heldAt_none_iff.mpr (by simp [h.window])
  rw [Ctx.nearArrival_window h.base hne]
  simp only [Ctx.windowArrival, hnone]

/-- A frame within the window of the base is stored, and its store starts the gap timer. -/
theorem Ctx.Clear.store_s (h : c.Clear e) (hne : f.seq ≠ e) : (c.nearArrival x f).s = { c.s with
    window := [⟨f.seq, f.q, f.words⟩], timer := if c.waitValue = 0 then none else some c.waitValue
    counters := (c.nearArrival x f).s.counters } := by
  rw [h.nearArrival_store hne, Ctx.storeHeld_s]
  simp [insertHeld, h.window, h.timer, h.jump]

theorem Ctx.Clear.store_rest (h : c.Clear e) (hne : f.seq ≠ e) : c.SameSide (c.nearArrival x f) ∧
    (c.nearArrival x f).free = c.free - 1 ∧
    Tally c.s.counters (c.nearArrival x f).s.counters (arrivalCounts x 0 0 0 []) := by
  have htally := Ctx.storeHeld_tally (c := c) (x := x) (e := e) (f := f)
  have hfree := Ctx.storeHeld_free (c := c) (x := x) (e := e) (f := f)
  rw [h.strays] at htally hfree
  rw [h.nearArrival_store hne]
  exact ⟨Ctx.storeHeld_side, hfree, htally⟩

end

/-! ## The lock -/

/-- The context that has released its acquisition candidate and is PRIMING. -/
def Ctx.locked (c : Ctx) (a : AcqCandidate) : Ctx :=
  let c1 := { c with s := { c.s with history := historyNone, base := some a.seq, acq := none } }.releaseHeld a.seq a.q a.words
  { c1 with s := { c1.s with state := .priming, run := 0 } }

theorem Ctx.lock_eq (c : Ctx) (x : Path) (a : AcqCandidate) (f : Frame) :
    c.lock x a f = ((c.locked a).nearArrival x f).noteState .locked := rfl

section
variable {c : Ctx} {a : AcqCandidate}

theorem Ctx.locked_s (hq : c.s.queue = []) (ht : 1 ≤ c.cfg.trim) : (c.locked a).s = { c.s with
    state := .priming, base := some (a.seq + 1), queue := [.real a.seq a.q a.words]
    history := (.real :: historyNone).take 64, acq := none, run := 0, counters := (c.locked a).s.counters } := by
  have hjoin := Ctx.releaseHeld_joined
    (c := { c with s := { c.s with history := historyNone, base := some a.seq, acq := none } })
    a.seq a.q a.words ht (by simp [hq])
  have hs := hjoin.s
  simp only [Ctx.locked]
  rw [hs]
  simp [hq, ht, QueueEntry.passed]

/-- The release of the candidate counts RELEASED and leaves the rest of the context. -/
theorem Ctx.locked_rest (hq : c.s.queue = []) (ht : 1 ≤ c.cfg.trim) : c.SameSide (c.locked a) ∧
    (c.locked a).free = c.free ∧ Tally c.s.counters (c.locked a).s.counters (Pi.single ctrReleased 1) := by
  have hjoin := Ctx.releaseHeld_joined
    (c := { c with s := { c.s with history := historyNone, base := some a.seq, acq := none } })
    a.seq a.q a.words ht (by simp [hq])
  obtain ⟨hidx, hcfg, hrecord, -, hdrain, -, -, -, hA, hB, -, hlast, hphase⟩ := hjoin.same
  have hroom : Ctx.trimForInsert { c with s := { c.s with history := historyNone, base := some a.seq, acq := none } } = _ :=
    Ctx.trimForInsert_of_room _ (by rw [hq]; exact ht)
  refine ⟨⟨hidx, hcfg, hA, hB, hlast, hphase, hdrain, hrecord⟩, ?_, ?_⟩
  · simp [Ctx.locked, Ctx.releaseHeld, hroom]
  · refine hjoin.tally.congr ?_
    simp [joinCounts, hq, Nat.sub_eq_zero_of_le ht]

end

/-- A context in ACQUIRE that locks is clear at the position after its candidate. -/
theorem locked_clear {s : State} (h : s.MergeOk) (x : Path) {i : StreamIdx} (rest : List Delivery) (a : AcqCandidate)
    (hs : (s.stream i).state = .acquire) : ((s.refreshed x i rest).locked a).Clear (a.seq + 1) ∧
    (s.stream i).queue = [] ∧ (s.stream i).window = [] ∧ (s.stream i).jump = none ∧ (s.stream i).guard = none ∧
    (s.stream i).timer = none := by
  obtain ⟨-, -, hwindow, hqueue, hjump, hguard, htimer, -⟩ := (shape_acquire hs).mp (h.1 i).1
  have htrim := inForce_trim h i
  have hq : (s.refreshed x i rest).s.queue = [] := by rw [State.refreshed_queue, hqueue]
  have ht : 2 ≤ (s.refreshed x i rest).cfg.trim := by rwa [State.refreshed_cfg]
  have hlocked := Ctx.locked_s (a := a) hq (by omega)
  have hcfg := (Ctx.locked_rest (a := a) hq (by omega)).1.2.1
  refine ⟨⟨by rw [hlocked], by rw [hlocked]; simp [hwindow], by rw [hlocked]; simp [hjump], by rw [hlocked]; simp [htimer], ?_⟩,
    hqueue, hwindow, hjump, hguard, htimer⟩
  rw [hcfg, hlocked]
  exact ht

/-- What the lock leaves beside its stream's own parts: one slot taken, RELEASED counted for the candidate and for what joins
after it, and the LOCKED notice last. -/
theorem lock_rest {s : State} (h : s.MergeOk) {x : Path} {i : StreamIdx} {rest : List Delivery} {a : AcqCandidate} {f : Frame}
    (hs : (s.stream i).state = .acquire) {trim len : Nat} {es : List QueueEntry} (hes : es.length = queueSlots es)
    (hroom : len + es.length ≤ trim) (hstate : (((s.refreshed x i rest).locked a).nearArrival x f).s.state = .priming)
    (hnear : ((s.refreshed x i rest).locked a).SameSide (((s.refreshed x i rest).locked a).nearArrival x f) ∧
      (((s.refreshed x i rest).locked a).nearArrival x f).free = ((s.refreshed x i rest).locked a).free - 1 ∧
      Tally ((s.refreshed x i rest).locked a).s.counters (((s.refreshed x i rest).locked a).nearArrival x f).s.counters
        (arrivalCounts x 0 trim len es)) :
    ((s.refreshed x i rest).lock x a f).free = s.free - 1 ∧
    (s.refreshed x i rest).Keeps ((s.refreshed x i rest).lock x a f) [ctrAccepted x, ctrReleased] ∧
    ((s.refreshed x i rest).lock x a f).s.counters[ctrAccepted x] = (s.stream i).counters[ctrAccepted x].bump ∧
    ((s.refreshed x i rest).lock x a f).s.counters[ctrReleased] =
      Counter.bump^[queueSlots es] (s.stream i).counters[ctrReleased].bump ∧
    ((s.inForce i).noticeMask.streamState = true →
      ((s.refreshed x i rest).lock x a f).notes.getLast? = some (.streamState i .priming .locked)) := by
  obtain ⟨-, -, -, hqueue, -⟩ := (shape_acquire hs).mp (h.1 i).1
  have htrim := inForce_trim h i
  obtain ⟨hside, hfree, htally⟩ := Ctx.locked_rest (c := s.refreshed x i rest) (a := a)
    (by rw [State.refreshed_queue, hqueue]) (by rw [State.refreshed_cfg]; omega)
  obtain ⟨hside', hfree', htally'⟩ := hnear
  obtain ⟨haccepted, hreleased, -, -⟩ := htally'.arrival
  have hne := (ctrAccepted_ne x).1
  rw [Ctx.lock_eq]
  refine ⟨by rw [Ctx.noteState_free, hfree', hfree, State.refreshed_free], ?_, ?_, ?_, fun hmask => ?_⟩
  · refine Tally.keeps (n := Pi.single ctrReleased 1 + arrivalCounts x 0 trim len es) ?_
      ((hside.trans hside').noteState .locked) (State.refreshed_record s x i rest) fun k hk => ?_
    · rw [Ctx.noteState_s]; exact htally.trans htally'
    · have hk' : k ≠ ctrReleased := fun he => hk (by simp [he])
      rw [Pi.add_apply, Pi.single_eq_of_ne hk',
        arrivalCounts_of_not_mem hk (by simp) (by simp) (.inr hes) (.inr hroom) (by simp)]
  · rw [Ctx.noteState_s, haccepted, htally, Pi.single_eq_of_ne hne, State.refreshed_counters]; rfl
  · rw [Ctx.noteState_s, hreleased, htally, Pi.single_eq_same, State.refreshed_counters]; rfl
  · rw [Ctx.noteState_getLast, hstate, hside'.1, hside.1, State.refreshed_idx]
    rw [hside'.2.1, hside.2.1, State.refreshed_cfg, hmask]

/-- Settles O14: the lock is the candidate's release and an arrival near the base it leaves. -/
theorem lockByASecondFrame : Obligations.LockByASecondFrame := by
  have hlock : ∀ (s : State) (x : Path) (i : StreamIdx) (f : Frame) (rest : List Delivery) (a : AcqCandidate),
      s.Waits x i f rest → s.Passes x i f → (s.stream i).state = .acquire → (s.stream i).acq = some a → f.seq ≠ a.seq →
      dist f.seq a.seq < (s.inForce i).window → s.ArrivalGives x i rest ((s.refreshed x i rest).lock x a f) := by
    intro s x i f rest a hwaits hpass hs ha hne hd
    have hgives := hwaits.gives_acquire hpass hs
    unfold Ctx.acquireArrival at hgives
    rw [State.refreshed_acq, ha] at hgives
    simpa only [if_neg hne, State.refreshed_cfg, if_pos hd] using hgives
  refine ⟨fun s x i f rest a h hwaits hpass hs ha hseq => ?_, fun s x i f rest a h hwaits hpass hs ha htwo hd => ?_⟩
  · have hne : f.seq ≠ a.seq := by rw [hseq]; exact fun h => by bv_omega
    have hd : dist f.seq a.seq < (s.inForce i).window := by
      have hone := dist_succ hne
      rw [hseq, dist_self] at hone
      have := inForce_window h i
      rw [hseq]
      omega
    obtain ⟨hclear, hqueue, hwindow, hjump, hguard, htimer⟩ := locked_clear h x rest a hs
    have htrim := inForce_trim h i
    have hlocked := Ctx.locked_s (c := s.refreshed x i rest) (a := a) (by rw [State.refreshed_queue, hqueue])
      (by rw [State.refreshed_cfg]; omega)
    have hnear := hclear.base_s (x := x) hseq
    rw [hlocked] at hnear
    have hroom := hclear.room
    obtain ⟨hfree, hkeeps, haccepted, hreleased, hnote⟩ :=
      lock_rest h hs (es := [.real f.seq f.q f.words]) rfl (by exact hroom) (by rw [hnear]) (hclear.base_rest (x := x) hseq)
    refine ⟨_, hlock s x i f rest a hwaits hpass hs ha hne hd, ?_, ?_, ?_, ?_, ?_, ?_, ?_, ?_, ?_, ?_, hfree, hkeeps, haccepted,
      hreleased, hnote⟩
    all_goals rw [Ctx.lock_eq, Ctx.noteState_s, hnear]
    · simp [BitVec.add_assoc]
    · simp
    · simp [hwindow]
    · simp [htimer]
    · simp [List.take_take]
    · simp [hjump]
    · simp [hguard]
  · have hne : f.seq ≠ a.seq := fun he => by rw [he, dist_self] at htwo; omega
    have hstep := dist_succ hne
    have hne' : f.seq ≠ a.seq + 1 := fun he => by rw [he, dist_self] at hstep; rw [he] at htwo; omega
    obtain ⟨hclear, hqueue, hwindow, hjump, hguard, -⟩ := locked_clear h x rest a hs
    have hq : (s.refreshed x i rest).s.queue = [] := by rw [State.refreshed_queue, hqueue]
    have ht : 1 ≤ (s.refreshed x i rest).cfg.trim := by have := inForce_trim h i; rw [State.refreshed_cfg]; omega
    have hlocked := Ctx.locked_s (a := a) hq ht
    have hnear := hclear.store_s (x := x) hne'
    rw [(Ctx.locked_rest (a := a) hq ht).1.waitValue, hlocked] at hnear
    obtain ⟨hfree, hkeeps, haccepted, hreleased, hnote⟩ :=
      lock_rest h hs (es := []) rfl (Nat.le_refl _) (by rw [hnear]) (hclear.store_rest (x := x) hne')
    refine ⟨_, hlock s x i f rest a hwaits hpass hs ha hne hd, ?_, ?_, ?_, ?_, ?_, ?_, ?_, ?_, ?_, ?_, hfree, hkeeps, haccepted,
      hreleased, hnote⟩
    all_goals rw [Ctx.lock_eq, Ctx.noteState_s, hnear]
    · simp [hjump]
    · simp [hguard]

/-! ## The return from STALLED -/

/-- A stalled context that resumes: PRIMING at its frozen base. -/
def Ctx.resumed (c : Ctx) : Ctx := { c with s := { c.s with state := .priming, run := 0 } }

/-- A stalled context that acquires again: no base and no history. -/
def Ctx.reacquiring (c : Ctx) : Ctx :=
  { c with s := { c.s with history := historyNone, base := none, run := 0, state := .acquire } }

theorem Ctx.stalledArrival_resumes {c : Ctx} {x : Path} {e : Seq} {f : Frame} (hb : c.s.base = some e)
    (hd : dist f.seq e < c.cfg.window) : c.stalledArrival x f = (c.resumed.nearArrival x f).noteState .resumed := by
  rw [Ctx.stalledArrival_of_base x f hb, if_pos hd, Ctx.resumed]

theorem Ctx.stalledArrival_reacquires {c : Ctx} {x : Path} {e : Seq} {f : Frame} (hb : c.s.base = some e)
    (hd : c.cfg.window ≤ dist f.seq e) (hfar : dist f.seq e < 4032) :
    c.stalledArrival x f = (c.reacquiring.setAcq x f).noteState .reacquire := by
  have hfar' : dist f.seq e < Config.behindFrom := hfar
  rw [Ctx.stalledArrival_of_base x f hb, if_neg (Nat.not_lt.mpr hd), if_pos hfar', Ctx.reacquiring]

/-- A stalled context holds no frame, no candidate and no guard. -/
theorem stalled_clear {s : State} (h : s.MergeOk) (x : Path) {i : StreamIdx} (rest : List Delivery) {e : Seq}
    (hs : (s.stream i).state = .stalled) (hb : (s.stream i).base = some e) : (s.refreshed x i rest).resumed.Clear e ∧
    (s.stream i).queue = [] ∧ (s.stream i).window = [] ∧ (s.stream i).acq = none ∧ (s.stream i).jump = none ∧
    (s.stream i).guard = none ∧ (s.stream i).timer = none := by
  obtain ⟨-, -, hwindow, hqueue, hacq, hjump, hguard, htimer, -⟩ := (shape_stalled hs).mp (h.1 i).1
  have htrim := inForce_trim h i
  refine ⟨⟨?_, ?_, ?_, ?_, ?_⟩, hqueue, hwindow, hacq, hjump, hguard, htimer⟩
  · simpa [Ctx.resumed] using hb
  · simpa [Ctx.resumed] using hwindow
  · simpa [Ctx.resumed] using hjump
  · simpa [Ctx.resumed] using htimer
  · simp [Ctx.resumed, hqueue]; omega

/-- What a return from STALLED leaves beside its stream's own parts, its notice last. The context before it differs from the
refreshed one in its stream's own parts only. -/
theorem return_rest {s : State} {x : Path} {i : StreamIdx} {rest : List Delivery} {trim len : Nat} {es : List QueueEntry}
    {c : Ctx} {cause : Cause} (hnear : (s.refreshed x i rest).SameSide c ∧ c.free = (s.refreshed x i rest).free - 1 ∧
      Tally (s.refreshed x i rest).s.counters c.s.counters (arrivalCounts x 0 trim len es)) :
    (c.noteState cause).free = s.free - 1 ∧ (s.refreshed x i rest).SameSide (c.noteState cause) ∧
    Tally (s.refreshed x i rest).s.counters (c.noteState cause).s.counters (arrivalCounts x 0 trim len es) ∧
    ((s.inForce i).noticeMask.streamState = true →
      (c.noteState cause).notes.getLast? = some (.streamState i c.s.state cause)) := by
  obtain ⟨hside, hfree, htally⟩ := hnear
  obtain ⟨hidx, hcfg, -⟩ := id hside
  refine ⟨by rw [Ctx.noteState_free, hfree, State.refreshed_free], hside.noteState cause, by rwa [Ctx.noteState_s],
    fun hmask => ?_⟩
  rw [Ctx.noteState_getLast cause (by rw [hcfg, State.refreshed_cfg, hmask]), hidx, State.refreshed_idx]

theorem Ctx.setAcq_s (c : Ctx) (x : Path) (f : Frame) : (c.setAcq x f).s = { c.s with
    acq := some ⟨f.seq, f.q, f.words⟩, counters := (c.setAcq x f).s.counters } := by
  simp [Ctx.setAcq, Ctx.count_eq]

/-- A frame that becomes the acquisition candidate takes a slot and counts ACCEPTED_X. -/
theorem Ctx.setAcq_rest (c : Ctx) (x : Path) (f : Frame) : c.SameSide (c.setAcq x f) ∧ (c.setAcq x f).free = c.free - 1 ∧
    Tally c.s.counters (c.setAcq x f).s.counters (arrivalCounts x 0 0 0 []) := by
  refine ⟨by simp [Ctx.SameSide, Ctx.setAcq], by simp [Ctx.setAcq], ?_⟩
  exact (Ctx.count_tally { c.takeSlot with s := { c.s with acq := some ⟨f.seq, f.q, f.words⟩ } } (ctrAccepted x)).congr
    (by simp [arrivalCounts, joinCounts])

/-- Settles O21: the three distances of an arrival in STALLED that is not behind. -/
theorem stalledStreamReturns : Obligations.StalledStreamReturns := by
  intro s x i f rest e h hwaits hpass hs hb
  have hbase : (s.refreshed x i rest).s.base = some e := by rw [State.refreshed_base, hb]
  have hrecord := State.refreshed_record s x i rest
  have hcfg := State.refreshed_cfg s x i rest
  obtain ⟨hclear, hqueue, hwindow, hacq, hjump, hguard, htimer⟩ := stalled_clear h x rest hs hb
  have hgives := hwaits.gives_stalled hpass hs
  refine ⟨fun he => ?_, fun hne hd => ?_, fun hd hfar => ?_⟩
  · have hW := inForce_window h i
    rw [Ctx.stalledArrival_resumes hbase (by rw [he, dist_self, hcfg]; omega)] at hgives
    have hnear := hclear.base_s (x := x) he
    obtain ⟨hfree, hside, htally, hnote⟩ := return_rest (s := s) (cause := .resumed) (hclear.base_rest (x := x) he)
    have hkeeps := htally.keeps hside hrecord (ks := [ctrAccepted x, ctrReleased])
      fun k hk => arrivalCounts_of_not_mem hk (by simp) (by simp) (by simp) (.inr hclear.room) (by simp)
    obtain ⟨haccepted, hreleased, -⟩ := htally.arrival
    rw [State.refreshed_counters] at haccepted hreleased
    rw [hnear] at hnote
    refine ⟨_, hgives, ?_, ?_, ?_, ?_, ?_, ?_, hfree, ?_, ?_, ?_, ?_, hkeeps, haccepted, hreleased, hnote⟩
    all_goals rw [Ctx.noteState_s, hnear]
    all_goals simp [Ctx.resumed, hqueue, hwindow, hacq, hjump, hguard, htimer]
  · rw [Ctx.stalledArrival_resumes hbase (by rwa [hcfg])] at hgives
    have hnear := hclear.store_s (x := x) hne
    rw [show (s.refreshed x i rest).resumed.waitValue = (s.refreshed x i rest).waitValue from rfl] at hnear
    obtain ⟨hfree, hside, htally, hnote⟩ := return_rest (s := s) (cause := .resumed) (hclear.store_rest (x := x) hne)
    have hkeeps := htally.keeps hside hrecord (ks := [ctrAccepted x])
      fun k hk => arrivalCounts_of_not_mem hk (by simp) (by simp) (by simp) (by simp) (by simp)
    obtain ⟨haccepted, -⟩ := htally.arrival
    rw [State.refreshed_counters] at haccepted
    rw [hnear] at hnote
    refine ⟨_, hgives, ?_, ?_, ?_, ?_, ?_, hfree, ?_, ?_, ?_, ?_, ?_, hkeeps, haccepted, hnote⟩
    all_goals rw [Ctx.noteState_s, hnear]
    all_goals simp [Ctx.resumed, hb, hqueue, hacq, hjump, hguard]
  · rw [Ctx.stalledArrival_reacquires hbase (by rwa [hcfg]) hfar] at hgives
    have hnear := (s.refreshed x i rest).reacquiring.setAcq_s x f
    obtain ⟨hfree, hside, htally, hnote⟩ :=
      return_rest (s := s) (cause := .reacquire) ((s.refreshed x i rest).reacquiring.setAcq_rest x f)
    have hkeeps := htally.keeps hside hrecord (ks := [ctrAccepted x])
      fun k hk => arrivalCounts_of_not_mem hk (by simp) (by simp) (by simp) (by simp) (by simp)
    obtain ⟨haccepted, -⟩ := htally.arrival
    rw [State.refreshed_counters] at haccepted
    rw [hnear] at hnote
    refine ⟨_, hgives, ?_, ?_, ?_, ?_, ?_, hfree, ?_, ?_, ?_, ?_, ?_, hkeeps, haccepted, hnote⟩
    all_goals rw [Ctx.noteState_s, hnear]
    all_goals simp [Ctx.reacquiring, hqueue, hwindow, hjump, hguard, htimer]

end Sys2Proof.Machine

/-! # Push arrivals -/

namespace Sys2Proof.Machine

/-! ## Positions by their distance from the base -/

theorem dist_eq_iff {s e : Seq} {n : Nat} (hn : n < 4096) : dist s e = n ↔ s = e + BitVec.ofNat 12 n := by
  have hs := s.isLt
  have he := e.isLt
  rw [← BitVec.toNat_inj]
  simp only [dist, BitVec.toNat_sub, BitVec.toNat_add, BitVec.toNat_ofNat]
  omega

/-- A position at distance n or more comes n nearer when E moves on by n. -/
theorem dist_moved {s e : Seq} {n : Nat} (hn : n ≤ dist s e) : dist s (e + BitVec.ofNat 12 n) = dist s e - n := by
  have hs := s.isLt
  have he := e.isLt
  have hlt := dist_lt s e
  simp only [dist, BitVec.toNat_sub, BitVec.toNat_add, BitVec.toNat_ofNat] at *
  omega

/-! ## The entries of the positions passed -/

theorem Stream.entryAt_frame {a : Stream} {f : Frame} {p : Seq} (h : f.seq = p) :
    a.entryAt (some f) p = .real p f.q f.words := by
  simp [Stream.entryAt, Option.filter, h]

theorem Stream.entryAt_of_ne {a : Stream} {f : Frame} {p : Seq} (h : f.seq ≠ p) :
    a.entryAt (some f) p = a.entryAt none p := by
  simp [Stream.entryAt, Option.filter, h]

theorem Stream.entryAt_held {a : Stream} {p : Seq} {w : WindowEntry} (h : a.heldAt p = some w) :
    a.entryAt none p = .real p w.q w.words := by
  simp [Stream.entryAt, h]

theorem Stream.entryAt_missing {a : Stream} {p : Seq} (h : a.heldAt p = none) : a.entryAt none p = .subst p := by
  simp [Stream.entryAt, h]

theorem Stream.entriesFrom_snoc (a : Stream) (o : Option Frame) (e : Seq) (n : Nat) :
    a.entriesFrom o e (n + 1) = a.entriesFrom o e n ++ [a.entryAt o (e + BitVec.ofNat 12 n)] := by
  simp [Stream.entriesFrom, List.range_succ]

/-- The entries depend on the stream's window alone. -/
theorem Stream.entriesFrom_of_window {a b : Stream} (h : b.window = a.window) (o : Option Frame) (e : Seq) (n : Nat) :
    b.entriesFrom o e n = a.entriesFrom o e n := by
  have hheld : ∀ p, b.heldAt p = a.heldAt p := fun p => by unfold Stream.heldAt; rw [h]
  simp only [Stream.entriesFrom, Stream.entryAt, hheld]

/-! ## Positions passed one by one -/

/-- From c0 to c, E has passed n positions from e, each with its entry; the frames at distance n or more are still held. -/
structure Ctx.Passing (c0 : Ctx) (f : Frame) (e : Seq) (n : Nat) (c : Ctx) : Prop where
  joined : c0.Joined (c0.s.entriesFrom (some f) e n) c
  held : ∀ w, w ∈ c.s.window ↔ w ∈ c0.s.window ∧ n ≤ dist w.seq e
  nodup : (c.s.window.map WindowEntry.seq).Nodup

theorem Ctx.Passing.start {c0 : Ctx} {e : Seq} (f : Frame) (hp : c0.Play 1 e) : c0.Passing f e 0 c0 := by
  obtain ⟨-, -, hnodup, hqueue, hhistory⟩ := hp
  exact ⟨Joined.nil hqueue hhistory.le, fun w => by simp, hnodup⟩

section
variable {c0 c c' : Ctx} {f : Frame} {e : Seq} {n : Nat}

theorem Ctx.Passing.base (h : c0.Passing f e n c) (hp : c0.Play 1 e) : c.s.base = some (e + BitVec.ofNat 12 n) := by
  rw [h.joined.base, hp.1, Stream.length_entriesFrom]; rfl

/-- The position after those passed is held as it was before. -/
theorem Ctx.Passing.heldAt_next (h : c0.Passing f e n c) (hp : c0.Play 1 e) (hn : n < 4096) :
    c.s.heldAt (e + BitVec.ofNat 12 n) = c0.s.heldAt (e + BitVec.ofNat 12 n) := by
  obtain ⟨-, -, hnodup, -⟩ := hp
  refine Option.ext fun w => ?_
  rw [heldAt_eq_some_iff h.nodup, heldAt_eq_some_iff hnodup, h.held, ← dist_eq_iff hn]
  exact ⟨fun ⟨⟨hw, _⟩, hd⟩ => ⟨hw, hd⟩, fun ⟨hw, hd⟩ => ⟨⟨hw, hd.ge⟩, hd⟩⟩

/-- E passes one more position, whose frame, if one was held, leaves the window. -/
theorem Ctx.Passing.step (h : c0.Passing f e n c) (hp : c0.Play 1 e) (hn : n < 4096)
    (hjoin : c.Joined [c0.s.entryAt (some f) (e + BitVec.ofNat 12 n)] c')
    (hheld : ∀ w, w ∈ c'.s.window ↔ w ∈ c.s.window ∧ w.seq ≠ e + BitVec.ofNat 12 n)
    (hnodup : (c'.s.window.map WindowEntry.seq).Nodup) : c0.Passing f e (n + 1) c' := by
  refine ⟨?_, fun w => ?_, hnodup⟩
  · rw [Stream.entriesFrom_snoc]
    exact h.joined.trans hjoin hp.2.2.2.1
  · rw [hheld, h.held, ne_eq, ← dist_eq_iff hn]
    constructor
    · rintro ⟨⟨hw, hle⟩, hne⟩; exact ⟨hw, by omega⟩
    · rintro ⟨hw, hle⟩; exact ⟨⟨hw, by omega⟩, by omega⟩

theorem Ctx.Passing.room (h : c0.Passing f e n c) (ht : 1 ≤ c0.cfg.trim) :
    1 ≤ c.cfg.trim ∧ c.s.queue.length ≤ c.cfg.trim := by
  rw [h.joined.same.2.1]
  exact ⟨ht, h.joined.length_le⟩

/-- A held position is released. -/
theorem Ctx.Passing.release (h : c0.Passing f e n c) (hp : c0.Play 1 e) (ht : 1 ≤ c0.cfg.trim) (hn : n < 4096)
    (hne : f.seq ≠ e + BitVec.ofNat 12 n) {w : WindowEntry} (hw : c.s.heldAt (e + BitVec.ofNat 12 n) = some w) :
    c0.Passing f e (n + 1)
      ((c.removeHeld (e + BitVec.ofNat 12 n)).releaseHeld (e + BitVec.ofNat 12 n) w.q w.words) := by
  obtain ⟨htrim, hqueue⟩ := h.room ht
  have hjoin := Ctx.releaseHeld_joined (c := c.removeHeld (e + BitVec.ofNat 12 n)) (e + BitVec.ofNat 12 n) w.q w.words
    htrim hqueue
  refine h.step hp hn ?_ (fun v => by simp) ?_
  · rw [Stream.entryAt_of_ne hne, Stream.entryAt_held (h.heldAt_next hp hn ▸ hw)]
    exact ⟨hjoin.same, hjoin.base, hjoin.queue, hjoin.history, hjoin.tally⟩
  · rw [releaseHeld_s_window, removeHeld_s_window]
    exact h.nodup.sublist (List.Sublist.map _ List.filter_sublist)

/-- A position that is not held is substituted. -/
theorem Ctx.Passing.substitute (h : c0.Passing f e n c) (hp : c0.Play 1 e) (ht : 1 ≤ c0.cfg.trim) (hn : n < 4096)
    (hne : f.seq ≠ e + BitVec.ofNat 12 n) (hnone : c.s.heldAt (e + BitVec.ofNat 12 n) = none) :
    c0.Passing f e (n + 1) (c.substitute.count ctrSubstPush) := by
  obtain ⟨htrim, hqueue⟩ := h.room ht
  refine h.step hp hn ?_ (fun v => ?_) (by simpa using h.nodup)
  · rw [Stream.entryAt_of_ne hne, Stream.entryAt_missing (h.heldAt_next hp hn ▸ hnone)]
    exact Ctx.substitute_joined (h.base hp) htrim hqueue
  · have hnotHeld := heldAt_none_iff.mp hnone v
    simpa using hnotHeld

theorem Ctx.Passing.settle (h : c0.Passing f e n c) : c0.Passing f e n c.settleTimer := by
  obtain ⟨⟨hsame, hbase, hqueue, hhistory, htally⟩, hheld, hnodup⟩ := h
  exact ⟨⟨hsame.trans (settleTimer_same c), by simpa using hbase, by simpa using hqueue, by simpa using hhistory,
    by simpa using htally⟩, by simpa using hheld, by simpa using hnodup⟩

end

/-! ## The steps of a push -/

/-- A push by f has passed n positions, at most as many as f lies from e; past those that bring f within the window, only held
ones. -/
structure Ctx.Pushed (c0 : Ctx) (f : Frame) (e : Seq) (n : Nat) (c : Ctx) : Prop where
  passing : c0.Passing f e n c
  le : n ≤ dist f.seq e
  only : ∀ m, dist f.seq e < m + c0.cfg.window → m < n → ∃ w ∈ c0.s.window, w.seq = e + BitVec.ofNat 12 m

section
variable {c0 c : Ctx} {f : Frame} {e : Seq} {n : Nat}

theorem frame_ne_passed (hlt : n < dist f.seq e) : f.seq ≠ e + BitVec.ofNat 12 n := by
  have := dist_lt f.seq e
  rw [ne_eq, ← dist_eq_iff (by omega)]
  omega

theorem Ctx.Pushed.release (h : c0.Pushed f e n c) (hp : c0.Play 1 e) (ht : 1 ≤ c0.cfg.trim)
    (hfar : c0.cfg.window ≤ dist f.seq e) {w : WindowEntry} (hw : c.s.heldAt (e + BitVec.ofNat 12 n) = some w) :
    c0.Pushed f e (n + 1)
      ((c.removeHeld (e + BitVec.ofNat 12 n)).releaseHeld (e + BitVec.ofNat 12 n) w.q w.words) := by
  have hn : n < 4096 := by have := h.le; have := dist_lt f.seq e; omega
  obtain ⟨hmem, hseq⟩ := heldAt_some (h.passing.heldAt_next hp hn ▸ hw)
  have hwindow := (hp.2.1 w hmem).2
  rw [(dist_eq_iff hn).mpr hseq] at hwindow
  refine ⟨h.passing.release hp ht hn (frame_ne_passed (by omega)) hw, by omega, fun m hm hlt => ?_⟩
  obtain hlt | rfl := Nat.lt_succ_iff_lt_or_eq.mp hlt
  · exact h.only m hm hlt
  · exact ⟨w, hmem, hseq⟩

/-- The chain passes the held positions and ends before one that is not held. -/
theorem Ctx.Pushed.chain (h : c0.Pushed f e n c) (hp : c0.Play 1 e) (ht : 1 ≤ c0.cfg.trim)
    (hfar : c0.cfg.window ≤ dist f.seq e) :
    ∃ n', n ≤ n' ∧ c0.Pushed f e n' c.chain ∧ c.chain.s.heldAt (e + BitVec.ofNat 12 n') = none := by
  obtain ⟨n', ⟨hle, hpushed⟩, -, hend⟩ := Ctx.chainReleases_keeps (P := fun k d => n ≤ k ∧ c0.Pushed f e k d)
    (fun {k d p w} ⟨hle, hk⟩ hb hw => by
      obtain rfl : p = e + BitVec.ofNat 12 k := Option.some.inj (hb.symm.trans (hk.passing.base hp))
      exact ⟨by omega, hk.release hp ht hfar hw⟩)
    c.s.window.length ⟨Nat.le_refl n, h⟩ h.passing.nodup (Nat.le_refl _)
  refine ⟨n', hle, ⟨hpushed.passing.settle, hpushed.le, hpushed.only⟩, ?_⟩
  rw [heldAt_none_iff, Ctx.chain, settleTimer_s_window]
  exact heldAt_none_iff.mp (hend _ (hpushed.passing.base hp))

/-- One step of a push: a substitution, its count and the chain. -/
theorem Ctx.Pushed.step (h : c0.Pushed f e n c) (hp : c0.Play 1 e) (ht : 1 ≤ c0.cfg.trim) (hw : 1 ≤ c0.cfg.window)
    (hnone : c.s.heldAt (e + BitVec.ofNat 12 n) = none) (hfar : n + c0.cfg.window ≤ dist f.seq e) :
    ∃ n', n < n' ∧ c0.Pushed f e n' (c.substitute.count ctrSubstPush).chain ∧
      (c.substitute.count ctrSubstPush).chain.s.heldAt (e + BitVec.ofNat 12 n') = none ∧
      c.Settled (c.substitute.count ctrSubstPush).chain := by
  have hlt := dist_lt f.seq e
  have hsubst : c0.Pushed f e (n + 1) (c.substitute.count ctrSubstPush) :=
    ⟨h.passing.substitute hp ht (by omega) (frame_ne_passed (by omega)) hnone, by omega,
      fun m hm hle => h.only m hm (by omega)⟩
  obtain ⟨n', hle, hpushed, hend⟩ := hsubst.chain hp ht (by omega)
  refine ⟨n', by omega, hpushed, hend, ?_⟩
  have hsettled := (c.substitute.count ctrSubstPush).chain_settled
  have hwait : (c.substitute.count ctrSubstPush).waitValue = c.waitValue :=
    (c.substitute_same.trans (by simp [SamePlay])).waitValue
  unfold Ctx.Settled at hsettled ⊢
  rw [hsettled, hwait, count_s_timer, substitute_s_timer]

/-- A window only loses frames as more positions are passed. -/
theorem Ctx.Pushed.window_nil {d : Ctx} {n' : Nat} (h : c0.Pushed f e n c) (h' : c0.Pushed f e n' d) (hle : n ≤ n')
    (hnil : c.s.window = []) : d.s.window = [] := by
  refine List.eq_nil_iff_forall_not_mem.mpr fun w hw => ?_
  obtain ⟨hmem, hd⟩ := (h'.passing.held w).mp hw
  have hc := (h.passing.held w).mpr ⟨hmem, by omega⟩
  rw [hnil] at hc
  cases hc

theorem Ctx.pushSteps_go {k : Nat} {seq p : Seq} (hb : c.s.base = some p) (hd : c.cfg.window ≤ dist seq p) :
    Ctx.pushSteps (k + 1) seq c = Ctx.pushSteps k seq (c.substitute.count ctrSubstPush).chain := by
  simp only [pushSteps, hb, if_pos hd]

theorem Ctx.pushSteps_stop {k : Nat} {seq p : Seq} (hb : c.s.base = some p) (hd : dist seq p < c.cfg.window) :
    Ctx.pushSteps k seq c = c := by
  cases k with
  | zero => rfl
  | succ k => simp only [pushSteps, hb, if_neg (Nat.not_le.mpr hd)]

/-- The steps of a push end with f within the window of the base, and the timer settled. -/
theorem Ctx.pushSteps_pushed (k : Nat) (h : c0.Pushed f e n c) (hp : c0.Play 1 e) (ht : 1 ≤ c0.cfg.trim)
    (hw : 1 ≤ c0.cfg.window) (hnone : c.s.heldAt (e + BitVec.ofNat 12 n) = none) (hset : c0.Settled c)
    (hk : dist f.seq e ≤ n + k) :
    ∃ n', dist f.seq e < n' + c0.cfg.window ∧ c0.Pushed f e n' (Ctx.pushSteps k f.seq c) ∧
      (Ctx.pushSteps k f.seq c).s.heldAt (e + BitVec.ofNat 12 n') = none ∧ c0.Settled (Ctx.pushSteps k f.seq c) := by
  induction k generalizing n c with
  | zero => exact ⟨n, by omega, h, hnone, hset⟩
  | succ k ih =>
    have hcfg : c.cfg = c0.cfg := h.passing.joined.same.2.1
    have hbase := h.passing.base hp
    have hmoved := dist_moved h.le
    by_cases hfar : n + c0.cfg.window ≤ dist f.seq e
    · obtain ⟨n', hlt, hpushed, hnone', hset'⟩ := h.step hp ht hw hnone hfar
      rw [pushSteps_go hbase (by rw [hcfg, hmoved]; omega)]
      exact ih hpushed hnone'
        (hset.trans hset' h.passing.joined.same.waitValue (h.window_nil hpushed hlt.le)) (by omega)
    · rw [pushSteps_stop hbase (by rw [hcfg, hmoved]; omega)]
      exact ⟨n, by omega, h, hnone, hset⟩

end

/-! ## The frame of a push -/

/-- What a push by f makes of a context with base e: n positions are passed, and f is released as the last of them or held. -/
structure Ctx.PushedIn (c : Ctx) (x : Path) (f : Frame) (e : Seq) (n : Nat) (c' : Ctx) : Prop where
  reach : dist f.seq e + 1 ≤ n + c.cfg.window
  le : n ≤ dist f.seq e + 1
  only : ∀ m, dist f.seq e < m + c.cfg.window → m < n →
    m = dist f.seq e ∨ ∃ w ∈ c.s.window, w.seq = e + BitVec.ofNat 12 m
  held : ∀ w, w ∈ c'.s.window ↔
    (w ∈ c.s.window ∧ n < dist w.seq e) ∨ (n ≤ dist f.seq e ∧ w = ⟨f.seq, f.q, f.words⟩)
  next : c'.s.heldAt (e + BitVec.ofNat 12 n) = none
  idle : c'.s.window = [] → c'.s.timer = none
  timer : n ≤ dist f.seq e → c'.s.timer =
    if (∃ w ∈ c.s.window, n < dist w.seq e) ∧ c.s.timer ≠ none then c.s.timer
    else if c.waitValue = 0 then none else some c.waitValue
  stream : c'.s = { c.s with
    base := some (e + BitVec.ofNat 12 n)
    queue := (c.s.queue ++ c.s.entriesFrom (some f) e n).drop (c.s.queue.length + n - c.cfg.trim)
    history := (((c.s.entriesFrom (some f) e n).map QueueEntry.passed).reverse ++ c.s.history).take 64
    jump := c.s.jump.filter fun j => !decide (j.path = x)
    window := c'.s.window, timer := c'.s.timer, counters := c'.s.counters }
  side : c.SameSide c'
  tally : Tally c.s.counters c'.s.counters
    (arrivalCounts x (c.s.strays x) c.cfg.trim c.s.queue.length (c.s.entriesFrom (some f) e n))

section
variable {c p : Ctx} {x : Path} {f : Frame} {e : Seq} {n : Nat}

/-- The parts of a push that the passing of its positions settles, f's own among them, and the count of ACCEPTED_X. -/
theorem Ctx.pushed_parts {d c' : Ctx} (hp : c.Play 1 e) (h : (c.discardJumpOn x).Passing f e n d)
    (hs : c'.s = { d.s with window := c'.s.window, timer := c'.s.timer, counters := c'.s.counters })
    (hside : d.SameSide c') (htally : Tally d.s.counters c'.s.counters (Pi.single (ctrAccepted x) 1)) :
    c'.s = { c.s with
      base := some (e + BitVec.ofNat 12 n)
      queue := (c.s.queue ++ c.s.entriesFrom (some f) e n).drop (c.s.queue.length + n - c.cfg.trim)
      history := (((c.s.entriesFrom (some f) e n).map QueueEntry.passed).reverse ++ c.s.history).take 64
      jump := c.s.jump.filter fun j => !decide (j.path = x)
      window := c'.s.window, timer := c'.s.timer, counters := c'.s.counters } ∧
    c.SameSide c' ∧ Tally c.s.counters c'.s.counters
      (arrivalCounts x (c.s.strays x) c.cfg.trim c.s.queue.length (c.s.entriesFrom (some f) e n)) := by
  have hentries : (c.discardJumpOn x).s.entriesFrom (some f) e n = c.s.entriesFrom (some f) e n :=
    Stream.entriesFrom_of_window (discardJumpOn_s_window c x) _ _ _
  have hjoin := h.joined
  rw [hentries] at hjoin
  refine ⟨?_, ?_, ((c.discardJumpOn_tally x).trans ?_).trans htally⟩
  · rw [hs, hjoin.s, c.discardJumpOn_s x, discardJumpOn_cfg, Stream.length_entriesFrom]
    simp [hp.1]
  · obtain ⟨hidx, hcfg, hrecord, -, hdrain, -, -, -, hA, hB, -, hlast, hphase⟩ := hjoin.same
    refine Ctx.SameSide.trans (b := d) ?_ hside
    simp [Ctx.SameSide, hidx, hcfg, hrecord, hdrain, hA, hB, hlast, hphase]
  · have htally' := hjoin.tally
    rwa [discardJumpOn_cfg, discardJumpOn_s_queue] at htally'

/-- The steps of a push leave no candidate of the frame's path to discard. -/
theorem Ctx.Passing.discard (h : (c.discardJumpOn x).Passing f e n p) : p.discardJumpOn x = p := by
  obtain ⟨-, -, -, -, -, -, hjump, -⟩ := h.joined.same
  exact discardJumpOn_of_filtered (hjump.trans (c.discardJumpOn_s_jump x))

theorem Ctx.Passing.no_strays (h : (c.discardJumpOn x).Passing f e n p) : p.s.strays x = 0 := by
  have hfree := p.discardJumpOn_free x
  rw [h.discard] at hfree
  omega

/-- The frames still held lie nearer than f does. -/
theorem Ctx.Passing.dist_held (h : (c.discardJumpOn x).Passing f e n p) (hp : c.Play 1 e)
    (hfar : c.cfg.window ≤ dist f.seq e) {w : WindowEntry} (hw : w ∈ p.s.window) :
    w ∈ c.s.window ∧ n ≤ dist w.seq e ∧ dist w.seq e < dist f.seq e := by
  obtain ⟨hmem, hle⟩ := (h.held w).mp hw
  rw [discardJumpOn_s_window] at hmem
  have hlt := (hp.2.1 w hmem).2
  exact ⟨hmem, hle, by omega⟩

/-- A frame pushed to the base itself is released: no frame lies as far as it, so nothing is held. -/
theorem Ctx.Pushed.released (h : (c.discardJumpOn x).Pushed f e (dist f.seq e) p) (hp : c.Play 1 e)
    (ht : 1 ≤ c.cfg.trim) (hfar : c.cfg.window ≤ dist f.seq e) :
    c.PushedIn x f e (dist f.seq e + 1) (p.nearArrival x f) := by
  obtain ⟨hpassing, -, honly⟩ := h
  have hp0 : (c.discardJumpOn x).Play 1 e := by simpa [Play] using hp
  have hlt := dist_lt f.seq e
  have hseq : f.seq = e + BitVec.ofNat 12 (dist f.seq e) := (dist_eq_iff hlt).mp rfl
  have hnil : p.s.window = [] := List.eq_nil_iff_forall_not_mem.mpr fun w hw => by
    obtain ⟨-, hle, hnear⟩ := hpassing.dist_held hp hfar hw
    omega
  obtain ⟨htrim, hqueue⟩ := hpassing.room (by rwa [discardJumpOn_cfg])
  have hlast : (c.discardJumpOn x).Passing f e (dist f.seq e + 1) (p.releaseNew f.seq f.q f.words) := by
    refine hpassing.step hp0 hlt ?_ (fun w => by simp [hnil]) (by simp [hnil])
    rw [← hseq, Stream.entryAt_frame rfl]
    exact releaseNew_joined f.seq f.q f.words htrim hqueue
  have hbase : p.s.base = some f.seq := by rw [hpassing.base hp0, ← hseq]
  have hwhole := Ctx.baseArrival_of_empty (x := x) (f := f) hnil
  rw [hpassing.discard] at hwhole
  have hwindow : (p.baseArrival x f).s.window = [] := by rw [hwhole]; simp [hnil]
  rw [Ctx.nearArrival_base hbase]
  obtain ⟨hstream, hside, htally⟩ := Ctx.pushed_parts (c' := p.baseArrival x f) hp hlast
    (by rw [hwhole]; simp [Ctx.count_eq]) (by rw [hwhole]; simp [Ctx.SameSide])
    (by rw [hwhole]; exact Ctx.count_tally _ _)
  refine ⟨by omega, Nat.le_refl _, fun m hm hlt => ?_, fun w => ?_, ?_, fun _ => by rw [hwhole], by omega, hstream, hside, htally⟩
  · obtain hlt | heq := Nat.lt_succ_iff_lt_or_eq.mp hlt
    · exact .inr (by simpa using honly m (by simpa using hm) hlt)
    · exact .inl heq
  · rw [hwindow]
    refine ⟨fun hw => absurd hw List.not_mem_nil, ?_⟩
    rintro (⟨hw, hbeyond⟩ | ⟨hle, -⟩)
    · have := (hp.2.1 w hw).2
      omega
    · omega
  · rw [heldAt_none_iff, hwindow]
    simp

/-- A store after the chain's timer step: a running timer keeps its count while frames were held, else the wait value starts
one. -/
theorem Ctx.Settled.store_timer {a b : Ctx} (h : a.Settled b) (hwait : b.waitValue = a.waitValue) :
    (if b.s.window = [] ∧ b.s.timer = none ∧ b.waitValue ≠ 0 then some b.waitValue else b.s.timer) =
      if b.s.window ≠ [] ∧ a.s.timer ≠ none then a.s.timer else if a.waitValue = 0 then none else some a.waitValue := by
  unfold Ctx.Settled at h
  rw [hwait, h]
  by_cases hw : b.s.window = []
  · by_cases h0 : a.waitValue = 0 <;> simp [hw, h0]
  · cases ht : a.s.timer <;> simp [hw]

/-- A frame pushed to within the window is held. -/
theorem Ctx.Pushed.stored (h : (c.discardJumpOn x).Pushed f e n p) (hp : c.Play 1 e) (hlt : n < dist f.seq e)
    (hfar : c.cfg.window ≤ dist f.seq e) (hreach : dist f.seq e < n + c.cfg.window)
    (hnone : p.s.heldAt (e + BitVec.ofNat 12 n) = none) (hset : (c.discardJumpOn x).Settled p) :
    c.PushedIn x f e n (p.nearArrival x f) := by
  obtain ⟨hpassing, -, honly⟩ := h
  have hp0 : (c.discardJumpOn x).Play 1 e := by simpa [Play] using hp
  have hne := frame_ne_passed hlt
  have hn : n < 4096 := by have := dist_lt f.seq e; omega
  have hfree : p.s.heldAt f.seq = none := heldAt_none_iff.mpr fun w hw he => by
    obtain ⟨-, -, hnear⟩ := hpassing.dist_held hp hfar hw
    rw [he] at hnear
    omega
  have hstore : p.nearArrival x f = p.storeHeld x (e + BitVec.ofNat 12 n) f := by
    rw [Ctx.nearArrival_window (hpassing.base hp0) hne]
    simp only [Ctx.windowArrival, hfree]
  have hs := Ctx.storeHeld_s (c := p) (x := x) (e := e + BitVec.ofNat 12 n) (f := f)
  have hcount := Ctx.storeHeld_tally (c := p) (x := x) (e := e + BitVec.ofNat 12 n) (f := f)
  have hjump := p.discardJumpOn_s_jump x
  rw [hpassing.discard] at hjump
  rw [← hjump] at hs
  rw [hpassing.no_strays, show arrivalCounts x 0 0 0 [] = Pi.single (ctrAccepted x) 1 by simp [arrivalCounts, joinCounts]]
    at hcount
  obtain ⟨hstream, hside, htally⟩ :=
    Ctx.pushed_parts (c' := p.storeHeld x (e + BitVec.ofNat 12 n) f) hp hpassing (by rw [hs]) Ctx.storeHeld_side hcount
  have hbeyond : ∀ w, w ∈ p.s.window ↔ w ∈ c.s.window ∧ n < dist w.seq e := fun w => by
    rw [hpassing.held, discardJumpOn_s_window]
    refine ⟨fun ⟨hw, hle⟩ => ⟨hw, Nat.lt_of_le_of_ne hle fun he => ?_⟩, fun ⟨hw, hlt⟩ => ⟨hw, hlt.le⟩⟩
    exact heldAt_none_iff.mp hnone w ((hpassing.held w).mpr ⟨by simpa using hw, hle⟩) ((dist_eq_iff hn).mp he.symm)
  have hmem : ∀ w, w ∈ (p.storeHeld x (e + BitVec.ofNat 12 n) f).s.window ↔ w = ⟨f.seq, f.q, f.words⟩ ∨ w ∈ p.s.window :=
    fun w => by rw [hs, (insertHeld_perm _ _ _).mem_iff, List.mem_cons]
  rw [hstore]
  refine ⟨by omega, by omega, fun m hm hmn => .inr (by simpa using honly m (by simpa using hm) hmn), fun w => ?_, ?_,
    fun hnil => ?_, fun _ => ?_, hstream, hside, htally⟩
  · rw [hmem, hbeyond]
    simp [hlt.le, or_comm]
  · refine heldAt_none_iff.mpr fun w hw => ?_
    obtain rfl | hw := (hmem w).mp hw
    · exact hne
    · exact heldAt_none_iff.mp hnone w hw
  · rw [hs] at hnil
    exact absurd hnil (insertHeld_ne_nil _ _ _)
  · have hwait : (c.discardJumpOn x).waitValue = c.waitValue := waitValue_congr (by simp) (by simp) (by simp)
    have hheld : (∃ w ∈ c.s.window, n < dist w.seq e) ↔ p.s.window ≠ [] :=
      ⟨fun ⟨w, hw⟩ => List.ne_nil_of_mem ((hbeyond w).mpr hw),
        fun hne => (List.exists_mem_of_ne_nil _ hne).imp fun w hw => (hbeyond w).mp hw⟩
    rw [hs]
    simpa only [hheld, discardJumpOn_s_timer, hwait] using hset.store_timer hpassing.joined.same.waitValue

/-- A push arrival as a whole. -/
theorem Ctx.pushArrival_pushedIn (h : c.PlayOk) (hp : c.Play 1 e) (hfar : c.cfg.window ≤ dist f.seq e) :
    ∃ n, c.PushedIn x f e n (c.pushArrival x (dist f.seq e) f) := by
  have hwf := (wf_iff _).mp h.wf
  have hp0 : (c.discardJumpOn x).Play 1 e := by simpa [Play] using hp
  have hw : 1 ≤ (c.discardJumpOn x).cfg.window := by rw [discardJumpOn_cfg]; omega
  have ht : 1 ≤ (c.discardJumpOn x).cfg.trim := by rw [discardJumpOn_cfg]; omega
  have hfar0 : (c.discardJumpOn x).cfg.window ≤ dist f.seq e := by rwa [discardJumpOn_cfg]
  have hstart : (c.discardJumpOn x).Pushed f e 0 (c.discardJumpOn x) :=
    ⟨.start f hp0, Nat.zero_le _, fun m _ hm => absurd hm (Nat.not_lt_zero m)⟩
  have hnone0 : (c.discardJumpOn x).s.heldAt (e + BitVec.ofNat 12 0) = none := by
    rw [heldAt_none_iff]
    simpa using ne_base_of_pos hp0.2.1
  obtain ⟨n1, hlt, hfirst, hnone1, hset1⟩ := hstart.step hp0 ht hw hnone0 (by omega)
  obtain ⟨n, hreach, hpushed, hnone, hset⟩ :=
    Ctx.pushSteps_pushed (dist f.seq e - 1) hfirst hp0 ht hw hnone1 hset1 (by omega)
  have hsteps : c.pushArrival x (dist f.seq e) f = (Ctx.pushSteps (dist f.seq e - 1) f.seq
      ((c.discardJumpOn x).substitute.count ctrSubstPush).chain).nearArrival x f := by
    rw [Ctx.pushArrival, show dist f.seq e = dist f.seq e - 1 + 1 by omega, pushSteps_go hp0.1 (by omega)]
    rfl
  rw [discardJumpOn_cfg] at hreach
  rw [hsteps]
  obtain hlt | heq := Nat.lt_or_eq_of_le hpushed.le
  · exact ⟨n, hpushed.stored hp hlt hfar hreach hnone hset⟩
  · subst heq
    exact ⟨_, hpushed.released hp (by omega) hfar⟩

end

/-- The counters of an accepted arrival, listed. -/
theorem Tally.arrival_countsBy {a b : Vector Counter 24} {x : Path} {stray trim len : Nat} {es : List QueueEntry}
    (h : Tally a b (arrivalCounts x stray trim len es)) : CountsBy a b [(ctrAccepted x, 1), (ctrReleased, queueSlots es),
      (ctrSubstPush, es.length - queueSlots es), (ctrTrimmed, len + es.length - trim), (ctrStraySeq, stray)] := by
  obtain ⟨hA, hR, hP, hT, hS⟩ := arrivalCounts_at x stray trim len es
  refine h.countsBy (by simp [hA, hR, hP, hT, hS]) fun k hk => arrivalCounts_of_not_mem hk ?_ ?_ ?_ ?_ ?_
  all_goals simp

/-- Settles O17: `Ctx.pushArrival_pushedIn` at the refreshed context; the slots balance as for every arrival. -/
theorem pushBringsTheFrameIn : Obligations.PushBringsTheFrameIn := by
  rintro s x i f rest e d a h hwaits hpass rfl hplay hb rfl hfar hd2
  obtain ⟨hok, hp⟩ := State.refreshed_play h x rest hplay hb
  have hcfg := State.refreshed_cfg s x i rest
  have hfar' : (s.refreshed x i rest).cfg.window ≤ dist f.seq e := by rwa [hcfg]
  have hgives := hwaits.gives_run hpass hplay
  rw [Ctx.runArrival_of_base x f hp.1, if_neg (by omega), if_pos (by rwa [hcfg])] at hgives
  obtain ⟨n, hpushed⟩ := Ctx.pushArrival_pushedIn (x := x) hok hp hfar'
  have htotal : _ + _ = _ + _ := (Ctx.pushArrival_fine x f hok hp hfar').2.total
  have hentries : (s.refreshed x i rest).s.entriesFrom (some f) e n = (s.stream i).entriesFrom (some f) e n :=
    Stream.entriesFrom_of_window (State.refreshed_window s x i rest) _ _ _
  obtain ⟨hreach, hle, honly, hheld, hnext, hidle, htimer, hs, hside, htally⟩ := hpushed
  rw [hentries, State.refreshed_strays, hcfg, State.refreshed_queue] at htally
  rw [hentries] at hs
  have hcounts := htally.arrival_countsBy
  rw [Stream.length_entriesFrom] at hcounts
  have hkeeps := htally.keeps hside (State.refreshed_record s x i rest)
    (ks := [ctrAccepted x, ctrReleased, ctrSubstPush, ctrTrimmed, ctrStraySeq])
    fun k hk => arrivalCounts_of_not_mem hk (by simp) (by simp) (by simp) (by simp) (by simp)
  rw [hcfg] at hreach honly
  rw [State.refreshed_window] at honly hheld htimer
  rw [State.refreshed_timer] at htimer
  rw [State.refreshed_free, State.refreshed_held] at htotal
  refine ⟨_, n, _, hgives, rfl, by rw [hs], hreach, hle, honly, hheld, hnext, hidle, htimer, by rw [hs]; simp, by rw [hs]; simp,
    htotal, by rw [hs]; simp, by rw [hs]; simp, by rw [hs]; simp, by rw [hs]; simp, by rw [hs]; simp, hkeeps, hcounts⟩

end Sys2Proof.Machine

/-! # Gap timers, demand substitution and the stall -/

namespace Sys2Proof.Machine

/-! ## The gap timer -/

theorem Ctx.startTimer_of_none {c : Ctx} (h : c.s.window = [] ∨ c.s.timer ≠ none ∨ c.waitValue = 0) : c.startTimer = c := by
  unfold Ctx.startTimer
  by_cases hw : c.s.window = []
  · exact if_pos hw
  · rw [if_neg hw]
    cases ht : c.s.timer with
    | some n => rfl
    | none => exact if_pos (by simpa [hw, ht] using h)

theorem Ctx.startTimer_of_wait {c : Ctx} (hw : c.s.window ≠ []) (ht : c.s.timer = none) (hv : c.waitValue ≠ 0) :
    c.startTimer = { c with s := { c.s with timer := some c.waitValue } } := by
  simp only [Ctx.startTimer, if_neg hw, ht, if_neg hv]

theorem Ctx.timerStep_of_none {c : Ctx} (h : c.s.timer = none) : c.timerStep = c := by
  simp only [Ctx.timerStep, h]

theorem Ctx.timerStep_falls {c : Ctx} {n : Nat} (h : c.s.timer = some n) (hn : 2 ≤ n) :
    c.timerStep = { c with s := { c.s with timer := some (n - 1) } } := by
  simp only [Ctx.timerStep, h, if_neg (show ¬ n ≤ 1 by omega)]

theorem Ctx.timerStep_expires {c : Ctx} (h : c.s.timer = some 1) : c.timerStep = c.expireTimer := by
  simp only [Ctx.timerStep, h, if_pos (Nat.le_refl 1)]

/-- GAP_TIMER_EXPIRY where the timer's last tick is due. -/
theorem exec_gapTimerExpiry_due {s : State} {i : StreamIdx} (h : (s.stream i).timer = some 1) :
    exec (.gapTimerExpiry i) s = .next (s.onStream i Ctx.expireTimer) := by
  show Host.Outcome.next (gapTimerExpiry i s) = _
  simp only [gapTimerExpiry, h, if_pos (Nat.le_refl 1)]

/-- Settles O25: the timer's start, its countdown and its expiry, which GAP_TIMER_EXPIRY commands where it is due. -/
theorem gapTimer : Obligations.GapTimer :=
  ⟨fun _ => ⟨rfl, Ctx.startTimer_of_none, Ctx.startTimer_of_wait⟩, fun _ _ => Ctx.timerStep_falls,
    fun _ => Ctx.timerStep_of_none, fun s i h => ⟨Ctx.timerStep_expires (c := s.ctx i) h, exec_gapTimerExpiry_due h⟩⟩

/-! ## The playout event at its context -/

theorem Ctx.phaseStep_of_wraps {c : Ctx} (h : c.phaseWraps = true) :
    c.phaseStep = { c with s := { c.s with phase := some 0 } }.playout := by
  cases hp : c.s.phase with
  | none => simp [Ctx.phaseWraps, hp] at h
  | some p =>
    have hdue : c.cfg.divisor ≤ p + 1 := by simpa [Ctx.phaseWraps, hp] using h
    simp only [Ctx.phaseStep, hp, if_pos hdue]

theorem State.beforePlayout_of_not_draining {s : State} {i : StreamIdx} (h : (s.stream i).state ≠ .draining) :
    s.beforePlayout i = s := if_neg h

theorem exec_playoutEvent_due {s : State} {i : StreamIdx} (h : (s.ctx i).phaseWraps = true) :
    exec (.playoutEvent i) s = .next (s.playStream i Ctx.phaseStep ownRound) := by
  show Host.Outcome.next (playoutEvent i s) = _
  rw [playoutEvent, if_pos h]

/-- A playout event that does not end a drain: the context is what `playout` makes of it at its event. -/
theorem playoutGives_of_playout {s : State} {i : StreamIdx} {c : Ctx} (hwraps : (s.ctx i).phaseWraps = true)
    (hdrain : (s.stream i).state ≠ .draining) (hplay : (s.atPlayout i).playout = c) (hoff : c.s.state ≠ .off) :
    s.PlayoutGives i c := by
  have hbefore := State.beforePlayout_of_not_draining hdrain
  have hstep : (s.ctx i).phaseStep = c := by
    rw [Ctx.phaseStep_of_wraps hwraps, ← hplay, State.atPlayout, hbefore]
    rfl
  have hidx : c.idx = i := hplay ▸ (Ctx.Names.playout (i := i) (c := s.atPlayout i) ⟨rfl, by simp [State.atPlayout]⟩).1
  rw [State.PlayoutGives, exec_playoutEvent_due hwraps, State.playStream, hbefore]
  dsimp only
  rw [hstep]
  refine congrArg Host.Outcome.next (State.endDrain_of_not_off ?_)
  show ((s.put c (.stream i)).stream i).state ≠ .off
  rwa [put_stream_of s (.stream i) hidx]

theorem Ctx.playout_of_running {c : Ctx} (h : c.s.state = .running) : c.playout = c.guardCountdown.playRunning := by
  simp only [Ctx.playout, h]

/-- The guard's countdown touches the guard alone. -/
theorem Ctx.guardCountdown_eq (c : Ctx) :
    c.guardCountdown = { c with s := { c.s with guard := c.guardCountdown.s.guard } } := by
  unfold Ctx.guardCountdown
  split <;> rfl

/-- A context at its playout event, the guard counted down: its phase is 0, and no part but phase and guard has changed. -/
theorem State.atPlayout_guardCountdown {s : State} {i : StreamIdx} (h : (s.stream i).state ≠ .draining) :
    ∃ g, (s.atPlayout i).guardCountdown = { s.ctx i with s := { s.stream i with phase := some 0, guard := g } } := by
  rw [Ctx.guardCountdown_eq, State.atPlayout, State.beforePlayout_of_not_draining h]
  exact ⟨_, rfl⟩

/-- The playout event of a RUNNING context. -/
theorem playoutGives_of_playRunning {s : State} {i : StreamIdx} {c : Ctx} (hwraps : (s.ctx i).phaseWraps = true)
    (hrun : (s.stream i).state = .running) (hplay : (s.atPlayout i).guardCountdown.playRunning = c)
    (hoff : c.s.state ≠ .off) : s.PlayoutGives i c := by
  have hdrain : (s.stream i).state ≠ .draining := by rw [hrun]; decide
  have hstate : (s.atPlayout i).s.state = .running := by
    rw [State.atPlayout, State.beforePlayout_of_not_draining hdrain]
    exact hrun
  exact playoutGives_of_playout hwraps hdrain ((Ctx.playout_of_running hstate).trans hplay) hoff

/-- The emission of the head at a playout event in RUNNING (06 R111). -/
theorem Ctx.emitHead_clearRun {c : Ctx} {h : QueueEntry} {t : List QueueEntry} (hq : c.s.queue = h :: t) :
    c.emitHead.clearRun = { c with s := { c.s with run := 0 } }.emitted h t := by
  cases h with
  | real seq q ws => simp only [Ctx.emitHead, hq]; rfl
  | subst seq => simp only [Ctx.emitHead, hq]; rfl

theorem Ctx.emitted_counters (c : Ctx) (h : QueueEntry) (t : List QueueEntry) : (c.emitted h t).s.counters = c.s.counters := by
  cases h <;> rfl

theorem Ctx.emitted_state (c : Ctx) (h : QueueEntry) (t : List QueueEntry) : (c.emitted h t).s.state = c.s.state := by
  cases h <;> rfl

/-! ## What a chain leaves in the queue, and the counters it does not count -/

/-- What every release from the window and the timer step keep, a chain keeps. -/
theorem Ctx.chain_keeps {P : Ctx → Prop} (hrelease : ∀ c e q ws, P c → P ((c.removeHeld e).releaseHeld e q ws))
    (hsettle : ∀ c, P c → P c.settleTimer) {c : Ctx} (h : P c) : P c.chain := by
  have hreleases : ∀ (n : Nat) (d : Ctx), P d → P (Ctx.chainReleases n d) := by
    intro n
    induction n with
    | zero => exact fun _ hd => hd
    | succ n ih =>
      intro d hd
      obtain hstop | ⟨e, w, hb, hw⟩ := d.base_held_or_not
      · rwa [chainReleases_stop hstop]
      · rw [chainReleases_go hb hw]
        exact ih _ (hrelease d e w.q w.words hd)
  exact hsettle _ (hreleases _ c h)

theorem Ctx.chain_queue_ne_nil {c : Ctx} (h : c.s.queue ≠ []) : c.chain.s.queue ≠ [] :=
  chain_keeps (P := fun d => d.s.queue ≠ []) (fun d e q ws _ => by simp [releaseHeld_s_queue])
    (fun d hd => by rwa [settleTimer_s_queue]) h

theorem Ctx.substitute_queue_ne_nil {c : Ctx} {e : Seq} (hb : c.s.base = some e) : c.substitute.s.queue ≠ [] := by
  simp [substitute_of_base hb]

/-- A counter advances no other. -/
theorem Ctx.count_counter_ne (c : Ctx) {j k : Fin 24} (h : j ≠ k) : (c.count k).s.counters[j] = c.s.counters[j] := by
  rw [c.count_tally k j, Pi.single_eq_of_ne h]
  rfl

theorem Ctx.trimForInsert_counter (c : Ctx) {j : Fin 24} (h : j ≠ ctrTrimmed) :
    c.trimForInsert.s.counters[j] = c.s.counters[j] := by
  unfold trimForInsert dropHead
  split
  · split
    · rfl
    · exact count_counter_ne _ h
  · rfl

theorem Ctx.substitute_counter (c : Ctx) {j : Fin 24} (h : j ≠ ctrTrimmed) :
    c.substitute.s.counters[j] = c.s.counters[j] := by
  unfold substitute
  split
  · rfl
  · exact c.trimForInsert_counter h

/-- A chain counts RELEASED and TRIMMED alone. -/
theorem Ctx.chain_counter (c : Ctx) {j : Fin 24} (htrimmed : j ≠ ctrTrimmed) (hreleased : j ≠ ctrReleased) :
    c.chain.s.counters[j] = c.s.counters[j] := by
  refine chain_keeps (P := fun d => d.s.counters[j] = c.s.counters[j]) (fun d e q ws hd => ?_) (fun d hd => ?_) rfl
  · exact (count_counter_ne _ hreleased).trans ((trimForInsert_counter _ htrimmed).trans hd)
  · rwa [settleTimer_s_counters]

theorem Ctx.chain_same (c : Ctx) : c.SamePlay c.chain := (chainReleases_same _ c).1.trans (settleTimer_same _)

/-! ## Demand substitution (04 R68, 06 R112) -/

theorem Ctx.demand_same (c : Ctx) : c.SamePlay c.demand := by
  have hcount : c.substitute.SamePlay (c.substitute.count ctrSubstDemand) := by simp [SamePlay]
  exact (c.substitute_same.trans hcount).trans (chain_same _)

theorem Ctx.demand_queue_ne_nil {c : Ctx} {e : Seq} (hb : c.s.base = some e) : c.demand.s.queue ≠ [] :=
  chain_queue_ne_nil (by rw [count_s_queue]; exact substitute_queue_ne_nil hb)

theorem Ctx.demand_counter (c : Ctx) {j : Fin 24} (htrimmed : j ≠ ctrTrimmed) (hreleased : j ≠ ctrReleased)
    (hdemand : j ≠ ctrSubstDemand) : c.demand.s.counters[j] = c.s.counters[j] :=
  (chain_counter _ htrimmed hreleased).trans ((count_counter_ne _ hdemand).trans (substitute_counter c htrimmed))

theorem Ctx.playRunning_over_gap {c : Ctx} (hq : c.s.queue = []) (hw : c.s.window ≠ []) :
    c.playRunning = c.demand.emitHead.clearRun := by
  rw [Ctx.playRunning, if_neg (not_not.mpr hq), if_pos hw]

/-! ## The underrun and the stall (06 R113, R114) -/

theorem Ctx.passUnderrun_of_base {c : Ctx} {e : Seq} (hb : c.s.base = some e) : c.passUnderrun = c.underrunAt e := by
  simp only [Ctx.passUnderrun, hb, Ctx.underrunAt, Ctx.count_eq, Ctx.advance, Ctx.offerRecord, Option.map_some,
    Config.historyDepth]

theorem Ctx.stallNow_eq (c : Ctx) : c.stallNow = { c with
    s := { c.s with state := .stalled, jump := none, guard := none }
    free := c.free + (if c.s.jump.isSome = true then 1 else 0) }.noteState .stall := by
  cases hj : c.s.jump <;> simp [Ctx.stallNow, Ctx.freeJump, hj, Ctx.giveSlots]

theorem Ctx.playRunning_underrun {c : Ctx} {e : Seq} (hq : c.s.queue = []) (hw : c.s.window = []) (hb : c.s.base = some e) :
    c.playRunning = if c.cfg.stallLimit ≤ c.s.run + 1 then (c.underrunAt e).stallNow else c.underrunAt e := by
  rw [Ctx.playRunning, if_neg (not_not.mpr hq), if_neg (not_not.mpr hw), Ctx.underrun, Ctx.passUnderrun_of_base hb]
  simp [Ctx.underrunAt]

/-- STALL is the playout event that stalls the stream. -/
theorem exec_stall_due {s : State} {i : StreamIdx} (hwraps : (s.ctx i).phaseWraps = true)
    (hstall : (s.ctx i).wouldStall = true) : exec (.stall i) s = exec (.playoutEvent i) s := by
  rw [exec_playoutEvent_due hwraps]
  show Host.Outcome.next (stall i s) = _
  rw [stall, if_pos ⟨hwraps, hstall⟩]

/-! ## The substitute payload (04 R72) -/

theorem Ctx.substPayload_of_last {c : Ctx} {ws : List Word} (h : c.cfg.subst = .repeatLast) (hl : c.s.last = some ws) :
    c.substPayload = ws := by
  simp only [Ctx.substPayload, h, hl, Option.getD_some]

theorem Ctx.substPayload_of_no_last {c : Ctx} (h : c.cfg.subst = .repeatLast) (hl : c.s.last = none) :
    c.substPayload = List.replicate c.cfg.words 0 := by
  simp only [Ctx.substPayload, h, hl, Option.getD_none, zeroWords]

theorem Ctx.substPayload_of_zero {c : Ctx} (h : c.cfg.subst = .zero) : c.substPayload = List.replicate c.cfg.words 0 := by
  simp only [Ctx.substPayload, h, zeroWords]

theorem Ctx.substPayload_of_mark {c : Ctx} (h : c.cfg.subst = .mark) : c.substPayload = [] := by
  simp only [Ctx.substPayload, h]

/-! ## The playout events in RUNNING over an empty queue -/

section
variable {s : State} {i : StreamIdx} {e : Seq} (hwraps : (s.ctx i).phaseWraps = true) (hrun : (s.stream i).state = .running)
  (hqueue : (s.stream i).queue = []) (hbase : (s.stream i).base = some e)
include hwraps hrun hqueue hbase

/-- Over a gap the base is substituted on demand, and what its chain leaves has a head to emit. -/
theorem playoutGives_over_gap {c0 : Ctx} (hc0 : c0 = (s.atPlayout i).guardCountdown) (hwindow : (s.stream i).window ≠ []) :
    ∃ h t c, c0.demand.s.queue = h :: t ∧ s.PlayoutGives i c ∧
      c = { c0.demand with s := { c0.demand.s with run := 0 } }.emitted h t ∧
      c.s.counters[ctrUnderrun] = (s.stream i).counters[ctrUnderrun] := by
  obtain ⟨g, hcountdown⟩ := State.atPlayout_guardCountdown (s := s) (i := i) (by rw [hrun]; decide)
  have hparts := hc0.trans hcountdown
  have hbase0 : c0.s.base = some e := by rw [hparts]; exact hbase
  obtain ⟨h, t, hhead⟩ := List.exists_cons_of_ne_nil (Ctx.demand_queue_ne_nil hbase0)
  have hplay : c0.playRunning = { c0.demand with s := { c0.demand.s with run := 0 } }.emitted h t := by
    rw [Ctx.playRunning_over_gap (by rw [hparts]; exact hqueue) (by rw [hparts]; exact hwindow), Ctx.emitHead_clearRun hhead]
  have hstate : c0.demand.s.state = .running := by
    obtain ⟨-, -, -, hsame, -⟩ := c0.demand_same
    rw [hsame, hparts]
    exact hrun
  refine ⟨h, t, _, hhead, playoutGives_of_playRunning hwraps hrun (hc0 ▸ hplay) ?_, rfl, ?_⟩
  · simp [Ctx.emitted_state, hstate]
  · rw [Ctx.emitted_counters]
    exact (Ctx.demand_counter c0 (by decide) (by decide) (by decide)).trans (by rw [hparts])

/-- With the window empty too it is an underrun, and a stall where the run reaches S. -/
theorem playoutGives_underrun {c0 : Ctx} (hc0 : c0 = (s.atPlayout i).guardCountdown) (hwindow : (s.stream i).window = []) :
    s.PlayoutGives i
      (if (s.inForce i).stallLimit ≤ (s.stream i).run + 1 then (c0.underrunAt e).stallNow else c0.underrunAt e) := by
  obtain ⟨g, hcountdown⟩ := State.atPlayout_guardCountdown (s := s) (i := i) (by rw [hrun]; decide)
  have hparts := hc0.trans hcountdown
  have hplay := Ctx.playRunning_underrun (c := c0) (e := e) (by rw [hparts]; exact hqueue) (by rw [hparts]; exact hwindow)
    (by rw [hparts]; exact hbase)
  have hcfg : c0.cfg = s.inForce i := by rw [hparts]; rfl
  have hrunLength : c0.s.run = (s.stream i).run := by rw [hparts]
  rw [hcfg, hrunLength] at hplay
  refine playoutGives_of_playRunning hwraps hrun (hc0 ▸ hplay) ?_
  split
  · simp [Ctx.stallNow]
  · simp [Ctx.underrunAt, hparts, hrun]

end

/-- Settles O28: over a gap the demand substitution leaves a head to emit; over nothing it is an underrun, which may stall. -/
theorem playoutRunningEmpty : Obligations.PlayoutRunningEmpty := by
  refine ⟨fun c => ⟨Ctx.substPayload_of_zero, fun h _ => Ctx.substPayload_of_last h, Ctx.substPayload_of_no_last,
    Ctx.substPayload_of_mark⟩, ?_, ?_⟩
  · rintro s i c0 c1 e hwraps hrun hqueue hwindow hbase hc0 rfl
    exact playoutGives_over_gap hwraps hrun hqueue hbase hc0 hwindow
  · rintro s i c0 c1 e hwraps hrun hqueue hwindow hbase hc0 rfl
    have hgives := playoutGives_underrun hwraps hrun hqueue hbase hc0 hwindow
    refine ⟨fun hbelow => ?_, fun hstall => ⟨(c0.underrunAt e).stallNow, ?_, exec_stall_due hwraps ?_, ?_⟩⟩
    · rwa [if_neg (Nat.not_le.mpr hbelow)] at hgives
    · rwa [if_pos hstall] at hgives
    · simp [Ctx.wouldStall, hrun, hqueue, hwindow, hbase, hstall]
    · obtain ⟨g, hcountdown⟩ := State.atPlayout_guardCountdown (s := s) (i := i) (by rw [hrun]; decide)
      rw [Ctx.stallNow_eq]
      simp [Ctx.underrunAt, hc0.trans hcountdown]

end Sys2Proof.Machine

/-! # READ_STREAM and the runtime status -/

namespace Sys2Proof.Machine

/-! ## The layout of the runtime status (11 R195) -/

theorem nat16_eq_twoBytes (n : Nat) : nat16 n = twoBytes n := by
  have hhi : BitVec.ofNat 8 (n % 65536 / 256) = BitVec.ofNat 8 (n / 256) := by
    apply BitVec.eq_of_toNat_eq
    rw [BitVec.toNat_ofNat, BitVec.toNat_ofNat]
    omega
  have hlo : BitVec.ofNat 8 (n % 65536) = BitVec.ofNat 8 n := by
    apply BitVec.eq_of_toNat_eq
    rw [BitVec.toNat_ofNat, BitVec.toNat_ofNat]
    omega
  rw [nat16, bytes16_eq_twoBytes, BitVec.toNat_ofNat, twoBytes, hhi, hlo, twoBytes]

theorem seqBytes_eq_twoBytes (e : Seq) : seqBytes e = twoBytes e.toNat := by
  rw [seqBytes, bytes16_eq_twoBytes, BitVec.toNat_setWidth_of_le (by decide)]

/-- Eight marks are the bits of their mark byte. -/
theorem markByte_bits {ms : List Bool} (h : ms.length = 8) : (List.range 8).map (markByte ms).getLsbD = ms := by
  refine List.ext_getElem (by simp [h]) fun j hj hms => ?_
  have hlt : j < 8 := h ▸ hms
  rw [List.getElem_map, List.getElem_range, markByte_getLsbD, decide_eq_true hlt, Bool.true_and,
    List.getD_eq_getElem _ _ hms]

/-- The runtime status part by part, the presence of each path beside its silence count. -/
theorem statusBody_parts (p : Nat) (a : Stream) : statusBody p a = [streamStateCode a.state, presenceByte a] ++
    optSeqBytes a.base ++ [BitVec.ofNat 8 a.window.length, BitVec.ofNat 8 a.queue.length] ++
    optSeqBytes (a.acq.map AcqCandidate.seq) ++ optSeqBytes (a.jump.map JumpCandidate.seq) ++
    optSeqBytes (a.guard.map Guard.prior) ++ [optByte (a.guard.map Guard.remaining)] ++ [optByte a.timer] ++
    (presenceCode a.pathA :: nat16 (silenceOf p a.pathA)) ++ (presenceCode a.pathB :: nat16 (silenceOf p a.pathB)) ++
    [BitVec.ofNat 8 a.run] ++ [optByte a.phase] := by
  simp [statusBody, nat8]

/-! ## The request -/

/-- READ_STREAM in its order of judgement. -/
theorem readStream_answers {s : State} {f : MgmtFrame} {b0 b1 : Byte} (ht : s.Takes f 0x02 2) (hbody : f.body = [b0, b1]) :
    (32 ≤ b0.toNat → s.Answers .readStream f (s.beginRequest f) ⟨.badIndex, [], false⟩) ∧
    (∀ i : StreamIdx, b0.toNat = i.val →
      (1 < b1.toNat → s.Answers .readStream f (s.beginRequest f) ⟨.badValue 1, [], false⟩) ∧
      (b1 = 0 → s.Answers .readStream f (s.beginRequest f) ⟨.ok, streamRecordBody (s.active.record i) ++
        drainPart (s.drainRead i) ++ statusBody (s.inForce i).pathSilence (s.stream i), false⟩) ∧
      (b1 = 1 → s.session = none → s.Answers .readStream f (s.beginRequest f) ⟨.noSession, [], false⟩) ∧
      (∀ e, b1 = 1 → s.session = some e → s.Answers .readStream f (s.beginRequest f) ⟨.ok,
        streamRecordBody (e.staged.record i) ++ drainPart none ++
        statusBody (s.inForce i).pathSilence (s.stream i), false⟩)) := by
  have hanswer : ∀ {t a}, readStream [b0, b1] (s.beginRequest f) = (t, a) → s.Answers .readStream f t a :=
    fun hg => answers_of_serve rfl ht (by rw [hbody]; exact hg)
  have hindex : byteAt [b0, b1] 0 = b0 := rfl
  have hselector : byteAt [b0, b1] 1 = b1 := rfl
  refine ⟨fun h => hanswer ?_, fun i hi => ⟨fun h => hanswer ?_, fun h => hanswer ?_, fun h hnone => hanswer ?_,
    fun e h hopen => hanswer ?_⟩⟩
  · rw [readStream, hindex, streamIdxOf_none h]; rfl
  all_goals
    rw [readStream, hindex, streamIdxOf_some hi]
    simp only [hselector]
  · rw [flagOf_none h]; rfl
  · subst h
    simp [flagOf, Answer.okWith, State.drainRead]
  · subst h
    simp [flagOf, Answer.only, hnone]
  · subst h
    simp [flagOf, Answer.okWith, hopen]

/-- Settles O44: the request in its order of judgement, and the runtime status part by part. -/
theorem readStreamAnswered : Obligations.ReadStreamAnswered := by
  refine ⟨fun s f b0 b1 => readStream_answers, fun p a => ⟨presenceByte a, ?_, markByte_bits rfl⟩⟩
  have hseq : ∀ o : Option Seq, optSeqBytes o = match o with | none => [0, 0] | some e => twoBytes e.toNat := fun o => by
    cases o with
    | none => rfl
    | some e => exact seqBytes_eq_twoBytes e
  have hcount : ∀ o : Option Nat, [optByte o] = match o with | none => [0] | some n => [BitVec.ofNat 8 n] := fun o => by
    cases o <;> rfl
  have hpath : ∀ q : Presence, presenceCode q :: nat16 (silenceOf p q) =
      match q with | .unused => 0 :: twoBytes 0 | .absent => 1 :: twoBytes p | .present n => 2 :: twoBytes n := fun q => by
    rw [nat16_eq_twoBytes]
    cases q <;> rfl
  have hparts := statusBody_parts p a
  simp only [hseq, hcount, hpath] at hparts
  exact hparts

end Sys2Proof.Machine

/-! # The order in which notices join -/

namespace Sys2Proof.Machine

/-! ## Which offers go before another -/

theorem Offer.before_iff (e o : Offer) : e.before o = true ↔
    e.block = o.block ∨ (∃ i, e.notice.about = some i ∧ o.notice.about = some i) ∨
      ∃ x, e.report = some x ∧ o.report = some x := by
  have hsame : ∀ {α : Type} [DecidableEq α] (a b : Option α),
      (a.isSome && decide (a = b)) = true ↔ ∃ v, a = some v ∧ b = some v := fun a b => by
    cases a <;> simp [eq_comm]
  rw [Offer.before, Bool.or_eq_true, Bool.or_eq_true, hsame, hsame, decide_eq_true_eq, or_assoc]

/-- An offer waits exactly where one that must be taken before it is older than its block's offers. -/
theorem mayJoin_eq_false_iff (b : Block) (o : Offer) (offers : List Offer) :
    mayJoin b o offers = false ↔ ∃ e ∈ offers.takeWhile (fun e => !decide (e.block = b)), e.before o = true := by
  simp [mayJoin]

theorem mayJoin_iff (b : Block) (o : Offer) (offers : List Offer) :
    mayJoin b o offers = true ↔ ∀ e ∈ offers.takeWhile (fun e => !decide (e.block = b)), e.before o = false := by
  simp [mayJoin]

/-! ## The taking of one notice -/

section
variable {s : State} {b : Block} {o : Offer} {rest : List Offer}

theorem exec_noticeOffer_waits (hfirst : takeFirstOffer b s.offers = some (o, rest)) (hjoin : mayJoin b o s.offers = false) :
    exec (.noticeOffer b) s = .next s := by
  show Host.Outcome.next (noticeOffer b s) = _
  simp [noticeOffer, hfirst, hjoin]

theorem exec_noticeOffer_takes (hfirst : takeFirstOffer b s.offers = some (o, rest)) (hjoin : mayJoin b o s.offers = true) :
    exec (.noticeOffer b) s = .next ({ s with offers := rest }.takeNotice o.notice) := by
  show Host.Outcome.next (noticeOffer b s) = _
  simp [noticeOffer, hfirst, hjoin]

end

theorem State.takeNotice_of_room {s : State} (n : Notice) (h : s.notices.queue.length < 32) :
    s.takeNotice n = { s with notices := s.notices.join n }.choose := if_pos h

theorem lostBump_eq (w : Word) : lostBump w = if w = 65535 then 65535 else w + 1 := by
  unfold lostBump
  split
  · next h => exact h
  · rfl

theorem State.takeNotice_of_full {s : State} (n : Notice) (h : 32 ≤ s.notices.queue.length) :
    s.takeNotice n = { s with
      notices := { s.notices with lost := if s.notices.lost = 65535 then 65535 else s.notices.lost + 1 }
      mgmt := s.mgmt.count mctrNoticesLost } := by
  rw [← lostBump_eq]
  exact if_neg (Nat.not_lt.mpr h)

/-- Settles O53: an older offer that goes before holds the notice back, and otherwise the queue's room decides. -/
theorem noticeTaken : Obligations.NoticeTaken := by
  rintro s b o rest older hfirst rfl
  refine ⟨fun e => Offer.before_iff e o, fun hwaits => ?_, fun hfree hroom => ⟨?_, rfl, rfl⟩, fun hfree hfull => ?_⟩
  · exact exec_noticeOffer_waits hfirst ((mayJoin_eq_false_iff b o s.offers).mpr hwaits)
  · rw [exec_noticeOffer_takes hfirst ((mayJoin_iff b o s.offers).mpr hfree)]
    exact congrArg Host.Outcome.next (State.takeNotice_of_room (s := { s with offers := rest }) o.notice hroom)
  · rw [exec_noticeOffer_takes hfirst ((mayJoin_iff b o s.offers).mpr hfree)]
    exact congrArg Host.Outcome.next (State.takeNotice_of_full (s := { s with offers := rest }) o.notice hfull)

end Sys2Proof.Machine

/-! # FORCE_RESYNC -/

namespace Sys2Proof.Machine

/-! ## The context it leaves -/

/-- FORCE_RESYNC in PRIMING, RUNNING or STALLED keeps presence, phase, drain record and acquisition candidate alone. -/
theorem Ctx.forceAcquire_s (c : Ctx) : c.forceAcquire.s = { c.s with
    state := .acquire, base := none, window := [], queue := [], jump := none, guard := none, timer := none
    history := historyNone, last := none, run := 0, counters := c.forceAcquire.s.counters } := by
  simp [forceAcquire]

/-- One FLUSHED for each frame and substitute flushed, whatever it held. -/
theorem Ctx.forceAcquire_tally (c : Ctx) :
    Tally c.s.counters c.forceAcquire.s.counters (Pi.single ctrFlushed (c.s.window.length + c.s.queue.length)) := by
  simpa [forceAcquire] using c.flush_tally

theorem Ctx.freeJump_free (c : Ctx) : c.freeJump.free = c.free + if c.s.jump.isSome = true then 1 else 0 := by
  unfold freeJump
  cases c.s.jump <;> rfl

theorem Ctx.forceAcquire_free (c : Ctx) : c.forceAcquire.free =
    c.free + c.s.window.length + queueSlots c.s.queue + if c.s.jump.isSome = true then 1 else 0 := by
  simp [forceAcquire, freeJump_free]

theorem Ctx.forceAcquire_getLast {c : Ctx} (h : c.cfg.noticeMask.streamState = true) :
    c.forceAcquire.notes.getLast? = some (.streamState c.idx .acquire .forced) := by
  unfold forceAcquire
  rw [noteState_getLast _ (by simpa using h)]
  simp

/-- FORCE_RESYNC in ACQUIRE keeps all but the candidate and the last payload, and tells of nothing. -/
theorem Ctx.forceInAcquire_eq (c : Ctx) : c.forceInAcquire = { c with
    s := { c.s with acq := none, last := none }, free := c.free + if c.s.acq.isSome = true then 1 else 0 } := by
  cases ha : c.s.acq <;> simp [forceInAcquire, freeAcq, ha, giveSlots]

theorem Ctx.force_of_flushed {c : Ctx} (h : c.s.state = .priming ∨ c.s.state = .running ∨ c.s.state = .stalled) :
    c.force = c.forceAcquire := by
  unfold force
  obtain h | h | h := h <;> rw [h]

theorem Ctx.force_of_acquire {c : Ctx} (h : c.s.state = .acquire) : c.force = c.forceInAcquire := by
  simp only [force, h]

/-! ## The request -/

theorem forceResync_badIndex {b0 : Byte} (s : State) (h : 32 ≤ b0.toNat) :
    forceResync [b0] s = (s, .only .badIndex) := by
  rw [forceResync, show byteAt [b0] 0 = b0 from rfl, streamIdxOf_none h]

section
variable {s : State} {b0 : Byte} {i : StreamIdx} (hi : b0.toNat = i.val)
include hi

/-- A stream whose ENABLE is 1 is resynchronised, and the reply carries the state found. -/
theorem forceResync_live (h : (s.stream i).state.live = true) :
    forceResync [b0] s = (s.put (s.ctx i).force (.stream i), .okWith [streamStateCode (s.stream i).state]) := by
  rw [forceResync, show byteAt [b0] 0 = b0 from rfl, streamIdxOf_some hi]
  cases hs : (s.stream i).state with
  | off => rw [hs] at h; cases h
  | draining => rw [hs] at h; cases h
  | _ => simp only [hs]; rfl

theorem forceResync_wrongState (h : (s.stream i).state = .off ∨ (s.stream i).state = .draining) :
    forceResync [b0] s = (s, .only (.wrongState (s.stream i).state)) := by
  rw [forceResync, show byteAt [b0] 0 = b0 from rfl, streamIdxOf_some hi]
  obtain hs | hs := h <;> simp only [hs]

end

section
variable {s : State} {f : MgmtFrame} {b0 : Byte} (ht : s.Takes f 0x0C 1) (hbody : f.body = [b0])
include ht hbody

theorem forceResync_answers {t : State} {a : Answer} (h : forceResync [b0] (s.beginRequest f) = (t, a)) :
    s.Answers .forceResync f t a := answers_of_serve rfl ht (by rw [hbody]; exact h)

variable {i : StreamIdx} (hi : b0.toNat = i.val)
include hi

theorem forceResync_flushes (h : (s.stream i).state = .priming ∨ (s.stream i).state = .running ∨ (s.stream i).state = .stalled) :
    s.Answers .forceResync f ((s.beginRequest f).put ((s.beginRequest f).ctx i).forceAcquire (.stream i))
      ⟨.ok, [streamStateCode (s.stream i).state], false⟩ := by
  have hstream := State.beginRequest_stream s f i
  have hlive : ((s.beginRequest f).stream i).state.live = true := by
    rw [hstream]
    obtain hs | hs | hs := h <;> rw [hs] <;> rfl
  refine forceResync_answers ht hbody ?_
  rw [forceResync_live hi hlive, Ctx.force_of_flushed (by rwa [State.ctx_s, hstream]), hstream]
  rfl

theorem forceResync_frees (h : (s.stream i).state = .acquire) :
    s.Answers .forceResync f { (s.beginRequest f).setStream i { s.stream i with acq := none, last := none } with
      free := s.free + if (s.stream i).acq.isSome = true then 1 else 0 } ⟨.ok, [1], false⟩ := by
  have hstream := State.beginRequest_stream s f i
  have hacquire : ((s.beginRequest f).stream i).state = .acquire := by rw [hstream, h]
  refine forceResync_answers ht hbody ?_
  rw [forceResync_live hi (by rw [hacquire]; rfl), Ctx.force_of_acquire hacquire, Ctx.forceInAcquire_eq, hacquire]
  simp [State.put, State.setStream, Answer.okWith, streamStateCode]

end

/-- Settles O52: the states FORCE_RESYNC flushes, ACQUIRE, the states that turn it away, and an index of no stream. -/
theorem forceResyncAnswered : Obligations.ForceResyncAnswered := by
  refine ⟨?_, ?_, fun s f b0 ht hbody h => forceResync_answers ht hbody (forceResync_badIndex _ h)⟩
  · rintro s f b0 i a ht hbody hi rfl hstate
    have hstream := State.beginRequest_stream s f i
    have htally := ((s.beginRequest f).ctx i).forceAcquire_tally
    have hs := ((s.beginRequest f).ctx i).forceAcquire_s
    have hfree := ((s.beginRequest f).ctx i).forceAcquire_free
    rw [State.ctx_s, hstream] at htally hs hfree
    refine ⟨_, forceResync_flushes ht hbody hi hstate, by simp [Ctx.forceAcquire], hs, ?_, fun k hk => ?_, ?_, fun hmask => ?_⟩
    · rw [htally, Pi.single_eq_same]
    · rw [htally, Pi.single_eq_of_ne hk]; rfl
    · rw [hfree, State.ctx_free, State.beginRequest_free]
    · exact Ctx.forceAcquire_getLast (by simpa using hmask)
  · rintro s f b0 i a ht hbody hi rfl
    have hstream := State.beginRequest_stream s f i
    refine ⟨fun h => ⟨forceResync_frees ht hbody hi h, fun hok => ?_⟩, fun h => forceResync_answers ht hbody ?_⟩
    · obtain ⟨-, -, -, -, -, -, -, hhistory, -⟩ := (shape_acquire h).mp (hok.1 i).1
      exact hhistory
    · rw [forceResync_wrongState hi (by rwa [hstream]), hstream]
      rfl

end Sys2Proof.Machine

/-! # The countdown of the straggler guard -/

namespace Sys2Proof.Machine

/-! ## The countdown -/

theorem Ctx.guardCountdown_falls {c : Ctx} {g : Guard} (h : c.s.guard = some g) (hg : 2 ≤ g.remaining) :
    c.guardCountdown = { c with s := { c.s with guard := some ⟨g.prior, g.remaining - 1⟩ } } := by
  simp only [guardCountdown, h, if_neg (Nat.not_le.mpr hg)]

theorem Ctx.guardCountdown_ends {c : Ctx} {g : Guard} (h : c.s.guard = some g) (hg : g.remaining ≤ 1) :
    c.guardCountdown = { c with s := { c.s with guard := none } } := by
  simp only [guardCountdown, h, if_pos hg]

theorem Ctx.guardEnds_of_playing {c : Ctx} {g : Guard} (hplay : c.s.state.playing = true) (hg : c.s.guard = some g) :
    c.guardEnds = decide (g.remaining ≤ 1) := by
  obtain hs | hs := StreamState.playing_iff.mp hplay <;> simp only [guardEnds, hs, hg]

/-! ## What the rest of a playout event leaves of a removed guard -/

/-- A context at its playout event, not OFF, that holds no guard. -/
structure Ctx.Unguarded (c : Ctx) : Prop where
  guard : c.s.guard = none
  phase : c.s.phase = some 0
  on : c.s.state ≠ .off

namespace Ctx.Unguarded

variable {c d : Ctx}

theorem of_same (h : c.Unguarded) (hsame : c.SamePlay d) : d.Unguarded := by
  obtain ⟨-, -, -, hstate, -, -, -, hguard, -, -, -, -, hphase⟩ := hsame
  exact ⟨hguard.trans h.guard, hphase.trans h.phase, by rw [hstate]; exact h.on⟩

theorem emitHead_clearRun (h : c.Unguarded) : c.emitHead.clearRun.Unguarded := by
  obtain ⟨last, record, hemit⟩ := c.emitHead_eq
  rw [hemit]
  exact ⟨h.guard, h.phase, h.on⟩

theorem passUnderrun (h : c.Unguarded) : c.passUnderrun.Unguarded := by
  cases hb : c.s.base with
  | none => simpa only [Ctx.passUnderrun, hb] using h
  | some e =>
    rw [passUnderrun_of_base hb]
    exact ⟨by simpa [underrunAt] using h.guard, by simpa [underrunAt] using h.phase, by simpa [underrunAt] using h.on⟩

theorem stallNow (h : c.Unguarded) : c.stallNow.Unguarded := by
  rw [stallNow_eq]
  exact ⟨by simp, by simpa using h.phase, by simp⟩

theorem playRunning (h : c.Unguarded) : c.playRunning.Unguarded := by
  unfold Ctx.playRunning
  split
  · exact h.emitHead_clearRun
  · split
    · exact (h.of_same c.demand_same).emitHead_clearRun
    · unfold underrun
      dsimp only
      split
      · exact h.passUnderrun.stallNow
      · exact h.passUnderrun

theorem playPriming (h : c.Unguarded) : c.playPriming.Unguarded := by
  unfold Ctx.playPriming
  split
  · exact ⟨h.guard, h.phase, h.on⟩
  · have hprimed : ({ c with s := { c.s with state := .running } }.noteState .primed).Unguarded :=
      ⟨by simpa using h.guard, by simpa using h.phase, by simp⟩
    exact hprimed.playRunning

end Ctx.Unguarded

/-- The playout event that removes the guard of a playing context. -/
theorem Ctx.playout_unguarded {c : Ctx} {g : Guard} (hplay : c.s.state.playing = true) (hphase : c.s.phase = some 0)
    (hg : c.s.guard = some g) (hlast : g.remaining ≤ 1) : c.playout.Unguarded := by
  have hcountdown : c.guardCountdown.Unguarded := by
    rw [guardCountdown_ends hg hlast]
    exact ⟨rfl, hphase, fun hoff => by rw [hoff] at hplay; cases hplay⟩
  unfold Ctx.playout
  obtain hs | hs := StreamState.playing_iff.mp hplay <;> rw [hs]
  · exact hcountdown.playPriming
  · exact hcountdown.playRunning

/-! ## GUARD_EXPIRY -/

section
variable {s : State} {i : StreamIdx} {g : Guard} (hplay : (s.stream i).state.playing = true)
  (hg : (s.stream i).guard = some g)
include hplay hg

theorem exec_guardExpiry_due (hwraps : (s.ctx i).phaseWraps = true) (hlast : g.remaining ≤ 1) :
    exec (.guardExpiry i) s = exec (.playoutEvent i) s := by
  have hends : (s.ctx i).guardEnds = true := by
    rw [Ctx.guardEnds_of_playing (c := s.ctx i) hplay hg]; exact decide_eq_true hlast
  rw [exec_playoutEvent_due hwraps]
  show Host.Outcome.next (guardExpiry i s) = _
  rw [guardExpiry, if_pos ⟨hwraps, hends⟩]

theorem exec_guardExpiry_not_due (h : (s.ctx i).phaseWraps = false ∨ 2 ≤ g.remaining) :
    exec (.guardExpiry i) s = .next s := by
  show Host.Outcome.next (guardExpiry i s) = _
  rw [guardExpiry, if_neg]
  rintro ⟨hwraps, hends⟩
  rw [Ctx.guardEnds_of_playing (c := s.ctx i) hplay hg] at hends
  obtain h | h := h
  · rw [h] at hwraps; cases hwraps
  · exact absurd (of_decide_eq_true hends) (by omega)

end

/-- What the playout event leaves of a context whose guard it removes. -/
theorem playoutGives_unguarded {s : State} {i : StreamIdx} {g : Guard} (hplay : (s.stream i).state.playing = true)
    (hg : (s.stream i).guard = some g) (hwraps : (s.ctx i).phaseWraps = true) (hlast : g.remaining ≤ 1) :
    ∃ c : Ctx, s.PlayoutGives i c ∧ c.idx = i ∧ c.Unguarded := by
  have hdrain : (s.stream i).state ≠ .draining := fun hd => by rw [hd] at hplay; cases hplay
  have hbefore := State.beforePlayout_of_not_draining hdrain
  have hunguarded : (s.atPlayout i).playout.Unguarded := by
    rw [State.atPlayout, hbefore]
    exact Ctx.playout_unguarded hplay rfl hg hlast
  exact ⟨_, playoutGives_of_playout hwraps hdrain rfl hunguarded.on,
    (Ctx.Names.playout (i := i) (c := s.atPlayout i) ⟨rfl, by simp [State.atPlayout]⟩).1, hunguarded⟩

/-- Settles O30: the countdown, and GUARD_EXPIRY where the playout event that removes the guard is due and where it is not. -/
theorem guardCountsDown : Obligations.GuardCountsDown := by
  refine ⟨fun c g hg => ⟨Ctx.guardCountdown_falls hg, Ctx.guardCountdown_ends hg⟩, fun s i g hplay hg =>
    ⟨fun hwraps hlast => ⟨exec_guardExpiry_due hplay hg hwraps hlast, ?_⟩, exec_guardExpiry_not_due hplay hg⟩⟩
  obtain ⟨c, hgives, hidx, hunguarded⟩ := playoutGives_unguarded hplay hg hwraps hlast
  have hstream : ((s.beforePlayout i).put c (.stream i)).stream i = c.s := put_stream_of _ _ hidx
  exact ⟨_, (exec_guardExpiry_due hplay hg hwraps hlast).trans hgives, by rw [← hunguarded.guard, ← hstream]; rfl,
    by rw [← hunguarded.phase, ← hstream]; rfl⟩

end Sys2Proof.Machine

/-! # Jump handling and resynchronisation -/

namespace Sys2Proof.Machine

/-! ## Which arrivals are handled as far frames, and which restart the stream -/

theorem Ctx.outerArrival_far {c : Ctx} {x : Path} {e : Seq} {d : Nat} {f : Frame} (hguard : c.guardDrops f.seq = false)
    (hd : d < 4032) (hflag : f.restart = false) : c.outerArrival x e d f = c.farArrival x e f := by
  have hfar : d < Config.behindFrom := hd
  rw [outerArrival, if_neg (by rw [hguard]; simp), if_pos hfar, if_neg (by rw [hflag]; simp)]

theorem Ctx.outerArrival_restart {c : Ctx} {x : Path} {e : Seq} {d : Nat} {f : Frame} (hguard : c.guardDrops f.seq = false)
    (hflag : f.restart = true) (hnone : 4032 ≤ d → c.s.passedAt d = .none) :
    c.outerArrival x e d f = c.restartResync x e f := by
  rw [outerArrival, if_neg (by rw [hguard]; simp), if_pos hflag]
  split
  · rfl
  · next hbehind => exact if_pos ⟨hflag, hnone (Nat.not_lt.mp hbehind)⟩

section
variable {s : State} {x : Path} {i : StreamIdx} {f : Frame} {rest : List Delivery} {e : Seq} (hwaits : s.Waits x i f rest)
  (hpass : s.Passes x i f) (hplay : (s.stream i).state.playing = true) (hb : (s.stream i).base = some e)
  (hd : 2 * (s.inForce i).window ≤ dist f.seq e) (hguard : (s.refreshed x i rest).guardDrops f.seq = false)
include hwaits hpass hplay hb hd hguard

theorem State.Waits.gives_far (hfar : dist f.seq e < 4032) (hflag : f.restart = false) :
    s.ArrivalGives x i rest ((s.refreshed x i rest).farArrival x e f) := by
  have hgives := hwaits.gives_run hpass hplay
  rwa [Ctx.runArrival_outer (e := e) (by rwa [State.refreshed_base]) (by rwa [State.refreshed_cfg]),
    Ctx.outerArrival_far hguard hfar hflag] at hgives

theorem State.Waits.gives_restart (hflag : f.restart = true)
    (hnone : 4032 ≤ dist f.seq e → (s.stream i).passedAt (dist f.seq e) = .none) :
    s.ArrivalGives x i rest ((s.refreshed x i rest).restartResync x e f) := by
  have hgives := hwaits.gives_run hpass hplay
  have hhistory : 4032 ≤ dist f.seq e → (s.refreshed x i rest).s.passedAt (dist f.seq e) = .none := by
    simpa only [Stream.passedAt, State.refreshed_history] using hnone
  rwa [Ctx.runArrival_outer (e := e) (by rwa [State.refreshed_base]) (by rwa [State.refreshed_cfg]),
    Ctx.outerArrival_restart hguard hflag hhistory] at hgives

end

/-! ## The jump candidate -/

section
variable {c : Ctx} {x : Path} {e : Seq} {f : Frame}

theorem Ctx.farArrival_first (h : c.s.jump = none) : c.farArrival x e f = c.setJump x f := by
  simp only [farArrival, h]

theorem Ctx.farArrival_copy {j : JumpCandidate} (h : c.s.jump = some j) (hseq : f.seq = j.seq) :
    c.farArrival x e f = c.count (ctrDuplicate x) := by
  have hnext : f.seq ≠ j.seq + 1 := by rw [hseq]; exact fun h => by bv_omega
  simp only [farArrival, h, if_neg hnext, if_pos hseq]

theorem Ctx.farArrival_successor {j : JumpCandidate} (h : c.s.jump = some j) (hseq : f.seq = j.seq + 1) :
    c.farArrival x e f = c.confirmJump x e j f := by
  simp only [farArrival, h, if_pos hseq]

theorem Ctx.farArrival_other {j : JumpCandidate} (h : c.s.jump = some j) (hne : f.seq ≠ j.seq) (hnext : f.seq ≠ j.seq + 1) :
    c.farArrival x e f = c.strayJump.setJump x f := by
  simp only [farArrival, h, if_neg hnext, if_neg hne]

end

theorem Ctx.setJump_eq (c : Ctx) (x : Path) (f : Frame) : c.setJump x f = { c with
    s := { c.s with jump := some ⟨f.seq, x, f.q, f.words⟩ }, free := c.free - 1 }.count (ctrAccepted x) := rfl

/-- How many jump candidates a stream holds: one or none. -/
def Stream.jumps (a : Stream) : Nat := if a.jump = none then 0 else 1

theorem Ctx.strayJump_of_none {c : Ctx} (h : c.s.jump = none) : c.strayJump = c := by simp only [strayJump, h]

theorem Ctx.strayJump_of_some {c : Ctx} {j : JumpCandidate} (h : c.s.jump = some j) :
    c.strayJump = ({ c with s := { c.s with jump := none } }.giveSlots 1).count ctrStraySeq := by simp only [strayJump, h]

theorem Ctx.strayJump_s (c : Ctx) :
    c.strayJump.s = { c.s with jump := none, counters := c.strayJump.s.counters } := by
  cases hj : c.s.jump with
  | none => rw [strayJump_of_none hj, ← hj]
  | some j => simp [strayJump_of_some hj, count_eq]

theorem Ctx.strayJump_tally (c : Ctx) :
    Tally c.s.counters c.strayJump.s.counters (Pi.single ctrStraySeq c.s.jumps) := by
  cases hj : c.s.jump with
  | none =>
    rw [strayJump_of_none hj, Stream.jumps, if_pos hj, Pi.single_zero]
    exact Tally.refl _
  | some j =>
    rw [strayJump_of_some hj, Stream.jumps, if_neg (by simp [hj])]
    exact count_tally ({ c with s := { c.s with jump := none } }.giveSlots 1) ctrStraySeq

/-- A candidate replaced: STRAY_SEQ for the old one, ACCEPTED_X for the new one, which takes the slot the old one returns. -/
theorem Ctx.strayJump_setJump_tally {c : Ctx} {j : JumpCandidate} (x : Path) (f : Frame) (h : c.s.jump = some j) :
    Tally c.s.counters (c.strayJump.setJump x f).s.counters (arrivalCounts x 1 0 0 []) := by
  have hset : Tally c.strayJump.s.counters (c.strayJump.setJump x f).s.counters (Pi.single (ctrAccepted x) 1) := count_tally _ _
  refine (c.strayJump_tally.trans hset).congr ?_
  simp [arrivalCounts, joinCounts, Stream.jumps, h]

/-! ## What a resynchronisation leaves before its frames join -/

theorem Ctx.flushWindow_tally (c : Ctx) :
    Tally c.s.counters c.flushWindow.s.counters (Pi.single ctrFlushed c.s.window.length) := countN_tally _ _ _

/-- The context a resynchronisation rebuilds at the base `new` after the prior base e, `stray` candidates counted out. -/
structure Ctx.Rebased (c : Ctx) (e new : Seq) (stray : Nat) (d : Ctx) : Prop where
  s : d.s = { c.s with base := some new, window := [], history := historyNone, jump := none, guard := some ⟨e, 64⟩
                       timer := none, counters := d.s.counters }
  side : c.SameSide d
  tally : Tally c.s.counters d.s.counters (Pi.single ctrFlushed c.s.window.length + Pi.single ctrStraySeq stray)

/-- The restart counts its jump candidate out (05 R87). -/
theorem Ctx.rebased_restart (c : Ctx) (e new : Seq) :
    c.Rebased e new c.s.jumps (c.flushWindow.strayJump.rebase e new) := by
  have hstray := c.flushWindow.strayJump_tally
  rw [show c.flushWindow.s.jumps = c.s.jumps by simp [Stream.jumps]] at hstray
  exact ⟨by simp [rebase, Config.guardLife], by simp [SameSide, rebase], c.flushWindow_tally.trans hstray⟩

/-- The confirmed jump candidate leaves with the frame that joins (05 R84). -/
def Ctx.confirming (c : Ctx) (e new : Seq) : Ctx :=
  { c.flushWindow.rebase e new with s := { (c.flushWindow.rebase e new).s with jump := none } }

theorem Ctx.rebased_confirm (c : Ctx) (e new : Seq) : c.Rebased e new 0 (c.confirming e new) :=
  ⟨by simp [confirming, rebase, Config.guardLife], by simp [SameSide, confirming, rebase],
    c.flushWindow_tally.congr (by rw [Pi.single_zero, add_zero])⟩

/-! ## What it leaves at its end -/

/-- The counter of a resynchronisation's cause. -/
def ResyncCause.ctr : ResyncCause → Fin 24
  | .jump => ctrResyncJump
  | .restartFlag => ctrResyncFlag

/-- How often a resynchronisation by an arrival on path x advances each counter: a window of `flushed` frames, then as an
accepted arrival, then the counter of its cause. -/
def resyncCounts (cause : ResyncCause) (flushed : Nat) (x : Path) (stray trim len : Nat) (es : List QueueEntry) :
    Fin 24 → Nat :=
  Pi.single ctrFlushed flushed + arrivalCounts x stray trim len es + Pi.single cause.ctr 1

/-- A resynchronisation from the prior base e: from `new` on the entries `es` have joined the queue, and the RESYNC notice is
the last one created. -/
structure Ctx.Resynced (c : Ctx) (cause : ResyncCause) (x : Path) (e new : Seq) (stray : Nat) (es : List QueueEntry)
    (d : Ctx) : Prop where
  s : d.s = { c.s with
    base := some (new + BitVec.ofNat 12 es.length), window := [], jump := none, guard := some ⟨e, 64⟩, timer := none
    history := ((es.map QueueEntry.passed).reverse ++ historyNone).take 64
    queue := (c.s.queue ++ es).drop (c.s.queue.length + es.length - c.cfg.trim), counters := d.s.counters }
  side : c.SameSide d
  tally : Tally c.s.counters d.s.counters
    (resyncCounts cause c.s.window.length x stray c.cfg.trim c.s.queue.length es)
  note : c.cfg.noticeMask.resync = true → d.notes.getLast? = some (.resync c.idx e new cause)

/-- Entries joined at the new base, ACCEPTED_X and the cause counted, a RESYNC notice created. -/
theorem Ctx.Rebased.resynced {c a b : Ctx} {e new : Seq} {stray : Nat} {es : List QueueEntry} (h : c.Rebased e new stray a)
    (hjoin : a.Joined es b) (hwindow : b.s.window = a.s.window) (htimer : b.s.timer = a.s.timer) (cause : ResyncCause)
    (x : Path) :
    c.Resynced cause x e new stray es (((b.count (ctrAccepted x)).count cause.ctr).noteResync e new cause) := by
  have hs := hjoin.s
  have hqueue : a.s.queue = c.s.queue := by rw [h.s]
  have hcfg : a.cfg = c.cfg := h.side.2.1
  obtain ⟨hidx, hcfg', hrecord, -, hdrain, -, -, -, hA, hB, -, hlast, hphase⟩ := hjoin.same
  have hside : c.SameSide b := h.side.trans ⟨hidx, hcfg', hA, hB, hlast, hphase, hdrain, hrecord⟩
  refine ⟨?_, hside.trans (by simp [SameSide]), ?_, fun hmask => ?_⟩
  · rw [noteResync_s]
    simp only [count_eq]
    rw [hs, hwindow, htimer, hcfg, h.s]
    simp
  · have hcount := (b.count_tally (ctrAccepted x)).trans ((b.count (ctrAccepted x)).count_tally cause.ctr)
    have htally := (h.tally.trans hjoin.tally).trans hcount
    rw [hcfg, hqueue] at htally
    rw [noteResync_s]
    exact htally.congr (by simp only [resyncCounts, arrivalCounts, add_assoc])
  · simp [noteResync, note_eq, hside.1, hside.2.1, hmask]

/-- A chain over an empty window with no timer running changes nothing. -/
theorem Ctx.chain_of_idle {c : Ctx} (hwindow : c.s.window = []) (htimer : c.s.timer = none) : c.chain = c := by
  rw [chain_of_empty hwindow, ← htimer]

theorem Ctx.restartResync_resynced {c : Ctx} (x : Path) (e : Seq) (f : Frame) (ht : 1 ≤ c.cfg.trim)
    (hq : c.s.queue.length ≤ c.cfg.trim) :
    c.Resynced .restartFlag x e f.seq c.s.jumps [.real f.seq f.q f.words] (c.restartResync x e f) := by
  have hrebased := c.rebased_restart e f.seq
  have hjoin := releaseNew_joined (c := c.flushWindow.strayJump.rebase e f.seq) f.seq f.q f.words
    (by simpa [rebase] using ht) (by simpa [rebase] using hq)
  exact hrebased.resynced hjoin (by simp) (by simp) .restartFlag x

theorem Ctx.confirmJump_resynced {c : Ctx} (x : Path) (e : Seq) (j : JumpCandidate) (f : Frame) (ht : 1 ≤ c.cfg.trim)
    (hq : c.s.queue.length ≤ c.cfg.trim) :
    c.Resynced .jump x e j.seq 0 [.real j.seq j.q j.words, .real f.seq f.q f.words] (c.confirmJump x e j f) := by
  have hrebased := c.rebased_confirm e j.seq
  have hq' : (c.confirming e j.seq).s.queue.length ≤ (c.confirming e j.seq).cfg.trim := by
    rw [hrebased.s, hrebased.side.2.1]; exact hq
  have ht' : 1 ≤ (c.confirming e j.seq).cfg.trim := by rw [hrebased.side.2.1]; exact ht
  have hheld := releaseHeld_joined j.seq j.q j.words ht' hq'
  have hcfg : ((c.confirming e j.seq).releaseHeld j.seq j.q j.words).cfg = (c.confirming e j.seq).cfg := hheld.same.2.1
  have hnew := releaseNew_joined (c := (c.confirming e j.seq).releaseHeld j.seq j.q j.words) f.seq f.q f.words
    (by rw [hcfg]; exact ht') (by rw [hcfg]; exact hheld.length_le)
  have hwindow : (c.confirming e j.seq).s.window = [] := by rw [hrebased.s]
  have htimer : (c.confirming e j.seq).s.timer = none := by rw [hrebased.s]
  have hchain := chain_of_idle
    (c := (((c.confirming e j.seq).releaseHeld j.seq j.q j.words).releaseNew f.seq f.q f.words).count (ctrAccepted x))
    (by simpa using hwindow) (by simpa using htimer)
  have hresynced := hrebased.resynced (hheld.trans hnew hq') (by simp) (by simp) ResyncCause.jump x
  rw [← hchain] at hresynced
  exact hresynced

/-! ## Reading a resynchronisation -/

theorem Ctx.Resynced.slots {c d : Ctx} {cause : ResyncCause} {x : Path} {e new : Seq} {stray : Nat} {es : List QueueEntry}
    (h : c.Resynced cause x e new stray es d) (hkeep : c.Keep d) :
    d.free + queueSlots d.s.queue = c.free + c.s.window.length + c.s.jumps + queueSlots c.s.queue := by
  have htotal := hkeep.total
  have hacq : d.s.acq = c.s.acq := by rw [h.s]
  have hjump : d.s.jump = none := by rw [h.s]
  have hwindow : d.s.window = [] := by rw [h.s]
  have hjumps : (if c.s.jump.isSome then 1 else 0) = c.s.jumps := by unfold Stream.jumps; cases c.s.jump <;> rfl
  rw [Ctx.total_eq, Ctx.total_eq, hacq, hjump, hjumps] at htotal
  simp only [Ctx.pool, hwindow, List.length_nil, Option.isSome_none, Bool.false_eq_true, if_false] at htotal
  omega

/-- The counters of an accepted arrival are neither FLUSHED nor that of a resynchronisation's cause. -/
theorem arrivalCtrs_ne (cause : ResyncCause) (x : Path) :
    ∀ k ∈ [ctrAccepted x, ctrReleased, ctrSubstPush, ctrTrimmed, ctrStraySeq], k ≠ ctrFlushed ∧ k ≠ cause.ctr := by
  cases cause <;> cases x <;> decide

theorem ctrFlushed_ne_cause (cause : ResyncCause) : ctrFlushed ≠ cause.ctr := by cases cause <;> decide

/-- Where an accepted arrival counts nothing. -/
theorem arrivalCounts_else {x : Path} {stray trim len : Nat} {es : List QueueEntry} {k : Fin 24}
    (hk : k ∉ [ctrAccepted x, ctrReleased, ctrSubstPush, ctrTrimmed, ctrStraySeq]) : arrivalCounts x stray trim len es k = 0 :=
  arrivalCounts_of_not_mem hk (by simp) (by simp) (by simp) (by simp) (by simp)

section
variable (cause : ResyncCause) (flushed : Nat) (x : Path) (stray trim len : Nat) (es : List QueueEntry)

/-- A resynchronisation counts as an accepted arrival does, and FLUSHED and its cause besides. -/
theorem resyncCounts_arrival {k : Fin 24} (hk : k ∈ [ctrAccepted x, ctrReleased, ctrSubstPush, ctrTrimmed, ctrStraySeq]) :
    resyncCounts cause flushed x stray trim len es k = arrivalCounts x stray trim len es k := by
  obtain ⟨hflushed, hcause⟩ := arrivalCtrs_ne cause x k hk
  simp [resyncCounts, Pi.single_eq_of_ne hflushed, Pi.single_eq_of_ne hcause]

theorem resyncCounts_flushed : resyncCounts cause flushed x stray trim len es ctrFlushed = flushed := by
  have hnone := arrivalCounts_else (stray := stray) (trim := trim) (len := len) (es := es)
    fun hk => (arrivalCtrs_ne cause x ctrFlushed hk).1 rfl
  simp [resyncCounts, hnone, Pi.single_eq_of_ne (ctrFlushed_ne_cause cause)]

theorem resyncCounts_cause : resyncCounts cause flushed x stray trim len es cause.ctr = 1 := by
  have hnone := arrivalCounts_else (stray := stray) (trim := trim) (len := len) (es := es)
    fun hk => (arrivalCtrs_ne cause x cause.ctr hk).2 rfl
  simp [resyncCounts, hnone, Pi.single_eq_of_ne (ctrFlushed_ne_cause cause).symm]

end

/-- The counters after a resynchronisation. -/
theorem Tally.resync {a b : Vector Counter 24} {cause : ResyncCause} {flushed : Nat} {x : Path} {stray trim len : Nat}
    {es : List QueueEntry} (h : Tally a b (resyncCounts cause flushed x stray trim len es)) :
    b[ctrFlushed] = Counter.bump^[flushed] a[ctrFlushed] ∧ b[cause.ctr] = a[cause.ctr].bump ∧
    b[ctrAccepted x] = a[ctrAccepted x].bump ∧ b[ctrReleased] = Counter.bump^[queueSlots es] a[ctrReleased] ∧
    b[ctrTrimmed] = Counter.bump^[len + es.length - trim] a[ctrTrimmed] ∧
    b[ctrStraySeq] = Counter.bump^[stray] a[ctrStraySeq] := by
  obtain ⟨haccepted, hreleased, -, htrimmed, hstray⟩ := arrivalCounts_at x stray trim len es
  refine ⟨by rw [h, resyncCounts_flushed], by rw [h, resyncCounts_cause]; rfl, ?_, ?_, ?_, ?_⟩
  · rw [h, resyncCounts_arrival _ _ _ _ _ _ _ (by simp), haccepted]; rfl
  · rw [h, resyncCounts_arrival _ _ _ _ _ _ _ (by simp), hreleased]
  · rw [h, resyncCounts_arrival _ _ _ _ _ _ _ (by simp), htrimmed]
  · rw [h, resyncCounts_arrival _ _ _ _ _ _ _ (by simp), hstray]

/-- A resynchronisation by frames advances no counter outside `ks`, if `ks` names those that do. -/
theorem Ctx.Resynced.keeps {c d : Ctx} {cause : ResyncCause} {x : Path} {e new : Seq} {stray : Nat} {es : List QueueEntry}
    (h : c.Resynced cause x e new stray es d) (hrecord : c.record = none) (hes : es.length = queueSlots es)
    {ks : List (Fin 24)} (hks : ∀ k ∈ [ctrAccepted x, ctrReleased, ctrTrimmed, ctrFlushed, cause.ctr], k ∈ ks)
    (hstray : ctrStraySeq ∈ ks ∨ stray = 0) : c.Keeps d ks := by
  refine h.tally.keeps h.side hrecord fun k hk => ?_
  have hflushed : k ≠ ctrFlushed := fun he => hk (hks k (by simp [he]))
  have hcause : k ≠ cause.ctr := fun he => hk (hks k (by simp [he]))
  have harrival := arrivalCounts_of_not_mem (x := x) (stray := stray) (trim := c.cfg.trim) (len := c.s.queue.length)
    (es := es) hk (hks _ (by simp)) (.inl (hks _ (by simp))) (.inr hes) (.inl (hks _ (by simp))) hstray
  simp [resyncCounts, harrival, Pi.single_eq_of_ne hflushed, Pi.single_eq_of_ne hcause]

/-! ## The candidate replaced -/

/-- A far frame that is not its candidate's copy or successor replaces the candidate. -/
theorem State.jump_replaced {s : State} {x : Path} {i : StreamIdx} (f : Frame) (rest : List Delivery) {j : JumpCandidate}
    (hj : (s.stream i).jump = some j) : ∃ c : Ctx, c = (s.refreshed x i rest).strayJump.setJump x f ∧
      c.s = { (s.refreshed x i rest).s with jump := some ⟨f.seq, x, f.q, f.words⟩, counters := c.s.counters } ∧
      c.free = s.free + 1 - 1 ∧ (s.refreshed x i rest).Keeps c [ctrAccepted x, ctrStraySeq] ∧
      c.s.counters[ctrStraySeq] = (s.stream i).counters[ctrStraySeq].bump ∧
      c.s.counters[ctrAccepted x] = (s.stream i).counters[ctrAccepted x].bump := by
  have hj' : (s.refreshed x i rest).s.jump = some j := by rw [State.refreshed_jump, hj]
  have htally := Ctx.strayJump_setJump_tally x f hj'
  obtain ⟨haccepted, -, -, hstray⟩ := htally.arrival
  rw [State.refreshed_counters] at haccepted hstray
  refine ⟨_, rfl, ?_, ?_, ?_, hstray, haccepted⟩
  · have hs := (s.refreshed x i rest).strayJump_s
    simp only [Ctx.setJump_eq, Ctx.count_eq]
    rw [hs]
  · simp [Ctx.setJump_eq, Ctx.strayJump_of_some hj']
  · exact htally.keeps (by simp [Ctx.SameSide, Ctx.setJump_eq]) (State.refreshed_record s x i rest)
      fun k hk => arrivalCounts_of_not_mem hk (by simp) (by simp) (by simp) (by simp) (by simp)

/-! ## The candidate confirmed -/

/-- The heads beyond T that two entries displace from a queue within T. -/
theorem two_over {len trim : Nat} (ht : 2 ≤ trim) : len + 2 - trim = len - (trim - 2) := by omega

/-- What the successor of a jump candidate leaves of a context in PRIMING or RUNNING. -/
theorem State.jump_confirmed {s : State} (h : s.MergeOk) (x : Path) {i : StreamIdx} (rest : List Delivery) {e : Seq}
    (hplay : (s.stream i).state.playing = true) (hb : (s.stream i).base = some e) {j : JumpCandidate} (f : Frame)
    (hj : (s.stream i).jump = some j) :
    (s.refreshed x i rest).Resynced .jump x e j.seq 0 [.real j.seq j.q j.words, .real f.seq f.q f.words]
        ((s.refreshed x i rest).confirmJump x e j f) ∧
      (s.refreshed x i rest).Keep ((s.refreshed x i rest).confirmJump x e j f) := by
  obtain ⟨hok, hp⟩ := State.refreshed_play h x rest hplay hb
  have htrim := inForce_trim h i
  exact ⟨Ctx.confirmJump_resynced x e j f (by rw [State.refreshed_cfg]; omega) hp.2.2.2.1,
    (Ctx.confirmJump_fine x j f hok hp (by rw [State.refreshed_jump, hj])).2⟩

/-- Settles O19: the branches of the jump handling, the last of which is a resynchronisation with two frames joined. -/
theorem jumpHandling : Obligations.JumpHandling := by
  constructor
  · rintro s x i f rest e c0 hwaits hpass hplay hb hd hfar hflag rfl hguard
    have hgives := hwaits.gives_far hpass hplay hb hd hguard hfar hflag
    refine ⟨fun hnone => ?_, fun j hj => ⟨fun hcopy => ?_, fun hne hnext => ?_⟩⟩
    · rwa [Ctx.farArrival_first (by rw [State.refreshed_jump, hnone]), Ctx.setJump_eq, State.refreshed_free] at hgives
    · rwa [Ctx.farArrival_copy (by rw [State.refreshed_jump, hj]) hcopy] at hgives
    · rw [Ctx.farArrival_other (by rw [State.refreshed_jump, hj]) hne hnext] at hgives
      obtain ⟨c, rfl, hs, hfree, hkeeps, hstray, haccepted⟩ := State.jump_replaced (x := x) f rest hj
      refine ⟨_, hgives, by rw [hs], hfree, ?_, ?_, ?_, ?_, ?_, ?_, ?_, ?_, ?_, hkeeps, hstray, haccepted⟩
      all_goals rw [hs]
      all_goals simp [hb]
  · intro s x i f rest e j h hwaits hpass hplay hb hd hfar hflag hguard hj hnext
    have hgives := hwaits.gives_far hpass hplay hb hd hguard hfar hflag
    rw [Ctx.farArrival_successor (by rw [State.refreshed_jump, hj]) hnext] at hgives
    obtain ⟨hresynced, hkeep⟩ := State.jump_confirmed h x rest hplay hb f hj
    have hs := hresynced.s
    have hslots := hresynced.slots hkeep
    have hkeeps := hresynced.keeps (State.refreshed_record s x i rest) rfl
      (ks := [ctrAccepted x, ctrReleased, ctrTrimmed, ctrFlushed, ctrResyncJump]) (by simp [ResyncCause.ctr]) (.inr rfl)
    have htrim := two_over (len := (s.stream i).queue.length) (inForce_trim h i)
    obtain ⟨hflushed, hcause, haccepted, hreleased, htrimmed, -⟩ := hresynced.tally.resync
    rw [State.refreshed_counters] at hflushed hcause haccepted hreleased htrimmed
    rw [State.refreshed_window] at hflushed
    rw [State.refreshed_queue, State.refreshed_cfg, List.length_cons, List.length_singleton, htrim] at htrimmed
    have hjumps : (s.refreshed x i rest).s.jumps = 1 := by simp [Stream.jumps, hj]
    rw [State.refreshed_free, State.refreshed_window, State.refreshed_queue, hjumps] at hslots
    refine ⟨_, hgives, ?_, ?_, ?_, ?_, ?_, ?history, ?queue, hslots, htrimmed, ?_, ?_, ?_, hkeeps, hflushed, hreleased, haccepted,
      hcause, fun hmask => ?notice⟩
    case notice => rw [hresynced.note (by rwa [State.refreshed_cfg]), State.refreshed_idx]
    all_goals rw [hs]
    case history => rfl
    case queue =>
      rw [State.refreshed_queue, State.refreshed_cfg, List.length_cons, List.length_singleton, htrim]
      exact List.drop_append_of_le_length (Nat.sub_le _ _)
    all_goals simp

/-! ## The restart resynchronisation -/

/-- Settles O20: a resynchronisation with the flagged frame joined. -/
theorem restartResynchronises : Obligations.RestartResynchronises := by
  intro s x i f rest e h hwaits hpass hplay hb hd hflag hguard hnone
  have hgives := hwaits.gives_restart hpass hplay hb hd hguard hflag hnone
  obtain ⟨hok, hp⟩ := State.refreshed_play h x rest hplay hb
  have htrim := inForce_trim h i
  have hqueue : (s.stream i).queue.length ≤ (s.inForce i).trim := by simpa using hp.2.2.2.1
  have hresynced := Ctx.restartResync_resynced x e f (by rw [State.refreshed_cfg]; omega) hp.2.2.2.1
  have hs := hresynced.s
  have hslots := hresynced.slots (Ctx.restartResync_fine x f hok hp).2
  have hkeeps := hresynced.keeps (State.refreshed_record s x i rest) rfl
    (ks := [ctrAccepted x, ctrReleased, ctrTrimmed, ctrFlushed, ctrStraySeq, ctrResyncFlag]) (by simp [ResyncCause.ctr])
    (.inl (by simp))
  have hjumps : (s.refreshed x i rest).s.jumps = (s.stream i).jumps := by simp [Stream.jumps]
  obtain ⟨hflushed, hcause, haccepted, hreleased, htrimmed, hstray⟩ := hresynced.tally.resync
  rw [State.refreshed_counters] at hflushed hcause haccepted hreleased htrimmed hstray
  rw [State.refreshed_window] at hflushed
  rw [State.refreshed_queue, State.refreshed_cfg, List.length_singleton, bump_one_over hqueue] at htrimmed
  rw [State.refreshed_free, State.refreshed_window, State.refreshed_queue, hjumps] at hslots
  refine ⟨_, hgives, ?_, ?_, ?_, ?_, ?_, ?history, ?queue, ?_, ?_, ?_, hkeeps, hflushed, hreleased, haccepted, hcause, ?stray,
    htrimmed, hslots, fun hmask => ?notice⟩
  case stray => rw [hstray, hjumps, Stream.jumps]; split <;> rfl
  case notice => rw [hresynced.note (by rwa [State.refreshed_cfg]), State.refreshed_idx]
  all_goals rw [hs]
  case history => rfl
  case queue =>
    rw [← drop_one_over (by omega) hqueue, State.refreshed_queue, State.refreshed_cfg, List.length_singleton]
  all_goals simp

end Sys2Proof.Machine

/-! # The bounds of the queues -/

namespace Sys2Proof.Machine

/-! ## Room in the reply queue -/

/-- The queues are within their bounds, and a reply may join (09 R162). -/
def State.RoomForReply (s : State) : Prop := s.QueuesOk ∧ s.mgmt.replies.length < Config.replyDepth

theorem State.RoomForReply.of_eq {s t : State} (h : s.RoomForReply) (hport : t.port = s.port) (hmgmt : t.mgmt = s.mgmt)
    (hnotices : t.notices = s.notices) : t.RoomForReply :=
  ⟨queues_of h.1 hport hmgmt hnotices, by rw [hmgmt]; exact h.2⟩

/-- The Transmitter's choice can only take a reply away. -/
theorem State.choose_replies_le (s : State) : s.choose.mgmt.replies.length ≤ s.mgmt.replies.length := by
  unfold State.choose
  split
  · exact Nat.le_refl _
  · split
    · next r rest hreplies => simp [hreplies]
    · split <;> exact Nat.le_refl _

theorem State.goodFrame_replies_le (s : State) : s.goodFrame.mgmt.replies.length ≤ s.mgmt.replies.length := by
  unfold State.goodFrame
  split
  · exact State.choose_replies_le _
  · exact Nat.le_refl _

theorem beginRequest_room {s : State} (h : s.RoomForReply) (f : MgmtFrame) : (s.beginRequest f).RoomForReply := by
  refine ⟨beginRequest_queues h.1 f, ?_⟩
  unfold State.beginRequest State.settleReports
  split
  · exact h.2
  · exact (State.goodFrame_replies_le _).trans_lt h.2

theorem takeNotice_room {s : State} (h : s.RoomForReply) (n : Notice) : (s.takeNotice n).RoomForReply := by
  refine ⟨takeNotice_queues h.1 n, ?_⟩
  unfold State.takeNotice
  split
  · exact (State.choose_replies_le _).trans_lt h.2
  · exact h.2

/-- What the event of each member of a list keeps, the events of all keep. -/
theorem foldl_keeps {α : Type} {P : State → Prop} {f : State → α → State} (hf : ∀ s a, P s → P (f s a)) (l : List α)
    {s : State} (h : P s) : P (l.foldl f s) := by
  induction l generalizing s with
  | nil => exact h
  | cons a l ih => exact ih (hf s a h)

theorem takeOffers_room {s : State} (h : s.RoomForReply) (p : Block → Bool) : (s.takeOffers p).RoomForReply :=
  foldl_keeps (P := State.RoomForReply) (f := fun t (o : Offer) => t.takeNotice o.notice)
    (fun _ o ht => takeNotice_room ht o.notice) _
    (s := { s with offers := (splitOffers p s.offers).2 }) h

theorem takeDelivery_room {s : State} (h : s.RoomForReply) (d : Delivery) : (s.takeDelivery d).RoomForReply :=
  (takeOffers_room h (isLink d.path)).of_eq rfl rfl rfl

theorem beforeCommit_room {s : State} (h : s.RoomForReply) : s.beforeCommit.RoomForReply :=
  takeOffers_room (foldl_keeps (P := State.RoomForReply) (fun _ d ht => takeDelivery_room ht d) _
    (s := { s with deliveries := s.deliveries.filter fun _ => !true }) h) _

/-! ## Requests -/

theorem State.nextRequest_room {s : State} {p : Byte → Bool} {f : MgmtFrame} (hok : s.QueuesOk)
    (h : s.nextRequest p = some f) : s.RoomForReply := by
  refine ⟨hok, ?_⟩
  unfold State.nextRequest at h
  split at h
  · next hmay =>
    simp only [Mgmt.mayTake, Bool.and_eq_true, decide_eq_true_eq] at hmay
    obtain ⟨⟨-, hroom⟩, -⟩ := hmay
    exact hroom
  · cases h

/-- A request is taken only where its reply has room, so it keeps the bounds if its effect at its block keeps the room. -/
theorem serve_queues {s : State} (h : s.QueuesOk) (kind : Byte) (len : Nat) {g : List Byte → State → State × Answer}
    (hg : ∀ body t, t.RoomForReply → (g body t).1.RoomForReply) : (s.serve kind len g).QueuesOk := by
  unfold State.serve
  split
  · exact h
  · next f hnext =>
    have hbegin := beginRequest_room (State.nextRequest_room h hnext) f
    dsimp only
    split
    · have hserved := hg f.body _ hbegin
      exact endRequest_queues hserved.1 hserved.2 f _
    · exact endRequest_queues hbegin.1 hbegin.2 f _

theorem unknownKind_queues {s : State} (h : s.QueuesOk) : (unknownKind s).QueuesOk := by
  unfold unknownKind
  split
  · exact h
  · next f hnext =>
    have hbegin := beginRequest_room (State.nextRequest_room h hnext) f
    exact endRequest_queues hbegin.1 hbegin.2 f _

theorem readCounters_room {s : State} (h : s.RoomForReply) (body : List Byte) : (readCounters body s).1.RoomForReply := by
  unfold readCounters
  split
  · exact h
  · split
    · exact h
    · next clear _ => cases clear <;> exact h

theorem readLink_room {s : State} (h : s.RoomForReply) (body : List Byte) : (readLink body s).1.RoomForReply := by
  unfold readLink
  split
  · exact h
  · split
    · exact h
    · next clear _ =>
      cases clear
      · exact h
      · exact h.of_eq (by simp) (by simp) (by simp)

theorem readMgmt_room {s : State} (h : s.RoomForReply) (body : List Byte) : (readMgmt body s).1.RoomForReply := by
  unfold readMgmt
  split
  · exact h
  · next clear _ => cases clear <;> exact h

theorem openEdit_room {s : State} (h : s.RoomForReply) (body : List Byte) : (openEdit body s).1.RoomForReply := by
  unfold openEdit
  split
  · exact h
  · split <;> exact h

theorem stageStream_room {s : State} (h : s.RoomForReply) (body : List Byte) : (stageStream body s).1.RoomForReply := by
  unfold stageStream
  split
  · exact h
  · split
    · exact h
    · split <;> exact h

theorem stageDevice_room {s : State} (h : s.RoomForReply) (body : List Byte) : (stageDevice body s).1.RoomForReply := by
  unfold stageDevice
  split
  · exact h
  · split <;> exact h

theorem discardEdit_room {s : State} (h : s.RoomForReply) (body : List Byte) : (discardEdit body s).1.RoomForReply := by
  unfold discardEdit
  split <;> exact h

theorem forceResync_room {s : State} (h : s.RoomForReply) (body : List Byte) : (forceResync body s).1.RoomForReply := by
  unfold forceResync
  split
  · exact h
  · split <;> exact h

theorem restartRequest_room {s : State} (h : s.RoomForReply) (body : List Byte) :
    (restartRequest body s).1.RoomForReply := by
  unfold restartRequest
  split <;> exact h

/-- An acknowledgement retires in-flight entries alone. -/
theorem ackNotice_room {s : State} (h : s.RoomForReply) (body : List Byte) : (ackNotice body s).1.RoomForReply := by
  obtain ⟨⟨hfifo, hrequests, hreplies, hnotices⟩, hroom⟩ := h
  unfold ackNotice
  split
  · exact ⟨⟨hfifo, hrequests, hreplies, hnotices⟩, hroom⟩
  · next k hacked =>
    obtain ⟨hpos, hle⟩ := acked_bound hacked
    exact ⟨⟨hfifo, hrequests, hreplies, retire_ok hnotices hpos hle s.mgmt.tx⟩, hroom⟩

theorem applyCommit_room {s : State} (h : s.RoomForReply) (new : ConfigSet) (key : Byte) :
    (s.applyCommit new key).RoomForReply := by
  have hstreams : ((List.finRange 32).foldl (State.applyStream new) s).RoomForReply :=
    foldl_keeps (P := State.RoomForReply) (f := State.applyStream new)
      (fun t _ ht => ht.of_eq (t.put_port _ _) (t.put_mgmt _ _) (t.put_notices _ _)) _ h
  unfold State.applyCommit
  generalize (List.finRange 32).foldl (State.applyStream new) s = s1 at hstreams ⊢
  exact hstreams.of_eq (State.offer_port _ _ _ _) (State.offer_mgmt _ _ _ _) (State.offer_notices _ _ _ _)

theorem commitEdit_room {s : State} (h : s.RoomForReply) (body : List Byte) : (commitEdit body s).1.RoomForReply := by
  unfold commitEdit
  split
  · exact h
  · split
    · split
      · exact h
      · exact applyCommit_room (beforeCommit_room h) _ _
    · exact h

/-! ## The other commands -/

theorem atEnd_queues {s : State} (h : s.QueuesOk) {f : State → State} (hf : ∀ s : State, s.QueuesOk → (f s).QueuesOk)
    (left : Option Nat) : (s.atEnd left f).QueuesOk := State.atEnd_keeps (fun _ us h => pass_queues h us) hf left h

theorem putLink_queues {s : State} (h : s.QueuesOk) (c : LinkCtx) : (s.putLink c).QueuesOk := by
  refine queues_of h ?_ ?_ ?_ <;> simp [State.putLink]

theorem linkDepartureReport_queues {s : State} (h : s.QueuesOk) (x : Path) (i : StreamIdx) :
    (linkDepartureReport x i s).QueuesOk := by
  unfold linkDepartureReport
  split
  · exact takeOffers_queues (s := { s with reports := s.reports.erase (x, i) }) h _
  · exact h

theorem arrival_queues {s : State} (h : s.QueuesOk) (x : Path) (i : StreamIdx) : (arrival x i s).QueuesOk := by
  unfold arrival
  split
  · exact h
  · next d rest _ => exact takeDelivery_queues (s := { s with deliveries := rest }) h d

theorem edge_queues {s : State} (h : s.QueuesOk) : s.edge.QueuesOk := by
  unfold State.edge
  split
  · exact h
  · exact h
  · split
    · exact queues_of h (by simp) (by simp) (by simp)
    · exact h

theorem streamTick_queues {s : State} (h : s.QueuesOk) (i : StreamIdx) : (streamTick i s).QueuesOk := by
  unfold streamTick
  split
  · exact playStream_queues (takeOffers_queues h _) i _ _
  · exact h

theorem pathAbsent_queues {s : State} (h : s.QueuesOk) (i : StreamIdx) (x : Path) : (pathAbsent i x s).QueuesOk := by
  unfold pathAbsent
  split
  · exact h
  · exact h
  · split <;> exact h

theorem gapTimerExpiry_queues {s : State} (h : s.QueuesOk) (i : StreamIdx) : (gapTimerExpiry i s).QueuesOk := by
  unfold gapTimerExpiry
  split
  · exact h
  · split <;> exact h

theorem playoutEvent_queues {s : State} (h : s.QueuesOk) (i : StreamIdx) : (playoutEvent i s).QueuesOk := by
  unfold playoutEvent
  split
  · exact playStream_queues h i _ _
  · exact h

theorem stall_queues {s : State} (h : s.QueuesOk) (i : StreamIdx) : (stall i s).QueuesOk := by
  unfold stall
  split
  · exact playStream_queues h i _ _
  · exact h

theorem guardExpiry_queues {s : State} (h : s.QueuesOk) (i : StreamIdx) : (guardExpiry i s).QueuesOk := by
  unfold guardExpiry
  split
  · exact playStream_queues h i _ _
  · exact h

theorem wordTransfer_queues {s : State} (h : s.QueuesOk) : (wordTransfer s).QueuesOk :=
  ⟨(transfer_length s.port).trans h.1, h.2⟩

theorem mgmtByte_queues {s : State} (h : s.QueuesOk) (b : Byte) (stop : Bool) : (mgmtByte b stop s).QueuesOk := by
  unfold mgmtByte
  split
  · exact examine_queues _ _ (s := { s with mgmt := { s.mgmt with rx := none } }) h
  · exact h

theorem goodFrameReport_queues {s : State} (h : s.QueuesOk) : (goodFrameReport s).QueuesOk := by
  unfold goodFrameReport
  split
  · exact h
  · exact goodFrame_queues (s := { s with goodReports := s.goodReports - 1 }) h

theorem noticeOffer_queues {s : State} (h : s.QueuesOk) (b : Block) : (noticeOffer b s).QueuesOk := by
  unfold noticeOffer
  split
  · exact h
  · next o rest _ =>
    split
    · exact takeNotice_queues (s := { s with offers := rest }) h _
    · exact h

/-- A RESTART empties every queue but the Notice Unit's, which then holds STARTED alone. -/
theorem restartNow_queues (s : State) : s.restartNow.QueuesOk :=
  ⟨Nat.zero_le _, Nat.zero_le _, Nat.zero_le _, (fresh_queuesOk .restart .baud115200).2.2.2⟩

theorem transmissionComplete_queues {s : State} (h : s.QueuesOk) : (transmissionComplete s).QueuesOk := by
  obtain ⟨hfifo, hrequests, hreplies, hnotices⟩ := h
  unfold transmissionComplete
  split
  · exact choose_queues ⟨hfifo, hrequests, hreplies, hnotices⟩
  · split
    · exact choose_queues (restartNow_queues _)
    · exact choose_queues (s := s.idleTx) ⟨hfifo, hrequests, hreplies, hnotices⟩
  · next e _ _ =>
    exact choose_queues (s := { s with notices := s.notices.completed e }.idleTx)
      ⟨hfifo, hrequests, hreplies, completed_ok hnotices e⟩

/-! ## Every command -/

/-- Every command keeps the bounds of the queues. -/
theorem exec_queuesOk (c : Instr) (s : State) (h : s.QueuesOk) : ∃ t, exec c s = .next t ∧ t.QueuesOk := by
  cases c with
  | powerOn r1 r0 => exact ⟨_, rfl, fresh_queuesOk .powerOn (rateOfStraps r1 r0)⟩
  | hardReset r1 r0 => exact ⟨_, rfl, fresh_queuesOk .hard (rateOfStraps r1 r0)⟩
  | linkByte x b => exact ⟨_, rfl, putLink_queues h _⟩
  | linkSilence x => exact ⟨_, rfl, atEnd_queues h (fun t => dues_queues.silence t x) _⟩
  | linkDepartureReport x i => exact ⟨_, rfl, linkDepartureReport_queues h x i⟩
  | arrival x i => exact ⟨_, rfl, arrival_queues h x i⟩
  | cadenceEdge us => exact ⟨_, rfl, edge_queues (pass_queues h us)⟩
  | cadenceLoss => exact ⟨_, rfl, atEnd_queues h dues_queues.loss _⟩
  | generatorTick => exact ⟨_, rfl, atEnd_queues h dues_queues.generator _⟩
  | streamTick i => exact ⟨_, rfl, streamTick_queues h i⟩
  | pathAbsent i x => exact ⟨_, rfl, pathAbsent_queues h i x⟩
  | gapTimerExpiry i => exact ⟨_, rfl, gapTimerExpiry_queues h i⟩
  | playoutEvent i => exact ⟨_, rfl, playoutEvent_queues h i⟩
  | stall i => exact ⟨_, rfl, stall_queues h i⟩
  | guardExpiry i => exact ⟨_, rfl, guardExpiry_queues h i⟩
  | playoutRound => exact ⟨_, rfl, playoutRound_queues h⟩
  | wordTransfer => exact ⟨_, rfl, wordTransfer_queues h⟩
  | mgmtByte b stop => exact ⟨_, rfl, mgmtByte_queues h b stop⟩
  | byteGapExpiry => exact ⟨_, rfl, atEnd_queues h dues_queues.gap _⟩
  | goodFrameReport => exact ⟨_, rfl, goodFrameReport_queues h⟩
  | identify => exact ⟨_, rfl, serve_queues h _ _ fun _ _ ht => ht⟩
  | readStream => exact ⟨_, rfl, serve_queues h _ _ fun body t ht => by rw [readStream_state]; exact ht⟩
  | readCounters => exact ⟨_, rfl, serve_queues h _ _ fun body _ ht => readCounters_room ht body⟩
  | readLink => exact ⟨_, rfl, serve_queues h _ _ fun body _ ht => readLink_room ht body⟩
  | readDevice => exact ⟨_, rfl, serve_queues h _ _ fun body t ht => by rw [readDevice_state]; exact ht⟩
  | readMgmt => exact ⟨_, rfl, serve_queues h _ _ fun body _ ht => readMgmt_room ht body⟩
  | openEdit => exact ⟨_, rfl, serve_queues h _ _ fun body _ ht => openEdit_room ht body⟩
  | stageStream => exact ⟨_, rfl, serve_queues h _ _ fun body _ ht => stageStream_room ht body⟩
  | stageDevice => exact ⟨_, rfl, serve_queues h _ _ fun body _ ht => stageDevice_room ht body⟩
  | commitEdit => exact ⟨_, rfl, serve_queues h _ _ fun body _ ht => commitEdit_room ht body⟩
  | discardEdit => exact ⟨_, rfl, serve_queues h _ _ fun body _ ht => discardEdit_room ht body⟩
  | editExpiry => exact ⟨_, rfl, atEnd_queues h dues_queues.edit _⟩
  | forceResync => exact ⟨_, rfl, serve_queues h _ _ fun body _ ht => forceResync_room ht body⟩
  | ackNotice => exact ⟨_, rfl, serve_queues h _ _ fun body _ ht => ackNotice_room ht body⟩
  | restart => exact ⟨_, rfl, serve_queues h _ _ fun body _ ht => restartRequest_room ht body⟩
  | unknownKind => exact ⟨_, rfl, unknownKind_queues h⟩
  | transmissionComplete => exact ⟨_, rfl, transmissionComplete_queues h⟩
  | retryExpiry => exact ⟨_, rfl, atEnd_queues h dues_queues.retry _⟩
  | noticeOffer b => exact ⟨_, rfl, noticeOffer_queues h b⟩

/-- Settles O6: idling and each command keep the bounds. -/
theorem queueBoundsKept : Obligations.QueueBoundsKept := fun _ _ h hst =>
  step_keeps (P := State.QueuesOk) (fun _ _ h => h) (fun _ h => pass_queues (choose_queues h) 1) exec_queuesOk h hst

end Sys2Proof.Machine

/-! # The rounds of the ticks under way -/

namespace Sys2Proof.Machine

/-! ## What leaves the ticks under way alone -/

theorem State.RoundsOk.of_eq {s t : State} (h : s.RoundsOk) (hticks : t.ticks = s.ticks) : t.RoundsOk := by
  unfold State.RoundsOk
  rw [hticks]
  exact h

theorem takeOffers_roundsOk {s : State} (h : s.RoundsOk) (p : Block → Bool) : (s.takeOffers p).RoundsOk :=
  h.of_eq (State.takeOffers_ticks s p)

theorem choose_roundsOk {s : State} (h : s.RoundsOk) : s.choose.RoundsOk := h.of_eq (State.choose_ticks s)

/-- What precedes a commit or a RESTART leaves the ticks under way. -/
theorem State.settleDeliveries_ticks (s : State) (p : Delivery → Bool) : (s.settleDeliveries p).ticks = s.ticks :=
  State.settleDeliveries_frame State.ticks (fun _ _ => rfl) (fun t d => State.takeOffers_ticks t (isLink d.path)) s p

/-! ## Time -/

theorem loseCadence_roundsOk {s : State} (h : s.RoundsOk) : s.loseCadence.RoundsOk := by
  unfold State.loseCadence
  split
  · exact h
  · exact h
  · exact (produceTick_roundsOk (s := { s with cadence := _ }) h).of_eq (State.offer_ticks _ _ _ _)

theorem State.retryExpired_ticks (s : State) : s.retryExpired.ticks = s.ticks := by
  unfold State.retryExpired
  split
  · simp
  · rfl

/-- The expiries leave the rounds in order: only a tick produced joins the ticks under way. -/
theorem dues_roundsOk : State.DuesKeep State.RoundsOk :=
  State.duesKeep (fun s x h => h.of_eq (by simp [State.linkSilent, State.putLink])) (fun _ => loseCadence_roundsOk)
    (fun s h => produceTick_roundsOk (s := { s with cadence := _ }) h) (fun _ h => h)
    (fun s h => h.of_eq (State.offer_ticks s.closeSession _ _ _)) (fun s h => h.of_eq s.retryExpired_ticks)

theorem pass_roundsOk {s : State} (h : s.RoundsOk) (us : Nat) : (s.pass us).RoundsOk :=
  State.pass_keeps dues_roundsOk.settle (fun _ _ h => h) us h

theorem atEnd_roundsOk {s : State} (h : s.RoundsOk) {f : State → State} (hf : ∀ s : State, s.RoundsOk → (f s).RoundsOk)
    (left : Option Nat) : (s.atEnd left f).RoundsOk := State.atEnd_keeps (fun _ us h => pass_roundsOk h us) hf left h

theorem edge_roundsOk {s : State} (h : s.RoundsOk) : s.edge.RoundsOk := by
  have htick : ({ s with cadence := s.cadence.edgeOk }.produceTick).RoundsOk :=
    produceTick_roundsOk (s := { s with cadence := s.cadence.edgeOk }) h
  unfold State.edge
  split
  · exact h
  · exact htick
  · split
    · exact htick.of_eq (State.offer_ticks _ _ _ _)
    · exact h

/-! ## Ticks taken and rounds ended -/

theorem streamTick_roundsOk {s : State} (h : s.RoundsOk) (i : StreamIdx) : (streamTick i s).RoundsOk := by
  unfold streamTick
  split
  · exact playStream_roundsOk (takeOffers_roundsOk h _) i (fun _ hc => hc.tick) fun _ _ hr hts => takeTick_ok i hr hts
  · exact h

/-- A playout event commanded alone opens a round of its own. -/
theorem phaseStep_roundsOk {s : State} (h : s.RoundsOk) (i : StreamIdx) :
    (s.playStream i Ctx.phaseStep ownRound).RoundsOk :=
  playStream_roundsOk h i (fun _ hc => hc.phaseStep) fun r _ _ hts => ownRound_ok r hts

theorem playoutEvent_roundsOk {s : State} (h : s.RoundsOk) (i : StreamIdx) : (playoutEvent i s).RoundsOk := by
  unfold playoutEvent
  split
  · exact phaseStep_roundsOk h i
  · exact h

theorem stall_roundsOk {s : State} (h : s.RoundsOk) (i : StreamIdx) : (stall i s).RoundsOk := by
  unfold stall
  split
  · exact phaseStep_roundsOk h i
  · exact h

theorem guardExpiry_roundsOk {s : State} (h : s.RoundsOk) (i : StreamIdx) : (guardExpiry i s).RoundsOk := by
  unfold guardExpiry
  split
  · exact phaseStep_roundsOk h i
  · exact h

theorem State.placeRecord_ticks (s : State) (r : PlayRecord) : (s.placeRecord r).ticks = s.ticks := by
  unfold State.placeRecord
  split <;> rfl

/-- The round of the oldest tick leaves with its tick. -/
theorem playoutRound_roundsOk {s : State} (h : s.RoundsOk) : (playoutRound s).RoundsOk := by
  unfold playoutRound
  split
  · exact h
  · next t ts hticks =>
    have hrest : ({ s with ticks := ts } : State).RoundsOk :=
      fun u hu => h u (by rw [hticks]; exact List.mem_cons_of_mem t hu)
    split
    · exact foldl_keeps (P := State.RoundsOk) (fun u r hu => hu.of_eq (u.placeRecord_ticks r)) _
        (takeOffers_roundsOk hrest _)
    · exact h

/-! ## The events of one context that are no playout event -/

theorem linkDepartureReport_ticks (s : State) (x : Path) (i : StreamIdx) : (linkDepartureReport x i s).ticks = s.ticks := by
  unfold linkDepartureReport
  split
  · exact State.takeOffers_ticks { s with reports := s.reports.erase (x, i) } (isLink x)
  · rfl

theorem arrival_ticks (s : State) (x : Path) (i : StreamIdx) : (arrival x i s).ticks = s.ticks := by
  unfold arrival
  split
  · rfl
  · next d rest _ => exact State.takeOffers_ticks { s with deliveries := rest } (isLink d.path)

theorem pathAbsent_ticks (s : State) (i : StreamIdx) (x : Path) : (pathAbsent i x s).ticks = s.ticks := by
  unfold pathAbsent
  split
  · rfl
  · rfl
  · split <;> rfl

theorem gapTimerExpiry_ticks (s : State) (i : StreamIdx) : (gapTimerExpiry i s).ticks = s.ticks := by
  unfold gapTimerExpiry
  split
  · rfl
  · split <;> rfl

theorem mgmtByte_ticks (s : State) (b : Byte) (stop : Bool) : (mgmtByte b stop s).ticks = s.ticks := by
  unfold mgmtByte
  split
  · exact State.examine_ticks _ _ { s with mgmt := { s.mgmt with rx := none } }
  · rfl

theorem goodFrameReport_ticks (s : State) : (goodFrameReport s).ticks = s.ticks := by
  unfold goodFrameReport
  split
  · rfl
  · exact State.goodFrame_ticks _

theorem noticeOffer_ticks (s : State) (b : Block) : (noticeOffer b s).ticks = s.ticks := by
  unfold noticeOffer
  split
  · rfl
  · split
    · exact State.takeNotice_ticks _ _
    · rfl

/-! ## Requests -/

theorem beginRequest_roundsOk (s : State) (f : MgmtFrame) (h : s.RoundsOk) : (s.beginRequest f).RoundsOk :=
  h.of_eq (State.beginRequest_ticks s f)

theorem endRequest_roundsOk (s : State) (f : MgmtFrame) (a : Answer) (h : s.RoundsOk) : (s.endRequest f a).RoundsOk :=
  h.of_eq (State.endRequest_ticks s f a)

theorem serve_roundsOk {s : State} (h : s.RoundsOk) (kind : Byte) (len : Nat) {g : List Byte → State → State × Answer}
    (hg : ∀ body t, t.RoundsOk → (g body t).1.RoundsOk) : (s.serve kind len g).RoundsOk :=
  serve_keeps (P := State.RoundsOk) beginRequest_roundsOk endRequest_roundsOk hg kind len h

theorem readCounters_ticks (body : List Byte) (s : State) : (readCounters body s).1.ticks = s.ticks := by
  unfold readCounters
  split
  · rfl
  · split
    · rfl
    · next clear _ => cases clear <;> rfl

theorem readLink_ticks (body : List Byte) (s : State) : (readLink body s).1.ticks = s.ticks := by
  unfold readLink
  split
  · rfl
  · split
    · rfl
    · next clear _ =>
      cases clear
      · rfl
      · exact State.setLink_ticks s _ _

theorem readMgmt_ticks (body : List Byte) (s : State) : (readMgmt body s).1.ticks = s.ticks := by
  unfold readMgmt
  split
  · rfl
  · next clear _ => cases clear <;> rfl

theorem openEdit_ticks (body : List Byte) (s : State) : (openEdit body s).1.ticks = s.ticks := by
  unfold openEdit
  split
  · rfl
  · split <;> rfl

theorem stageStream_ticks (body : List Byte) (s : State) : (stageStream body s).1.ticks = s.ticks := by
  unfold stageStream
  split
  · rfl
  · split
    · rfl
    · split <;> rfl

theorem stageDevice_ticks (body : List Byte) (s : State) : (stageDevice body s).1.ticks = s.ticks := by
  unfold stageDevice
  split
  · rfl
  · split <;> rfl

theorem discardEdit_ticks (body : List Byte) (s : State) : (discardEdit body s).1.ticks = s.ticks := by
  unfold discardEdit
  split <;> rfl

theorem forceResync_ticks (body : List Byte) (s : State) : (forceResync body s).1.ticks = s.ticks := by
  unfold forceResync
  split
  · rfl
  · split <;> rfl

theorem ackNotice_ticks (body : List Byte) (s : State) : (ackNotice body s).1.ticks = s.ticks := by
  unfold ackNotice
  split <;> rfl

theorem restartRequest_ticks (body : List Byte) (s : State) : (restartRequest body s).1.ticks = s.ticks := by
  unfold restartRequest
  split <;> rfl

/-- A commit takes the contexts it leaves OFF out of reach of the ticks under way. -/
theorem applyCommit_roundsOk {s : State} (h : s.RoundsOk) (new : ConfigSet) (key : Byte) :
    (s.applyCommit new key).RoundsOk := by
  have hstreams : ((List.finRange 32).foldl (State.applyStream new) s).RoundsOk :=
    foldl_keeps (P := State.RoundsOk) (f := State.applyStream new) (fun t _ ht => ht.of_eq (t.put_ticks _ _)) _ h
  unfold State.applyCommit
  generalize (List.finRange 32).foldl (State.applyStream new) s = s1 at hstreams ⊢
  exact State.RoundsOk.of_eq (s := ({ s1 with active := new }.rebuildTagMap).dropOffWaiting)
    (dropWaiting_ok _ hstreams) (State.offer_ticks _ _ _ _)

theorem commitEdit_roundsOk {s : State} (h : s.RoundsOk) (body : List Byte) : (commitEdit body s).1.RoundsOk := by
  have hbefore : s.beforeCommit.RoundsOk := takeOffers_roundsOk (h.of_eq (s.settleDeliveries_ticks _)) _
  unfold commitEdit
  split
  · exact h
  · split
    · split
      · exact h
      · exact applyCommit_roundsOk hbefore _ _
    · exact h

/-- The rounds under way at a RESTART are empty after it. -/
theorem restartNow_roundsOk (s : State) : s.restartNow.RoundsOk := by
  intro t ht
  obtain ⟨u, -, rfl⟩ := List.mem_map.mp ht
  exact ⟨List.Pairwise.nil, fun _ hr => absurd hr List.not_mem_nil⟩

theorem transmissionComplete_roundsOk {s : State} (h : s.RoundsOk) : (transmissionComplete s).RoundsOk := by
  unfold transmissionComplete
  split
  · exact choose_roundsOk h
  · split
    · exact choose_roundsOk (restartNow_roundsOk _)
    · exact choose_roundsOk (s := s.idleTx) h
  · next e _ _ => exact choose_roundsOk (s := { s with notices := s.notices.completed e }.idleTx) h

/-! ## Every command -/

/-- Every command keeps the rounds in order. -/
theorem exec_roundsOk (c : Instr) (s : State) (h : s.RoundsOk) : ∃ t, exec c s = .next t ∧ t.RoundsOk := by
  cases c with
  | powerOn r1 r0 => exact ⟨_, rfl, fun _ ht => absurd ht List.not_mem_nil⟩
  | hardReset r1 r0 => exact ⟨_, rfl, fun _ ht => absurd ht List.not_mem_nil⟩
  | linkByte x b => exact ⟨_, rfl, h.of_eq (by simp [linkByte, State.putLink])⟩
  | linkSilence x => exact ⟨_, rfl, atEnd_roundsOk h (fun t => dues_roundsOk.silence t x) _⟩
  | linkDepartureReport x i => exact ⟨_, rfl, h.of_eq (linkDepartureReport_ticks s x i)⟩
  | arrival x i => exact ⟨_, rfl, h.of_eq (arrival_ticks s x i)⟩
  | cadenceEdge us => exact ⟨_, rfl, edge_roundsOk (pass_roundsOk h us)⟩
  | cadenceLoss => exact ⟨_, rfl, atEnd_roundsOk h dues_roundsOk.loss _⟩
  | generatorTick => exact ⟨_, rfl, atEnd_roundsOk h dues_roundsOk.generator _⟩
  | streamTick i => exact ⟨_, rfl, streamTick_roundsOk h i⟩
  | pathAbsent i x => exact ⟨_, rfl, h.of_eq (pathAbsent_ticks s i x)⟩
  | gapTimerExpiry i => exact ⟨_, rfl, h.of_eq (gapTimerExpiry_ticks s i)⟩
  | playoutEvent i => exact ⟨_, rfl, playoutEvent_roundsOk h i⟩
  | stall i => exact ⟨_, rfl, stall_roundsOk h i⟩
  | guardExpiry i => exact ⟨_, rfl, guardExpiry_roundsOk h i⟩
  | playoutRound => exact ⟨_, rfl, playoutRound_roundsOk h⟩
  | wordTransfer => exact ⟨_, rfl, h⟩
  | mgmtByte b stop => exact ⟨_, rfl, h.of_eq (mgmtByte_ticks s b stop)⟩
  | byteGapExpiry => exact ⟨_, rfl, atEnd_roundsOk h dues_roundsOk.gap _⟩
  | goodFrameReport => exact ⟨_, rfl, h.of_eq (goodFrameReport_ticks s)⟩
  | identify => exact ⟨_, rfl, serve_roundsOk h _ _ fun _ _ ht => ht⟩
  | readStream => exact ⟨_, rfl, serve_roundsOk h _ _ fun body t ht => by rw [readStream_state]; exact ht⟩
  | readCounters => exact ⟨_, rfl, serve_roundsOk h _ _ fun body t ht => ht.of_eq (readCounters_ticks body t)⟩
  | readLink => exact ⟨_, rfl, serve_roundsOk h _ _ fun body t ht => ht.of_eq (readLink_ticks body t)⟩
  | readDevice => exact ⟨_, rfl, serve_roundsOk h _ _ fun body t ht => by rw [readDevice_state]; exact ht⟩
  | readMgmt => exact ⟨_, rfl, serve_roundsOk h _ _ fun body t ht => ht.of_eq (readMgmt_ticks body t)⟩
  | openEdit => exact ⟨_, rfl, serve_roundsOk h _ _ fun body t ht => ht.of_eq (openEdit_ticks body t)⟩
  | stageStream => exact ⟨_, rfl, serve_roundsOk h _ _ fun body t ht => ht.of_eq (stageStream_ticks body t)⟩
  | stageDevice => exact ⟨_, rfl, serve_roundsOk h _ _ fun body t ht => ht.of_eq (stageDevice_ticks body t)⟩
  | commitEdit => exact ⟨_, rfl, serve_roundsOk h _ _ fun body _ ht => commitEdit_roundsOk ht body⟩
  | discardEdit => exact ⟨_, rfl, serve_roundsOk h _ _ fun body t ht => ht.of_eq (discardEdit_ticks body t)⟩
  | editExpiry => exact ⟨_, rfl, atEnd_roundsOk h dues_roundsOk.edit _⟩
  | forceResync => exact ⟨_, rfl, serve_roundsOk h _ _ fun body t ht => ht.of_eq (forceResync_ticks body t)⟩
  | ackNotice => exact ⟨_, rfl, serve_roundsOk h _ _ fun body t ht => ht.of_eq (ackNotice_ticks body t)⟩
  | restart => exact ⟨_, rfl, serve_roundsOk h _ _ fun body t ht => ht.of_eq (restartRequest_ticks body t)⟩
  | unknownKind => exact ⟨_, rfl, unknownKind_keeps (P := State.RoundsOk) beginRequest_roundsOk endRequest_roundsOk h⟩
  | transmissionComplete => exact ⟨_, rfl, transmissionComplete_roundsOk h⟩
  | retryExpiry => exact ⟨_, rfl, atEnd_roundsOk h dues_roundsOk.retry _⟩
  | noticeOffer b => exact ⟨_, rfl, h.of_eq (noticeOffer_ticks s b)⟩

/-- Settles O8: idling and each command keep the rounds in order. -/
theorem roundsInOrderKept : Obligations.RoundsInOrderKept := fun _ _ h hst =>
  step_keeps (P := State.RoundsOk) (fun _ _ h => h) (fun _ h => pass_roundsOk (choose_roundsOk h) 1) exec_roundsOk h hst

end Sys2Proof.Machine

/-! # How time passes, and the Cadence Controller -/

namespace Sys2Proof.Machine

/-! ## The commands that a time brings -/

/-- A command that a time brings lets the time its timer has left pass; at the timer's end none is left. -/
theorem State.atEnd_pass (s : State) (us : Nat) (expire : State → State) :
    s.atEnd (some us) expire = (s.pass us).atEnd (some 0) expire := by
  simp only [State.atEnd, State.pass_zero]

theorem leftTo_of_some {limit n : Nat} {t : Option Nat} (h : t = some n) : leftTo limit t = some (limit - n) := by
  rw [h]
  rfl

theorem leftTo_of_end {limit : Nat} {t : Option Nat} (h : t = some limit) : leftTo limit t = some 0 := by
  rw [leftTo_of_some h, Nat.sub_self]

theorem exec_linkSilence_pass {s : State} {x : Path} {n : Nat} (hruns : (s.link x).silence = some n)
    (hend : ((s.pass (1000 - n)).link x).silence = some 1000) :
    exec (.linkSilence x) s = exec (.linkSilence x) (s.pass (1000 - n)) := by
  show Host.Outcome.next (s.atEnd _ _) = .next ((s.pass (1000 - n)).atEnd _ _)
  rw [leftTo_of_some hruns, leftTo_of_end (limit := Config.silenceLimit) hend]
  exact congrArg Host.Outcome.next (s.atEnd_pass _ _)

theorem exec_cadenceLoss_pass {s : State} {n : Nat} (hruns : s.cadence.loss = some n)
    (hend : (s.pass (2 * s.cadence.interval - n)).cadence.loss = some (2 * s.cadence.interval))
    (hinterval : (s.pass (2 * s.cadence.interval - n)).cadence.interval = s.cadence.interval) :
    exec .cadenceLoss s = exec .cadenceLoss (s.pass (2 * s.cadence.interval - n)) := by
  show Host.Outcome.next (s.atEnd _ _) = .next ((s.pass (2 * s.cadence.interval - n)).atEnd _ _)
  rw [leftTo_of_some hruns, hinterval, leftTo_of_end hend]
  exact congrArg Host.Outcome.next (s.atEnd_pass _ _)

theorem exec_generatorTick_pass {s : State} {n : Nat} (hruns : s.cadence.generator = some n)
    (hend : (s.pass n).cadence.generator = some 0) : exec .generatorTick s = exec .generatorTick (s.pass n) := by
  show Host.Outcome.next (s.atEnd _ _) = .next ((s.pass n).atEnd _ _)
  rw [hruns, hend]
  exact congrArg Host.Outcome.next (s.atEnd_pass _ _)

theorem exec_byteGapExpiry_pass {s : State} {n : Nat} (hruns : s.mgmt.byteGap = some n)
    (hend : (s.pass (5000 - n)).mgmt.byteGap = some 5000) :
    exec .byteGapExpiry s = exec .byteGapExpiry (s.pass (5000 - n)) := by
  show Host.Outcome.next (s.atEnd _ _) = .next ((s.pass (5000 - n)).atEnd _ _)
  rw [leftTo_of_some hruns, leftTo_of_end (limit := Config.byteGapLimit) hend]
  exact congrArg Host.Outcome.next (s.atEnd_pass _ _)

theorem exec_editExpiry_pass {s : State} {e e' : Session} (hruns : s.session = some e)
    (hopen : (s.pass e.timer).session = some e') (hend : e'.timer = 0) :
    exec .editExpiry s = exec .editExpiry (s.pass e.timer) := by
  show Host.Outcome.next (s.atEnd _ _) = .next ((s.pass e.timer).atEnd _ _)
  rw [hruns, hopen, Option.map_some, Option.map_some, hend]
  exact congrArg Host.Outcome.next (s.atEnd_pass _ _)

theorem exec_retryExpiry_pass {s : State} {n : Nat} (hruns : s.notices.retryTimer = some n)
    (hend : (s.pass n).notices.retryTimer = some 0) : exec .retryExpiry s = exec .retryExpiry (s.pass n) := by
  show Host.Outcome.next (s.atEnd _ _) = .next ((s.pass n).atEnd _ _)
  rw [hruns, hend]
  exact congrArg Host.Outcome.next (s.atEnd_pass _ _)

/-- Settles O34: the moving of the timers, the cutting of time, and each expiry's command on what the time before it leaves. -/
theorem timePasses : Obligations.TimePasses :=
  ⟨fun _ _ => State.pass_eq_elapse, fun _ _ => rfl, State.pass_add, fun _ _ =>
    ⟨fun _ => exec_linkSilence_pass, exec_cadenceLoss_pass, exec_generatorTick_pass, exec_byteGapExpiry_pass,
      fun _ _ => exec_editExpiry_pass, exec_retryExpiry_pass⟩⟩

/-! ## The Cadence Controller -/

/-- A tick produced is to reach every context that is not OFF. -/
theorem State.produceTick_waiting (s : State) (i : StreamIdx) :
    i ∈ (List.finRange 32).filter (fun j => !decide ((s.stream j).state = .off)) ↔ (s.stream i).state ≠ .off := by
  simp

section
variable {s : State}

theorem State.edge_of_internal (h : s.cadence.state = .internal) : s.edge = s := by
  simp only [State.edge, h]

theorem State.edge_of_extOk (h : s.cadence.state = .extOk) : s.edge = { s with cadence := s.cadence.edgeOk }.produceTick := by
  simp only [State.edge, h]

theorem State.edge_counts (h : s.cadence.state = .extLost) (hcount : s.cadence.countEdge < 4) :
    s.edge = { s with cadence := { s.cadence with edgeAge := some 0, restore := s.cadence.countEdge } } := by
  simp only [State.edge, h, if_neg (Nat.not_le.mpr hcount)]

theorem State.edge_restores (h : s.cadence.state = .extLost) (hcount : 4 ≤ s.cadence.countEdge) :
    s.edge = ({ s with cadence := s.cadence.edgeOk }.produceTick).offer .cadence s.deviceMask.cadence (.cadence .restored) := by
  simp only [State.edge, h, if_pos hcount]

/-- The loss in EXT_OK, at the loss timer's end. -/
theorem State.lossDue_of_end (hstate : s.cadence.state = .extOk) (hloss : s.cadence.loss = some (2 * s.cadence.interval)) :
    s.lossDue = ({ s with cadence := { s.cadence with
        state := .extLost, restore := 0, loss := none, generator := some s.cadence.interval } }.produceTick).offer
      .cadence s.deviceMask.cadence (.cadence .lost) := by
  have hreached : reached (2 * s.cadence.interval) s.cadence.loss = true := by simp [reached, hloss]
  simp only [State.lossDue, if_pos hreached, State.loseCadence, hstate]

theorem State.generatorDue_of_end (h : s.cadence.generator = some 0) : s.generatorDue = s.generate := by
  simp [State.generatorDue, ended, h]

theorem exec_cadenceLoss_end (hloss : s.cadence.loss = some (2 * s.cadence.interval)) :
    exec .cadenceLoss s = .next s.lossDue := by
  show Host.Outcome.next (s.atEnd _ _) = _
  rw [leftTo_of_end hloss, State.atEnd, State.pass_zero]

theorem exec_cadenceLoss_stopped (h : s.cadence.loss = none) : exec .cadenceLoss s = .next s := by
  show Host.Outcome.next (s.atEnd _ _) = _
  rw [h]
  rfl

theorem exec_generatorTick_stopped (h : s.cadence.generator = none) : exec .generatorTick s = .next s := by
  show Host.Outcome.next (s.atEnd _ _) = _
  rw [h]
  rfl

theorem exec_generatorTick_end (h : s.cadence.generator = some 0) : exec .generatorTick s = .next s.generate := by
  show Host.Outcome.next (s.atEnd _ _) = _
  rw [h, State.atEnd, State.pass_zero, State.generatorDue_of_end h]

/-- Where no other timer ends before, the time the generator had left passes, and it ticks. -/
theorem exec_generatorTick_after {n : Nat} (h : s.cadence.generator = some n) (hpos : 1 ≤ n)
    (hfirst : ∀ m, some m ∈ s.timersLeft → n ≤ m) : exec .generatorTick s = .next (s.elapse n).generate := by
  have hpass : s.pass n = s.elapse n := State.pass_eq_elapse hpos hfirst
  have hend : (s.elapse n).cadence.generator = some 0 := by
    show countDown n s.cadence.generator = some 0
    simp [countDown, h]
  rw [exec_generatorTick_pass h (by rw [hpass]; exact hend), hpass, exec_generatorTick_end hend]

end

/-- Settles O33: the tick produced, the edge by the state it finds, and the two commands of the controller's timers. -/
theorem cadenceController : Obligations.CadenceController := by
  refine ⟨fun s => ⟨_, rfl, rfl, s.produceTick_waiting⟩, ?_, fun s => ⟨exec_cadenceLoss_stopped, fun hstate hloss => ?_,
    exec_generatorTick_stopped, exec_generatorTick_end, fun n => exec_generatorTick_after⟩⟩
  · rintro s s1 us n rfl hn
    have hcount : n = (s.pass us).cadence.countEdge := hn
    refine ⟨fun h => ?_, fun h => ?_, fun h hlow => ?_, fun h hfour => ?_⟩
    · exact congrArg Host.Outcome.next (State.edge_of_internal h)
    · exact congrArg Host.Outcome.next (State.edge_of_extOk h)
    · rw [hcount] at hlow ⊢
      exact congrArg Host.Outcome.next (State.edge_counts h hlow)
    · rw [hcount] at hfour
      exact congrArg Host.Outcome.next (State.edge_restores h hfour)
  · rw [exec_cadenceLoss_end hloss, State.lossDue_of_end hstate hloss]
    rfl

end Sys2Proof.Machine

/-! # Playout events that play no gap -/

namespace Sys2Proof.Machine

/-! ## The frames a draining stream takes before its playout event -/

/-- From s to t, nothing of stream i has changed but its counters, nor has the active set. -/
def State.CountsAt (s t : State) (i : StreamIdx) : Prop :=
  (∃ counters, t.stream i = { s.stream i with counters := counters }) ∧ t.active = s.active

namespace State.CountsAt

variable {s t u : State} {i : StreamIdx}

theorem refl (s : State) (i : StreamIdx) : s.CountsAt s i := ⟨⟨_, rfl⟩, rfl⟩

theorem trans (h : s.CountsAt t i) (k : t.CountsAt u i) : s.CountsAt u i := by
  obtain ⟨⟨counters, ht⟩, hactive⟩ := h
  obtain ⟨⟨counters', hu⟩, hactive'⟩ := k
  exact ⟨⟨counters', by rw [hu, ht]⟩, hactive'.trans hactive⟩

theorem state (h : s.CountsAt t i) : (t.stream i).state = (s.stream i).state := by
  obtain ⟨⟨counters, ht⟩, -⟩ := h
  rw [ht]

theorem inForce (h : s.CountsAt t i) : t.inForce i = s.inForce i := by
  obtain ⟨⟨counters, ht⟩, hactive⟩ := h
  rw [State.inForce, State.inForce, ht, hactive]

theorem phaseWraps (h : s.CountsAt t i) : (t.ctx i).phaseWraps = (s.ctx i).phaseWraps := by
  have hcfg : (t.ctx i).cfg = (s.ctx i).cfg := h.inForce
  have hphase : (t.ctx i).s.phase = (s.ctx i).s.phase := by
    obtain ⟨⟨counters, ht⟩, -⟩ := h
    rw [State.ctx_s, ht]
    rfl
  unfold Ctx.phaseWraps
  rw [hcfg, hphase]

end State.CountsAt

/-- A draining stream refuses a frame delivered to it (03 R34). -/
theorem takeDelivery_countsAt {s : State} {d : Delivery} {i : StreamIdx} (hstream : d.stream = i)
    (hdrain : (s.stream i).state = .draining) : s.CountsAt (s.takeDelivery d) i := by
  subst hstream
  have hstate : (((s.takeOffers (isLink d.path)).ctx d.stream).s).state = .draining := by simpa using hdrain
  have hrefused := Ctx.arrive_refused (x := d.path) d.frame (by rw [hstate]; decide) (Or.inl hstate)
  refine ⟨⟨(((s.takeOffers (isLink d.path)).ctx d.stream).count (ctrRefused d.path)).s.counters, ?_⟩,
    State.takeOffers_active s _⟩
  rw [State.takeDelivery, State.onStream, hrefused, put_stream_of (i := d.stream) _ _ (Ctx.count_idx _ _), Ctx.count_eq,
    State.ctx_s, State.takeOffers_stream]

theorem takeDeliveries_countsAt {i : StreamIdx} (l : List Delivery) (hl : ∀ d ∈ l, d.stream = i) {s : State}
    (hdrain : (s.stream i).state = .draining) : s.CountsAt (l.foldl State.takeDelivery s) i := by
  induction l generalizing s with
  | nil => exact .refl s i
  | cons d l ih =>
    have hfirst := takeDelivery_countsAt (hl d List.mem_cons_self) hdrain
    exact hfirst.trans (ih (fun e he => hl e (List.mem_cons_of_mem d he)) (hfirst.state.trans hdrain))

/-- What precedes a playout event counts refused frames, and no more at its context. -/
theorem beforePlayout_countsAt (s : State) (i : StreamIdx) : s.CountsAt (s.beforePlayout i) i := by
  unfold State.beforePlayout
  split
  · next hdrain =>
    refine takeDeliveries_countsAt _ (fun d hd => ?_) (s := { s with deliveries := _ }) hdrain
    exact of_decide_eq_true (List.mem_filter.mp hd).2
  · exact .refl s i

theorem beforePlayout_mergeOk {s : State} (h : s.MergeOk) (i : StreamIdx) : (s.beforePlayout i).MergeOk := by
  unfold State.beforePlayout
  split
  · exact settleDeliveries_mergeOk h _
  · exact h

/-! ## The playout event in every state -/

/-- PLAYOUT_EVENT where it is due: what `playout` makes of the context at its event is put back, and a drain may end. -/
theorem exec_playoutEvent_eq {s : State} {i : StreamIdx} (hwraps : (s.ctx i).phaseWraps = true) :
    exec (.playoutEvent i) s = .next (State.endDrain { (s.beforePlayout i).put (s.atPlayout i).playout (.stream i) with
      ticks := ownRound (s.atPlayout i).playout.record (s.beforePlayout i).ticks } i) := by
  have hstep : ((s.beforePlayout i).ctx i).phaseStep = (s.atPlayout i).playout :=
    Ctx.phaseStep_of_wraps (((beforePlayout_countsAt s i).phaseWraps).trans hwraps)
  rw [exec_playoutEvent_due hwraps, State.playStream]
  dsimp only
  rw [hstep]

theorem atPlayout_playout_idx (s : State) (i : StreamIdx) : (s.atPlayout i).playout.idx = i :=
  (Ctx.Names.playout (i := i) (c := s.atPlayout i) ⟨rfl, by simp [State.atPlayout]⟩).1

/-- A playout event that does not leave its context OFF. -/
theorem playoutGives_of_on {s : State} {i : StreamIdx} {c : Ctx} (hwraps : (s.ctx i).phaseWraps = true)
    (hplay : (s.atPlayout i).playout = c) (hoff : c.s.state ≠ .off) : s.PlayoutGives i c := by
  subst hplay
  rw [State.PlayoutGives, exec_playoutEvent_eq hwraps]
  refine congrArg Host.Outcome.next (State.endDrain_of_not_off ?_)
  show (((s.beforePlayout i).put _ (.stream i)).stream i).state ≠ .off
  rwa [put_stream_of _ _ (atPlayout_playout_idx s i)]

theorem atPlayout_state (s : State) (i : StreamIdx) : (s.atPlayout i).s.state = (s.stream i).state :=
  (beforePlayout_countsAt s i).state

theorem Ctx.emitHead_of_queue {c : Ctx} {h : QueueEntry} {t : List QueueEntry} (hq : c.s.queue = h :: t) :
    c.emitHead = c.emitted h t := by
  cases h <;> simp only [Ctx.emitHead, hq] <;> rfl

/-! ## ACQUIRE, STALLED and PRIMING -/

theorem Ctx.playout_of_acquire {c : Ctx} (h : c.s.state = .acquire) : c.playout = c := by
  simp only [Ctx.playout, h]

theorem Ctx.playout_of_stalled {c : Ctx} (h : c.s.state = .stalled) : c.playout = c.offerRecord (.idle c.idx) := by
  simp only [Ctx.playout, h]

theorem Ctx.playout_of_priming {c : Ctx} (h : c.s.state = .priming) : c.playout = c.guardCountdown.playPriming := by
  simp only [Ctx.playout, h]

theorem Ctx.playPriming_below {c : Ctx} (h : c.s.queue.length < c.cfg.hold) :
    c.playPriming = c.offerRecord (.idle c.idx) := if_pos h

theorem Ctx.playRunning_of_queue {c : Ctx} {h : QueueEntry} {t : List QueueEntry} (hq : c.s.queue = h :: t) :
    c.playRunning = { c with s := { c.s with run := 0 } }.emitted h t := by
  rw [Ctx.playRunning, if_pos (by rw [hq]; exact List.cons_ne_nil h t), Ctx.emitHead_clearRun hq]

/-- At HOLD the stream goes to RUNNING with its notice, and the head of its queue is emitted (06 R110). -/
theorem Ctx.playPriming_at_hold {c : Ctx} {h : QueueEntry} {t : List QueueEntry} (hhold : c.cfg.hold ≤ c.s.queue.length)
    (hq : c.s.queue = h :: t) :
    c.playPriming = ({ c with s := { c.s with state := .running, run := 0 } }.noteState .primed).emitted h t := by
  rw [Ctx.playPriming, if_neg (Nat.not_lt.mpr hhold), Ctx.playRunning_of_queue (h := h) (t := t) (by simpa using hq)]
  simp only [Ctx.noteState, Ctx.note_eq]

/-- Settles O26: ACQUIRE and STALLED by their own case of the event, PRIMING by its queue's length against HOLD. -/
theorem playoutWithoutPlaying : Obligations.PlayoutWithoutPlaying := by
  refine ⟨fun s i hwraps => ⟨fun hstate => ?_, fun hstate => ?_⟩, ?_⟩
  · have hs := (atPlayout_state s i).trans hstate
    exact playoutGives_of_on hwraps (Ctx.playout_of_acquire hs) (by rw [hs]; decide)
  · have hs := (atPlayout_state s i).trans hstate
    exact playoutGives_of_on hwraps (Ctx.playout_of_stalled hs) (by show (s.atPlayout i).s.state ≠ .off; rw [hs]; decide)
  · rintro s i c0 hwraps hstate rfl
    have hplayout := Ctx.playout_of_priming ((atPlayout_state s i).trans hstate)
    obtain ⟨g, hparts⟩ := State.atPlayout_guardCountdown (s := s) (i := i) (by rw [hstate]; decide)
    rw [hparts] at hplayout ⊢
    refine ⟨fun hbelow => ?_, fun h t hhold hqueue => ?_⟩
    · exact playoutGives_of_on hwraps (hplayout.trans (Ctx.playPriming_below hbelow))
        (by show (s.stream i).state ≠ .off; rw [hstate]; decide)
    · exact playoutGives_of_on hwraps (hplayout.trans (Ctx.playPriming_at_hold hhold hqueue))
        (by simp [Ctx.emitted_state])

/-! ## RUNNING -/

/-- Settles O27: the head of a non-empty queue is emitted, and the parts named are those of the context before. -/
theorem playoutRunning : Obligations.PlayoutRunning := by
  rintro s i c0 h t hwraps hstate rfl hqueue
  obtain ⟨g, hparts⟩ := State.atPlayout_guardCountdown (s := s) (i := i) (by rw [hstate]; decide)
  have hplay := Ctx.playRunning_of_queue (c := (s.atPlayout i).guardCountdown) (h := h) (t := t) (by rw [hparts]; exact hqueue)
  refine ⟨_, playoutGives_of_playRunning hwraps hstate hplay ?_, rfl, ?_⟩
  · rw [Ctx.emitted_state, hparts]
    show (s.stream i).state ≠ .off
    rw [hstate]; decide
  · rw [hparts]
    cases h <;> exact ⟨rfl, rfl, rfl, rfl, hstate, rfl, rfl, rfl⟩

/-! ## DRAINING -/

theorem Ctx.playout_of_draining {c : Ctx} (h : c.s.state = .draining) : c.playout = c.playDraining := by
  simp only [Ctx.playout, h]

/-- The END of a drain leaves the context OFF, with its counters and its notice. -/
theorem Ctx.endDrain_eq {c : Ctx} (hshape : c.s.ShapeOk c.cfg) (hstate : c.s.state = .draining) (hq : c.s.queue = []) :
    c.endDrain = { c with
      s := c.s.toOff
      notes := c.notes ++ if c.cfg.noticeMask.streamState then [.streamState c.idx .off .drained] else []
      record := some (.ended c.idx) } := by
  obtain ⟨-, -, hwindow, -, hacq, hjump, hguard, htimer, -, -⟩ := (shape_draining hstate).mp hshape
  simp [Ctx.endDrain, Ctx.noteState, Ctx.note_eq, Ctx.offerRecord, Stream.toOff, Stream.reset, hwindow, hacq, hjump, hguard,
    htimer, hq]

/-- The playout event that ends a drain: the stream's Tag Map entry leaves with it, and it is out of reach of the ticks. -/
theorem exec_playoutEvent_ends {s s1 : State} {i : StreamIdx} (hok : s.MergeOk) (hwraps : (s.ctx i).phaseWraps = true)
    (hstate : (s.stream i).state = .draining) (hs1 : s1 = s.beforePlayout i) (hqueue : (s1.stream i).queue = []) :
    exec (.playoutEvent i) s = .next { s1.setStream i (s1.stream i).toOff with
      ticks := dropWaiting (fun j => decide (j = i)) (s1.ticks ++ [⟨[], [.ended i]⟩])
      tagMap := s1.tagMap.filter fun p => !decide (p.2 = i)
      offers := s1.offers ++
        if (s.inForce i).noticeMask.streamState then [⟨.stream i, .streamState i .off .drained, none⟩] else [] } := by
  have hcounts := beforePlayout_countsAt s i
  have hmerge := beforePlayout_mergeOk hok i
  rw [← hs1] at hcounts hmerge
  have hplay : (s.atPlayout i).playout = (s1.ctx i).endDrain := by
    have hempty : (s.atPlayout i).s.queue = [] := by rw [State.atPlayout, ← hs1]; exact hqueue
    rw [Ctx.playout_of_draining ((atPlayout_state s i).trans hstate), Ctx.playDraining, if_neg (not_not.mpr hempty),
      State.atPlayout, ← hs1]
    rfl
  rw [exec_playoutEvent_eq hwraps, hplay, ← hs1,
    Ctx.endDrain_eq (c := s1.ctx i) (hmerge.1 i).1 (hcounts.state.trans hstate) hqueue, State.endDrain, if_pos ?_]
  · simp only [State.ctx_cfg, hcounts.inForce, State.put, State.ctx_notes, List.nil_append, State.ctx_idx, State.ctx_s,
      State.ctx_free, ownRound]
    cases (s.inForce i).noticeMask.streamState <;> rfl
  · show ((s1.put _ (.stream i)).stream i).state = .off
    rw [put_stream_of (i := i) _ _ rfl]
    rfl

/-- Settles O29: a non-empty queue emits its head; an empty one ends the drain. -/
theorem playoutDraining : Obligations.PlayoutDraining := by
  refine ⟨fun s i h t hwraps hstate hqueue => ?_, fun s i s1 hok hwraps hstate hs1 hqueue => ?_⟩
  · have hs := (atPlayout_state s i).trans hstate
    have hq : (s.atPlayout i).s.queue = h :: t := hqueue
    have hplay : (s.atPlayout i).playout = (s.atPlayout i).emitted h t := by
      rw [Ctx.playout_of_draining hs, Ctx.playDraining, if_pos (by rw [hq]; exact List.cons_ne_nil h t),
        Ctx.emitHead_of_queue hq]
    exact playoutGives_of_on hwraps hplay (by rw [Ctx.emitted_state, hs]; decide)
  · rw [exec_playoutEvent_ends hok hwraps hstate hs1 hqueue]
    cases (s.inForce i).noticeMask.streamState <;> simp

end Sys2Proof.Machine

/-! # The Playout Port -/

namespace Sys2Proof.Machine

/-! ## The records of a round, placed or dropped -/

theorem State.placeRecord_of_room {s : State} (r : PlayRecord) (h : s.port.fifo.length < 16) :
    s.placeRecord r = { s with port := ⟨s.port.fifo ++ [r], s.port.pos⟩ } := if_pos h

theorem State.placeRecord_of_full {s : State} (r : PlayRecord) (h : 16 ≤ s.port.fifo.length) :
    s.placeRecord r = s.put ((s.ctx r.idx).count ctrPortDrop) .port := if_neg (Nat.not_lt.mpr h)

/-- Records that find free places join the FIFO in their order. -/
theorem placeRecords_of_room (l : List PlayRecord) {s : State} (h : l.length ≤ 16 - s.port.fifo.length) :
    l.foldl State.placeRecord s = { s with port := ⟨s.port.fifo ++ l, s.port.pos⟩ } := by
  induction l generalizing s with
  | nil => simp
  | cons r l ih =>
    rw [List.length_cons] at h
    rw [List.foldl_cons, State.placeRecord_of_room r (by omega), ih (by simp; omega)]
    simp

/-- A context whose record was dropped: PORT_DROP has advanced (06 R120). -/
def Stream.portDropped (s : Stream) : Stream :=
  { s with counters := s.counters.set ctrPortDrop s.counters[ctrPortDrop].bump }

/-- Whether the next PORT_DROP of stream i creates a notice (01 R22). -/
def State.dropSaturates (s : State) (i : StreamIdx) : Bool :=
  (s.inForce i).noticeMask.saturated && decide ((s.stream i).counters[ctrPortDrop].value = 0xFFFE)

/-- The notices that dropping these records, one of a stream at most, has the port offer. -/
def State.dropNotices (s : State) (l : List PlayRecord) : List Offer :=
  (l.filter fun r => s.dropSaturates r.idx).map fun r => ⟨.port, .counterSaturated (.stream r.idx) 23, none⟩

/-- State u is s with these records, one of a stream at most, dropped at a full FIFO. -/
structure State.Drops (s : State) (l : List PlayRecord) (u : State) : Prop where
  port : u.port = s.port
  ticks : u.ticks = s.ticks
  free : u.free = s.free
  active : u.active = s.active
  tagMap : u.tagMap = s.tagMap
  counted : ∀ i ∈ l.map PlayRecord.idx, u.stream i = (s.stream i).portDropped
  others : ∀ i ∉ l.map PlayRecord.idx, u.stream i = s.stream i
  offers : u.offers = s.offers ++ s.dropNotices l

theorem State.Drops.nil (s : State) : s.Drops [] s :=
  ⟨rfl, rfl, rfl, rfl, rfl, fun _ hi => absurd hi List.not_mem_nil, fun _ _ => rfl, (List.append_nil _).symm⟩

/-- One record dropped. -/
theorem placeRecord_drops {s : State} (r : PlayRecord) (h : 16 ≤ s.port.fifo.length) : s.Drops [r] (s.placeRecord r) := by
  rw [State.placeRecord_of_full r h, Ctx.count_eq]
  refine ⟨rfl, rfl, rfl, rfl, rfl, fun i hi => ?_, fun i hi => ?_, ?_⟩
  · obtain rfl : i = r.idx := by simpa using hi
    exact put_stream_of s .port rfl
  · exact (put_other (i := r.idx) rfl (by simpa using hi)).1
  · have hsaturates : ((s.ctx r.idx).cfg.noticeMask.saturated && (s.ctx r.idx).s.counters[ctrPortDrop].atBrink) =
        s.dropSaturates r.idx := rfl
    rw [hsaturates, State.put_offers, State.dropNotices]
    cases hbrink : s.dropSaturates r.idx <;> simp [hbrink, Offer.own, ctrPortDrop]

/-- Dropping a record changes its own stream alone. -/
theorem State.Drops.dropSaturates_ne {s u : State} {r : PlayRecord} (h : s.Drops [r] u) {i : StreamIdx} (hi : i ≠ r.idx) :
    u.dropSaturates i = s.dropSaturates i := by
  have hstream : u.stream i = s.stream i := h.others i (by simpa using hi)
  rw [State.dropSaturates, State.dropSaturates, State.inForce, State.inForce, hstream, h.active]

/-- A record dropped, and then others of other streams. -/
theorem State.Drops.cons {s t u : State} {r : PlayRecord} {l : List PlayRecord} (hfirst : s.Drops [r] t) (hrest : t.Drops l u)
    (hr : r.idx ∉ l.map PlayRecord.idx) : s.Drops (r :: l) u where
  port := hrest.port.trans hfirst.port
  ticks := hrest.ticks.trans hfirst.ticks
  free := hrest.free.trans hfirst.free
  active := hrest.active.trans hfirst.active
  tagMap := hrest.tagMap.trans hfirst.tagMap
  counted i hi := by
    rcases List.mem_cons.mp hi with rfl | hi
    · rw [hrest.others _ hr, hfirst.counted _ (by simp)]
    · have hne : i ≠ r.idx := fun he => hr (he ▸ hi)
      rw [hrest.counted i hi, hfirst.others i (by simpa using hne)]
  others i hi := by
    obtain ⟨hne, hi⟩ := not_or.mp (mt List.mem_cons.mpr hi)
    rw [hrest.others i hi, hfirst.others i (by simpa using hne)]
  offers := by
    have hsame : t.dropNotices l = s.dropNotices l := by
      refine congrArg (List.map _) (List.filter_congr fun p hp => hfirst.dropSaturates_ne fun he => hr ?_)
      exact he ▸ List.mem_map_of_mem hp
    rw [hrest.offers, hfirst.offers, hsame, List.append_assoc]
    refine congrArg (s.offers ++ ·) ?_
    rw [State.dropNotices, State.dropNotices, State.dropNotices, ← List.map_append, ← List.filter_append]
    rfl

/-- Records that find a full FIFO are dropped, each at its stream. -/
theorem placeRecords_drops (l : List PlayRecord) (hnodup : (l.map PlayRecord.idx).Nodup) {s : State}
    (hfull : l ≠ [] → 16 ≤ s.port.fifo.length) : s.Drops l (l.foldl State.placeRecord s) := by
  induction l generalizing s with
  | nil => exact .nil s
  | cons r l ih =>
    obtain ⟨hr, hnodup⟩ := List.nodup_cons.mp hnodup
    have hfirst := placeRecord_drops r (hfull (List.cons_ne_nil r l))
    refine hfirst.cons (ih hnodup fun _ => ?_) hr
    rw [hfirst.port]
    exact hfull (List.cons_ne_nil r l)

/-- A round: the first records find the free places, and the later ones are dropped. -/
theorem placeRecords_round (l : List PlayRecord) (hnodup : (l.map PlayRecord.idx).Nodup) (s : State) :
    State.Drops { s with port := ⟨s.port.fifo ++ l.take (16 - s.port.fifo.length), s.port.pos⟩ }
      (l.drop (16 - s.port.fifo.length)) (l.foldl State.placeRecord s) := by
  have hplaced := placeRecords_of_room (l.take (16 - s.port.fifo.length)) (s := s) (List.length_take_le _ _)
  have hrest : ((l.drop (16 - s.port.fifo.length)).map PlayRecord.idx).Nodup := by
    rw [List.map_drop]
    exact hnodup.sublist (List.drop_sublist _ _)
  conv => rhs; rw [← List.take_append_drop (16 - s.port.fifo.length) l, List.foldl_append, hplaced]
  refine placeRecords_drops _ hrest fun hne => ?_
  have hmore : 16 - s.port.fifo.length < l.length := by
    by_contra hle
    exact hne (List.drop_eq_nil_of_le (by omega))
  simp only [List.length_append, List.length_take]
  omega

/-! ## PLAYOUT_ROUND -/

section
variable {s : State} {t : Tick} {ts : List Tick}

theorem exec_playoutRound_waits (hticks : s.ticks = t :: ts) (hwaiting : t.waiting ≠ []) : exec .playoutRound s = .next s := by
  show Host.Outcome.next (playoutRound s) = _
  simp only [playoutRound, hticks, if_neg hwaiting]

theorem exec_playoutRound_due (hticks : s.ticks = t :: ts) (hwaiting : t.waiting = []) : exec .playoutRound s =
    .next (t.offered.foldl State.placeRecord ({ s with ticks := ts }.takeOffers (offeredBy t.offered))) := by
  show Host.Outcome.next (playoutRound s) = _
  simp only [playoutRound, hticks, if_pos hwaiting]

/-- Neither the taking of offers nor the placing of records touches a context. -/
theorem State.takeOffers_dropSaturates (s : State) (p : Block → Bool) (port : Port) (i : StreamIdx) :
    ({ s.takeOffers p with port := port } : State).dropSaturates i = s.dropSaturates i := by
  have hstream : ({ s.takeOffers p with port := port } : State).stream i = s.stream i := State.takeOffers_stream s p i
  have hinForce : ({ s.takeOffers p with port := port } : State).inForce i = s.inForce i := State.takeOffers_inForce s p i
  rw [State.dropSaturates, State.dropSaturates, hstream, hinForce]

theorem playoutRound_gives (hticks : s.ticks = t :: ts) (hnodup : (t.offered.map PlayRecord.idx).Nodup)
    (hwaiting : t.waiting = []) : ∃ u, exec .playoutRound s = .next u ∧
      u.port = ⟨s.port.fifo ++ t.offered.take (16 - s.port.fifo.length), s.port.pos⟩ ∧ u.ticks = ts ∧ u.free = s.free ∧
      u.active = s.active ∧ u.tagMap = s.tagMap ∧
      (∀ i ∈ (t.offered.drop (16 - s.port.fifo.length)).map PlayRecord.idx, u.stream i = (s.stream i).portDropped) ∧
      (∀ i ∉ (t.offered.drop (16 - s.port.fifo.length)).map PlayRecord.idx, u.stream i = s.stream i) ∧
      u.offers = ({ s with ticks := ts }.takeOffers (offeredBy t.offered)).offers ++
        s.dropNotices (t.offered.drop (16 - s.port.fifo.length)) := by
  have hround := placeRecords_round t.offered hnodup ({ s with ticks := ts }.takeOffers (offeredBy t.offered))
  have hstream : ∀ i, ({ s with ticks := ts }.takeOffers (offeredBy t.offered)).stream i = s.stream i :=
    fun i => State.takeOffers_stream _ _ i
  rw [State.takeOffers_port] at hround
  refine ⟨_, exec_playoutRound_due hticks hwaiting, hround.port, hround.ticks.trans (State.takeOffers_ticks _ _),
    hround.free.trans (State.takeOffers_free _ _), hround.active.trans (State.takeOffers_active _ _),
    hround.tagMap.trans (State.takeOffers_tagMap _ _), fun i hi => ?_, fun i hi => ?_, ?_⟩
  · rw [← hstream i]
    exact hround.counted i hi
  · exact (hround.others i hi).trans (hstream i)
  · rw [hround.offers]
    refine congrArg (_ ++ List.map _ ·) (List.filter_congr fun r _ => ?_)
    exact State.takeOffers_dropSaturates { s with ticks := ts } _ _ r.idx

end

/-! ## A record's joining of its round -/

theorem takeTick_of_not_mem {i : StreamIdx} {t : Tick} (r : Option PlayRecord) (ts : List Tick) (h : i ∉ t.waiting) :
    takeTick i r (t :: ts) = t :: takeTick i r ts := if_neg h

theorem takeTick_of_mem {i : StreamIdx} {t : Tick} (r : PlayRecord) (ts : List Tick) (h : i ∈ t.waiting) :
    takeTick i (some r) (t :: ts) = ⟨t.waiting.filter fun j => !decide (j = i), insertRecord r t.offered⟩ :: ts := if_pos h

/-! ## WORD_TRANSFER -/

theorem Port.transfer_of_empty {p : Port} (h : p.fifo = []) : p.transfer = p := by
  simp only [Port.transfer, h]

theorem Port.transfer_of_more {p : Port} {r : PlayRecord} {rest : List PlayRecord} (h : p.fifo = r :: rest)
    (hmore : p.pos + 1 < r.words.length) : p.transfer = ⟨p.fifo, p.pos + 1⟩ := by
  simp only [Port.transfer, h, if_pos hmore]

theorem Port.transfer_of_last {p : Port} {r : PlayRecord} {rest : List PlayRecord} (h : p.fifo = r :: rest)
    (hlast : r.words.length ≤ p.pos + 1) : p.transfer = ⟨rest, 0⟩ := by
  simp only [Port.transfer, h, if_neg (Nat.not_lt.mpr hlast)]

theorem exec_wordTransfer {s : State} {p : Port} (h : s.port.transfer = p) :
    exec .wordTransfer s = .next { s with port := p } := by
  subst h
  rfl

/-- Settles O31: the round by the places it finds, a record's round, and the port's word. -/
theorem portRoundAndTransfer : Obligations.PortRoundAndTransfer := by
  refine ⟨fun s t ts hticks hnodup => ⟨exec_playoutRound_waits hticks, fun hwaiting => ?_⟩, fun i r t ts =>
    ⟨takeTick_of_not_mem _ ts, fun hi hnew hsorted => ?_⟩, fun s => ⟨fun hempty => ?_, fun r rest hfifo => ?_⟩⟩
  · exact playoutRound_gives hticks hnodup hwaiting
  · exact ⟨_, takeTick_of_mem r ts hi, rfl, insertRecord_perm r t.offered, insertRecord_sorted hsorted hnew⟩
  · refine ⟨?_, by simp [Port.valid, hempty], by simp [Port.word, hempty]⟩
    exact exec_wordTransfer (Port.transfer_of_empty hempty)
  · refine ⟨by simp [Port.valid, hfifo], by simp [Port.word, hfifo], by simp [Port.start, Port.valid, hfifo],
      fun hmore => exec_wordTransfer (Port.transfer_of_more hfifo hmore),
      fun hlast => exec_wordTransfer (Port.transfer_of_last hfifo hlast)⟩

end Sys2Proof.Machine

/-! # The Link Receivers: one byte, and the silence -/

namespace Sys2Proof.Machine

/-! ## One link of the state -/

section
variable (s : State) (x : Path) (l m : LinkRx)

@[simp] theorem State.setLink_link : (s.setLink x l).link x = l := by cases x <;> rfl

theorem State.setLink_link_ne {y : Path} (h : y ≠ x) : (s.setLink x l).link y = s.link y := by
  cases x <;> cases y <;> simp_all [State.link, State.setLink]

@[simp] theorem State.setLink_setLink : (s.setLink x l).setLink x m = s.setLink x m := by cases x <;> rfl

@[simp] theorem State.setLink_self : s.setLink x (s.link x) = s := by cases x <;> rfl

@[simp] theorem State.setLink_lookup (tag : Byte) : (s.setLink x l).lookup tag = s.lookup tag := by
  rw [State.lookup, State.lookup, State.setLink_tagMap]

end

/-! ## Counters and notices of a link -/

/-- A receiver whose counter k has advanced once. -/
def LinkRx.counted (l : LinkRx) (k : Fin 6) : LinkRx := { l with counters := l.counters.set k l.counters[k].bump }

theorem LinkRx.counted_same (l : LinkRx) (k : Fin 6) : (l.counted k).counters[k] = l.counters[k].bump := by
  simp [LinkRx.counted]

theorem LinkRx.counted_ne (l : LinkRx) {j k : Fin 6} (h : j ≠ k) : (l.counted k).counters[j] = l.counters[j] :=
  Vector.getElem_set_ne k.isLt j.isLt fun he => h (Fin.ext he.symm)

namespace LinkCtx
variable (c : LinkCtx)

/-- The notice that the next advance of counter k creates, if it creates one (07 R135). -/
def saturation (k : Fin 6) : List Notice :=
  if c.mask && c.l.counters[k].atBrink then [.counterSaturated (.link c.path) k.val] else []

/-- The LINK_STATE notice for the state st, under the mask (07 R134). -/
def stateNote (st : LinkState) : List Notice := if c.mask then [.linkState c.path st] else []

theorem note_eq (allowed : Bool) (n : Notice) :
    c.note allowed n = { c with notes := c.notes ++ if allowed then [n] else [] } := by
  cases allowed <;> simp [note]

theorem count_eq (k : Fin 6) : c.count k = { c with l := c.l.counted k, notes := c.notes ++ c.saturation k } := by
  rw [count, note_eq]
  rfl

theorem noteState_eq : c.noteState = { c with notes := c.notes ++ c.stateNote c.l.state } := note_eq c _ _

theorem saturation_of_counter_eq {c d : LinkCtx} {k : Fin 6} (hpath : d.path = c.path) (hmask : d.mask = c.mask)
    (hcounter : d.l.counters[k] = c.l.counters[k]) : d.saturation k = c.saturation k := by
  rw [saturation, saturation, hpath, hmask, hcounter]

/-- The next advance of a counter does not depend on an advance of another. -/
theorem count_saturation_ne {j k : Fin 6} (h : j ≠ k) : (c.count k).saturation j = c.saturation j := by
  rw [count_eq]
  exact saturation_of_counter_eq rfl rfl (c.l.counted_ne h)

theorem enterHunt_eq : c.enterHunt = { c with
    l := { c.l.counted lctrHuntEntries with state := .hunt, goodRun := 0 }
    notes := c.notes ++ c.saturation lctrHuntEntries ++ c.stateNote .hunt } := by
  rw [enterHunt, noteState_eq, count_eq]
  rfl

end LinkCtx

theorem linkCtx_saturation (s : State) (x : Path) (k : Fin 6) :
    ((s.linkCtx x).saturation k).map (Offer.own (.link x)) = s.linkSaturation x k := by
  have hcreates : ((s.linkCtx x).mask && (s.linkCtx x).l.counters[k].atBrink) = true ↔
      s.active.device.noticeMask.linkState = true ∧ (s.link x).counters[k].value = 0xFFFE :=
    Bool.and_eq_true_iff.trans (and_congr Iff.rfl decide_eq_true_iff)
  rw [LinkCtx.saturation, State.linkSaturation, ← if_congr hcreates rfl rfl, apply_ite (List.map _)]
  rfl

theorem linkCtx_stateNote (s : State) (x : Path) (st : LinkState) :
    ((s.linkCtx x).stateNote st).map (Offer.own (.link x)) = s.linkStateNotice x st := apply_ite (List.map _) _ _ _

/-! ## What a byte makes of a receiver (07 R123 to R128) -/

namespace LinkCtx
variable {c : LinkCtx}

/-- The receiver once a byte was taken: the silence timer is at 0, and p is the framing position reached. -/
def heardAt (c : LinkCtx) (p : LinkPos) : LinkCtx := { c with l := { c.l with silence := some 0, pos := p } }

theorem setPos_count (p : LinkPos) (k : Fin 6) : (c.count k).setPos p = (c.setPos p).count k := by
  rw [count_eq, count_eq]
  rfl

theorem setPos_bad (p : LinkPos) : c.bad.setPos p = (c.setPos p).bad := by
  cases hstate : c.l.state with
  | down => simp [bad, setPos, hstate]
  | hunt => simp [bad, setPos, hstate]
  | up =>
    by_cases hfourth : 4 ≤ c.l.badRun + 1 <;>
      simp [bad, setPos, hstate, hfourth, enterHunt_eq, LinkRx.counted, saturation, stateNote]

/-- R128: the byte is the first of a sync search that begins in HUNT. -/
theorem byte_of_down (h : c.l.state = .down) (b : Byte) :
    c.byte b = (c.heardAt (.seeking (decide (b = 0xB4)))).enterHunt := by
  simp [byte, h, heardAt, judge, setPos, seekByte, enterHunt_eq, LinkRx.counted, saturation, stateNote]

theorem byte_of_not_down (h : c.l.state ≠ .down) (b : Byte) : c.byte b = (c.heardAt c.l.pos).judge b := by
  cases hstate : c.l.state with
  | down => exact absurd hstate h
  | hunt => simp [byte, hstate, heardAt]
  | up => simp [byte, hstate, heardAt]

theorem byte_of_seeking (h : c.l.state ≠ .down) {b4 : Bool} (hpos : c.l.pos = .seeking b4) (b : Byte) :
    c.byte b = c.heardAt (seekByte b4 b) := by
  rw [byte_of_not_down h, hpos]
  rfl

section
variable {got : List Byte} {b : Byte} (h : c.l.state ≠ .down) (hpos : c.l.pos = .inFrame got)
include h hpos

theorem byte_of_inFrame : c.byte b = (c.heardAt c.l.pos).frameByte (got ++ [b]) := by
  rw [byte_of_not_down h, hpos]
  rfl

/-- R125: a byte that leaves the frame incomplete. -/
theorem byte_of_incomplete (hmore : (got ++ [b]).length < 4 ∨
      1 ≤ frameCount (got ++ [b]) ∧ frameCount (got ++ [b]) ≤ 16 ∧
        (got ++ [b]).length < frameLength (frameCount (got ++ [b]))) :
    c.byte b = c.heardAt (.inFrame (got ++ [b])) := by
  rw [byte_of_inFrame h hpos, frameByte]
  by_cases hshort : (got ++ [b]).length < 4
  · rw [if_pos hshort]
    rfl
  · obtain ⟨hlow, hhigh, hbefore⟩ := hmore.resolve_left hshort
    rw [if_neg hshort, if_neg (by omega), if_pos hbefore]
    rfl

/-- R125: the byte that gives a word count outside 1..16. -/
theorem byte_of_format_error (hlength : 4 ≤ (got ++ [b]).length)
    (hcount : frameCount (got ++ [b]) = 0 ∨ 16 < frameCount (got ++ [b])) :
    c.byte b = ((c.heardAt ((got ++ [b]).foldl reseek (.seeking false))).count lctrFormatErr).bad := by
  rw [byte_of_inFrame h hpos, frameByte, if_neg (Nat.not_lt.mpr hlength), if_pos hcount, formatError, setPos_bad, setPos_count]
  rfl

/-- R126: the last byte of a frame. -/
theorem byte_of_complete (hlength : 4 ≤ (got ++ [b]).length) (hcomplete : FrameComplete (got ++ [b])) : c.byte b =
    if frameCrcGood (got ++ [b]) then ((c.heardAt (.seeking false)).count lctrGood).good (got ++ [b])
    else ((c.heardAt (.seeking false)).count lctrCrcErr).bad := by
  obtain ⟨hlow, hhigh, hall⟩ := hcomplete
  rw [byte_of_inFrame h hpos, frameByte, if_neg (Nat.not_lt.mpr hlength), if_neg (by omega), if_neg (by omega)]
  rfl

end

end LinkCtx

/-! ## A receiver put back -/

namespace LinkCtx
variable (c : LinkCtx) (s : State)

theorem strayTag_cases : c.strayTag s = c ∨ c.strayTag s = c.count lctrStrayTag := by
  rw [strayTag]
  split
  · exact .inl rfl
  · exact (ite_eq_or_eq _ _ _).symm

@[simp] theorem strayTag_path : (c.strayTag s).path = c.path := by
  rcases c.strayTag_cases s with h | h <;> rw [h]
  rw [count_eq]

@[simp] theorem strayTag_leftUp : (c.strayTag s).leftUp = c.leftUp := by
  rcases c.strayTag_cases s with h | h <;> rw [h]
  rw [count_eq]

end LinkCtx

/-- State t is s after an event of link x that leaves the receiver `l`, offers `os`, delivers `ds`, and reports to all 32 contexts
where the link has left UP (07 R132 to R135). -/
structure State.LinkGives (s t : State) (x : Path) (l : LinkRx) (os : List Offer) (ds : List Delivery) (leftUp : Bool) :
    Prop where
  linkOnly : s.LinkOnly x t
  link : t.link x = l
  offers : t.offers = s.offers ++ os
  deliveries : t.deliveries = s.deliveries ++ ds
  reports : t.reports = s.reports ++ if leftUp then (List.finRange 32).map fun i => (x, i) else []

namespace State.LinkGives
variable {s t : State} {x : Path} {l : LinkRx} {os : List Offer} {ds : List Delivery} {leftUp : Bool}

theorem deliveries_same (h : s.LinkGives t x l os [] leftUp) : t.deliveries = s.deliveries :=
  h.deliveries.trans (List.append_nil _)

theorem reports_same (h : s.LinkGives t x l os ds false) : t.reports = s.reports := h.reports.trans (List.append_nil _)

end State.LinkGives

theorem putLink_gives (s : State) (c : LinkCtx) : s.LinkGives (s.putLink c) c.path (c.strayTag s).l
    ((c.strayTag s).notes.map (Offer.own (.link c.path))) ((c.strayTag s).delivered s) c.leftUp := by
  have hsame := s.setLink_link c.path (c.strayTag s).l
  have hother := fun y => s.setLink_link_ne c.path (c.strayTag s).l (y := y)
  rw [← c.strayTag_path s] at hsame hother ⊢
  rw [← c.strayTag_leftUp s]
  exact ⟨⟨hother, by simp [State.putLink]⟩, hsame, rfl, rfl, rfl⟩

section
variable {s : State} {c : LinkCtx}

theorem putLink_gives_of_undelivered (h : c.deliver = none) :
    s.LinkGives (s.putLink c) c.path c.l (c.notes.map (Offer.own (.link c.path))) [] c.leftUp := by
  have hstray : c.strayTag s = c := by rw [LinkCtx.strayTag, h]
  have hdelivered : c.delivered s = [] := by rw [LinkCtx.delivered, h]
  have hgives := putLink_gives s c
  rwa [hstray, hdelivered] at hgives

variable {tag : Byte} {f : Frame} (h : c.deliver = some (tag, f))
include h

/-- R132: a mapped tag. -/
theorem putLink_gives_of_mapped {i : StreamIdx} (hmapped : s.lookup tag = some i) :
    s.LinkGives (s.putLink c) c.path c.l (c.notes.map (Offer.own (.link c.path))) [⟨c.path, i, f⟩] c.leftUp := by
  have hstray : c.strayTag s = c := by simp [LinkCtx.strayTag, h, hmapped]
  have hdelivered : c.delivered s = [⟨c.path, i, f⟩] := by simp [LinkCtx.delivered, h, hmapped]
  have hgives := putLink_gives s c
  rwa [hstray, hdelivered] at hgives

/-- R132: a tag that no stream has. -/
theorem putLink_gives_of_stray (hstray : s.lookup tag = none) {ns : List Notice} (hns : c.saturation lctrStrayTag = ns) :
    s.LinkGives (s.putLink c) c.path (c.l.counted lctrStrayTag) ((c.notes ++ ns).map (Offer.own (.link c.path))) []
      c.leftUp := by
  have hcount : c.strayTag s = c.count lctrStrayTag := by simp [LinkCtx.strayTag, h, hstray]
  have hdelivered : (c.count lctrStrayTag).delivered s = [] := by
    simp [LinkCtx.delivered, LinkCtx.count_eq, h, hstray]
  have hgives := putLink_gives s c
  rwa [hcount, hdelivered, LinkCtx.count_eq, hns] at hgives

end

/-! ## A byte in DOWN, a byte while SEEKING, and the silence (07 R124, R128, R131) -/

theorem exec_linkByte (x : Path) (b : Byte) (s : State) : exec (.linkByte x b) s = .next (linkByte x b s) := rfl

theorem linkByte_of_heardAt {s : State} {x : Path} {b : Byte} {p : LinkPos}
    (h : (s.linkCtx x).byte b = (s.linkCtx x).heardAt p) :
    linkByte x b s = s.setLink x { s.link x with silence := some 0, pos := p } := by
  rw [linkByte, h]
  cases x <;> simp [State.putLink, LinkCtx.strayTag, LinkCtx.delivered, LinkCtx.heardAt, State.linkCtx, State.setLink, State.link]

theorem linkByte_of_down {s : State} {x : Path} (h : (s.link x).state = .down) (b : Byte) : s.LinkGives (linkByte x b s) x
    { (s.link x).counted lctrHuntEntries with
      state := .hunt, silence := some 0, pos := .seeking (decide (b = 0xB4)), goodRun := 0 }
    (s.linkSaturation x lctrHuntEntries ++ s.linkStateNotice x .hunt) [] false := by
  rw [linkByte, LinkCtx.byte_of_down (c := s.linkCtx x) h, LinkCtx.enterHunt_eq, ← linkCtx_saturation, ← linkCtx_stateNote,
    ← List.map_append]
  exact putLink_gives_of_undelivered rfl

theorem LinkCtx.silent_of_not_down {c : LinkCtx} (h : c.l.state ≠ .down) : c.silent = { c with
    l := { c.l.counted lctrDownEntries with state := .down, silence := none, pos := .seeking false, goodRun := 0, badRun := 0 }
    notes := c.notes ++ c.saturation lctrDownEntries ++ c.stateNote .down
    leftUp := decide (c.l.state = .up) } := by
  cases hstate : c.l.state with
  | down => exact absurd hstate h
  | hunt | up =>
    simp only [silent, hstate, noteState_eq, count_eq]
    rfl

theorem linkSilent_of_not_down {s : State} {x : Path} (h : (s.link x).state ≠ .down) : s.LinkGives (s.linkSilent x) x
    { (s.link x).counted lctrDownEntries with
      state := .down, silence := none, pos := .seeking false, goodRun := 0, badRun := 0 }
    (s.linkSaturation x lctrDownEntries ++ s.linkStateNotice x .down) [] (decide ((s.link x).state = .up)) := by
  rw [State.linkSilent, LinkCtx.silent_of_not_down (c := s.linkCtx x) h, ← linkCtx_saturation, ← linkCtx_stateNote,
    ← List.map_append]
  exact putLink_gives_of_undelivered rfl

theorem exec_linkSilence_end {s : State} {x : Path} (h : (s.link x).silence = some 1000) :
    exec (.linkSilence x) s = .next (s.linkSilent x) := by
  have hreached : reached Config.silenceLimit (s.link x).silence = true := by simp [reached, h, Config.silenceLimit]
  show Host.Outcome.next (s.atEnd _ _) = _
  rw [leftTo_of_end (limit := Config.silenceLimit) h, State.atEnd, State.pass_zero, State.silenceDue, if_pos hreached]

/-- Settles O35: DOWN, SEEKING and the silence, each by what the event makes of the receiver. -/
theorem linkStatesAndSearch : Obligations.LinkStatesAndSearch := by
  refine ⟨fun s x b hdown => ?_, fun s x b b4 hstate hpos => ?_, fun s x hstate hsilence => ?_⟩
  · have hgives := linkByte_of_down hdown b
    exact ⟨_, exec_linkByte x b s, hgives.linkOnly, hgives.deliveries_same, hgives.reports_same, hgives.link,
      hgives.offers.trans (List.append_assoc _ _ _).symm⟩
  · rw [exec_linkByte, linkByte_of_heardAt (LinkCtx.byte_of_seeking (c := s.linkCtx x) hstate hpos b)]
    rfl
  · have hgives := linkSilent_of_not_down hstate
    have hreports := hgives.reports
    simp only [decide_eq_true_eq] at hreports
    exact ⟨_, exec_linkSilence_end hsilence, hgives.linkOnly, hgives.deliveries_same, hgives.link, hreports,
      hgives.offers.trans (List.append_assoc _ _ _).symm⟩

/-! ## Bad frames (07 R125, R126, R129, R130) -/

namespace LinkCtx
variable {c : LinkCtx}

theorem bad_of_hunt (h : c.l.state = .hunt) : c.bad = { c with l := { c.l with goodRun := 0 } } := by
  simp only [bad, h]

theorem bad_below_limit (h : c.l.state = .up) (hrun : c.l.badRun < 3) :
    c.bad = { c with l := { c.l with badRun := c.l.badRun + 1 } } := by
  simp only [bad, h, if_neg (show ¬4 ≤ c.l.badRun + 1 by omega)]

/-- R130: the fourth bad frame in a row. -/
theorem bad_at_limit (h : c.l.state = .up) (hrun : 3 ≤ c.l.badRun) : c.bad = { c with
    l := { c.l.counted lctrHuntEntries with state := .hunt, goodRun := 0, badRun := c.l.badRun + 1 }
    notes := c.notes ++ c.saturation lctrHuntEntries ++ c.stateNote .hunt
    leftUp := true } := by
  simp only [bad, h, if_pos (show 4 ≤ c.l.badRun + 1 by omega), enterHunt_eq]
  rfl

end LinkCtx

/-- State t is s after link x, not in DOWN, has taken the last byte of a bad frame: counter k has advanced, p is the framing
position reached, and the runs, the state, the report and the notices are as R129, R130, R133, R134 and R135 say. -/
structure State.TakesBadFrame (s t : State) (x : Path) (k : Fin 6) (p : LinkPos) : Prop where
  linkOnly : s.LinkOnly x t
  deliveries : t.deliveries = s.deliveries
  silence : (t.link x).silence = some 0
  pos : (t.link x).pos = p
  counted : (t.link x).counters[k] = (s.link x).counters[k].bump
  offers : t.offers = s.offers ++ s.linkSaturation x k ++ (if (s.link x).state = .up ∧ 3 ≤ (s.link x).badRun
    then s.linkSaturation x lctrHuntEntries ++ s.linkStateNotice x .hunt else [])
  hunt : (s.link x).state = .hunt → (t.link x).state = .hunt ∧ (t.link x).goodRun = 0 ∧ t.reports = s.reports
  belowLimit : (s.link x).state = .up → (s.link x).badRun < 3 →
    (t.link x).state = .up ∧ (t.link x).badRun = (s.link x).badRun + 1 ∧ t.reports = s.reports
  atLimit : (s.link x).state = .up → 3 ≤ (s.link x).badRun → (t.link x).state = .hunt ∧ (t.link x).goodRun = 0 ∧
    (t.link x).counters[lctrHuntEntries] = (s.link x).counters[lctrHuntEntries].bump ∧
    t.reports = s.reports ++ (List.finRange 32).map fun i => (x, i)

section
variable {s : State} {x : Path} {b : Byte} {k : Fin 6} {p : LinkPos}
  (hbyte : (s.linkCtx x).byte b = (((s.linkCtx x).heardAt p).count k).bad)
include hbyte

theorem linkByte_bad_of_hunt (h : (s.link x).state = .hunt) : s.LinkGives (linkByte x b s) x
    { (s.link x).counted k with silence := some 0, pos := p, goodRun := 0 } (s.linkSaturation x k) [] false := by
  rw [linkByte, hbyte, LinkCtx.count_eq, LinkCtx.bad_of_hunt h, ← linkCtx_saturation]
  exact putLink_gives_of_undelivered rfl

theorem linkByte_bad_below_limit (h : (s.link x).state = .up) (hrun : (s.link x).badRun < 3) :
    s.LinkGives (linkByte x b s) x
      { (s.link x).counted k with silence := some 0, pos := p, badRun := (s.link x).badRun + 1 }
      (s.linkSaturation x k) [] false := by
  rw [linkByte, hbyte, LinkCtx.count_eq, LinkCtx.bad_below_limit h hrun, ← linkCtx_saturation]
  exact putLink_gives_of_undelivered rfl

theorem linkByte_bad_at_limit (hk : lctrHuntEntries ≠ k) (h : (s.link x).state = .up) (hrun : 3 ≤ (s.link x).badRun) :
    s.LinkGives (linkByte x b s) x
      { ((s.link x).counted k).counted lctrHuntEntries with
        state := .hunt, silence := some 0, pos := p, goodRun := 0, badRun := (s.link x).badRun + 1 }
      (s.linkSaturation x k ++ (s.linkSaturation x lctrHuntEntries ++ s.linkStateNotice x .hunt)) [] true := by
  have hsaturation := LinkCtx.count_saturation_ne ((s.linkCtx x).heardAt p) hk
  rw [LinkCtx.count_eq] at hsaturation
  rw [linkByte, hbyte, LinkCtx.count_eq, LinkCtx.bad_at_limit h hrun, hsaturation, ← linkCtx_saturation, ← linkCtx_saturation,
    ← linkCtx_stateNote, ← List.map_append, ← List.map_append, List.append_assoc]
  exact putLink_gives_of_undelivered rfl

theorem linkByte_takesBadFrame (hk : lctrHuntEntries ≠ k) (hstate : (s.link x).state ≠ .down) :
    s.TakesBadFrame (linkByte x b s) x k p := by
  cases h : (s.link x).state with
  | down => exact absurd h hstate
  | hunt =>
    have hgives := linkByte_bad_of_hunt hbyte h
    have hlink := hgives.link
    have hup : (s.link x).state ≠ .up := fun hup => nomatch h.symm.trans hup
    refine ⟨hgives.linkOnly, hgives.deliveries_same, by rw [hlink], by rw [hlink], ?_, ?_,
      fun _ => ⟨by rw [hlink]; exact h, by rw [hlink], hgives.reports_same⟩,
      fun h' => absurd h' hup, fun h' => absurd h' hup⟩
    · rw [hlink]; exact LinkRx.counted_same _ _
    · rw [hgives.offers, if_neg fun h' => hup h'.1, List.append_nil]
  | up =>
    have hhunt : (s.link x).state ≠ .hunt := fun hhunt => nomatch h.symm.trans hhunt
    rcases Nat.lt_or_ge (s.link x).badRun 3 with hrun | hrun
    · have hgives := linkByte_bad_below_limit hbyte h hrun
      have hlink := hgives.link
      refine ⟨hgives.linkOnly, hgives.deliveries_same, by rw [hlink], by rw [hlink], ?_, ?_, fun h' => absurd h' hhunt,
        fun _ _ => ⟨by rw [hlink]; exact h, by rw [hlink], hgives.reports_same⟩, fun _ h' => by omega⟩
      · rw [hlink]; exact LinkRx.counted_same _ _
      · rw [hgives.offers, if_neg fun h' => Nat.not_le.mpr hrun h'.2, List.append_nil]
    · have hgives := linkByte_bad_at_limit hbyte hk h hrun
      have hlink := hgives.link
      refine ⟨hgives.linkOnly, hgives.deliveries_same, by rw [hlink], by rw [hlink], ?_, ?_, fun h' => absurd h' hhunt,
        fun _ h' => by omega, fun _ _ => ⟨by rw [hlink], by rw [hlink], ?_, hgives.reports⟩⟩
      · rw [hlink]; exact (LinkRx.counted_ne _ hk.symm).trans (LinkRx.counted_same _ _)
      · rw [hgives.offers, if_pos ⟨h, hrun⟩, List.append_assoc]
      · rw [hlink]; exact (LinkRx.counted_same _ _).trans (congrArg Counter.bump (LinkRx.counted_ne _ hk))

end

/-- Settles O37: a CRC error and a format error are one bad frame each, by their counters and the positions they leave. -/
theorem badFrameTaken : Obligations.BadFrameTaken := by
  refine ⟨fun s x b got all hpos hall hlength hcomplete hcrc hstate => ?_, fun s x b b0 b1 b2 hstate hpos hcount => ?_⟩
  · subst hall
    have hbyte := LinkCtx.byte_of_complete (c := s.linkCtx x) hstate hpos hlength hcomplete
    rw [hcrc] at hbyte
    have htakes := linkByte_takesBadFrame hbyte (by decide) hstate
    exact ⟨_, exec_linkByte x b s, htakes.linkOnly, htakes.deliveries, htakes.silence, htakes.pos, htakes.counted,
      htakes.offers, htakes.hunt, htakes.belowLimit, htakes.atLimit⟩
  · have hbyte := LinkCtx.byte_of_format_error (c := s.linkCtx x) hstate hpos (b := b) (Nat.le_refl 4)
      hcount
    have htakes := linkByte_takesBadFrame hbyte (by decide) hstate
    exact ⟨_, exec_linkByte x b s, htakes.linkOnly, htakes.deliveries, htakes.silence, htakes.counted,
      htakes.offers, htakes.pos, htakes.hunt, htakes.belowLimit, htakes.atLimit⟩

/-! ## Good frames (07 R126, R129, R132) -/

/-- The receiver after a good frame that it delivers: it is in UP, and from HUNT the good run has counted the frame too. -/
def LinkRx.delivered (l : LinkRx) : LinkRx :=
  { l with state := .up, goodRun := if l.state = .hunt then l.goodRun + 1 else l.goodRun, badRun := 0 }

/-- The notice of a good frame that takes a link in HUNT to UP (07 R134). -/
def LinkCtx.upNote (c : LinkCtx) : List Notice :=
  if c.l.state = .hunt ∧ 1 ≤ c.l.goodRun then c.stateNote .up else []

theorem linkCtx_upNote (s : State) (x : Path) : (s.linkCtx x).upNote.map (Offer.own (.link x)) =
    if (s.link x).state = .hunt ∧ 1 ≤ (s.link x).goodRun then s.linkStateNotice x .up else [] := by
  rw [LinkCtx.upNote, apply_ite (List.map _), linkCtx_stateNote]
  rfl

namespace LinkCtx
variable {c : LinkCtx} (got : List Byte)

theorem good_of_first (h : c.l.state = .hunt) (hrun : c.l.goodRun = 0) :
    c.good got = { c with l := { c.l with goodRun := 1 } } := by
  simp only [good, h, hrun]
  rfl

/-- R129: a good frame in UP, or the second in a row in HUNT, which takes the link to UP. -/
theorem good_of_delivers (hstate : c.l.state ≠ .down) (hdelivers : c.l.state = .up ∨ 1 ≤ c.l.goodRun) :
    c.good got = { c with
      l := c.l.delivered
      notes := c.notes ++ c.upNote
      deliver := some (frameTag got, frameItems got) } := by
  cases h : c.l.state with
  | down => exact absurd h hstate
  | up => simp [good, LinkRx.delivered, upNote, h]
  | hunt =>
    have hsecond : 1 ≤ c.l.goodRun := hdelivers.resolve_left fun hup => nomatch h.symm.trans hup
    simp [good, LinkRx.delivered, upNote, h, hsecond, noteState_eq, stateNote]

end LinkCtx

section
variable {s : State} {x : Path} {b : Byte} {all : List Byte}
  (hbyte : (s.linkCtx x).byte b = (((s.linkCtx x).heardAt (.seeking false)).count lctrGood).good all)
include hbyte

theorem linkByte_good_of_first (h : (s.link x).state = .hunt) (hrun : (s.link x).goodRun = 0) : s.LinkGives (linkByte x b s) x
    { (s.link x).counted lctrGood with silence := some 0, pos := .seeking false, goodRun := 1 }
    (s.linkSaturation x lctrGood) [] false := by
  rw [linkByte, hbyte, LinkCtx.count_eq, LinkCtx.good_of_first all h hrun, ← linkCtx_saturation]
  exact putLink_gives_of_undelivered rfl

section
variable (hstate : (s.link x).state ≠ .down) (hdelivers : (s.link x).state = .up ∨ 1 ≤ (s.link x).goodRun)
include hstate hdelivers

theorem linkByte_good_of_mapped {i : StreamIdx} (hmapped : s.lookup (frameTag all) = some i) :
    s.LinkGives (linkByte x b s) x
      { ((s.link x).counted lctrGood).delivered with silence := some 0, pos := .seeking false }
      (((s.linkCtx x).saturation lctrGood ++ (s.linkCtx x).upNote).map (Offer.own (.link x)))
      [⟨x, i, frameItems all⟩] false := by
  rw [linkByte, hbyte, LinkCtx.count_eq, LinkCtx.good_of_delivers all hstate hdelivers]
  exact putLink_gives_of_mapped rfl hmapped

theorem linkByte_good_of_stray (hstray : s.lookup (frameTag all) = none) :
    s.LinkGives (linkByte x b s) x
      { ((s.link x).counted lctrGood).delivered.counted lctrStrayTag with silence := some 0, pos := .seeking false }
      (((s.linkCtx x).saturation lctrGood ++ (s.linkCtx x).upNote ++ (s.linkCtx x).saturation lctrStrayTag).map
        (Offer.own (.link x))) [] false := by
  rw [linkByte, hbyte, LinkCtx.count_eq, LinkCtx.good_of_delivers all hstate hdelivers]
  exact putLink_gives_of_stray rfl hstray (LinkCtx.saturation_of_counter_eq rfl rfl (LinkRx.counted_ne _ (by decide)))

end
end

/-- Settles O36: the first good frame in HUNT, and a frame delivered, by the Tag Map's answer to its tag. -/
theorem goodFrameTaken : Obligations.GoodFrameTaken := by
  intro s x b got all hstate hpos hall hlength hcomplete hcrc
  subst hall
  have hbyte := LinkCtx.byte_of_complete (c := s.linkCtx x) hstate hpos hlength hcomplete
  rw [if_pos hcrc] at hbyte
  refine ⟨_, exec_linkByte x b s, ?_⟩
  rw [← linkCtx_upNote, ← linkCtx_saturation, ← linkCtx_saturation]
  by_cases hdelivers : (s.link x).state = .up ∨ 1 ≤ (s.link x).goodRun
  · have hnotFirst : (s.link x).state = .hunt → (s.link x).goodRun ≠ 0 := fun hhunt hrun =>
      hdelivers.elim (fun hup => nomatch hhunt.symm.trans hup) (by omega)
    cases hlookup : s.lookup (frameTag (got ++ [b])) with
    | some i =>
      have hgives := linkByte_good_of_mapped hbyte hstate hdelivers hlookup
      have hlink := hgives.link
      refine ⟨hgives.linkOnly, hgives.reports_same, by rw [hlink], by rw [hlink], ?_, ?_,
        fun hhunt hrun => absurd hrun (hnotFirst hhunt), fun _ => ⟨by rw [hlink]; rfl, by rw [hlink]; rfl, ?_, nofun⟩⟩
      · rw [hlink]; exact LinkRx.counted_same _ _
      · rw [hgives.offers, List.map_append, if_neg (by simp), List.append_nil, List.append_assoc]
      · rintro _ ⟨⟩
        refine ⟨hgives.deliveries, ?_⟩
        rw [hlink]; exact LinkRx.counted_ne _ (by decide)
    | none =>
      have hgives := linkByte_good_of_stray hbyte hstate hdelivers hlookup
      have hlink := hgives.link
      refine ⟨hgives.linkOnly, hgives.reports_same, by rw [hlink], by rw [hlink], ?_, ?_,
        fun hhunt hrun => absurd hrun (hnotFirst hhunt),
        fun _ => ⟨by rw [hlink]; rfl, by rw [hlink]; rfl, nofun, fun _ => ⟨hgives.deliveries_same, ?_⟩⟩⟩
      · rw [hlink]; exact (LinkRx.counted_ne _ (by decide)).trans (LinkRx.counted_same _ _)
      · rw [hgives.offers, List.map_append, List.map_append, if_pos ⟨hdelivers, rfl⟩, List.append_assoc, List.append_assoc,
          List.append_assoc]
      · rw [hlink]
        exact (LinkRx.counted_same _ _).trans (congrArg Counter.bump (LinkRx.counted_ne _ (by decide)))
  · obtain ⟨hup, hrun⟩ := not_or.mp hdelivers
    have hhunt : (s.link x).state = .hunt := by cases h : (s.link x).state <;> simp_all
    have hgives := linkByte_good_of_first hbyte hhunt (by omega)
    have hlink := hgives.link
    have hupNote : (s.linkCtx x).upNote = [] := if_neg fun h => hrun h.2
    refine ⟨hgives.linkOnly, hgives.reports_same, by rw [hlink], by rw [hlink], ?_, ?_,
      fun _ _ => ⟨by rw [hlink]; exact hhunt, by rw [hlink], hgives.deliveries_same⟩, fun h => absurd h hdelivers⟩
    · rw [hlink]; exact LinkRx.counted_same _ _
    · rw [hgives.offers, hupNote, if_neg fun h => hdelivers h.1, linkCtx_saturation, List.map_nil, List.append_nil,
        List.append_nil]

end Sys2Proof.Machine

/-! # A link frame from its bytes -/

namespace Sys2Proof.Machine

/-! ## The layout of a link frame (11 R187 to R189) -/

theorem word16_bytes (w : Word) : word16 (hiByte w) (loByte w) = w := by
  have hhi : (hiByte w).toNat = w.toNat / 256 := by
    rw [hiByte, BitVec.extractLsb'_toNat, Nat.shiftRight_eq_div_pow]
    have := w.isLt
    omega
  have hlo : (loByte w).toNat = w.toNat % 256 := by simp [loByte, BitVec.extractLsb'_toNat]
  exact BitVec.eq_of_toNat_eq (by rw [toNat_word16, hhi, hlo]; omega)

theorem wordsOfBytes_flatMap (ws : List Word) : wordsOfBytes (ws.flatMap bytes16) = ws := by
  induction ws with
  | nil => rfl
  | cons w ws ih =>
    show word16 (hiByte w) (loByte w) :: wordsOfBytes (ws.flatMap bytes16) = _
    rw [word16_bytes, ih]

theorem length_flatMap_bytes16 (ws : List Word) : (ws.flatMap bytes16).length = 2 * ws.length := by
  rw [List.length_flatMap]
  simp [length_bytes16, Nat.mul_comm]

/-- The sequence word of a frame, with its two ignored bits (11 R189). -/
def seqWord (hi : BitVec 2) (f : Frame) : Word := hi ++ (BitVec.ofBool f.restart ++ (BitVec.ofBool f.q ++ f.seq))

theorem seqWord_getLsbD (hi : BitVec 2) (f : Frame) (n : Nat) : (seqWord hi f).getLsbD n =
    if n < 14 then if n < 13 then if n < 12 then f.seq.getLsbD n else (BitVec.ofBool f.q).getLsbD (n - 12)
      else (BitVec.ofBool f.restart).getLsbD (n - 13) else hi.getLsbD (n - 14) := by
  refine BitVec.getLsbD_append.trans (if_congr Iff.rfl ?_ rfl)
  exact BitVec.getLsbD_append.trans (if_congr Iff.rfl BitVec.getLsbD_append rfl)

/-- The items stand in the sequence word whatever the two ignored bits are. -/
theorem seqWord_fields (hi : BitVec 2) (f : Frame) : (seqWord hi f).extractLsb' 0 12 = f.seq ∧
    (seqWord hi f).getLsbD 12 = f.q ∧ (seqWord hi f).getLsbD 13 = f.restart := by
  refine ⟨BitVec.eq_of_getLsbD_eq fun n hn => ?_, ?_, ?_⟩
  · rw [BitVec.getLsbD_extractLsb', Nat.zero_add, seqWord_getLsbD, if_pos (by omega), if_pos (by omega), if_pos hn,
      decide_eq_true hn, Bool.true_and]
  · rw [seqWord_getLsbD]; simp
  · rw [seqWord_getLsbD]; simp

/-- The bytes of a link frame that its CRC covers (11 R188). -/
def linkFrameCovered (tag : Byte) (hi : BitVec 2) (f : Frame) : List Byte :=
  tag :: hiByte (seqWord hi f) :: loByte (seqWord hi f) :: nat8 f.words.length :: f.words.flatMap bytes16

theorem linkFrameBytes_eq (tag : Byte) (hi : BitVec 2) (f : Frame) : linkFrameBytes tag hi f =
    0xB4 :: 0x6E :: (linkFrameCovered tag hi f ++ bytes16 (crc16 (linkFrameCovered tag hi f))) := rfl

theorem length_linkFrameCovered (tag : Byte) (hi : BitVec 2) (f : Frame) :
    (linkFrameCovered tag hi f).length = 4 + 2 * f.words.length := by
  simp only [linkFrameCovered, List.length_cons, length_flatMap_bytes16]
  omega

section
variable (tag : Byte) (hi : BitVec 2) (f : Frame) (crc : List Byte) (hhigh : f.words.length ≤ 16)
include hhigh

theorem frameCount_linkFrameCovered : frameCount (linkFrameCovered tag hi f ++ crc) = f.words.length := by
  show (nat8 f.words.length).toNat = _
  rw [nat8, BitVec.toNat_ofNat]
  omega

theorem linkFrame_complete (hlow : 1 ≤ f.words.length) (w : Word) : FrameComplete (linkFrameCovered tag hi f ++ bytes16 w) := by
  rw [FrameComplete, frameCount_linkFrameCovered tag hi f _ hhigh, List.length_append, length_linkFrameCovered, length_bytes16,
    frameLength]
  exact ⟨hlow, hhigh, rfl⟩

theorem linkFrame_crcGood :
    frameCrcGood (linkFrameCovered tag hi f ++ bytes16 (crc16 (linkFrameCovered tag hi f))) = true := by
  rw [frameCrcGood, frameCount_linkFrameCovered tag hi f _ hhigh, ← length_linkFrameCovered tag hi f, List.take_left]
  have hcrc : ∀ l : List Byte, ∀ w, wordAt (l ++ bytes16 w) l.length = w := fun l w => by
    simp [wordAt, byteAt, bytes16, word16_bytes]
  rw [hcrc, decide_eq_true rfl]

theorem linkFrame_items : frameItems (linkFrameCovered tag hi f ++ crc) = f := by
  obtain ⟨hseq, hq, hrestart⟩ := seqWord_fields hi f
  have hword : wordAt (linkFrameCovered tag hi f ++ crc) 1 = seqWord hi f := word16_bytes _
  have hdrop : (linkFrameCovered tag hi f ++ crc).drop 4 = f.words.flatMap bytes16 ++ crc := rfl
  rw [frameItems, hword, hseq, hq, hrestart, hdrop, frameCount_linkFrameCovered tag hi f _ hhigh,
    ← length_flatMap_bytes16, List.take_left, wordsOfBytes_flatMap]

end

/-! ## The bytes of a frame taken one by one -/

/-- A frame of which bytes are still to come is incomplete (07 R125). -/
theorem frameIncomplete_of_complete_append {got rest : List Byte} (h : FrameComplete (got ++ rest)) (hrest : rest ≠ []) :
    got.length < 4 ∨ 1 ≤ frameCount got ∧ frameCount got ≤ 16 ∧ got.length < frameLength (frameCount got) := by
  refine (Nat.lt_or_ge got.length 4).imp_right fun hlength => ?_
  have hcount : frameCount (got ++ rest) = frameCount got := by
    rw [frameCount, frameCount, byteAt, byteAt, List.getD_append _ _ _ _ hlength]
  have hmore : 0 < rest.length := List.length_pos_of_ne_nil hrest
  obtain ⟨hlow, hhigh, hall⟩ := h
  rw [hcount] at hlow hhigh hall
  rw [List.length_append] at hall
  exact ⟨hlow, hhigh, by omega⟩

theorem takeLinkBytes_append (x : Path) (bs cs : List Byte) (s : State) :
    takeLinkBytes x (bs ++ cs) s = takeLinkBytes x cs (takeLinkBytes x bs s) := List.foldl_append

/-- Bytes that do not complete a frame are kept within it. -/
theorem takeLinkBytes_of_incomplete {x : Path} {tail : List Byte} (htail : tail ≠ []) (bs : List Byte) {s : State}
    {got : List Byte} (hstate : (s.link x).state ≠ .down) (hsilence : (s.link x).silence = some 0)
    (hpos : (s.link x).pos = .inFrame got) (hcomplete : FrameComplete (got ++ (bs ++ tail))) :
    takeLinkBytes x bs s = s.setLink x { s.link x with pos := .inFrame (got ++ bs) } := by
  induction bs generalizing s got with
  | nil =>
    rw [List.append_nil, ← hpos]
    exact (s.setLink_self x).symm
  | cons b bs ih =>
    rw [List.cons_append, List.append_cons] at hcomplete
    have hmore := frameIncomplete_of_complete_append hcomplete (by simp [htail])
    have hstep := linkByte_of_heardAt (LinkCtx.byte_of_incomplete (c := s.linkCtx x) hstate hpos hmore)
    rw [← hsilence] at hstep
    show takeLinkBytes x bs (linkByte x b s) = _
    rw [hstep, ih (by rwa [State.setLink_link]) (by rwa [State.setLink_link]) (by rw [State.setLink_link]) hcomplete]
    simp

/-- The sync pattern takes a link that is SEEKING into a frame (07 R124). -/
theorem takeLinkBytes_sync {s : State} {x : Path} {b4 : Bool} (hstate : (s.link x).state ≠ .down)
    (hpos : (s.link x).pos = .seeking b4) :
    takeLinkBytes x [0xB4, 0x6E] s = s.setLink x { s.link x with silence := some 0, pos := .inFrame [] } := by
  have hB4 : linkByte x 0xB4 s = s.setLink x { s.link x with silence := some 0, pos := .seeking true } := by
    rw [linkByte_of_heardAt (LinkCtx.byte_of_seeking (c := s.linkCtx x) hstate hpos 0xB4)]
    simp [seekByte]
  show linkByte x 0x6E (linkByte x 0xB4 s) = _
  rw [hB4, linkByte_of_heardAt (LinkCtx.byte_of_seeking (b4 := true) (by simpa [State.linkCtx] using hstate)
    (by simp [State.linkCtx]) 0x6E)]
  simp [seekByte]

/-- All bytes of a link frame but its last. -/
theorem takeLinkBytes_butLast {s : State} {x : Path} {b4 : Bool} (hstate : (s.link x).state ≠ .down)
    (hpos : (s.link x).pos = .seeking b4) {bs : List Byte} {b : Byte} (hcomplete : FrameComplete (bs ++ [b])) :
    takeLinkBytes x (0xB4 :: 0x6E :: bs) s = s.setLink x { s.link x with silence := some 0, pos := .inFrame bs } := by
  rw [show (0xB4 :: 0x6E :: bs) = [0xB4, 0x6E] ++ bs from rfl, takeLinkBytes_append, takeLinkBytes_sync hstate hpos,
    takeLinkBytes_of_incomplete (List.cons_ne_nil b []) bs (by rwa [State.setLink_link]) (by rw [State.setLink_link])
      (by rw [State.setLink_link]) hcomplete]
  simp

/-- R132: a frame whose CRC matches, taken from its sync pattern in UP, is delivered to the stream its tag names. -/
theorem takeLinkBytes_of_good_frame {s : State} {x : Path} {b4 : Bool} (hup : (s.link x).state = .up)
    (hpos : (s.link x).pos = .seeking b4) {all : List Byte} (hcomplete : FrameComplete all) (hcrc : frameCrcGood all = true)
    {i : StreamIdx} (hmapped : s.lookup (frameTag all) = some i) :
    (takeLinkBytes x (0xB4 :: 0x6E :: all) s).deliveries = s.deliveries ++ [⟨x, i, frameItems all⟩] ∧
    (takeLinkBytes x (0xB4 :: 0x6E :: all) s).link x =
      { ((s.link x).counted lctrGood).delivered with silence := some 0, pos := .seeking false } := by
  have hnotDown : (s.link x).state ≠ .down := fun h => nomatch hup.symm.trans h
  obtain ⟨hlow, hhigh, hlength⟩ := hcomplete
  have hall : 4 ≤ all.length := by rw [hlength, frameLength]; omega
  obtain ⟨bs, b, rfl⟩ : ∃ bs b, all = bs ++ [b] :=
    ⟨_, _, (List.dropLast_append_getLast (List.ne_nil_of_length_pos (by omega))).symm⟩
  have htaken := takeLinkBytes_butLast hnotDown hpos ⟨hlow, hhigh, hlength⟩
  rw [← List.cons_append, ← List.cons_append, takeLinkBytes_append, htaken]
  generalize hs : s.setLink x { s.link x with silence := some 0, pos := .inFrame bs } = s1
  have hlink : s1.link x = { s.link x with silence := some 0, pos := .inFrame bs } := by rw [← hs, State.setLink_link]
  have hbyte := LinkCtx.byte_of_complete (c := s1.linkCtx x) (b := b) (by rwa [State.linkCtx, hlink])
    (by rw [State.linkCtx, hlink]) hall ⟨hlow, hhigh, hlength⟩
  rw [if_pos hcrc] at hbyte
  have hgives := linkByte_good_of_mapped hbyte (by rwa [hlink]) (.inl (by rwa [hlink])) (i := i)
    (by rwa [← hs, State.setLink_lookup])
  refine ⟨hgives.deliveries.trans ?_, hgives.link.trans ?_⟩
  · rw [← hs, State.setLink_deliveries]
  · rw [hlink]
    rfl

/-- Settles O38: the bytes of R188 are a complete frame whose CRC matches, and its items are those laid out. -/
theorem linkFrameDelivered : Obligations.LinkFrameDelivered := by
  intro s x tag hi f i b4 hup hpos hlow hhigh hmapped
  obtain ⟨hdeliveries, hlink⟩ := takeLinkBytes_of_good_frame hup hpos (linkFrame_complete tag hi f hhigh hlow _)
    (linkFrame_crcGood tag hi f hhigh) hmapped
  rw [linkFrame_items tag hi f _ hhigh] at hdeliveries
  rw [linkFrameBytes_eq, hlink]
  exact ⟨hdeliveries, rfl, rfl, LinkRx.counted_same _ _⟩

end Sys2Proof.Machine

/-! # Edit sessions, COMMIT_EDIT and the request RESTART -/

namespace Sys2Proof.Machine

/-! ## The token (08 R140) -/

theorem State.tokenMatches_of_eq {s : State} {generation : Word} {key : Byte} (hgen : generation = s.generation)
    (hkey : key = s.key) : s.tokenMatches generation key = true := by
  simp [State.tokenMatches, hgen, hkey]

theorem State.tokenMatches_of_ne {s : State} {generation : Word} {key : Byte} (h : generation ≠ s.generation ∨ key ≠ s.key) :
    s.tokenMatches generation key = false := by
  rw [State.tokenMatches, Bool.and_eq_false_iff, decide_eq_false_iff_not, decide_eq_false_iff_not]
  exact h

@[simp] theorem State.beginRequest_tokenMatches (s : State) (f : MgmtFrame) (generation : Word) (key : Byte) :
    (s.beginRequest f).tokenMatches generation key = s.tokenMatches generation key := by
  simp [State.tokenMatches]

/-- The token stands in the first three bytes of a body: the generation, then the key. -/
theorem wordAt_token (g1 g0 k : Byte) (rest : List Byte) : wordAt (g1 :: g0 :: k :: rest) 0 = g1 ++ g0 := rfl

theorem byteAt_token (g1 g0 k : Byte) (rest : List Byte) : byteAt (g1 :: g0 :: k :: rest) 2 = k := rfl

/-! ## RESTART (08 R156, 09 R170) -/

/-- Settles O57: the request by its token; the taking of the request leaves the token it is compared with. -/
theorem restartAnswered : Obligations.RestartAnswered := by
  intro s f g1 g0 k ht hbody
  have hanswer : ∀ {t a}, restartRequest [g1, g0, k] (s.beginRequest f) = (t, a) → s.Answers .restart f t a :=
    fun hg => answers_of_serve rfl ht (by rw [hbody]; exact hg)
  refine ⟨fun hgen hkey => hanswer ?_, fun hbad => hanswer ?_⟩
  all_goals rw [restartRequest, wordAt_token, byteAt_token, State.beginRequest_tokenMatches]
  · rw [State.tokenMatches_of_eq hgen hkey]; rfl
  · rw [State.tokenMatches_of_ne hbad]; rfl

/-! ## OPEN_EDIT, the edit timer and DISCARD_EDIT (08 R141, R144, R145) -/

/-- OPEN_EDIT in its order of judgement: an open session, then the token. -/
theorem openEdit_answers {s : State} {f : MgmtFrame} {g1 g0 k : Byte} (ht : s.Takes f 0x07 3) (hbody : f.body = [g1, g0, k]) :
    (s.session ≠ none → s.Answers .openEdit f (s.beginRequest f) ⟨.sessionBusy, [], false⟩) ∧
    (s.session = none → g1 ++ g0 = s.generation → k = s.key →
      s.Answers .openEdit f { s.beginRequest f with session := some ⟨s.active, s.active.device.editWindow * 1000⟩ }
        ⟨.ok, bytes16 (BitVec.ofNat 16 s.active.device.editWindow), false⟩) ∧
    (s.session = none → (g1 ++ g0 ≠ s.generation ∨ k ≠ s.key) →
      s.Answers .openEdit f ((s.beginRequest f).countMgmt mctrTokenFail) ⟨.badToken, [], false⟩) := by
  have hanswer : ∀ {t a}, openEdit [g1, g0, k] (s.beginRequest f) = (t, a) → s.Answers .openEdit f t a :=
    fun hg => answers_of_serve rfl ht (by rw [hbody]; exact hg)
  have hsession := State.beginRequest_session s f
  refine ⟨fun hopen => hanswer ?_, fun hnone hgen hkey => hanswer ?_, fun hnone hbad => hanswer ?_⟩
  · obtain ⟨e, he⟩ := Option.ne_none_iff_exists'.mp hopen
    rw [openEdit, hsession, he]; rfl
  all_goals rw [openEdit, hsession, hnone, wordAt_token, byteAt_token, State.beginRequest_tokenMatches]
  · rw [State.tokenMatches_of_eq hgen hkey, ← State.beginRequest_active s f]; rfl
  · rw [State.tokenMatches_of_ne hbad]; rfl

/-- DISCARD_EDIT by the session. -/
theorem discardEdit_answers {s : State} {f : MgmtFrame} (ht : s.Takes f 0x0B 1) :
    (s.session ≠ none → s.Answers .discardEdit f { s.beginRequest f with session := none } ⟨.ok, [], false⟩) ∧
    (s.session = none → s.Answers .discardEdit f (s.beginRequest f) ⟨.noSession, [], false⟩) := by
  have hanswer : ∀ {t a}, discardEdit f.body (s.beginRequest f) = (t, a) → s.Answers .discardEdit f t a :=
    fun hg => answers_of_serve rfl ht hg
  have hsession := State.beginRequest_session s f
  refine ⟨fun hopen => hanswer ?_, fun hnone => hanswer ?_⟩
  · obtain ⟨e, he⟩ := Option.ne_none_iff_exists'.mp hopen
    rw [discardEdit, hsession, he]; rfl
  · rw [discardEdit, hsession, hnone]; rfl

theorem State.editDue_of_end {s : State} {e : Session} (hopen : s.session = some e) (hend : e.timer = 0) :
    s.editDue = s.editExpired := by
  simp [State.editDue, ended, hopen, hend]

/-- The expiry closes the session, and offers its notice under the device mask. -/
theorem State.editExpired_eq (s : State) : s.editExpired = { s with
    session := none
    offers := if s.active.device.noticeMask.editExpired = true then s.offers ++ [⟨.config, .editExpired, none⟩] else s.offers } := by
  unfold State.editExpired State.offer
  by_cases hmask : s.active.device.noticeMask.editExpired = true
  · rw [if_pos (show s.deviceMask.editExpired = true from hmask), if_pos hmask]; rfl
  · rw [if_neg (show ¬ s.deviceMask.editExpired = true from hmask), if_neg hmask]; rfl

/-- With the edit timer at its end, no time passes before the expiry. -/
theorem exec_editExpiry_end {s : State} {e : Session} (hopen : s.session = some e) (hend : e.timer = 0) :
    exec .editExpiry s = .next s.editExpired := by
  show Host.Outcome.next (s.atEnd _ _) = _
  rw [hopen, Option.map_some, hend, State.atEnd, State.pass_zero, State.editDue_of_end hopen hend]

/-- Settles O46: the opening, the expiry and the discarding of a session. -/
theorem sessionOpensAndEnds : Obligations.SessionOpensAndEnds :=
  ⟨fun _ _ _ _ _ => openEdit_answers,
    fun s _ hopen hend => (exec_editExpiry_end hopen hend).trans (congrArg Host.Outcome.next s.editExpired_eq),
    fun _ _ => discardEdit_answers⟩

/-! ## COMMIT_EDIT (08 R146) -/

/-- The cross-record checks read nothing that the taking of the request changes. -/
theorem State.beginRequest_crossCheck (s : State) (f : MgmtFrame) (new : ConfigSet) :
    (s.beginRequest f).crossCheck new = s.crossCheck new :=
  (beginRequest_same s f).sameClass.crossCheck new

/-- Settles O48: the request in its order of judgement, which is the session, the token, the cross-record checks. -/
theorem commitEditAnswered : Obligations.CommitEditAnswered := by
  intro s f g1 g0 k newKey ht hbody
  have hanswer : ∀ {t a}, commitEdit [g1, g0, k, newKey] (s.beginRequest f) = (t, a) → s.Answers .commitEdit f t a :=
    fun hg => answers_of_serve rfl ht (by rw [hbody]; exact hg)
  have hsession := State.beginRequest_session s f
  refine ⟨fun hnone => hanswer ?_, fun e he => ⟨fun hbad => hanswer ?_, fun hgen hkey =>
    ⟨fun reason i hfails => hanswer ?_, fun hpass => hanswer ?_⟩⟩⟩
  · rw [commitEdit, hsession, hnone]; rfl
  all_goals
    rw [commitEdit, hsession, he]
    simp only [wordAt_token, byteAt_token, State.beginRequest_tokenMatches, State.beginRequest_crossCheck]
  · rw [State.tokenMatches_of_ne hbad]; rfl
  · rw [State.tokenMatches_of_eq hgen hkey, hfails]; rfl
  · rw [State.tokenMatches_of_eq hgen hkey, hpass, State.beginRequest_generation]; rfl

/-! ## What a commit sets outside the contexts, and what it leaves (08 R148, R155) -/

/-- What the contexts' changes, the registers a commit sets and the creation of a notice leave, the commit leaves. -/
theorem State.applyCommit_frame {α : Type} (g : State → α) (hput : ∀ (t : State) (c : Ctx) (b : Block), g (t.put c b) = g t)
    (hset : ∀ (t : State) (active : ConfigSet) (tags : List (Byte × StreamIdx)) (ticks : List Tick) (cadence : Cadence)
      (generation : Word) (key : Byte), g { t with
        active := active, tagMap := tags, ticks := ticks, cadence := cadence
        generation := generation, key := key, session := none } = g t)
    (hoffer : ∀ (t : State) (b : Block) (allowed : Bool) (n : Notice), g (t.offer b allowed n) = g t)
    (s : State) (new : ConfigSet) (key : Byte) : g (s.applyCommit new key) = g s := by
  have hcontexts : g ((List.finRange 32).foldl (State.applyStream new) s) = g s :=
    foldl_keeps (P := fun t => g t = g s) (f := State.applyStream new) (fun t _ ht => (hput t _ _).trans ht) _ rfl
  unfold State.applyCommit
  generalize (List.finRange 32).foldl (State.applyStream new) s = s1 at hcontexts ⊢
  exact (hoffer _ _ _ _).trans ((hset s1 _ _ _ _ _ _).trans hcontexts)

section
variable (s : State) (new : ConfigSet) (key : Byte)

@[simp] theorem State.applyCommit_active : (s.applyCommit new key).active = new := State.offer_active _ _ _ _
@[simp] theorem State.applyCommit_key : (s.applyCommit new key).key = key := State.offer_key _ _ _ _
@[simp] theorem State.applyCommit_session : (s.applyCommit new key).session = none := State.offer_session _ _ _ _
@[simp] theorem State.applyCommit_generation : (s.applyCommit new key).generation = nextGeneration s.generation :=
  State.offer_generation _ _ _ _
@[simp] theorem State.applyCommit_cadence :
    (s.applyCommit new key).cadence = cadenceAfter s.cadence s.active.device new.device := State.offer_cadence _ _ _ _
@[simp] theorem State.applyCommit_port : (s.applyCommit new key).port = s.port :=
  State.applyCommit_frame State.port State.put_port (by intros; rfl) State.offer_port s new key
@[simp] theorem State.applyCommit_linkA : (s.applyCommit new key).linkA = s.linkA :=
  State.applyCommit_frame State.linkA State.put_linkA (by intros; rfl) State.offer_linkA s new key
@[simp] theorem State.applyCommit_linkB : (s.applyCommit new key).linkB = s.linkB :=
  State.applyCommit_frame State.linkB State.put_linkB (by intros; rfl) State.offer_linkB s new key
@[simp] theorem State.applyCommit_mgmt : (s.applyCommit new key).mgmt = s.mgmt :=
  State.applyCommit_frame State.mgmt State.put_mgmt (by intros; rfl) State.offer_mgmt s new key
@[simp] theorem State.applyCommit_notices : (s.applyCommit new key).notices = s.notices :=
  State.applyCommit_frame State.notices State.put_notices (by intros; rfl) State.offer_notices s new key
@[simp] theorem State.applyCommit_deliveries : (s.applyCommit new key).deliveries = s.deliveries :=
  State.applyCommit_frame State.deliveries State.put_deliveries (by intros; rfl) State.offer_deliveries s new key
@[simp] theorem State.applyCommit_reports : (s.applyCommit new key).reports = s.reports :=
  State.applyCommit_frame State.reports State.put_reports (by intros; rfl) State.offer_reports s new key
@[simp] theorem State.applyCommit_pending : (s.applyCommit new key).pending = s.pending :=
  State.applyCommit_frame State.pending State.put_pending (by intros; rfl) State.offer_pending s new key
@[simp] theorem State.applyCommit_goodReports : (s.applyCommit new key).goodReports = s.goodReports :=
  State.applyCommit_frame State.goodReports State.put_goodReports (by intros; rfl) State.offer_goodReports s new key

end

theorem cadenceAfter_of_same (c : Cadence) {old new : DeviceRecord} (hsource : new.cadenceSource = old.cadenceSource)
    (hinterval : new.nominalInterval = old.nominalInterval) : cadenceAfter c old new = c :=
  if_neg fun h => h.elim (fun hne => hne hsource.symm) (fun hne => hne hinterval.symm)

theorem cadenceAfter_of_changed (c : Cadence) {old new : DeviceRecord}
    (h : new.cadenceSource ≠ old.cadenceSource ∨ new.nominalInterval ≠ old.nominalInterval) :
    cadenceAfter c old new = Cadence.start new :=
  if_pos (h.imp Ne.symm Ne.symm)

/-- A notice that its mask allows is the last of those created. -/
theorem State.offer_getLast (s : State) (b : Block) {allowed : Bool} (n : Notice) (h : allowed = true) :
    (s.offer b allowed n).offers.getLast? = some ⟨b, n, none⟩ := by
  rw [State.offer, if_pos h]
  exact List.getLast?_concat

/-- COMMITTED, with the new generation, is the last notice a commit creates. -/
theorem State.applyCommit_getLast (s : State) {new : ConfigSet} (key : Byte)
    (h : new.device.noticeMask.committed = true) :
    (s.applyCommit new key).offers.getLast? = some ⟨.config, .committed (nextGeneration s.generation), none⟩ :=
  State.offer_getLast _ _ _ h

/-- Settles O49: what the commit sets, the Cadence Controller by the device record, the notice, and what is left. -/
theorem commitSetsTheConfiguration : Obligations.CommitSetsTheConfiguration := by
  rintro s new key t rfl
  refine ⟨s.applyCommit_active new key, s.applyCommit_key new key, s.applyCommit_session new key,
    s.applyCommit_generation new key, fun hsource hinterval => ?_, fun hchanged => ?_, fun hmask => ?_, ?_⟩
  · rw [State.applyCommit_cadence, cadenceAfter_of_same _ hsource hinterval]
  · rw [State.applyCommit_cadence, cadenceAfter_of_changed _ hchanged, Cadence.start_eq]
  · rw [State.applyCommit_getLast s key hmask, State.applyCommit_generation]
  · simp

end Sys2Proof.Machine

/-! # The Transmitter at work -/

namespace Sys2Proof.Machine

/-! ## The eligible notice (10 R179) -/

section
variable {u : NoticeUnit} {p : Nat} {e : NoticeEntry}

theorem NoticeUnit.eligible_inFlight (hquiet : u.quiet = false) (hpointer : u.pointer = some p) (hentry : u.queue[p]? = some e)
    (hflight : p < u.inFlight) : u.eligible = some (e, false) := by
  simp [NoticeUnit.eligible, hquiet, hpointer, hentry, hflight]

theorem NoticeUnit.eligible_unsent (hquiet : u.quiet = false) (hpointer : u.pointer = some p) (hentry : u.queue[p]? = some e)
    (hunsent : u.inFlight ≤ p) (hroom : u.inFlight < 4) : u.eligible = some (e, true) := by
  simp [NoticeUnit.eligible, hquiet, hpointer, hentry, Nat.not_lt.mpr hunsent, Config.inFlightLimit, hroom]

theorem NoticeUnit.eligible_none_of_limit (hpointer : u.pointer = some p) (hunsent : u.inFlight ≤ p)
    (hlimit : 4 ≤ u.inFlight) : u.eligible = none := by
  refine Option.eq_none_iff_forall_not_mem.mpr fun ⟨e, first⟩ heligible => ?_
  obtain ⟨q, hq, -, ⟨-, hflight⟩ | ⟨-, -, hroom⟩⟩ := eligible_spec heligible
  · rw [hpointer] at hq
    cases hq
    omega
  · exact absurd hroom (Nat.not_lt.mpr hlimit)

theorem NoticeUnit.eligible_none_of_quiet (hquiet : u.quiet = true) : u.eligible = none := if_pos hquiet

theorem NoticeUnit.eligible_none_of_pointer (hpointer : u.pointer = none) : u.eligible = none := by
  simp [NoticeUnit.eligible, hpointer]

theorem NoticeUnit.pointerAfter_of_some (hpointer : u.pointer = some p) :
    u.pointerAfter = if p + 1 < u.queue.length then some (p + 1) else none := by
  rw [NoticeUnit.pointerAfter, hpointer, Option.bind_some]

end

/-! ## The choice (09 R165) -/

section
variable {s : State}

theorem State.choose_of_busy (h : s.mgmt.tx ≠ none) : s.choose = s := by
  obtain ⟨frame, hframe⟩ := Option.ne_none_iff_exists'.mp h
  simp only [State.choose, hframe]

theorem State.choose_of_reply {r : Reply} {rest : List Reply} (hidle : s.mgmt.tx = none) (hreplies : s.mgmt.replies = r :: rest) :
    s.choose = { s with mgmt := { s.mgmt with replies := rest, tx := some (.reply r) } } := by
  simp only [State.choose, hidle, hreplies]

theorem State.choose_of_notice {e : NoticeEntry} {first : Bool} (hidle : s.mgmt.tx = none) (hreplies : s.mgmt.replies = [])
    (heligible : s.notices.eligible = some (e, first)) : s.choose = { s with
      mgmt := { s.mgmt with tx := some (.notice e first) }
      notices := s.notices.begin first } := by
  simp only [State.choose, hidle, hreplies, heligible]

theorem State.choose_of_nothing (hidle : s.mgmt.tx = none) (hreplies : s.mgmt.replies = [])
    (heligible : s.notices.eligible = none) : s.choose = s := by
  simp only [State.choose, hidle, hreplies, heligible]

/-- With no reply waiting, the entry at the send pointer decides what an idle Transmitter does. -/
theorem State.choose_at_pointer {p : Nat} {e : NoticeEntry} (hidle : s.mgmt.tx = none)
    (hreplies : s.mgmt.replies = []) (hquiet : s.notices.quiet = false) (hpointer : s.notices.pointer = some p)
    (hentry : s.notices.queue[p]? = some e) :
    (p < s.notices.inFlight → s.choose = { s with
      mgmt := { s.mgmt with tx := some (.notice e false) }
      notices := { s.notices with pointer := if p + 1 < s.notices.queue.length then some (p + 1) else none } }) ∧
    (s.notices.inFlight ≤ p → s.notices.inFlight < 4 → s.choose = { s with
      mgmt := { s.mgmt with tx := some (.notice e true) }
      notices := { s.notices with
        inFlight := s.notices.inFlight + 1
        pointer := if p + 1 < s.notices.queue.length then some (p + 1) else none } }) ∧
    (s.notices.inFlight ≤ p → 4 ≤ s.notices.inFlight → s.choose = s) := by
  rw [← NoticeUnit.pointerAfter_of_some hpointer]
  refine ⟨fun hflight => ?_, fun hunsent hroom => ?_, fun hunsent hlimit => ?_⟩
  · exact State.choose_of_notice hidle hreplies (NoticeUnit.eligible_inFlight hquiet hpointer hentry hflight)
  · exact State.choose_of_notice hidle hreplies (NoticeUnit.eligible_unsent hquiet hpointer hentry hunsent hroom)
  · exact State.choose_of_nothing hidle hreplies (NoticeUnit.eligible_none_of_limit hpointer hunsent hlimit)

/-! ## The completion (09 R165, 10 R180) -/

theorem exec_transmissionComplete_reply {r : Reply} (htx : s.mgmt.tx = some (.reply r)) (hr : r.restart = false) :
    exec .transmissionComplete s = .next s.idleTx.choose := by
  show Host.Outcome.next (transmissionComplete s) = _
  simp [transmissionComplete, htx, hr]

theorem exec_transmissionComplete_notice {e : NoticeEntry} {first : Bool} (htx : s.mgmt.tx = some (.notice e first)) :
    exec .transmissionComplete s = .next { s with notices := s.notices.completed e }.idleTx.choose := by
  show Host.Outcome.next (transmissionComplete s) = _
  simp only [transmissionComplete, htx]

end

section
variable {u : NoticeUnit} {e head : NoticeEntry} {rest : List NoticeEntry}

/-- The completion of the oldest entry in flight starts the retry timer at 250 ms. -/
theorem NoticeUnit.completed_of_oldest (hqueue : u.queue = head :: rest) (hflight : 1 ≤ u.inFlight) (hquiet : u.quiet = false)
    (hnumber : head.number = e.number) : u.completed e = { u with retryTimer := some 250000 } := by
  simp only [NoticeUnit.completed, hqueue]
  exact if_pos ⟨hnumber, hflight, hquiet⟩

theorem NoticeUnit.completed_of_other (hqueue : u.queue = head :: rest) (hnumber : head.number ≠ e.number) :
    u.completed e = u := by
  simp only [NoticeUnit.completed, hqueue]
  exact if_neg fun h => hnumber h.1

end

/-- Settles O54: the choice by what waits to be sent, and the completion by the frame that was in transmission. -/
theorem transmitterAtWork : Obligations.TransmitterAtWork := by
  refine ⟨fun s => ⟨State.choose_of_busy, fun r rest => State.choose_of_reply, fun p e => State.choose_at_pointer,
    fun hidle hreplies hnothing => ?_⟩, fun s => ⟨fun r => exec_transmissionComplete_reply,
    fun e first head rest htx hqueue hflight hquiet => ⟨fun hnumber => ?_, fun hnumber => ?_⟩⟩⟩
  · exact State.choose_of_nothing hidle hreplies
      (hnothing.elim NoticeUnit.eligible_none_of_quiet NoticeUnit.eligible_none_of_pointer)
  · rw [exec_transmissionComplete_notice htx, NoticeUnit.completed_of_oldest hqueue hflight hquiet hnumber]
    rfl
  · rw [exec_transmissionComplete_notice htx, NoticeUnit.completed_of_other hqueue hnumber]
    rfl

end Sys2Proof.Machine

/-! # Requests taken and answered -/

namespace Sys2Proof.Machine

/-! ## The taking of a request and its reply (09 R162, R163) -/

section
variable {s : State}

/-- With no good-frame report waiting, the taking of a request changes the request buffer and the request in progress only. -/
theorem State.beginRequest_of_noReport (f : MgmtFrame) (h : s.goodReports = 0) :
    s.beginRequest f = { s with mgmt := { s.mgmt with requests := s.mgmt.requests.tail, inProgress := some f } } := if_pos h

theorem State.endRequest_of_busy (f : MgmtFrame) (a : Answer) (h : s.mgmt.tx ≠ none) :
    s.endRequest f a = { s with mgmt := { s.mgmt with
      inProgress := none
      replies := s.mgmt.replies ++ [⟨f.kind ||| 0x80, f.reqid, a.status, a.result, a.restart⟩] } } :=
  State.choose_of_busy h

theorem State.endRequest_of_idle (f : MgmtFrame) (a : Answer) (hidle : s.mgmt.tx = none) (hreplies : s.mgmt.replies = []) :
    s.endRequest f a = { s with mgmt := { s.mgmt with
      inProgress := none, replies := []
      tx := some (.reply ⟨f.kind ||| 0x80, f.reqid, a.status, a.result, a.restart⟩) } } :=
  State.choose_of_reply (rest := []) hidle (by rw [hreplies]; rfl)

theorem State.nextRequest_of_head {f : MgmtFrame} {p : Byte → Bool} (hmay : s.mgmt.mayTake = true)
    (hhead : s.mgmt.requests.head? = some f) (hp : p f.kind = true) : s.nextRequest p = some f := by
  rw [State.nextRequest, if_pos hmay, hhead]
  exact if_pos hp

/-- A request whose KIND is no request kind is turned away. -/
theorem unknownKind_answers {f : MgmtFrame} (hmay : s.mgmt.mayTake = true) (hhead : s.mgmt.requests.head? = some f)
    (hkind : f.kind.toNat = 0 ∨ 14 < f.kind.toNat) : s.Answers .unknownKind f (s.beginRequest f) ⟨.unknownKind, [], false⟩ := by
  have hnot : isRequestKind f.kind = false := decide_eq_false (by omega)
  have hnext := State.nextRequest_of_head (p := fun k => !isRequestKind k) hmay hhead (by rw [hnot]; rfl)
  show Host.Outcome.next (unknownKind s) = _
  rw [unknownKind, hnext]
  rfl

/-- A request of a kind with a body of another length than the kind's is turned away. -/
theorem badLength_answers {f : MgmtFrame} (hmay : s.mgmt.mayTake = true) (hhead : s.mgmt.requests.head? = some f) {cmd : Instr}
    {kind : Byte} {len : Nat} {g : List Byte → State → State × Answer} (hcmd : exec cmd s = .next (s.serve kind len g))
    (hkind : f.kind = kind) (hlen : f.body.length ≠ len) : s.Answers cmd f (s.beginRequest f) ⟨.badLength len, [], false⟩ := by
  rw [State.Answers, hcmd, State.serve, State.nextRequest_of_head hmay hhead (decide_eq_true hkind)]
  simp only [hlen, if_false]
  rfl

end

/-- Settles O42: the taking, the reply by the Transmitter's state, and the two ways a request is turned away. -/
theorem requestsTaken : Obligations.RequestsTaken := by
  refine ⟨fun s f a hnone => ⟨State.beginRequest_of_noReport f hnone, State.endRequest_of_busy f a,
    State.endRequest_of_idle f a⟩, fun s f hmay hhead => ⟨unknownKind_answers hmay hhead, ?_⟩⟩
  intro p hp
  fin_cases hp <;> exact badLength_answers hmay hhead rfl

/-! ## IDENTIFY, READ_DEVICE and READ_MGMT (09 R166, R168, R169) -/

theorem State.choose_resetCause (s : State) : s.choose.mgmt.resetCause = s.mgmt.resetCause := by
  unfold State.choose
  split
  · rfl
  · split
    · rfl
    · split <;> rfl

@[simp] theorem State.beginRequest_resetCause (s : State) (f : MgmtFrame) :
    (s.beginRequest f).mgmt.resetCause = s.mgmt.resetCause := by
  unfold State.beginRequest State.settleReports State.goodFrame
  split
  · rfl
  · split
    · exact State.choose_resetCause _
    · rfl

theorem identify_answers {s : State} {f : MgmtFrame} (ht : s.Takes f 0x01 1) : s.Answers .identify f (s.beginRequest f) ⟨.ok,
    bytes16 Config.partCode ++ [Config.revision] ++ bytes16 s.generation ++
    [resetCauseCode s.mgmt.resetCause, boolCode s.session.isSome] ++ nat16 s.free ++ [cadenceStateCode s.cadence.state],
    false⟩ := by
  refine answers_of_serve (g := identify) rfl ht ?_
  simp [identify, Answer.okWith]

/-- READ_DEVICE by its selector. -/
theorem readDevice_answers {s : State} {f : MgmtFrame} {b0 : Byte} (ht : s.Takes f 0x05 1) (hbody : f.body = [b0]) :
    (1 < b0.toNat → s.Answers .readDevice f (s.beginRequest f) ⟨.badValue 0, [], false⟩) ∧
    (b0 = 0 → s.Answers .readDevice f (s.beginRequest f) ⟨.ok, deviceRecordBody s.active.device, false⟩) ∧
    (b0 = 1 → s.session = none → s.Answers .readDevice f (s.beginRequest f) ⟨.noSession, [], false⟩) ∧
    (∀ e, b0 = 1 → s.session = some e →
      s.Answers .readDevice f (s.beginRequest f) ⟨.ok, deviceRecordBody e.staged.device, false⟩) := by
  have hanswer : ∀ {t a}, readDevice [b0] (s.beginRequest f) = (t, a) → s.Answers .readDevice f t a :=
    fun hg => answers_of_serve rfl ht (by rw [hbody]; exact hg)
  have hselector : byteAt [b0] 0 = b0 := rfl
  have hsession := State.beginRequest_session s f
  refine ⟨fun h => hanswer ?_, fun h => hanswer ?_, fun h hnone => hanswer ?_, fun e h hopen => hanswer ?_⟩
  all_goals rw [readDevice, hselector]
  · rw [flagOf_none h]; rfl
  · rw [h, ← State.beginRequest_active s f]; rfl
  · rw [h, hsession, hnone]; rfl
  · rw [h, hsession, hopen]; rfl

/-- READ_MGMT by its clear flag; with no good-frame report waiting, the taking of the request leaves the counters it reads. -/
theorem readMgmt_answers {s : State} {f : MgmtFrame} {b0 : Byte} (ht : s.Takes f 0x06 1) (hbody : f.body = [b0])
    (hnone : s.goodReports = 0) :
    (1 < b0.toNat → s.Answers .readMgmt f (s.beginRequest f) ⟨.badValue 0, [], false⟩) ∧
    (b0 = 0 → s.Answers .readMgmt f (s.beginRequest f) ⟨.ok, sixCounterBlock s.mgmt.counters, false⟩) ∧
    (b0 = 1 → s.Answers .readMgmt f
      { s.beginRequest f with mgmt := { (s.beginRequest f).mgmt with counters := Vector.replicate 6 ⟨0, false⟩ } }
      ⟨.ok, sixCounterBlock s.mgmt.counters, false⟩) := by
  have hanswer : ∀ {t a}, readMgmt [b0] (s.beginRequest f) = (t, a) → s.Answers .readMgmt f t a :=
    fun hg => answers_of_serve rfl ht (by rw [hbody]; exact hg)
  have hflag : byteAt [b0] 0 = b0 := rfl
  have hcounters : (s.beginRequest f).mgmt.counters = s.mgmt.counters := by rw [State.beginRequest_of_noReport f hnone]
  refine ⟨fun h => hanswer ?_, fun h => hanswer ?_, fun h => hanswer ?_⟩
  all_goals rw [readMgmt, hflag, hcounters]
  · rw [flagOf_none h]; rfl
  · rw [h]; rfl
  · rw [h]; rfl

/-- The session state's code in the IDENTIFY result (11 R195). -/
theorem boolCode_isSome (o : Option Session) : boolCode o.isSome = if o = none then 0 else 1 := by cases o <;> rfl

/-- Settles O43: the three requests, judged on what the taking of the request leaves. -/
theorem identifyAndDeviceRead : Obligations.IdentifyAndDeviceRead := by
  refine ⟨fun s f ht => ?_, fun _ _ _ => ⟨readDevice_answers, readMgmt_answers⟩⟩
  have hidentify := identify_answers ht
  rw [boolCode_isSome] at hidentify
  exact hidentify

end Sys2Proof.Machine

/-! # The Management Receiver -/

namespace Sys2Proof.Machine

/-! ## The bytes under examination (09 R159, R161) -/

theorem lenOk_iff (len : Byte) : lenOk len = true ↔ 3 ≤ len.toNat ∧ len.toNat ≤ 250 := decide_eq_true_iff

theorem lenOk_eq_false_iff (len : Byte) : lenOk len = false ↔ len.toNat < 3 ∨ 250 < len.toNat := by
  rw [lenOk, inRange, decide_eq_false_iff_not]
  omega

/-- An examination ends with no byte left or within an incomplete frame; otherwise it goes on with fewer bytes, past a byte that
is no A7h, past the A7h of an invalid LEN or of a bad frame, or past a good frame. -/
theorem examination_induction {P : List Byte → Prop} (nil : P [])
    (other : ∀ b rest, b ≠ 0xA7 → P rest → P (b :: rest))
    (incomplete : ∀ rest, RxIncomplete rest → P (0xA7 :: rest))
    (invalid : ∀ len rest, lenOk len = false → P (len :: rest) → P (0xA7 :: len :: rest))
    (good : ∀ len rest, lenOk len = true → len.toNat + 2 ≤ rest.length → mgmtCrcGood (len :: rest) = true →
      P (rest.drop (len.toNat + 2)) → P (0xA7 :: len :: rest))
    (bad : ∀ len rest, lenOk len = true → len.toNat + 2 ≤ rest.length → mgmtCrcGood (len :: rest) = false →
      P (len :: rest) → P (0xA7 :: len :: rest)) (bs : List Byte) : P bs := by
  induction hn : bs.length using Nat.strongRecOn generalizing bs with
  | _ n ih =>
    subst hn
    match bs with
    | [] => exact nil
    | b :: rest =>
      by_cases hb : b = 0xA7
      case neg => exact other b rest hb (ih _ (by simp) rest rfl)
      subst hb
      match rest with
      | [] => exact incomplete [] trivial
      | len :: rest =>
        have hagain : P (len :: rest) := ih _ (by simp) _ rfl
        cases hok : lenOk len with
        | false => exact invalid len rest hok hagain
        | true =>
          by_cases hall : len.toNat + 2 ≤ rest.length
          case neg =>
            obtain ⟨hlow, hhigh⟩ := (lenOk_iff len).mp hok
            exact incomplete (len :: rest) ⟨hlow, hhigh, by omega⟩
          cases hcrc : mgmtCrcGood (len :: rest) with
          | false => exact bad len rest hok hall hcrc hagain
          | true => exact good len rest hok hall hcrc (ih _ (by simp only [List.length_drop, List.length_cons]; omega) _ rfl)

/-- However many rounds an examination is given beyond its bytes, the same state follows. -/
theorem State.examine_eq_of_le (n m : Nat) (bs : List Byte) (s : State) (hn : bs.length ≤ n) (hm : bs.length ≤ m) :
    State.examine n bs s = State.examine m bs s := by
  induction n generalizing m bs s with
  | zero =>
    obtain rfl := List.eq_nil_of_length_eq_zero (Nat.le_zero.mp hn)
    cases m <;> rfl
  | succ n ih =>
    cases bs with
    | nil => cases m <;> rfl
    | cons b rest =>
      rw [List.length_cons] at hn hm
      obtain ⟨m, rfl⟩ : ∃ k, m = k + 1 := ⟨m - 1, by omega⟩
      have hrest : ∀ t, State.examine n rest t = State.examine m rest t :=
        fun t => ih m rest t (by omega) (by omega)
      have hdrop : ∀ k t, State.examine n (rest.drop k) t = State.examine m (rest.drop k) t :=
        fun k t => ih m _ t (by rw [List.length_drop]; omega) (by rw [List.length_drop]; omega)
      simp only [State.examine, hrest, hdrop]

/-- The bytes are examined in order as HUNTING bytes, to the last. -/
def State.examineAll (s : State) (bs : List Byte) : State := State.examine bs.length bs s

section
variable (s : State) {b len : Byte} {rest : List Byte}

theorem State.examineAll_nil : s.examineAll [] = s := rfl

theorem State.examineAll_of_ne (h : b ≠ 0xA7) : s.examineAll (b :: rest) = s.examineAll rest := if_neg h

/-- What an A7h with a LEN byte after it brings, by the LEN, the bytes that are there and the CRC. -/
theorem State.examineAll_sync : s.examineAll (0xA7 :: len :: rest) =
    if lenOk len = false then s.examineAll (len :: rest)
    else if rest.length < len.toNat + 2 then { s with mgmt := { s.mgmt with rx := some (len :: rest) } }
    else if mgmtCrcGood (len :: rest) then (s.goodRequest (mgmtItems (len :: rest))).examineAll (rest.drop (len.toNat + 2))
    else (s.countMgmt mctrBadFrame).examineAll (len :: rest) := by
  have hrounds := State.examine_eq_of_le (rest.drop (len.toNat + 2)).length (len :: rest).length (rest.drop (len.toNat + 2))
    (s.goodRequest (mgmtItems (len :: rest))) (Nat.le_refl _) (by simp; omega)
  have hshort : (len :: rest).length < len.toNat + 3 ↔ rest.length < len.toNat + 2 := Nat.succ_lt_succ_iff
  rw [← if_congr hshort rfl rfl, State.examineAll, State.examineAll, State.examineAll, hrounds]
  exact if_pos rfl

theorem State.examineAll_incomplete (h : RxIncomplete rest) :
    s.examineAll (0xA7 :: rest) = { s with mgmt := { s.mgmt with rx := some rest } } := by
  cases rest with
  | nil => rfl
  | cons len rest =>
    obtain ⟨hlow, hhigh, hmore⟩ := h
    rw [State.examineAll_sync, if_neg (Bool.ne_false_iff.mpr ((lenOk_iff len).mpr ⟨hlow, hhigh⟩)), if_pos hmore]

theorem State.examineAll_invalid (h : lenOk len = false) : s.examineAll (0xA7 :: len :: rest) = s.examineAll (len :: rest) := by
  rw [State.examineAll_sync, if_pos h]

theorem State.examineAll_good (hok : lenOk len = true) (hall : len.toNat + 2 ≤ rest.length)
    (hcrc : mgmtCrcGood (len :: rest) = true) : s.examineAll (0xA7 :: len :: rest) =
      (s.goodRequest (mgmtItems (len :: rest))).examineAll (rest.drop (len.toNat + 2)) := by
  rw [State.examineAll_sync, if_neg (Bool.ne_false_iff.mpr hok), if_neg (Nat.not_lt.mpr hall), if_pos hcrc]

theorem State.examineAll_bad (hok : lenOk len = true) (hall : len.toNat + 2 ≤ rest.length)
    (hcrc : mgmtCrcGood (len :: rest) = false) :
    s.examineAll (0xA7 :: len :: rest) = (s.countMgmt mctrBadFrame).examineAll (len :: rest) := by
  rw [State.examineAll_sync, if_neg (Bool.ne_false_iff.mpr hok), if_neg (Nat.not_lt.mpr hall),
    if_neg (Bool.eq_false_iff.mp hcrc)]

/-- Bytes among which no A7h stands begin no frame. -/
theorem State.examineAll_noSync {bs : List Byte} (h : ∀ c ∈ bs, c ≠ 0xA7) : s.examineAll bs = s := by
  induction bs with
  | nil => rfl
  | cons b bs ih =>
    rw [State.examineAll_of_ne s (h b List.mem_cons_self)]
    exact ih fun c hc => h c (List.mem_cons_of_mem b hc)

end

/-! ## A good frame (09 R161) -/

section
variable {s : State} (f : MgmtFrame)

theorem State.goodRequest_of_room (h : s.mgmt.requests.length < 4) : s.goodRequest f =
    { s with goodReports := s.goodReports + 1, mgmt := { s.mgmt with requests := s.mgmt.requests ++ [f] } } := if_pos h

theorem State.goodRequest_of_full (h : 4 ≤ s.mgmt.requests.length) : s.goodRequest f =
    { s with goodReports := s.goodReports + 1 }.countMgmt mctrOverrun := if_neg (Nat.not_lt.mpr h)

@[simp] theorem State.goodRequest_rx : (s.goodRequest f).mgmt.rx = s.mgmt.rx := by
  unfold State.goodRequest
  split <;> rfl

@[simp] theorem State.goodRequest_replies : (s.goodRequest f).mgmt.replies = s.mgmt.replies := by
  unfold State.goodRequest
  split <;> rfl

theorem State.goodRequest_goodReports : (s.goodRequest f).goodReports = s.goodReports + 1 := by
  unfold State.goodRequest
  split <;> rfl

end

/-! ## The byte-gap timer is no part of an examination -/

/-- The state with the byte-gap timer at `gap`. -/
def State.withGap (s : State) (gap : Option Nat) : State := { s with mgmt := { s.mgmt with byteGap := gap } }

theorem State.goodRequest_withGap (s : State) (gap : Option Nat) (f : MgmtFrame) :
    (s.withGap gap).goodRequest f = (s.goodRequest f).withGap gap := by
  obtain h | h := Nat.lt_or_ge s.mgmt.requests.length 4
  · rw [State.goodRequest_of_room f h, State.goodRequest_of_room (s := s.withGap gap) f h]
    rfl
  · rw [State.goodRequest_of_full f h, State.goodRequest_of_full (s := s.withGap gap) f h]
    rfl

theorem State.examineAll_withGap (s : State) (gap : Option Nat) (bs : List Byte) :
    (s.withGap gap).examineAll bs = (s.examineAll bs).withGap gap := by
  induction bs using examination_induction generalizing s with
  | nil => rfl
  | other b rest hb ih => rw [State.examineAll_of_ne _ hb, State.examineAll_of_ne _ hb, ih]
  | incomplete rest h => rw [State.examineAll_incomplete _ h, State.examineAll_incomplete _ h]; rfl
  | invalid len rest h ih => rw [State.examineAll_invalid _ h, State.examineAll_invalid _ h, ih]
  | good len rest hok hall hcrc ih =>
    rw [State.examineAll_good _ hok hall hcrc, State.examineAll_good _ hok hall hcrc, State.goodRequest_withGap, ih]
  | bad len rest hok hall hcrc ih =>
    rw [State.examineAll_bad _ hok hall hcrc, State.examineAll_bad _ hok hall hcrc]
    exact ih (s.countMgmt mctrBadFrame)

/-- The state with the byte-gap timer at 0 within a frame, and stopped while HUNTING. -/
def State.gapped (s : State) : State := { s with mgmt := s.mgmt.restartGap }

theorem State.gapped_eq (s : State) : s.gapped = s.withGap (if s.mgmt.rx.isSome then some 0 else none) := rfl

theorem State.gapped_withGap (s : State) (gap : Option Nat) : (s.withGap gap).gapped = s.gapped := rfl

/-! ## One byte (09 R159) -/

/-- The state with the receiver HUNTING. -/
def State.hunting (s : State) : State := { s with mgmt := { s.mgmt with rx := none } }

theorem State.hunting_of_hunting {s : State} (h : s.mgmt.rx = none) : s.hunting = s := by
  rw [State.hunting, ← h]

theorem State.takeMgmtByte_eq (s : State) (b : Byte) :
    s.takeMgmtByte b = (s.hunting.examineAll (rxBytes s.mgmt.rx b)).gapped := rfl

theorem State.takeMgmtByte_of_hunting {s : State} (h : s.mgmt.rx = none) (b : Byte) :
    s.takeMgmtByte b = (s.examineAll [b]).gapped := by
  rw [State.takeMgmtByte_eq, State.hunting_of_hunting h, h]
  rfl

theorem State.takeMgmtByte_of_receiving {s : State} {got : List Byte} (h : s.mgmt.rx = some got) (b : Byte) :
    s.takeMgmtByte b = (s.hunting.examineAll (0xA7 :: (got ++ [b]))).gapped := by
  rw [State.takeMgmtByte_eq, h]
  rfl

/-- A byte restarts or stops the byte-gap timer wherever it stood. -/
theorem State.takeMgmtByte_withGap (s : State) (gap : Option Nat) (b : Byte) :
    (s.withGap gap).takeMgmtByte b = s.takeMgmtByte b := by
  have hhunting : (s.withGap gap).hunting = s.hunting.withGap gap := rfl
  rw [State.takeMgmtByte_eq, State.takeMgmtByte_eq, hhunting, State.examineAll_withGap, State.gapped_withGap]
  rfl

theorem exec_mgmtByte (s : State) (b : Byte) : exec (.mgmtByte b true) s = .next (s.takeMgmtByte b) := rfl

/-- A byte that leaves the frame incomplete is taken, and the byte-gap timer restarts. -/
theorem State.takeMgmtByte_incomplete {s : State} {got : List Byte} {b : Byte} (h : s.mgmt.rx = some got)
    (hmore : RxIncomplete (got ++ [b])) :
    s.takeMgmtByte b = { s with mgmt := { s.mgmt with rx := some (got ++ [b]), byteGap := some 0 } } := by
  rw [State.takeMgmtByte_of_receiving h, State.examineAll_incomplete _ hmore]
  rfl

/-- While HUNTING an A7h begins a frame, and any other byte changes nothing but to leave the timer stopped. -/
theorem State.takeMgmtByte_hunting {s : State} (h : s.mgmt.rx = none) (b : Byte) : s.takeMgmtByte b = { s with
    mgmt := { s.mgmt with rx := if b = 0xA7 then some [] else none, byteGap := if b = 0xA7 then some 0 else none } } := by
  rw [State.takeMgmtByte_of_hunting h]
  by_cases hb : b = 0xA7
  · subst hb
    rw [State.examineAll_incomplete s (rest := []) trivial]
    rfl
  · rw [State.examineAll_of_ne s hb, State.examineAll_nil, if_neg hb, if_neg hb]
    calc
      s.gapped = s.hunting.gapped := by rw [State.hunting_of_hunting h]
      _ = _ := rfl

/-- A LEN byte out of its range ends the frame: it is no A7h, which would be within it. -/
theorem State.takeMgmtByte_invalidLen {s : State} {b : Byte} (h : s.mgmt.rx = some []) (hb : b.toNat < 3 ∨ 250 < b.toNat) :
    s.takeMgmtByte b = { s with mgmt := { s.mgmt with rx := none, byteGap := none } } := by
  have hne : b ≠ 0xA7 := fun heq => by
    rw [heq] at hb
    exact absurd hb (by decide)
  rw [State.takeMgmtByte_of_receiving h, List.nil_append, State.examineAll_invalid _ ((lenOk_eq_false_iff b).mpr hb),
    State.examineAll_of_ne _ hne]
  rfl

/-- The last byte of a frame whose CRC does not match: BAD_FRAME is counted, and the bytes after the A7h are examined. -/
theorem State.takeMgmtByte_badFrame {s : State} {b len : Byte} {got : List Byte} (h : s.mgmt.rx = some (len :: got))
    (hlow : 3 ≤ len.toNat) (hhigh : len.toNat ≤ 250) (hlast : got.length + 1 = len.toNat + 2)
    (hcrc : mgmtCrcGood (len :: (got ++ [b])) = false) :
    s.takeMgmtByte b = ((s.hunting.countMgmt mctrBadFrame).examineAll (len :: (got ++ [b]))).gapped := by
  rw [State.takeMgmtByte_of_receiving h, List.cons_append,
    State.examineAll_bad _ ((lenOk_iff len).mpr ⟨hlow, hhigh⟩) (by simp; omega) hcrc]

/-! ## Bytes one by one -/

theorem byteAt_append (l tail : List Byte) {n : Nat} (h : n < l.length) : byteAt (l ++ tail) n = byteAt l n :=
  List.getD_append _ _ _ _ h

theorem wordAt_append (l tail : List Byte) {n : Nat} (h : n + 1 < l.length) : wordAt (l ++ tail) n = wordAt l n := by
  rw [wordAt, wordAt, byteAt_append _ _ (Nat.lt_of_succ_lt h), byteAt_append _ _ h]

section
variable {len : Byte} {rest : List Byte} (hall : len.toNat + 2 ≤ rest.length) (tail : List Byte)
include hall

/-- The check of a whole frame reads nothing beyond it. -/
theorem mgmtCrcGood_append : mgmtCrcGood (len :: (rest ++ tail)) = mgmtCrcGood (len :: rest) := by
  rw [← List.cons_append, mgmtCrcGood, mgmtCrcGood, byteAt_append _ _ (Nat.succ_pos _)]
  have hlen : byteAt (len :: rest) 0 = len := rfl
  simp only [hlen]
  rw [wordAt_append _ _ (by simp; omega), List.take_append_of_le_length (by simp; omega)]

/-- The items of a whole frame are read from nothing beyond it. -/
theorem mgmtItems_append (hlow : 3 ≤ len.toNat) : mgmtItems (len :: (rest ++ tail)) = mgmtItems (len :: rest) := by
  have hlen : byteAt (len :: rest) 0 = len := rfl
  have hbyte : ∀ n, n < 3 → byteAt (len :: rest ++ tail) n = byteAt (len :: rest) n := fun n hn =>
    byteAt_append _ _ (by rw [List.length_cons]; omega)
  rw [← List.cons_append, mgmtItems, mgmtItems, hbyte 0 (by decide), hbyte 1 (by decide), hbyte 2 (by decide), hlen,
    List.drop_append_of_le_length (by simp; omega), List.take_append_of_le_length (by simp; omega)]

end

/-- A byte from the line after an examination is a further byte of that examination (log 30). -/
theorem State.takeMgmtByte_examineAll {s : State} (h : s.mgmt.rx = none) (bs : List Byte) (b : Byte) :
    (s.examineAll bs).takeMgmtByte b = (s.examineAll (bs ++ [b])).gapped := by
  induction bs using examination_induction generalizing s with
  | nil => exact State.takeMgmtByte_of_hunting h b
  | other c rest hc ih => rw [List.cons_append, State.examineAll_of_ne _ hc, State.examineAll_of_ne _ hc, ih h]
  | incomplete rest hmore =>
    rw [State.examineAll_incomplete _ hmore, State.takeMgmtByte_of_receiving rfl, List.cons_append]
    exact congrArg (fun t : State => (t.examineAll _).gapped) (State.hunting_of_hunting h)
  | invalid len rest hinvalid ih =>
    rw [List.cons_append, List.cons_append, State.examineAll_invalid _ hinvalid, State.examineAll_invalid _ hinvalid, ih h,
      List.cons_append]
  | good len rest hok hall hcrc ih =>
    have hall' : len.toNat + 2 ≤ (rest ++ [b]).length := by simp; omega
    rw [List.cons_append, List.cons_append, State.examineAll_good _ hok hall hcrc,
      State.examineAll_good _ hok hall' (by rwa [mgmtCrcGood_append hall]), ih (by simpa using h),
      mgmtItems_append hall _ ((lenOk_iff len).mp hok).1, List.drop_append_of_le_length hall]
  | bad len rest hok hall hcrc ih =>
    have hall' : len.toNat + 2 ≤ (rest ++ [b]).length := by simp; omega
    rw [List.cons_append, List.cons_append, State.examineAll_bad _ hok hall hcrc,
      State.examineAll_bad _ hok hall' (by rwa [mgmtCrcGood_append hall]), ← List.cons_append]
    exact ih (s := s.countMgmt mctrBadFrame) h

/-- Bytes from the line, taken from HUNTING with the timer stopped, are one examination. -/
theorem takeMgmtBytes_gapped {s : State} (h : s.mgmt.rx = none) (bs : List Byte) :
    takeMgmtBytes bs s.gapped = (s.examineAll bs).gapped := by
  induction bs using List.reverseRecOn with
  | nil => rfl
  | append_singleton bs b ih =>
    have hlast : takeMgmtBytes (bs ++ [b]) s.gapped = (takeMgmtBytes bs s.gapped).takeMgmtByte b := List.foldl_append
    rw [hlast, ih, State.gapped_eq, State.takeMgmtByte_withGap, State.takeMgmtByte_examineAll h]

/-- Bytes from the line, taken from HUNTING, are one examination. -/
theorem takeMgmtBytes_eq {s : State} (h : s.mgmt.rx = none) (b : Byte) (bs : List Byte) :
    takeMgmtBytes (b :: bs) s = (s.examineAll (b :: bs)).gapped := by
  rw [← takeMgmtBytes_gapped h]
  show takeMgmtBytes bs (s.takeMgmtByte b) = takeMgmtBytes bs (s.gapped.takeMgmtByte b)
  rw [State.gapped_eq, State.takeMgmtByte_withGap]

/-- Settles O39: one byte by the bytes before it, and a bad frame's bytes as one examination. -/
theorem mgmtByteTaken : Obligations.MgmtByteTaken := by
  refine ⟨fun s b => ⟨rfl, fun h hb => ?_, fun h hb => ?_, fun got h hmore => ?_, fun h hb => ?_⟩,
    fun s b len got h hlow hhigh hlast hcrc hnone => ?_, fun s b len got h hlow hhigh hlast hcrc => ?_⟩
  all_goals rw [exec_mgmtByte]
  · rw [State.takeMgmtByte_hunting h, if_pos hb, if_pos hb]
  · rw [State.takeMgmtByte_hunting h, if_neg hb, if_neg hb, ← h]
  · rw [State.takeMgmtByte_incomplete h hmore]
  · rw [State.takeMgmtByte_invalidLen h hb]
  · rw [State.takeMgmtByte_badFrame h hlow hhigh hlast hcrc, State.examineAll_noSync _ hnone]
    rfl
  · rw [State.takeMgmtByte_badFrame h hlow hhigh hlast hcrc]
    exact congrArg Host.Outcome.next (takeMgmtBytes_gapped (s := s.hunting.countMgmt mctrBadFrame) rfl _).symm

/-! ## The byte gap (09 R160) -/

/-- With the byte-gap timer at its end, no time passes before the frame is abandoned. -/
theorem exec_byteGapExpiry_end {s : State} (h : s.mgmt.byteGap = some 5000) : exec .byteGapExpiry s = .next s.abandonFrame := by
  show Host.Outcome.next (s.atEnd _ _) = _
  rw [leftTo_of_end (limit := Config.byteGapLimit) h, State.atEnd, State.pass_zero, State.gapDue, h]
  rfl

/-- Settles O41: the expiry abandons the frame and leaves the receiver HUNTING; a byte taken first leaves it within the frame. -/
theorem byteGapAbandons : Obligations.ByteGapAbandons := by
  intro s got h hgap
  refine ⟨s.abandonFrame, exec_byteGapExpiry_end hgap, rfl, fun b => ?_, fun b hmore => ?_⟩
  · rw [exec_mgmtByte, State.takeMgmtByte_hunting rfl]
  · rw [exec_mgmtByte, State.takeMgmtByte_incomplete h hmore]

/-! ## The layout of a management frame (11 R190) -/

theorem wordAt_bytes16 (l : List Byte) (w : Word) : wordAt (l ++ bytes16 w) l.length = w := by
  simp [wordAt, byteAt, bytes16, word16_bytes]

/-- The bytes of a management frame after its LEN: KIND, REQID, the body and the CRC. -/
def mgmtFrameRest (f : MgmtFrame) : List Byte :=
  f.kind :: f.reqid :: (f.body ++ bytes16 (crc16 (nat8 (f.body.length + 2) :: f.kind :: f.reqid :: f.body)))

theorem mgmtFrameBytes_eq (f : MgmtFrame) :
    mgmtFrameBytes f.kind f.reqid f.body = 0xA7 :: nat8 (f.body.length + 2) :: mgmtFrameRest f := rfl

section
variable {f : MgmtFrame} (hhigh : f.body.length ≤ 248)
include hhigh

theorem toNat_mgmtFrameLen : (nat8 (f.body.length + 2)).toNat = f.body.length + 2 := by
  rw [nat8, BitVec.toNat_ofNat]
  omega

theorem mgmtFrame_length : (mgmtFrameRest f).length = (nat8 (f.body.length + 2)).toNat + 2 := by
  rw [toNat_mgmtFrameLen hhigh]
  simp [mgmtFrameRest, length_bytes16]

theorem mgmtFrame_crcGood : mgmtCrcGood (nat8 (f.body.length + 2) :: mgmtFrameRest f) = true := by
  have hlen : byteAt (nat8 (f.body.length + 2) :: mgmtFrameRest f) 0 = nat8 (f.body.length + 2) := rfl
  rw [mgmtCrcGood, hlen, toNat_mgmtFrameLen hhigh]
  generalize hcovered : nat8 (f.body.length + 2) :: f.kind :: f.reqid :: f.body = covered
  have hsplit : nat8 (f.body.length + 2) :: mgmtFrameRest f = covered ++ bytes16 (crc16 covered) := by
    rw [← hcovered]
    rfl
  have hcount : f.body.length + 2 + 1 = covered.length := by rw [← hcovered]; rfl
  rw [hsplit, hcount, List.take_left, wordAt_bytes16, decide_eq_true rfl]

theorem mgmtFrame_items : mgmtItems (nat8 (f.body.length + 2) :: mgmtFrameRest f) = f := by
  have hlen : byteAt (nat8 (f.body.length + 2) :: mgmtFrameRest f) 0 = nat8 (f.body.length + 2) := rfl
  rw [mgmtItems, hlen, toNat_mgmtFrameLen hhigh, Nat.add_sub_cancel]
  have hbody : ((nat8 (f.body.length + 2) :: mgmtFrameRest f).drop 3).take f.body.length = f.body := List.take_left
  rw [hbody]
  rfl

/-- The bytes of a management frame, from HUNTING, are one good frame with nothing after it. -/
theorem takeMgmtBytes_mgmtFrame {s : State} (hrx : s.mgmt.rx = none) (hlow : 1 ≤ f.body.length) :
    takeMgmtBytes (mgmtFrameBytes f.kind f.reqid f.body) s = (s.goodRequest f).gapped := by
  have hok : lenOk (nat8 (f.body.length + 2)) = true := by
    rw [lenOk_iff, toNat_mgmtFrameLen hhigh]
    omega
  have hlength := mgmtFrame_length hhigh
  rw [mgmtFrameBytes_eq, takeMgmtBytes_eq hrx, State.examineAll_good s hok hlength.ge (mgmtFrame_crcGood hhigh),
    mgmtFrame_items hhigh, ← hlength, List.drop_length, State.examineAll_nil]

end

/-- Settles O40: the frame's bytes are one good frame, which joins the request buffer or counts OVERRUN by its room. -/
theorem mgmtFrameReceived : Obligations.MgmtFrameReceived := by
  intro s f hrx hlow hhigh t
  have ht : t = (s.goodRequest f).gapped := takeMgmtBytes_mgmtFrame hhigh hrx hlow
  have hhunting : (s.goodRequest f).mgmt.rx = none := by rw [State.goodRequest_rx, hrx]
  rw [ht]
  refine ⟨hhunting, ?_, State.goodRequest_goodReports f, fun hroom => ?_, fun hfull => ?_, State.goodRequest_replies f,
    State.goodRequest_notices s f⟩
  · rw [State.gapped_eq, hhunting]
    rfl
  · rw [State.goodRequest_of_room f hroom]
    exact ⟨rfl, rfl⟩
  · rw [State.goodRequest_of_full f hfull]
    exact ⟨rfl, rfl⟩

end Sys2Proof.Machine

/-! # The Notice Unit: the retry timer, the good-frame reports and ACK_NOTICE -/

namespace Sys2Proof.Machine

/-! ## A resend round (10 R183) -/

theorem NoticeUnit.goBack_of_ne_nil {u : NoticeUnit} (h : u.queue ≠ []) : u.goBack = { u with pointer := some 0 } := by
  rw [NoticeUnit.goBack, if_neg h]

/-- The resend round that the retry timer's expiry and a good-frame report begin alike: it is counted, and an idle Transmitter
chooses. -/
def State.resend (s : State) (u : NoticeUnit) : State := ({ s with notices := u.goBack }.countMgmt mctrNoticeRetries).choose

theorem State.resend_of_ne_nil (s : State) {u : NoticeUnit} (h : u.queue ≠ []) : s.resend u = { s with
    notices := { u with pointer := some 0 }
    mgmt := { s.mgmt with
      counters := s.mgmt.counters.set mctrNoticeRetries s.mgmt.counters[mctrNoticeRetries].bump } }.choose := by
  rw [State.resend, NoticeUnit.goBack_of_ne_nil h]
  rfl

/-! ## The expiry of the retry timer (10 R183) -/

section
variable {s : State}

theorem State.retryExpired_of_lt (h : s.notices.retryCount < 3) : s.retryExpired =
    s.resend { s.notices with retryTimer := none, retryCount := s.notices.retryCount + 1 } := if_pos h

theorem State.retryExpired_of_limit (h : 3 ≤ s.notices.retryCount) : s.retryExpired =
    { s with notices := { s.notices with retryTimer := none, quiet := true } } := if_neg (Nat.not_lt.mpr h)

/-- With the retry timer at its end, no time passes before its expiry. -/
theorem exec_retryExpiry_end (h : s.notices.retryTimer = some 0) : exec .retryExpiry s = .next s.retryExpired := by
  show Host.Outcome.next (s.atEnd _ _) = _
  rw [h, State.atEnd, State.pass_zero, State.retryDue, h]
  rfl

/-! ## A good-frame report (10 R184) -/

theorem State.goodFrame_of_quiet (h : s.notices.quiet = true) : s.goodFrame =
    s.resend { s.notices with quiet := false, retryCount := 0 } := if_pos h

theorem State.goodFrame_of_not_quiet (h : s.notices.quiet = false) : s.goodFrame = s := by
  rw [State.goodFrame, h]
  rfl

theorem exec_goodFrameReport {n : Nat} (h : s.goodReports = n + 1) :
    exec .goodFrameReport s = .next { s with goodReports := n }.goodFrame := by
  show Host.Outcome.next (goodFrameReport s) = _
  rw [goodFrameReport, h, if_neg (Nat.succ_ne_zero n), Nat.add_sub_cancel]

end

/-- Settles O55: the expiry by the retry count, and the report by QUIET. -/
theorem retryAndGoodFrames : Obligations.RetryAndGoodFrames := by
  refine ⟨fun s hend hqueue => ⟨fun hcount => ?_, fun hcount => ?_⟩,
    fun s n hreports => ⟨fun hquiet => ?_, fun hquiet hqueue => ?_⟩⟩
  · rw [exec_retryExpiry_end hend, State.retryExpired_of_lt hcount, State.resend_of_ne_nil]
    exact hqueue
  · rw [exec_retryExpiry_end hend, State.retryExpired_of_limit hcount]
  · rw [exec_goodFrameReport hreports, State.goodFrame_of_not_quiet (s := { s with goodReports := n }) hquiet]
  · rw [exec_goodFrameReport hreports, State.goodFrame_of_quiet (s := { s with goodReports := n }) hquiet,
      State.resend_of_ne_nil]
    exact hqueue

/-! ## A NOTICES_LOST for the lost count (10 R178) -/

theorem NoticeUnit.join_pointer (u : NoticeUnit) (n : Notice) : (u.join n).pointer = some (u.pointer.getD u.queue.length) := by
  rw [NoticeUnit.join]
  cases u.pointer <;> rfl

/-- A lost count above 0 queues a NOTICES_LOST and returns to 0. -/
def NoticeUnit.reportLost (u : NoticeUnit) : NoticeUnit :=
  if u.lost = 0 then u else { u.join (.noticesLost u.lost) with lost := 0 }

section
variable {u : NoticeUnit}

theorem NoticeUnit.reportLost_of_zero (h : u.lost = 0) : u.reportLost = u := if_pos h

theorem NoticeUnit.reportLost_of_ne_zero (h : u.lost ≠ 0) :
    u.reportLost = { u.join (.noticesLost u.lost) with lost := 0 } := if_neg h

end

section
variable (u : NoticeUnit)

/-- What neither a joining nor the lost count is part of stays. -/
theorem NoticeUnit.reportLost_frame {α : Type} (g : NoticeUnit → α) (hjoin : ∀ n, g { u.join n with lost := 0 } = g u) :
    g u.reportLost = g u := by
  by_cases h : u.lost = 0
  · rw [NoticeUnit.reportLost_of_zero h]
  · rw [NoticeUnit.reportLost_of_ne_zero h, hjoin]

@[simp] theorem NoticeUnit.reportLost_inFlight : u.reportLost.inFlight = u.inFlight :=
  u.reportLost_frame NoticeUnit.inFlight fun _ => rfl

@[simp] theorem NoticeUnit.reportLost_retryTimer : u.reportLost.retryTimer = u.retryTimer :=
  u.reportLost_frame NoticeUnit.retryTimer fun _ => rfl

@[simp] theorem NoticeUnit.reportLost_retryCount : u.reportLost.retryCount = u.retryCount :=
  u.reportLost_frame NoticeUnit.retryCount fun _ => rfl

@[simp] theorem NoticeUnit.reportLost_quiet : u.reportLost.quiet = u.quiet :=
  u.reportLost_frame NoticeUnit.quiet fun _ => rfl

@[simp] theorem NoticeUnit.reportLost_lost : u.reportLost.lost = 0 := by
  by_cases h : u.lost = 0
  · rw [NoticeUnit.reportLost_of_zero h, h]
  · rw [NoticeUnit.reportLost_of_ne_zero h]

theorem NoticeUnit.reportLost_queue :
    u.reportLost.queue = u.queue ++ (if u.lost = 0 then [] else [⟨u.nextNumber, .noticesLost u.lost⟩]) := by
  by_cases h : u.lost = 0
  · rw [NoticeUnit.reportLost_of_zero h, if_pos h, List.append_nil]
  · rw [NoticeUnit.reportLost_of_ne_zero h, if_neg h]
    rfl

theorem NoticeUnit.reportLost_nextNumber :
    u.reportLost.nextNumber = if u.lost = 0 then u.nextNumber else u.nextNumber + 1 := by
  by_cases h : u.lost = 0
  · rw [NoticeUnit.reportLost_of_zero h, if_pos h]
  · rw [NoticeUnit.reportLost_of_ne_zero h, if_neg h]
    rfl

theorem NoticeUnit.reportLost_pointer :
    u.reportLost.pointer = if u.lost = 0 then u.pointer else some (u.pointer.getD u.queue.length) := by
  by_cases h : u.lost = 0
  · rw [NoticeUnit.reportLost_of_zero h, if_pos h]
  · rw [NoticeUnit.reportLost_of_ne_zero h, if_neg h, ← NoticeUnit.join_pointer u (.noticesLost u.lost)]

end

/-! ## The retry timer and the send pointer of a retirement (10 R182) -/

theorem inFirstTransmission_iff (tx : Option TxFrame) (number : Byte) :
    inFirstTransmission tx number = true ↔ ∃ e, tx = some (.notice e true) ∧ e.number = number := by
  obtain _ | r | ⟨e, first⟩ := tx <;> simp [inFirstTransmission]

theorem retryAfterRetire_stopped {u : NoticeUnit} (h : u.inFlight = 0 ∨ u.quiet = true) (tx : Option TxFrame) :
    retryAfterRetire u tx = none := if_pos h

theorem retryAfterRetire_of_oldest {u : NoticeUnit} {head : NoticeEntry} {rest : List NoticeEntry} (hflight : u.inFlight ≠ 0)
    (hquiet : u.quiet = false) (hqueue : u.queue = head :: rest) (tx : Option TxFrame) :
    retryAfterRetire u tx = if inFirstTransmission tx head.number then none else some 250000 := by
  simp [retryAfterRetire, hflight, hquiet, hqueue, Config.retryStart]

theorem pointerAfterRetire_of_kept {p k : Nat} (h : k ≤ p) (left : List NoticeEntry) :
    pointerAfterRetire (some p) k left = some (p - k) := if_neg (Nat.not_lt.mpr h)

theorem pointerAfterRetire_of_retired {p k : Nat} (h : p < k) (left : List NoticeEntry) :
    pointerAfterRetire (some p) k left = if left = [] then none else some 0 := if_pos h

/-! ## A retirement (10 R181, R182) -/

/-- The oldest `k` entries have left, and the lost count is not yet reported; `timer` is the retry timer. -/
def NoticeUnit.dropOldest (u : NoticeUnit) (k : Nat) (timer : Option Nat) : NoticeUnit :=
  { u with
    queue := u.queue.drop k
    inFlight := u.inFlight - k
    pointer := pointerAfterRetire u.pointer k (u.queue.drop k)
    retryTimer := timer
    retryCount := 0 }

section
variable (u : NoticeUnit) (k : Nat) (tx : Option TxFrame)

theorem NoticeUnit.retire_eq :
    u.retire k tx = (u.dropOldest k (retryAfterRetire (u.dropOldest k u.retryTimer) tx)).reportLost := rfl

@[simp] theorem NoticeUnit.retire_inFlight : (u.retire k tx).inFlight = u.inFlight - k := by
  rw [NoticeUnit.retire_eq, NoticeUnit.reportLost_inFlight]
  rfl

@[simp] theorem NoticeUnit.retire_retryCount : (u.retire k tx).retryCount = 0 := by
  rw [NoticeUnit.retire_eq, NoticeUnit.reportLost_retryCount]
  rfl

@[simp] theorem NoticeUnit.retire_lost : (u.retire k tx).lost = 0 := by
  rw [NoticeUnit.retire_eq, NoticeUnit.reportLost_lost]

@[simp] theorem NoticeUnit.retire_quiet : (u.retire k tx).quiet = u.quiet := by
  rw [NoticeUnit.retire_eq, NoticeUnit.reportLost_quiet]
  rfl

theorem NoticeUnit.retire_queue : (u.retire k tx).queue =
    u.queue.drop k ++ (if u.lost = 0 then [] else [⟨u.nextNumber, .noticesLost u.lost⟩]) := by
  rw [NoticeUnit.retire_eq, NoticeUnit.reportLost_queue]
  rfl

theorem NoticeUnit.retire_nextNumber :
    (u.retire k tx).nextNumber = if u.lost = 0 then u.nextNumber else u.nextNumber + 1 := by
  rw [NoticeUnit.retire_eq, NoticeUnit.reportLost_nextNumber]
  rfl

theorem NoticeUnit.retire_retryTimer : (u.retire k tx).retryTimer = retryAfterRetire (u.dropOldest k u.retryTimer) tx := by
  rw [NoticeUnit.retire_eq, NoticeUnit.reportLost_retryTimer]
  rfl

theorem NoticeUnit.retire_pointer : (u.retire k tx).pointer =
    if u.lost = 0 then pointerAfterRetire u.pointer k (u.queue.drop k)
    else some ((pointerAfterRetire u.pointer k (u.queue.drop k)).getD (u.queue.drop k).length) := by
  rw [NoticeUnit.retire_eq, NoticeUnit.reportLost_pointer]
  rfl

end

section
variable {u : NoticeUnit} {k : Nat} (tx : Option TxFrame)

theorem NoticeUnit.retire_retryTimer_stopped (h : u.inFlight = k ∨ u.quiet = true) : (u.retire k tx).retryTimer = none := by
  rw [NoticeUnit.retire_retryTimer]
  exact retryAfterRetire_stopped (u := u.dropOldest k u.retryTimer) (h.imp_left fun hall => Nat.sub_eq_zero_of_le hall.le) tx

theorem NoticeUnit.retire_retryTimer_of_oldest (hlt : k < u.queue.length) (hflight : k < u.inFlight) (hquiet : u.quiet = false) :
    (u.retire k tx).retryTimer = if inFirstTransmission tx u.queue[k].number then none else some 250000 := by
  rw [NoticeUnit.retire_retryTimer]
  exact retryAfterRetire_of_oldest (u := u.dropOldest k u.retryTimer) (Nat.sub_ne_zero_of_lt hflight) hquiet
    (List.drop_eq_getElem_cons hlt) tx

theorem NoticeUnit.retire_pointer_of_kept {p : Nat} (hpointer : u.pointer = some p) (h : k ≤ p) :
    (u.retire k tx).pointer = some (p - k) := by
  rw [NoticeUnit.retire_pointer, hpointer, pointerAfterRetire_of_kept h, Option.getD_some, ite_self]

/-- The entry at the pointer has left: the head is next, which may be the NOTICES_LOST. -/
theorem NoticeUnit.retire_pointer_of_retired {p : Nat} (hpointer : u.pointer = some p) (h : p < k) :
    (u.retire k tx).pointer = if k < u.queue.length ∨ u.lost ≠ 0 then some 0 else none := by
  rw [NoticeUnit.retire_pointer, hpointer, pointerAfterRetire_of_retired h]
  obtain hleft | hnone := Nat.lt_or_ge k u.queue.length
  · have hne : u.queue.drop k ≠ [] := List.ne_nil_of_length_pos (by rw [List.length_drop]; omega)
    rw [if_neg hne, Option.getD_some, ite_self, if_pos (Or.inl hleft)]
  · simp [List.drop_eq_nil_of_le hnone, Nat.not_lt.mpr hnone]

/-- With nothing left to send, only the NOTICES_LOST can be next. -/
theorem NoticeUnit.retire_pointer_of_none (hpointer : u.pointer = none) :
    (u.retire k tx).pointer = if u.lost = 0 then none else some (u.queue.length - k) := by
  rw [NoticeUnit.retire_pointer, hpointer, List.length_drop]
  rfl

end

/-! ## ACK_NOTICE (10 R181) -/

section
variable {u : NoticeUnit} {n : Byte}

theorem NoticeUnit.acked_of_none (h : ∀ e ∈ u.queue.take u.inFlight, e.number ≠ n) : u.acked n = none := by
  rw [NoticeUnit.acked, List.findIdx?_eq_none_iff.mpr fun e he => decide_eq_false (h e he), Option.map_none]

theorem NoticeUnit.acked_of_first {j : Nat} (hj : j < u.queue.length) (hflight : j < u.inFlight) (hnumber : u.queue[j].number = n)
    (hfirst : ∀ k (hk : k < j), u.queue[k].number ≠ n) : u.acked n = some (j + 1) := by
  have hfound : ((u.queue.take u.inFlight).findIdx? fun e => decide (e.number = n)) = some j := by
    refine List.findIdx?_eq_some_iff_getElem.mpr ⟨by rw [List.length_take]; omega, ?_, fun k hk => ?_⟩
    · rw [List.getElem_take, decide_eq_true hnumber]
    · rw [List.getElem_take, decide_eq_false (hfirst k hk)]
      exact Bool.false_ne_true
  rw [NoticeUnit.acked, hfound, Option.map_some]

end

theorem ackNotice_of_none {s : State} {n : Byte} (h : s.notices.acked n = none) :
    ackNotice [n] s = (s, ⟨.notInFlight, [], false⟩) := by
  have hn : byteAt [n] 0 = n := rfl
  rw [ackNotice, hn, h]
  rfl

theorem ackNotice_of_some {s : State} {n : Byte} {k : Nat} (h : s.notices.acked n = some k) :
    ackNotice [n] s = ({ s with notices := s.notices.retire k s.mgmt.tx }, ⟨.ok, [], false⟩) := by
  have hn : byteAt [n] 0 = n := rfl
  rw [ackNotice, hn, h]
  rfl

/-- Settles O56: the number found or not among the entries in flight, and the parts of the retirement. -/
theorem ackNoticeAnswered : Obligations.AckNoticeAnswered := by
  rintro s f n u ht hbody rfl
  have hanswer : ∀ {t a}, ackNotice [n] (s.beginRequest f) = (t, a) → s.Answers .ackNotice f t a :=
    fun hg => answers_of_serve rfl ht (by rw [hbody]; exact hg)
  refine ⟨fun hnone => hanswer (ackNotice_of_none (NoticeUnit.acked_of_none hnone)),
    fun j hj hflight hnumber hfirst =>
      ⟨_, hanswer (ackNotice_of_some (NoticeUnit.acked_of_first hj hflight hnumber hfirst)), NoticeUnit.retire_inFlight ..,
        NoticeUnit.retire_retryCount .., NoticeUnit.retire_lost .., NoticeUnit.retire_quiet .., NoticeUnit.retire_queue ..,
        NoticeUnit.retire_nextNumber .., NoticeUnit.retire_retryTimer_stopped _, fun hnext hremains hquiet => ?_,
        fun p hpointer hkept => NoticeUnit.retire_pointer_of_kept _ hpointer hkept,
        fun p hpointer hgone => NoticeUnit.retire_pointer_of_retired _ hpointer (Nat.lt_succ_of_le hgone),
        NoticeUnit.retire_pointer_of_none _⟩⟩
  rw [NoticeUnit.retire_retryTimer_of_oldest _ hnext hremains hquiet]
  refine ⟨fun hsending => if_pos ((inFirstTransmission_iff _ _).mpr hsending), fun hnot => if_neg fun hsending => ?_⟩
  obtain ⟨e, htx, he⟩ := (inFirstTransmission_iff _ _).mp hsending
  exact hnot e htx he

end Sys2Proof.Machine

/-! # The formats: playout words, record bodies and the frames sent -/

namespace Sys2Proof.Machine

/-! ## Playout words (11 R198, R199) -/

theorem toNat_append_eq_mul_add {m n : Nat} (x : BitVec m) (y : BitVec n) : (x ++ y).toNat = x.toNat * 2 ^ n + y.toNat := by
  rw [BitVec.toNat_append, ← Nat.shiftLeft_add_eq_or_of_lt y.isLt, Nat.shiftLeft_eq]

/-- The parts of a header word stand apart: each is below the weight of the next. -/
theorem toNat_headerWord (kind : BitVec 2) (q : Bool) (i : StreamIdx) {n : Nat} (hn : n < 32) :
    (headerWord kind q i n).toNat = kind.toNat * 16384 + (if q = true then 8192 else 0) + i.val * 256 + n := by
  have hq : (BitVec.ofBool q).toNat * 8192 = if q = true then 8192 else 0 := by cases q <;> rfl
  have hidx : (BitVec.ofNat 5 i.val).toNat = i.val := Nat.mod_eq_of_lt i.isLt
  have hcount : (BitVec.ofNat 5 n).toNat = n := Nat.mod_eq_of_lt hn
  calc
    (headerWord kind q i n).toNat
      = (kind ++ (BitVec.ofBool q ++ (BitVec.ofNat 5 i.val ++ (0#3 ++ BitVec.ofNat 5 n)))).toNat := rfl
    _ = kind.toNat * 2 ^ 14 + ((BitVec.ofBool q).toNat * 2 ^ 13 + (i.val * 2 ^ 8 + (0 * 2 ^ 5 + n))) := by
      simp only [toNat_append_eq_mul_add, hidx, hcount, BitVec.toNat_ofNat]
    _ = kind.toNat * 16384 + (if q = true then 8192 else 0) + i.val * 256 + n := by
      rw [← hq]
      ring

theorem headerWord_eq_ofNat (kind : BitVec 2) (q : Bool) (i : StreamIdx) {n : Nat} (hn : n ≤ 16) :
    headerWord kind q i n =
      BitVec.ofNat 16 (kind.toNat * 16384 + (if q = true then 8192 else 0) + i.val * 256 + n) := by
  rw [← toNat_headerWord kind q i (Nat.lt_of_le_of_lt hn (by decide)), BitVec.ofNat_toNat, BitVec.setWidth_eq]

/-- Settles O32: each kind's header word from its parts, and the sequence number as a 16-bit word. -/
theorem recordWordLayout : Obligations.RecordWordLayout := by
  intro i seq q ws hws
  have hseq : seq.setWidth 16 = BitVec.ofNat 16 seq.toNat := (BitVec.ofNat_toNat 16 seq).symm
  refine ⟨?_, ?_, ?_, ?_⟩
  · rw [PlayRecord.words, headerWord_eq_ofNat 0 q i hws, hseq]
    rfl
  · rw [PlayRecord.words, headerWord_eq_ofNat 1 false i hws, hseq]
    rfl
  · rw [PlayRecord.words, headerWord_eq_ofNat 2 false i (Nat.zero_le 16)]
    rfl
  · rw [PlayRecord.words, headerWord_eq_ofNat 3 false i (Nat.zero_le 16)]
    rfl

/-! ## Codes of record fields (11 R193): each code names one value, and each legal code is the code of the value it names -/

theorem decide_boolCode_eq_one (v : Bool) : decide (boolCode v = 1) = v := by cases v <;> rfl

theorem stopModeOf_code (m : StopMode) : stopModeOf (stopModeCode m) = m := by cases m <;> rfl

theorem pathsOf_code (p : Paths) : pathsOf (pathsCode p) = p := by cases p <;> rfl

theorem substOf_code (v : Subst) : substOf (substCode v) = v := by cases v <;> rfl

theorem cadenceSourceOf_code (c : CadenceSource) : cadenceSourceOf (cadenceSourceCode c) = c := by cases c <;> rfl

section
variable {b : Byte}

theorem byte_cases_of_le_one (h : b.toNat ≤ 1) : b = 0 ∨ b = 1 := by
  obtain h | h := Nat.le_one_iff_eq_zero_or_eq_one.mp h
  · exact .inl (BitVec.eq_of_toNat_eq h)
  · exact .inr (BitVec.eq_of_toNat_eq h)

theorem byte_cases_of_le_two (h : b.toNat ≤ 2) : b = 0 ∨ b = 1 ∨ b = 2 := by
  obtain h | h | h := Order.le_two_iff.mp h
  · exact .inl (BitVec.eq_of_toNat_eq h)
  · exact .inr (.inl (BitVec.eq_of_toNat_eq h))
  · exact .inr (.inr (BitVec.eq_of_toNat_eq h))

theorem boolCode_decide (h : b.toNat ≤ 1) : boolCode (decide (b = 1)) = b := by
  obtain rfl | rfl := byte_cases_of_le_one h <;> rfl

theorem stopModeCode_of (h : b.toNat ≤ 1) : stopModeCode (stopModeOf b) = b := by
  obtain rfl | rfl := byte_cases_of_le_one h <;> rfl

theorem pathsCode_of (h : b.toNat ≤ 2) : pathsCode (pathsOf b) = b := by
  obtain rfl | rfl | rfl := byte_cases_of_le_two h <;> rfl

theorem substCode_of (h : b.toNat ≤ 2) : substCode (substOf b) = b := by
  obtain rfl | rfl | rfl := byte_cases_of_le_two h <;> rfl

theorem cadenceSourceCode_of (h : b.toNat ≤ 1) : cadenceSourceCode (cadenceSourceOf b) = b := by
  obtain rfl | rfl := byte_cases_of_le_one h <;> rfl

end

/-! ## Mask bytes (11 R193, R194) -/

section
variable (b0 b1 b2 b3 : Bool)

theorem maskCode_eq_markByte : maskCode b0 b1 b2 b3 = markByte [b0, b1, b2, b3] := by
  revert b0 b1 b2 b3
  decide

theorem maskCode_getLsbD (n : Nat) :
    (maskCode b0 b1 b2 b3).getLsbD n = (decide (n < 8) && [b0, b1, b2, b3].getD n false) := by
  rw [maskCode_eq_markByte, markByte_getLsbD]

theorem toNat_maskCode_lt : (maskCode b0 b1 b2 b3).toNat < 16 := by
  revert b0 b1 b2 b3
  decide

end

/-- The four bits of a byte that names only members of its list are the whole byte. -/
theorem maskCode_of_bits {b : Byte} (h : b.toNat < 16) :
    maskCode (b.getLsbD 0) (b.getLsbD 1) (b.getLsbD 2) (b.getLsbD 3) = b := by
  refine BitVec.eq_of_getLsbD_eq fun n hn => ?_
  rw [maskCode_getLsbD, decide_eq_true hn, Bool.true_and]
  obtain hlow | hhigh := Nat.lt_or_ge n 4
  · interval_cases n <;> rfl
  · have hbit : b.getLsbD n = false :=
      Nat.testBit_lt_two_pow (Nat.lt_of_lt_of_le h (Nat.pow_le_pow_right Nat.two_pos hhigh))
    rw [hbit, List.getD_eq_default _ _ hhigh]

theorem streamMaskOf_code (m : StreamMask) : streamMaskOf (streamMaskCode m) = m := by
  simp only [streamMaskOf, streamMaskCode, maskCode_getLsbD]
  rfl

theorem deviceMaskOf_code (m : DeviceMask) : deviceMaskOf (deviceMaskCode m) = m := by
  simp only [deviceMaskOf, deviceMaskCode, maskCode_getLsbD]
  rfl

theorem streamMaskCode_of {b : Byte} (h : b.toNat < 16) : streamMaskCode (streamMaskOf b) = b := maskCode_of_bits h

theorem deviceMaskCode_of {b : Byte} (h : b.toNat < 16) : deviceMaskCode (deviceMaskOf b) = b := maskCode_of_bits h

/-! ## Numbers as bytes (11 R187) -/

theorem toNat_nat8 {n : Nat} (h : n < 256) : (nat8 n).toNat = n := Nat.mod_eq_of_lt h

theorem nat8_toNat (b : Byte) : nat8 b.toNat = b := (BitVec.ofNat_toNat 8 b).trans (BitVec.setWidth_eq b)

theorem bytes16_word16 (hi lo : Byte) : bytes16 (word16 hi lo) = [hi, lo] := by
  have hlow := lo.isLt
  have hhi : (hi.toNat * 256 + lo.toNat) / 256 = hi.toNat := by omega
  have hlo : BitVec.ofNat 8 (hi.toNat * 256 + lo.toNat) = lo := BitVec.eq_of_toNat_eq (by rw [BitVec.toNat_ofNat]; omega)
  rw [bytes16_eq_twoBytes, toNat_word16, twoBytes, hhi, hlo, BitVec.ofNat_toNat, BitVec.setWidth_eq]

theorem nat16_wordAt (b : List Byte) (n : Nat) : nat16 (wordAt b n).toNat = [byteAt b n, byteAt b (n + 1)] := by
  rw [nat16, BitVec.ofNat_toNat, BitVec.setWidth_eq, wordAt, bytes16_word16]

/-- A 16-bit field read back from its two bytes is the number. -/
theorem toNat_word16_nat16 {n : Nat} (h : n < 65536) :
    (word16 (hiByte (BitVec.ofNat 16 n)) (loByte (BitVec.ofNat 16 n))).toNat = n := by
  rw [word16_bytes]
  exact Nat.mod_eq_of_lt h

/-- A body is its bytes at the offsets within it. -/
theorem map_byteAt_range {b : List Byte} {n : Nat} (h : b.length = n) : (List.range n).map (byteAt b) = b := by
  subst h
  refine List.ext_getElem (by simp) fun k hk hb => ?_
  rw [List.getElem_map, List.getElem_range, byteAt, List.getD_eq_getElem _ _ hb]

theorem deviceRecord_wf_iff (d : DeviceRecord) : d.wf = true ↔
    (50 ≤ d.nominalInterval ∧ d.nominalInterval ≤ 10000) ∧ 100 ≤ d.editWindow ∧ d.editWindow ≤ 60000 := by
  rw [DeviceRecord.wf, Bool.and_eq_true, decide_eq_true_iff, decide_eq_true_iff]

/-! ## The record read from a body (11 R193, R194) -/

/-- A legal stream record read back from its body is the record. -/
theorem streamRecordOf_streamRecordBody {r : StreamRecord} (h : r.wf = true) : streamRecordOf (streamRecordBody r) = r := by
  obtain ⟨hwords, hwindow, htrim, hhold, -, hdivisor, hgap2, hgap1, hsilence, hstall⟩ := (wf_iff r).mp h
  calc
    streamRecordOf (streamRecordBody r) =
      { enable := decide (boolCode r.enable = 1), stopMode := stopModeOf (stopModeCode r.stopMode), tag := r.tag
        words := (nat8 r.words).toNat, window := (nat8 r.window).toNat, trim := (nat8 r.trim).toNat
        hold := (nat8 r.hold).toNat, divisor := (nat8 r.divisor).toNat, paths := pathsOf (pathsCode r.paths)
        gapWait2 := (nat8 r.gapWait2).toNat, gapWait1 := (nat8 r.gapWait1).toNat
        pathSilence :=
          (word16 (hiByte (BitVec.ofNat 16 r.pathSilence)) (loByte (BitVec.ofNat 16 r.pathSilence))).toNat
        stallLimit := (nat8 r.stallLimit).toNat, subst := substOf (substCode r.subst)
        noticeMask := streamMaskOf (streamMaskCode r.noticeMask) } := rfl
    _ = r := by
      rw [decide_boolCode_eq_one, stopModeOf_code, pathsOf_code, substOf_code, streamMaskOf_code,
        toNat_nat8 (by omega : r.words < 256), toNat_nat8 (by omega : r.window < 256), toNat_nat8 (by omega : r.trim < 256),
        toNat_nat8 (by omega : r.hold < 256), toNat_nat8 (by omega : r.divisor < 256), toNat_nat8 (by omega : r.gapWait2 < 256),
        toNat_nat8 (by omega : r.gapWait1 < 256), toNat_nat8 (by omega : r.stallLimit < 256),
        toNat_word16_nat16 (by omega : r.pathSilence < 65536)]

/-- A legal device record read back from its body is the record. -/
theorem deviceRecordOf_deviceRecordBody {d : DeviceRecord} (h : d.wf = true) : deviceRecordOf (deviceRecordBody d) = d := by
  obtain ⟨hinterval, hwindow⟩ := (deviceRecord_wf_iff d).mp h
  calc
    deviceRecordOf (deviceRecordBody d) =
      { cadenceSource := cadenceSourceOf (cadenceSourceCode d.cadenceSource)
        nominalInterval :=
          (word16 (hiByte (BitVec.ofNat 16 d.nominalInterval)) (loByte (BitVec.ofNat 16 d.nominalInterval))).toNat
        editWindow := (word16 (hiByte (BitVec.ofNat 16 d.editWindow)) (loByte (BitVec.ofNat 16 d.editWindow))).toNat
        noticeMask := deviceMaskOf (deviceMaskCode d.noticeMask) } := rfl
    _ = d := by
      rw [cadenceSourceOf_code, deviceMaskOf_code, toNat_word16_nat16 (by omega : d.nominalInterval < 65536),
        toNat_word16_nat16 (by omega : d.editWindow < 65536)]

/-! ## The checks of a body (11 R194): its codes are legal, and the record read from it is within its ranges -/

/-- The codes of a stream record body are legal: ENABLE, STOP_MODE, PATHS, SUBST and the mask. -/
def StreamCodesLegal (b : List Byte) : Prop :=
  (byteAt b 0).toNat ≤ 1 ∧ (byteAt b 1).toNat ≤ 1 ∧ (byteAt b 8).toNat ≤ 2 ∧ (byteAt b 14).toNat ≤ 2 ∧
    (byteAt b 15).toNat < 16

/-- The codes of a device record body are legal: CADENCE_SOURCE and the mask. -/
def DeviceCodesLegal (b : List Byte) : Prop := (byteAt b 0).toNat ≤ 1 ∧ (byteAt b 5).toNat < 16

theorem streamCodesLegal_of_pass {b : List Byte} (h : firstFailing (streamRecordChecks b) = none) : StreamCodesLegal b := by
  have hfield : ∀ n, n < 15 → streamFieldOk b n := (firstFailing_eq_none (streamRecordChecks_judge b)).mp h
  exact ⟨hfield 0 (by decide), hfield 1 (by decide), hfield 8 (by decide), hfield 13 (by decide), hfield 14 (by decide)⟩

theorem deviceCodesLegal_of_pass {b : List Byte} (h : firstFailing (deviceRecordChecks b) = none) : DeviceCodesLegal b := by
  have hfield : ∀ n, n < 4 → deviceFieldOk b n := (firstFailing_eq_none (deviceRecordChecks_judge b)).mp h
  exact ⟨hfield 0 (by decide), hfield 3 (by decide)⟩

theorem streamRecordChecks_pass {b : List Byte} (hcodes : StreamCodesLegal b) (hwf : (streamRecordOf b).wf = true) :
    firstFailing (streamRecordChecks b) = none := by
  obtain ⟨henable, hstop, hpaths, hsubst, hmask⟩ := hcodes
  obtain ⟨hwords, hwindow, htrim, hhold, horder, hdivisor, -, -, hsilence, hstall⟩ := (wf_iff _).mp hwf
  rw [streamRecordOf, toNat_wordAt b 11] at hsilence
  refine (firstFailing_eq_none (streamRecordChecks_judge b)).mpr fun n hn => ?_
  match n, hn with
  | 0, _ => exact henable
  | 1, _ => exact hstop
  | 2, _ => trivial
  | 3, _ => exact hwords
  | 4, _ => exact hwindow
  | 5, _ => exact ⟨htrim.1, htrim.2, horder⟩
  | 6, _ => exact hhold
  | 7, _ => exact hdivisor
  | 8, _ => exact hpaths
  | 9, _ => trivial
  | 10, _ => trivial
  | 11, _ => exact hsilence
  | 12, _ => exact hstall
  | 13, _ => exact hsubst
  | 14, _ => exact hmask

theorem deviceRecordChecks_pass {b : List Byte} (hcodes : DeviceCodesLegal b) (hwf : (deviceRecordOf b).wf = true) :
    firstFailing (deviceRecordChecks b) = none := by
  obtain ⟨hsource, hmask⟩ := hcodes
  obtain ⟨hinterval, hwindow⟩ := (deviceRecord_wf_iff _).mp hwf
  rw [deviceRecordOf, toNat_wordAt b 1] at hinterval
  rw [deviceRecordOf, toNat_wordAt b 3] at hwindow
  refine (firstFailing_eq_none (deviceRecordChecks_judge b)).mpr fun n hn => ?_
  match n, hn with
  | 0, _ => exact hsource
  | 1, _ => exact hinterval
  | 2, _ => exact hwindow
  | 3, _ => exact hmask

theorem boolCode_le_one (v : Bool) : (boolCode v).toNat ≤ 1 := by cases v <;> decide

theorem stopModeCode_le_one (m : StopMode) : (stopModeCode m).toNat ≤ 1 := by cases m <;> decide

theorem pathsCode_le_two (p : Paths) : (pathsCode p).toNat ≤ 2 := by cases p <;> decide

theorem substCode_le_two (v : Subst) : (substCode v).toNat ≤ 2 := by cases v <;> decide

theorem cadenceSourceCode_le_one (c : CadenceSource) : (cadenceSourceCode c).toNat ≤ 1 := by cases c <;> decide

theorem streamRecordBody_codesLegal (r : StreamRecord) : StreamCodesLegal (streamRecordBody r) :=
  ⟨boolCode_le_one _, stopModeCode_le_one _, pathsCode_le_two _, substCode_le_two _, toNat_maskCode_lt ..⟩

theorem deviceRecordBody_codesLegal (d : DeviceRecord) : DeviceCodesLegal (deviceRecordBody d) :=
  ⟨cadenceSourceCode_le_one _, toNat_maskCode_lt ..⟩

/-! ## The body of the record read from a body (11 R193) -/

/-- With its codes legal, a body is written again byte for byte from what is read of it. -/
theorem streamRecordBody_streamRecordOf {b : List Byte} (hlength : b.length = 16) (hcodes : StreamCodesLegal b) :
    streamRecordBody (streamRecordOf b) = b := by
  obtain ⟨henable, hstop, hpaths, hsubst, hmask⟩ := hcodes
  calc
    streamRecordBody (streamRecordOf b) = (List.range 16).map (byteAt b) := by
      simp only [streamRecordBody, streamRecordOf, boolCode_decide henable, stopModeCode_of hstop, pathsCode_of hpaths,
        substCode_of hsubst, streamMaskCode_of hmask, nat8_toNat, nat16_wordAt]
      rfl
    _ = b := map_byteAt_range hlength

theorem deviceRecordBody_deviceRecordOf {b : List Byte} (hlength : b.length = 6) (hcodes : DeviceCodesLegal b) :
    deviceRecordBody (deviceRecordOf b) = b := by
  obtain ⟨hsource, hmask⟩ := hcodes
  calc
    deviceRecordBody (deviceRecordOf b) = (List.range 6).map (byteAt b) := by
      simp only [deviceRecordBody, deviceRecordOf, cadenceSourceCode_of hsource, deviceMaskCode_of hmask, nat16_wordAt]
      rfl
    _ = b := map_byteAt_range hlength

/-- Settles O60: the record read from a legal record's body is that record, and an accepted body has legal codes. -/
theorem recordBodies : Obligations.RecordBodies := by
  refine ⟨⟨fun r hwf => ?_, fun d hwf => ?_⟩, fun b hlength hpass => ?_, fun b hlength hpass => ?_⟩
  · have hread := streamRecordOf_streamRecordBody hwf
    exact ⟨rfl, streamRecordChecks_pass (streamRecordBody_codesLegal r) (hread.symm ▸ hwf), hread⟩
  · have hread := deviceRecordOf_deviceRecordBody hwf
    exact ⟨rfl, deviceRecordChecks_pass (deviceRecordBody_codesLegal d) (hread.symm ▸ hwf), hread⟩
  · exact streamRecordBody_streamRecordOf hlength (streamCodesLegal_of_pass hpass)
  · exact deviceRecordBody_deviceRecordOf hlength (deviceCodesLegal_of_pass hpass)

/-! ## The frames sent (11 R190, R191, R196) -/

/-- What the Transmitter's frame carries: a reply's KIND, REQID and body, or a notice's, with its number as REQID. -/
def TxFrame.items : TxFrame → MgmtFrame
  | .reply r => ⟨r.kind, r.reqid, statusBytes r.status ++ r.result⟩
  | .notice e _ => ⟨noticeKind e.notice, e.number, noticeBody e.notice⟩

theorem TxFrame.bytes_eq (tx : TxFrame) : tx.bytes = mgmtFrameBytes tx.items.kind tx.items.reqid tx.items.body := by
  cases tx <;> rfl

theorem statusBytes_length_pos (st : Status) : 1 ≤ (statusBytes st).length := by
  cases st <;> exact Nat.succ_pos _

theorem noticeBody_length_pos (n : Notice) : 1 ≤ (noticeBody n).length := by
  cases n with
  | cadence event => cases event <;> exact Nat.succ_pos _
  | counterSaturated subject k => cases subject <;> exact Nat.succ_pos _
  | _ => exact Nat.succ_pos _

/-- No frame is sent with an empty body: a receiver takes a LEN of at least 3 (09 R159). -/
theorem TxFrame.items_body_length_pos (tx : TxFrame) : 1 ≤ tx.items.body.length := by
  cases tx with
  | reply r =>
    have hstatus := statusBytes_length_pos r.status
    simp only [TxFrame.items, List.length_append]
    omega
  | notice e again => exact noticeBody_length_pos e.notice

theorem seqBytes_eq_bytes16_ofNat (e : Seq) : seqBytes e = bytes16 (BitVec.ofNat 16 e.toNat) := by
  rw [seqBytes, BitVec.ofNat_toNat]

/-- Settles O59: the frame's layout, its reception by `mgmtFrameReceived`, and the codes and bodies one by one. -/
theorem framesSent : Obligations.FramesSent := by
  refine ⟨fun tx f s hf => ?_, fun n i st => ?_, ?_, fun i x st ls cause rc old new g k => ?_⟩
  · obtain rfl : f = tx.items := hf.trans (by cases tx <;> rfl)
    rw [TxFrame.bytes_eq]
    refine ⟨rfl, fun hrx hempty hhigh => ?_⟩
    obtain ⟨hhunting, -, -, hroom, -⟩ := mgmtFrameReceived s tx.items hrx tx.items_body_length_pos hhigh
    have hjoined := (hroom (by rw [hempty]; exact Nat.succ_pos _)).1
    exact ⟨by rw [hjoined, hempty]; rfl, hhunting⟩
  · exact ⟨rfl, rfl, rfl, rfl, rfl, rfl, rfl, rfl, rfl, rfl, rfl, rfl, rfl⟩
  · exact ⟨rfl, rfl, rfl, rfl, rfl⟩
  · refine ⟨rfl, rfl, rfl, rfl, rfl, ?_, ?_, rfl, rfl, rfl, rfl, rfl, rfl, rfl⟩
    all_goals
      rw [← seqBytes_eq_bytes16_ofNat, ← seqBytes_eq_bytes16_ofNat]
      rfl

end Sys2Proof.Machine

/-! # The queue of commands -/

namespace Sys2Proof.Machine

/-! ## What no timer touches -/

/-- The parts of the state that neither an expiry nor the moving of the timers touches. -/
def State.untimed (s : State) :
    List Instr × Vector Stream 32 × Nat × ConfigSet × List (Byte × StreamIdx) × Port :=
  (s.pending, s.streams, s.free, s.active, s.tagMap, s.port)

theorem State.choose_untimed (s : State) : s.choose.untimed = s.untimed := by simp [State.untimed]

theorem State.putLink_untimed (s : State) (c : LinkCtx) : (s.putLink c).untimed = s.untimed := by
  simp [State.untimed, State.putLink]

theorem State.offer_untimed (s : State) (b : Block) (allowed : Bool) (n : Notice) :
    (s.offer b allowed n).untimed = s.untimed := by simp [State.untimed]

theorem State.loseCadence_untimed (s : State) : s.loseCadence.untimed = s.untimed := by
  unfold State.loseCadence
  split
  · rfl
  · rfl
  · exact State.offer_untimed _ _ _ _

theorem State.retryExpired_untimed (s : State) : s.retryExpired.untimed = s.untimed := by
  unfold State.retryExpired
  split
  · exact State.choose_untimed _
  · rfl

/-- The expiries leave what no timer touches. -/
theorem dues_untimed (s : State) : State.DuesKeep fun t => t.untimed = s.untimed :=
  State.duesKeep (fun t x => (State.putLink_untimed t (t.linkCtx x).silent).trans) (fun t => t.loseCadence_untimed.trans)
    (fun _ h => h) (fun _ h => h) (fun t => (State.offer_untimed t.closeSession _ _ _).trans)
    (fun t => t.retryExpired_untimed.trans)

theorem State.pass_untimed (s : State) (us : Nat) : (s.pass us).untimed = s.untimed :=
  State.pass_keeps (P := fun t => t.untimed = s.untimed) (dues_untimed s).settle (fun _ _ h => h) us rfl

theorem idle_untimed (s : State) : (idle s).untimed = s.untimed :=
  (State.pass_untimed s.choose 1).trans s.choose_untimed

/-! ## The step -/

theorem step_of_front {s : State} {c : Instr} {rest : List Instr} (h : s.pending = c :: rest) :
    step s = exec c { s with pending := rest } := by rw [step, h]

theorem step_of_empty {s : State} (h : s.pending = []) : step s = .next (idle s) := by rw [step, h]

/-- Settles O1: the front command is run on the queue's rest; idling leaves what no timer touches. -/
theorem stepRunsTheFrontCommand : Obligations.StepRunsTheFrontCommand := by
  refine ⟨fun s c rest => step_of_front, fun s hempty => ⟨idle s, step_of_empty hempty, rfl, ?_⟩⟩
  obtain ⟨hpending, hstreams, hfree, hactive, htags, hport⟩ :
      (idle s).pending = s.pending ∧ (idle s).streams = s.streams ∧ (idle s).free = s.free ∧
        (idle s).active = s.active ∧ (idle s).tagMap = s.tagMap ∧ (idle s).port = s.port := by
    simpa [State.untimed] using idle_untimed s
  exact ⟨hpending.trans hempty, hstreams, hfree, hactive, htags, hport⟩

/-! ## Commands that a time brings -/

theorem State.pending_of_untimed {s t : State} (h : t.untimed = s.untimed) : t.pending = s.pending := congrArg Prod.fst h

theorem State.pass_pending (s : State) (us : Nat) : (s.pass us).pending = s.pending :=
  State.pending_of_untimed (s.pass_untimed us)

/-- A command that a time brings leaves the queue if its expiry, where it is due, leaves what no timer touches. -/
theorem State.atEnd_pending {f : State → State} (s : State)
    (hf : ∀ t : State, t.untimed = s.untimed → (f t).untimed = s.untimed) (left : Option Nat) :
    (s.atEnd left f).pending = s.pending :=
  State.pending_of_untimed (State.atEnd_keeps (P := fun t => t.untimed = s.untimed)
    (fun t us => (t.pass_untimed us).trans) hf left rfl)

theorem State.edge_pending (s : State) : s.edge.pending = s.pending := by
  unfold State.edge
  split
  · rfl
  · rfl
  · split
    · exact State.offer_pending _ _ _ _
    · rfl

/-! ## Events at a stream context -/

theorem State.takeDelivery_pending (s : State) (d : Delivery) : (s.takeDelivery d).pending = s.pending :=
  State.takeOffers_pending s (isLink d.path)

theorem State.settleDeliveries_pending (s : State) (p : Delivery → Bool) : (s.settleDeliveries p).pending = s.pending :=
  State.settleDeliveries_frame State.pending (fun _ _ => rfl) State.takeDelivery_pending s p

theorem arrival_pending (x : Path) (i : StreamIdx) (s : State) : (arrival x i s).pending = s.pending := by
  unfold arrival
  split
  · rfl
  · exact State.takeDelivery_pending _ _

theorem linkDepartureReport_pending (x : Path) (i : StreamIdx) (s : State) :
    (linkDepartureReport x i s).pending = s.pending := by
  unfold linkDepartureReport
  split
  · exact State.takeOffers_pending { s with reports := s.reports.erase (x, i) } (isLink x)
  · rfl

theorem pathAbsent_pending (i : StreamIdx) (x : Path) (s : State) : (pathAbsent i x s).pending = s.pending := by
  unfold pathAbsent
  split
  · rfl
  · rfl
  · split <;> rfl

theorem gapTimerExpiry_pending (i : StreamIdx) (s : State) : (gapTimerExpiry i s).pending = s.pending := by
  unfold gapTimerExpiry
  split
  · rfl
  · split <;> rfl

/-! ## Ticks, playout events and the Playout Port -/

theorem State.beforePlayout_pending (s : State) (i : StreamIdx) : (s.beforePlayout i).pending = s.pending := by
  unfold State.beforePlayout
  split
  · exact State.settleDeliveries_pending s _
  · rfl

theorem State.endDrain_pending (s : State) (i : StreamIdx) : (s.endDrain i).pending = s.pending := by
  unfold State.endDrain
  split <;> rfl

theorem State.playStream_pending (s : State) (i : StreamIdx) (f : Ctx → Ctx)
    (g : Option PlayRecord → List Tick → List Tick) : (s.playStream i f g).pending = s.pending :=
  (State.endDrain_pending _ i).trans (s.beforePlayout_pending i)

theorem streamTick_pending (i : StreamIdx) (s : State) : (streamTick i s).pending = s.pending := by
  unfold streamTick
  split
  · exact (State.playStream_pending _ i _ _).trans (State.takeOffers_pending s isCadence)
  · rfl

theorem playoutEvent_pending (i : StreamIdx) (s : State) : (playoutEvent i s).pending = s.pending := by
  unfold playoutEvent
  split
  · exact s.playStream_pending i _ _
  · rfl

theorem stall_pending (i : StreamIdx) (s : State) : (stall i s).pending = s.pending := by
  unfold stall
  split
  · exact s.playStream_pending i _ _
  · rfl

theorem guardExpiry_pending (i : StreamIdx) (s : State) : (guardExpiry i s).pending = s.pending := by
  unfold guardExpiry
  split
  · exact s.playStream_pending i _ _
  · rfl

theorem State.placeRecord_pending (s : State) (r : PlayRecord) : (s.placeRecord r).pending = s.pending := by
  unfold State.placeRecord
  split <;> rfl

theorem playoutRound_pending (s : State) : (playoutRound s).pending = s.pending := by
  unfold playoutRound
  split
  · rfl
  · next t ts _ =>
    split
    · exact foldl_keeps (P := fun u => u.pending = s.pending) (fun u r => (u.placeRecord_pending r).trans) _
        (State.takeOffers_pending { s with ticks := ts } _)
    · rfl

/-! ## The management side and the Notice Unit -/

theorem mgmtByte_pending (b : Byte) (stop : Bool) (s : State) : (mgmtByte b stop s).pending = s.pending := by
  unfold mgmtByte
  split
  · exact State.examine_pending _ _ { s with mgmt := { s.mgmt with rx := none } }
  · rfl

theorem goodFrameReport_pending (s : State) : (goodFrameReport s).pending = s.pending := by
  unfold goodFrameReport
  split
  · rfl
  · exact State.goodFrame_pending _

theorem noticeOffer_pending (b : Block) (s : State) : (noticeOffer b s).pending = s.pending := by
  unfold noticeOffer
  split
  · rfl
  · split
    · exact State.takeNotice_pending _ _
    · rfl

theorem State.restartNow_pending (s : State) : s.restartNow.pending = s.pending := by
  simp only [State.restartNow]

theorem transmissionComplete_pending (s : State) : (transmissionComplete s).pending = s.pending := by
  unfold transmissionComplete
  split
  · exact s.choose_pending
  · split
    · rw [State.choose_pending, State.restartNow_pending, State.beforeRestart_pending]
    · exact s.idleTx.choose_pending
  · exact State.choose_pending _

/-! ## Requests -/

/-- A request leaves the queue of commands if its effect at its block does. -/
theorem State.serve_pending (s : State) (kind : Byte) (len : Nat) {g : List Byte → State → State × Answer}
    (hg : ∀ body t, (g body t).1.pending = t.pending) : (s.serve kind len g).pending = s.pending :=
  serve_keeps (P := fun t => t.pending = s.pending) (fun t f => (t.beginRequest_pending f).trans)
    (fun t f a => (t.endRequest_pending f a).trans) (fun body t => (hg body t).trans) kind len rfl

theorem unknownKind_pending (s : State) : (unknownKind s).pending = s.pending :=
  unknownKind_keeps (P := fun t => t.pending = s.pending) (fun t f => (t.beginRequest_pending f).trans)
    (fun t f a => (t.endRequest_pending f a).trans) rfl

theorem readCounters_pending (body : List Byte) (s : State) : (readCounters body s).1.pending = s.pending := by
  unfold readCounters
  split
  · rfl
  · split
    · rfl
    · next clear _ => cases clear <;> rfl

theorem readLink_pending (body : List Byte) (s : State) : (readLink body s).1.pending = s.pending := by
  unfold readLink
  split
  · rfl
  · split
    · rfl
    · next clear _ =>
      cases clear
      · rfl
      · exact State.setLink_pending s _ _

theorem readMgmt_pending (body : List Byte) (s : State) : (readMgmt body s).1.pending = s.pending := by
  unfold readMgmt
  split
  · rfl
  · next clear _ => cases clear <;> rfl

theorem openEdit_pending (body : List Byte) (s : State) : (openEdit body s).1.pending = s.pending := by
  unfold openEdit
  split
  · rfl
  · split <;> rfl

theorem stageStream_pending (body : List Byte) (s : State) : (stageStream body s).1.pending = s.pending := by
  unfold stageStream
  split
  · rfl
  · split
    · rfl
    · split <;> rfl

theorem stageDevice_pending (body : List Byte) (s : State) : (stageDevice body s).1.pending = s.pending := by
  unfold stageDevice
  split
  · rfl
  · split <;> rfl

theorem discardEdit_pending (body : List Byte) (s : State) : (discardEdit body s).1.pending = s.pending := by
  unfold discardEdit
  split <;> rfl

theorem State.beforeCommit_pending (s : State) : s.beforeCommit.pending = s.pending :=
  (State.takeOffers_pending _ _).trans (s.settleDeliveries_pending _)

theorem commitEdit_pending (body : List Byte) (s : State) : (commitEdit body s).1.pending = s.pending := by
  unfold commitEdit
  split
  · rfl
  · split
    · split
      · rfl
      · exact (State.applyCommit_pending _ _ _).trans s.beforeCommit_pending
    · rfl

theorem forceResync_pending (body : List Byte) (s : State) : (forceResync body s).1.pending = s.pending := by
  unfold forceResync
  split
  · rfl
  · split <;> rfl

theorem ackNotice_pending (body : List Byte) (s : State) : (ackNotice body s).1.pending = s.pending := by
  unfold ackNotice
  split <;> rfl

theorem restartRequest_pending (body : List Byte) (s : State) : (restartRequest body s).1.pending = s.pending := by
  unfold restartRequest
  split <;> rfl

/-! ## Every command -/

/-- Settles O2: each command's meaning is a next state, and none takes or adds a command. -/
theorem everyCommandAnswersNext : Obligations.EveryCommandAnswersNext := by
  intro c s
  cases c with
  | powerOn r1 r0 => exact ⟨_, rfl, rfl⟩
  | hardReset r1 r0 => exact ⟨_, rfl, rfl⟩
  | linkByte x b => exact ⟨_, rfl, State.pending_of_untimed (s.putLink_untimed _)⟩
  | linkSilence x => exact ⟨_, rfl, s.atEnd_pending (fun t => (dues_untimed s).silence t x) _⟩
  | linkDepartureReport x i => exact ⟨_, rfl, linkDepartureReport_pending x i s⟩
  | arrival x i => exact ⟨_, rfl, arrival_pending x i s⟩
  | cadenceEdge us => exact ⟨_, rfl, (State.edge_pending _).trans (s.pass_pending us)⟩
  | cadenceLoss => exact ⟨_, rfl, s.atEnd_pending (dues_untimed s).loss _⟩
  | generatorTick => exact ⟨_, rfl, s.atEnd_pending (dues_untimed s).generator _⟩
  | streamTick i => exact ⟨_, rfl, streamTick_pending i s⟩
  | pathAbsent i x => exact ⟨_, rfl, pathAbsent_pending i x s⟩
  | gapTimerExpiry i => exact ⟨_, rfl, gapTimerExpiry_pending i s⟩
  | playoutEvent i => exact ⟨_, rfl, playoutEvent_pending i s⟩
  | stall i => exact ⟨_, rfl, stall_pending i s⟩
  | guardExpiry i => exact ⟨_, rfl, guardExpiry_pending i s⟩
  | playoutRound => exact ⟨_, rfl, playoutRound_pending s⟩
  | wordTransfer => exact ⟨_, rfl, rfl⟩
  | mgmtByte b stop => exact ⟨_, rfl, mgmtByte_pending b stop s⟩
  | byteGapExpiry => exact ⟨_, rfl, s.atEnd_pending (dues_untimed s).gap _⟩
  | goodFrameReport => exact ⟨_, rfl, goodFrameReport_pending s⟩
  | identify => exact ⟨_, rfl, s.serve_pending _ _ fun _ _ => rfl⟩
  | readStream => exact ⟨_, rfl, s.serve_pending _ _ fun body t => congrArg State.pending (readStream_state body t)⟩
  | readCounters => exact ⟨_, rfl, s.serve_pending _ _ readCounters_pending⟩
  | readLink => exact ⟨_, rfl, s.serve_pending _ _ readLink_pending⟩
  | readDevice => exact ⟨_, rfl, s.serve_pending _ _ fun body t => congrArg State.pending (readDevice_state body t)⟩
  | readMgmt => exact ⟨_, rfl, s.serve_pending _ _ readMgmt_pending⟩
  | openEdit => exact ⟨_, rfl, s.serve_pending _ _ openEdit_pending⟩
  | stageStream => exact ⟨_, rfl, s.serve_pending _ _ stageStream_pending⟩
  | stageDevice => exact ⟨_, rfl, s.serve_pending _ _ stageDevice_pending⟩
  | commitEdit => exact ⟨_, rfl, s.serve_pending _ _ commitEdit_pending⟩
  | discardEdit => exact ⟨_, rfl, s.serve_pending _ _ discardEdit_pending⟩
  | editExpiry => exact ⟨_, rfl, s.atEnd_pending (dues_untimed s).edit _⟩
  | forceResync => exact ⟨_, rfl, s.serve_pending _ _ forceResync_pending⟩
  | ackNotice => exact ⟨_, rfl, s.serve_pending _ _ ackNotice_pending⟩
  | restart => exact ⟨_, rfl, s.serve_pending _ _ restartRequest_pending⟩
  | unknownKind => exact ⟨_, rfl, unknownKind_pending s⟩
  | transmissionComplete => exact ⟨_, rfl, transmissionComplete_pending s⟩
  | retryExpiry => exact ⟨_, rfl, s.atEnd_pending (dues_untimed s).retry _⟩
  | noticeOffer b => exact ⟨_, rfl, noticeOffer_pending b s⟩

end Sys2Proof.Machine
